-- ==== Sys2Proof/Word.lean ====
section
/-!
DEFINITION. The words of the machine: bytes, halfwords, 32-bit words (00_scope.md R14) and the numbers that
name registers (10_state.md R34, 30_encoding.md R181).
-/
namespace Sys2Proof

/-- A byte of memory. -/
abbrev Byte := BitVec 8

/-- A 16-bit halfword: a THUMB opcode or an I/O register. -/
abbrev Half := BitVec 16

/-- A 32-bit word: every register value and every address (R14). -/
abbrev Word := BitVec 32

/-- A register number r0 to r15 (R34). -/
abbrev Reg := Fin 16

/-- A low register number r0 to r7, as THUMB formats 1 to 4 and 6 to 16 name registers (R181). -/
abbrev LowReg := Fin 8

/-- The full register number of a low register. -/
def LowReg.toReg (r : LowReg) : Reg := ⟨r.val, Nat.lt_of_lt_of_le r.isLt (by decide)⟩

/-- The register r13, also named sp (R35). -/
def spReg : Reg := 13

/-- The register r14, also named lr (R35). -/
def lrReg : Reg := 14

/-- The register r15, also named pc (R35). -/
def pcReg : Reg := 15

end Sys2Proof
end

