-- ==== Sys2Proof/Config.lean ====
section
/-!
DEFINITION. What is fixed for one machine: the parameters of 00_scope.md R12, and the values the spec leaves
open. An open value is an `opaque` constant: nothing in Lean can evaluate it, so a claim holds for every value.
-/
namespace Sys2Proof

/-- The setting of the parameter QUIRKS (R12, D15): the ARM7TDMI's own behaviour where the architecture says
UNPREDICTABLE, or a refusal. -/
inductive Quirks where
  | arm7tdmi
  | refuse
  deriving DecidableEq, Repr

/-- The setting of the parameter EMPTY_RLIST (R12, D16). -/
inductive EmptyRlist where
  | refuse
  | arm7tdmi
  deriving DecidableEq, Repr

namespace Config

/-- QUIRKS at its default (R12). Assumption log 1. -/
def quirks : Quirks := .arm7tdmi

/-- EMPTY_RLIST. DESIGN CHOICE: the spec's default is `refuse`; this model takes the effect the spec also
gives (R309), so that the instruction runs. Assumption log 2. -/
def emptyRlist : EmptyRlist := .arm7tdmi

/-- The IRQ signal follows IE, IF and IME after this many cycles (R522, R737). -/
def irqDelay : Nat := 1

/-- DMA_START_DELAY (R12, R607, R737). -/
def dmaStartDelay : Nat := 2

/-- TIMER_START_LATENCY (R12, R646, R737). -/
def timerStartLatency : Nat := 2

/-- What a byte of memory that nothing has written reads as. DESIGN CHOICE, after the source's "zeroed memory
image" (R700). Assumption log 3. -/
def unlistedByte : Byte := 0

/-- The value of the k-th open read: of a write-only register (`draw(write_only_read)`, R110, D40), of the
unused half of a 32-bit register access, and of an address outside this block that holds no memory (R113).
A free value: assumption log 4. -/
opaque freeValue : Nat → BitVec 32

/-- The k-th value of MUL_FLAG_DRAW: the C flag, and the V flag of the long forms, after a multiply with
S = 1 (R263, D17). A free value: assumption log 5. -/
opaque mulFlag : Nat → Bool

/-- EVENT_ORDER (R565, R568, D8): the k-th choice among events with equal timestamps, as a number taken modulo
how many there are. A free value: assumption log 6. -/
opaque eventOrder : Nat → Nat

/-- PREFETCH_COST (R736, D5): the number that picks the cost of the k-th access the prefetch buffer can
change, at a given address, within the bounds of R736. A free value: assumption log 7. -/
opaque prefetchCost : Nat → Nat → Nat

end Config
end Sys2Proof
end

