-- ==== Sys2Proof/Machine/State.lean ====
section
/-!
DEFINITION. The state of the machine (10_state.md R30 to R72), as plain data, with the reasons for which a step
can stop and the state after reset. INVENTORY.md, under State, lists every field with its rule and reset value.
-/
namespace Sys2Proof.Machine

/-! ## The reasons a step can stop -/

/-- Why the machine stops with no agent able to step. -/
inductive Fault where
  /-- Raised by the tick loop: the CPU is halted and no event is pending (61_scheduler.md R572). Safe: the spec
  says that no agent can step. -/
  | stuck
  deriving DecidableEq, Repr

/-- The `refuse(reason)` of the spec (00_scope.md R17): the spec gives the case no meaning. -/
inductive Refusal where
  /-- Raised by an arm of `exec` whose instruction has no meaning yet. Safe. -/
  | notModelled (mnemonic : String)
  /-- Raised by MSR and by every exception return that would write an invalid mode into CPSR (10_state.md R33). Safe. -/
  | invalidMode
  /-- Raised by MRS, MSR and the data-processing exception returns in usr and sys, which have no SPSR (R37). Safe. -/
  | noSpsr
  /-- Raised by MSR when it would change CPSR.T (43_arm_branch_system.md R354). Safe. -/
  | tChange
  /-- Raised by every `refuse(unpredictable)` of the instruction rules (92_eei_decisions.md D14, D15). Safe. -/
  | unpredictable
  /-- Raised by the unallocated encodings (30_encoding.md R170, R182, 42_arm_loadstore.md R299). Safe. -/
  | unallocated
  /-- Raised by the refused DMA configurations and by a control write to a running channel (62_dma.md R621, R622);
  with QUIRKS = refuse by a store of r15 (42_arm_loadstore.md R280). Safe. -/
  | implementationDefined
  /-- Raised by a write to HALTCNT with bit 7 set (60_exceptions.md R532). Safe. -/
  | stopMode
  /-- Raised with QUIRKS = refuse by a misaligned data access (20_memory.md R108). Safe. -/
  | misaligned
  deriving DecidableEq, Repr

/-- What a part of a step answers: a value, or the reason the step stops. -/
abbrev Res (α : Type) := Host.Outcome α Fault Refusal

/-! ## The CPU -/

/-- The seven modes (10_state.md R32). -/
inductive Mode where
  | usr | fiq | irq | svc | abt | und | sys
  deriving DecidableEq, Repr

/-- The class of a bus access (20_memory.md R105): non-sequential or sequential. -/
inductive AccessClass where
  | nonseq | seq
  deriving DecidableEq, Repr

/-- The width of an access in bytes (R104). -/
inductive Width where
  | byte | half | word
  deriving DecidableEq, Repr

/-- The regions of the address space (R102). -/
inductive Region where
  | bios | ewram | iwram | io | palette | vram | oam
  /-- Game pak ROM, by its wait state. -/
  | rom (waitState : Fin 3)
  | sram | unused
  deriving DecidableEq, Repr

/-- A row of the machine's ACCESS_CYCLES (00_scope.md R11, R12): what an access of this region, width and class costs
while WAITCNT holds this value. Assumption log 21. -/
structure CostRow where
  region : Region
  width : Width
  acc : AccessClass
  waitcnt : Half
  cycles : Nat
  deriving DecidableEq, Repr

/-- CPSR (10_state.md R36). Bits 27:8 read as 0 and ignore writes, so they are no state. The mode is always one
of the seven, because every write of an invalid one is refused (R33). -/
structure Cpsr where
  n : Bool
  z : Bool
  c : Bool
  v : Bool
  i : Bool
  f : Bool
  t : Bool
  mode : Mode
  deriving DecidableEq, Repr

/-- An SPSR (R37): the fields of CPSR, with a mode field that may hold any five bits. -/
structure Spsr where
  n : Bool
  z : Bool
  c : Bool
  v : Bool
  i : Bool
  f : Bool
  t : Bool
  m : BitVec 5
  deriving DecidableEq, Repr

/-- The register file, the pipeline and the hazard flag of the CPU (R31, R38, R43, R72). -/
structure Cpu where
  /-- The 30 general registers beside r15 (R31): 0 to 14 are U[0..14], 15 to 21 F[8..14], 22 and 23
  B_irq[13..14], 24 and 25 B_svc, 26 and 27 B_abt, 28 and 29 B_und. -/
  regs : Vector Word 30
  /-- r15 (R38). -/
  pc : Word
  cpsr : Cpsr
  spsrFiq : Spsr
  spsrIrq : Spsr
  spsrSvc : Spsr
  spsrAbt : Spsr
  spsrUnd : Spsr
  /-- The class of the next opcode fetch (R47). -/
  fetchType : AccessClass
  /-- The opcode read at pc - 2w, a THUMB opcode zero-extended (R43, R44). -/
  executing : Word
  /-- The opcode read at pc - w. -/
  decoding : Word
  /-- R72. -/
  ubankHazard : Bool
  deriving DecidableEq, Repr

/-! ## The devices of the block -/

/-- One timer (10_state.md R63). -/
structure Timer where
  /-- The counter value at `lastTs`. -/
  base : Half
  reload : Half
  /-- TMiCNT_H as it reads: only bits 7, 6, 2, 1 and 0 are ever set (R64). -/
  control : Half
  lastTs : Nat
  /-- The handle of the pending overflow event. -/
  handle : Option Nat
  deriving DecidableEq, Repr

/-- The status of a DMA channel (R61). -/
inductive DmaStatus where
  | disabled
  | waiting
  | scheduled (handle : Nat)
  | running
  deriving DecidableEq, Repr

/-- One DMA channel (R58 to R61): the programmed registers, then the working copy. -/
structure DmaChannel where
  sad : Word
  dad : Word
  cntL : Half
  /-- DMAnCNT_H as it reads: bits 4:0 are never set (R59). -/
  cntH : Half
  src : Word
  dst : Word
  count : Nat
  status : DmaStatus
  deriving DecidableEq, Repr

/-- The occasions that start a waiting DMA channel (62_dma.md R605); `immediate` has no request. -/
inductive Occasion where
  | vblank | hblank | video | fifoA | fifoB
  deriving DecidableEq, Repr

/-- What an external agent asks of the block (60_exceptions.md R543). -/
inductive EnvCall where
  | requestInterrupt (k : Fin 14)
  | requestDma (occasion : Occasion)
  deriving DecidableEq, Repr

/-- What an event does when it fires (61_scheduler.md R561). `external` is an external agent's event: the calls
it makes on the block, in order. Assumption log 8. -/
inductive EventKind where
  | timerOverflow (i : Fin 4)
  | dmaStart (n : Fin 4)
  | irqUpdate (v : Bool)
  | external (calls : List EnvCall)
  deriving DecidableEq, Repr

/-- An event of the scheduler (R560). -/
structure Event where
  timestamp : Nat
  handle : Nat
  kind : EventKind
  deriving DecidableEq, Repr

/-- Everything beside the CPU that this block holds: the interrupt arbiter, WAITCNT, the run state, the timers,
the DMA controller and the scheduler (10_state.md R48 to R66). Counters of 64 bits that never wrap
(61_scheduler.md R562) are natural numbers: assumption log 9. -/
structure Dev where
  /-- R48. -/
  halted : Bool
  /-- IE (R53). -/
  ie : Half
  /-- IF (R54). -/
  iflag : Half
  /-- IME bit 0 (R55). -/
  ime : Bool
  /-- R52. -/
  irqSignal : Bool
  /-- R56. -/
  waitcnt : Half
  timers : Vector Timer 4
  dma : Vector DmaChannel 4
  /-- R62. -/
  dmaLatch : Word
  /-- The scheduler (R66): the cycle count, the pending events in order of their handles, the next handle. -/
  now : Nat
  events : List Event
  nextHandle : Nat
  /-- The overflow notifications sent to the APU by each timer (63_timers.md R654), counted. -/
  apuNotices : Vector Nat 4
  /-- The model's own: how many choices of EVENT_ORDER have been made (assumption log 6). -/
  orderDraws : Nat
  /-- The hidden `prefetch_state` (70_reset_and_hazards.md R736): how many accesses the prefetch buffer has
  changed the cost of (assumption log 7). -/
  prefetchSeq : Nat
  /-- The parameter ACCESS_CYCLES of the machine (00_scope.md R11, R12), which nothing changes: the accesses that cost
  something else than the default table of 70_reset_and_hazards.md R733 says. DESIGN CHOICE: assumption log 21. -/
  costs : List CostRow
  deriving DecidableEq, Repr

/-! ## Memory -/

/-- The bytes behind the bus that differ from `Config.unlistedByte`, by address (20_memory.md R101). -/
abbrev Memory := List Host.Cell

/-- The canonical form from a bound up: addresses strictly rising, no entry equal to what an unlisted address
reads as. -/
def Memory.wfFrom : Nat → Memory → Bool
  | _, [] => true
  | lo, (a, v) :: rest => decide (lo ≤ a) && decide (v ≠ Config.unlistedByte) && Memory.wfFrom (a + 1) rest

/-- The canonical form of memory: equal memories are equal lists. -/
def Memory.wf (m : Memory) : Bool := Memory.wfFrom 0 m

/-! ## The machine -/

/-- The state of the machine. -/
structure State where
  cpu : Cpu
  dev : Dev
  mem : Memory
  /-- The model's own: how many free values have been drawn (assumption logs 4 and 5). -/
  draws : Nat
  deriving DecidableEq, Repr

/-! ## Reset -/

/-- RESET_DRAW (00_scope.md R12): the values of what reset leaves undefined (10_state.md R70, R71). -/
structure ResetDraw where
  regs : Vector Word 30
  n : Bool
  z : Bool
  c : Bool
  v : Bool
  spsrFiq : Spsr
  spsrIrq : Spsr
  spsrSvc : Spsr
  spsrAbt : Spsr
  spsrUnd : Spsr
  deriving DecidableEq, Repr

/-- An SPSR with every bit 0. -/
def Spsr.zero : Spsr := ⟨false, false, false, false, false, false, false, 0⟩

/-- A timer at reset (10_state.md R70). -/
def Timer.reset : Timer := ⟨0, 0, 0, 0, none⟩

/-- A DMA channel at reset (R70). -/
def DmaChannel.reset : DmaChannel := ⟨0, 0, 0, 0, 0, 0, 0, .disabled⟩

/-- The devices at reset (R70), at cycle `now`, of a machine whose ACCESS_CYCLES is the default table. -/
def Dev.resetAt (now : Nat) : Dev where
  halted := false
  ie := 0
  iflag := 0
  ime := false
  irqSignal := false
  waitcnt := 0
  timers := Vector.replicate 4 Timer.reset
  dma := Vector.replicate 4 DmaChannel.reset
  dmaLatch := 0
  now := now
  events := []
  nextHandle := 0
  apuNotices := Vector.replicate 4 0
  orderDraws := 0
  prefetchSeq := 0
  costs := []

/-- The CPU after reset and its flush at 0 over empty memory (R70, 70_reset_and_hazards.md R700). -/
def Cpu.resetWith (d : ResetDraw) : Cpu where
  regs := d.regs
  pc := 8
  cpsr := ⟨d.n, d.z, d.c, d.v, true, true, false, .svc⟩
  spsrFiq := d.spsrFiq
  spsrIrq := d.spsrIrq
  spsrSvc := d.spsrSvc
  spsrAbt := d.spsrAbt
  spsrUnd := d.spsrUnd
  fetchType := .seq
  executing := 0
  decoding := 0
  ubankHazard := false

/-- The machine right after reset for one RESET_DRAW: memory with nothing listed, the pipeline filled from it,
`now` the cost of the two fetches by the default table (R700). `powerOn` of Machine/Launch.lean is the same with a
memory image and any ACCESS_CYCLES. -/
def State.resetWith (d : ResetDraw) : State where
  cpu := Cpu.resetWith d
  dev := Dev.resetAt 2
  mem := []
  draws := 0

/-- The draw that is 0 everywhere. DESIGN CHOICE, unsafe: assumption log 10. -/
def ResetDraw.zero : ResetDraw where
  regs := Vector.replicate 30 0
  n := false
  z := false
  c := false
  v := false
  spsrFiq := Spsr.zero
  spsrIrq := Spsr.zero
  spsrSvc := Spsr.zero
  spsrAbt := Spsr.zero
  spsrUnd := Spsr.zero

/-- The machine right after reset, at the draw `ResetDraw.zero` and the default ACCESS_CYCLES (log 21). -/
def State.reset : State := State.resetWith ResetDraw.zero

end Sys2Proof.Machine
end

