-- ==== Sys2Proof/Machine/Scheduler.lean ====
section
/-!
DEFINITION. The operations on the event set (61_scheduler.md R562 to R567) and the interrupt arbiter
(60_exceptions.md R518 to R522).
-/
namespace Sys2Proof.Machine

/-! ## Events -/

/-- Post an event at an absolute time (R562); its handle is the old `nextHandle`. -/
def Dev.addEventAt (d : Dev) (ts : Nat) (kind : EventKind) : Dev :=
  { d with events := d.events ++ [⟨ts, d.nextHandle, kind⟩], nextHandle := d.nextHandle + 1 }

/-- Post an event `delay` cycles from now (R562). -/
def Dev.addEvent (d : Dev) (delay : Nat) (kind : EventKind) : Dev :=
  d.addEventAt (d.now + delay) kind

/-- Is the event with this handle pending? (R563). -/
def Dev.hasEvent (d : Dev) (h : Nat) : Bool := d.events.any fun e => e.handle == h

/-- Cancel the event with this handle, if there is one (R564). -/
def Dev.removeEvent (d : Dev) (h : Nat) : Dev :=
  { d with events := d.events.filter fun e => e.handle != h }

/-- The least timestamp among the pending events. -/
def Dev.nextTimestamp (d : Dev) : Option Nat := (d.events.map Event.timestamp).min?

/-- The cycles to the next event (R567); none if no event is pending (R572). -/
def Dev.remainingCycles (d : Dev) : Option Nat := d.nextTimestamp.map fun ts => ts - d.now

/-- The due events with the least timestamp (R565). -/
def Dev.earliestDue (d : Dev) : List Event :=
  d.events.filter fun e => decide (e.timestamp ≤ d.now) && d.events.all fun f => decide (e.timestamp ≤ f.timestamp)

/-- The event that fires next, with the choice that EVENT_ORDER makes among equal timestamps recorded (R565,
R568); none if no event is due. -/
def Dev.pickDue (d : Dev) : Option (Event × Dev) :=
  match d.earliestDue with
  | [] => none
  | [e] => some (e, d)
  | e :: f :: rest =>
    some ((e :: f :: rest).getD (Config.eventOrder d.orderDraws % (rest.length + 2)) e,
      { d with orderDraws := d.orderDraws + 1 })

/-! ## Interrupts -/

/-- An interrupt is available (R518). -/
def Dev.available (d : Dev) : Bool := d.ie &&& d.iflag != 0

/-- The level the IRQ signal follows (R519). -/
def Dev.irqLevel (d : Dev) : Bool := d.ime && d.available

/-- Is this an IrqUpdate event due at time `ts`? -/
def Event.isIrqUpdateAt (e : Event) (ts : Nat) : Bool :=
  match e.kind with
  | .irqUpdate _ => e.timestamp == ts
  | .timerOverflow _ | .dmaStart _ | .external _ => false

/-- Every change of IE, IF or IME ends with this (R522): an update of the signal one cycle later, in the place of
one already pending for that time. -/
def Dev.irqChanged (d : Dev) : Dev :=
  { d with events := d.events.filter fun e => !e.isIrqUpdateAt (d.now + Config.irqDelay) }.addEvent
    Config.irqDelay (.irqUpdate d.irqLevel)

/-- Set a flag of IF and update the signal (R521). -/
def Dev.requestInterrupt (d : Dev) (k : Fin 14) : Dev :=
  { d with iflag := d.iflag ||| (1 : Half) <<< k.val }.irqChanged

/-- IF bit of a timer (60_exceptions.md R520). -/
def timerIrq (i : Fin 4) : Fin 14 := ⟨3 + i.val, Nat.lt_of_lt_of_le (Nat.add_lt_add_left i.isLt 3) (by decide)⟩

/-- IF bit of a DMA channel (R520). -/
def dmaIrq (n : Fin 4) : Fin 14 := ⟨8 + n.val, Nat.lt_of_lt_of_le (Nat.add_lt_add_left n.isLt 8) (by decide)⟩

end Sys2Proof.Machine
end

