-- ==== Sys2Proof/Machine/Timers.lean ====
section
/-!
DEFINITION. The timer controller (63_timers.md R640 to R654).
-/
namespace Sys2Proof.Machine

/-- PRESCALER_SHIFT (10_state.md R65). -/
def prescalerShift (control : Half) : Nat :=
  match control.toNat % 4 with
  | 0 => 0 | 1 => 6 | 2 => 8 | _ => 10

/-- The period of one tick in cycles (R65). -/
def timerPeriod (control : Half) : Nat := 2 ^ prescalerShift control

/-- The greatest multiple of `p` that is at most `t` (63_timers.md). -/
def alignDown (t p : Nat) : Nat := t - t % p

/-- TMiCNT_H bit 7 (R64). -/
def Timer.enabled (t : Timer) : Bool := t.control.getLsbD 7

/-- TMiCNT_H bit 6 (R64). -/
def Timer.irqEnabled (t : Timer) : Bool := t.control.getLsbD 6

/-- Timer i counts the overflows of the timer below (R640); timer 0 never does. -/
def Timer.isCascaded (i : Fin 4) (t : Timer) : Bool := t.enabled && t.control.getLsbD 2 && i != 0

/-- Timer i counts cycles (R640). -/
def Timer.isFreeRunning (i : Fin 4) (t : Timer) : Bool := t.enabled && !t.isCascaded i

/-- Timer i of the controller. -/
def Dev.timer (d : Dev) (i : Fin 4) : Timer := d.timers.get i

/-- Replace timer i. -/
def Dev.setTimer (d : Dev) (i : Fin 4) (t : Timer) : Dev := { d with timers := d.timers.set i t }

/-- The logical counter at time `now` (R641), reduced modulo 0x10000 (R642). -/
def Timer.counter (i : Fin 4) (t : Timer) (now : Nat) : Half :=
  if t.isFreeRunning i && decide (t.lastTs ≤ now) then
    t.base + BitVec.ofNat 16 ((now - t.lastTs) / timerPeriod t.control)
  else t.base

/-- The cycle at which a free-running timer overflows (R647). -/
def Timer.overflowAt (t : Timer) : Nat := t.lastTs + (0x10000 - t.base.toNat) * timerPeriod t.control

/-- Post the overflow event of timer i (R647). -/
def Dev.scheduleOverflow (d : Dev) (i : Fin 4) : Dev :=
  { d with timers := d.timers.set i { d.timer i with handle := some d.nextHandle } }.addEventAt
    (d.timer i).overflowAt (.timerOverflow i)

/-- Cancel the event with an optional handle. -/
def Dev.removeHandle (d : Dev) : Option Nat → Dev
  | none => d
  | some h => d.removeEvent h

/-- Fix the lazily held counter and cancel the pending overflow (R648). -/
def Dev.settle (d : Dev) (i : Fin 4) : Dev :=
  (d.setTimer i { d.timer i with base := (d.timer i).counter i d.now, lastTs := d.now, handle := none }).removeHandle
    (d.timer i).handle

/-- A write of TMiCNT_H (R646). -/
def Dev.timerControlWrite (d : Dev) (i : Fin 4) (v : Half) : Dev :=
  let d := if (d.timer i).isFreeRunning i then d.settle i else d
  let old := d.timer i
  let t := { old with control := v &&& 0x00C7 }
  if !old.enabled && t.enabled then
    if t.isFreeRunning i then
      (d.setTimer i { t with
        base := t.reload
        lastTs := alignDown (d.now + Config.timerStartLatency) (timerPeriod t.control) }).scheduleOverflow i
    else d.setTimer i { t with base := t.reload }
  else if t.isFreeRunning i then
    (d.setTimer i { t with lastTs := alignDown d.now (timerPeriod t.control) }).scheduleOverflow i
  else d.setTimer i t

/-- A write of TMiCNT_L (R643). -/
def Dev.timerReloadWrite (d : Dev) (i : Fin 4) (v : Half) : Dev :=
  d.setTimer i { d.timer i with reload := v }

/-- Count an overflow notification to the APU (R654). -/
def Dev.notifyApu (d : Dev) (i : Fin 4) : Dev :=
  { d with apuNotices := d.apuNotices.set i (d.apuNotices.get i + 1) }

/-- The interrupt of an overflow, if it is enabled (R652). -/
def Dev.overflowIrq (d : Dev) (i : Fin 4) : Dev :=
  if (d.timer i).irqEnabled then d.requestInterrupt (timerIrq i) else d

/-- The overflow of the first timer of the list, whose rest are the timers above it (R652 to R654): the
interrupt, then the cascade tick of the next timer with its own overflow, then the APU's notification. -/
def Dev.overflow : List (Fin 4) → Dev → Dev
  | [], d => d
  | [i], d => (d.overflowIrq i).notifyApu i
  | i :: j :: above, d =>
    let d := d.overflowIrq i
    let t := d.timer j
    let d :=
      if t.isCascaded j then
        if t.base = 0xFFFF then Dev.overflow (j :: above) (d.setTimer j { t with base := t.reload })
        else d.setTimer j { t with base := t.base + 1 }
      else d
    d.notifyApu i

/-- Timer i and the timers above it. -/
def timersFrom (i : Fin 4) : List (Fin 4) := [0, 1, 2, 3].drop i.val

/-- The overflow event of timer i, due at `ts` (R650). -/
def Dev.fireOverflow (d : Dev) (i : Fin 4) (ts : Nat) : Dev :=
  let t := d.timer i
  ((d.setTimer i { t with base := t.reload, lastTs := ts, handle := none }).scheduleOverflow i).overflow
    (timersFrom i)

end Sys2Proof.Machine
end

