-- ==== Sys2Proof/Machine/DmaControl.lean ====
section
/-!
DEFINITION. The DMA controller without its transfers (62_dma.md R600 to R608, R619 to R622), the calls of the
external agents (60_exceptions.md R543), and the passing of time, which fires events (61_scheduler.md R565).
-/
namespace Sys2Proof.Machine

/-! ## Channels -/

/-- SRC_MASK (10_state.md R58). -/
def srcMask (n : Fin 4) : Word := if n = 0 then 0x07FFFFFF else 0x0FFFFFFF

/-- DST_MASK (R58). -/
def dstMask (n : Fin 4) : Word := if n = 3 then 0x0FFFFFFF else 0x07FFFFFF

/-- CNT_MASK (R58). -/
def cntMask (n : Fin 4) : Half := if n = 3 then 0xFFFF else 0x3FFF

/-- MAXCOUNT (62_dma.md). -/
def maxCount (n : Fin 4) : Nat := if n = 3 then 0x10000 else 0x4000

/-- The enabled bit of DMAnCNT_H (10_state.md R59). -/
def dmaEnabled (cntH : Half) : Bool := cntH.getLsbD 15

/-- The timing field of DMAnCNT_H (R59). -/
def dmaTiming (cntH : Half) : Nat := cntH.toNat / 2 ^ 12 % 4

/-- The destination mode of DMAnCNT_H (R59). -/
def dmaDstMode (cntH : Half) : Nat := cntH.toNat / 2 ^ 5 % 4

/-- The source mode of DMAnCNT_H (R59). -/
def dmaSrcMode (cntH : Half) : Nat := cntH.toNat / 2 ^ 7 % 4

/-- The repeat bit of DMAnCNT_H (R59). -/
def dmaRepeat (cntH : Half) : Bool := cntH.getLsbD 9

/-- The transfer_size bit of DMAnCNT_H (R59). -/
def dmaWordSize (cntH : Half) : Bool := cntH.getLsbD 10

/-- The drq bit of DMAnCNT_H (R59). -/
def dmaDrq (cntH : Half) : Bool := cntH.getLsbD 11

/-- The irq bit of DMAnCNT_H (R59). -/
def dmaIrqEnabled (cntH : Half) : Bool := cntH.getLsbD 14

/-- Channel n. -/
def Dev.channel (d : Dev) (n : Fin 4) : DmaChannel := d.dma.get n

/-- Replace channel n. -/
def Dev.setChannel (d : Dev) (n : Fin 4) (c : DmaChannel) : Dev := { d with dma := d.dma.set n c }

/-- The address of the first sound FIFO (62_dma.md R605). -/
def fifoAddrA : Word := 0x040000A0

/-- The address of the second sound FIFO (R605). -/
def fifoAddrB : Word := 0x040000A4

/-- Is channel n a FIFO channel? (R615). -/
def DmaChannel.isFifo (n : Fin 4) (c : DmaChannel) : Bool :=
  (n == 1 || n == 2) && dmaTiming c.cntH == 3 && (c.dad == fifoAddrA || c.dad == fifoAddrB)

/-- SIZE(n) is 4 bytes (true) or 2 (62_dma.md). -/
def DmaChannel.isWord (n : Fin 4) (c : DmaChannel) : Bool := c.isFifo n || dmaWordSize c.cntH

/-- Clear the address bits below the size (R601). -/
def alignTo (word : Bool) (a : Word) : Word := if word then a &&& 0xFFFFFFFC else a &&& 0xFFFFFFFE

/-- The count a start or a repeat loads (R601, R619). -/
def DmaChannel.startCount (n : Fin 4) (c : DmaChannel) : Nat :=
  if c.isFifo n then 4 else if c.cntL = 0 then maxCount n else c.cntL.toNat

/-- Copy the programmed registers into the working copy (R601). -/
def DmaChannel.latch (n : Fin 4) (c : DmaChannel) : DmaChannel :=
  { c with
    src := alignTo (c.isWord n) c.sad
    dst := alignTo (c.isWord n) c.dad
    count := c.startCount n }

/-- Prepare the working copy for the next pass (R619). -/
def DmaChannel.relatch (n : Fin 4) (c : DmaChannel) : DmaChannel :=
  { c with
    count := c.startCount n
    dst := if dmaDstMode c.cntH = 3 && !c.isFifo n then alignTo (c.isWord n) c.dad else c.dst }

/-- Schedule the start of channel n (R607). -/
def Dev.trigger (d : Dev) (n : Fin 4) : Dev :=
  (d.setChannel n { d.channel n with status := .scheduled d.nextHandle }).addEvent Config.dmaStartDelay (.dmaStart n)

/-- The occasion a waiting channel answers (R605); none if it waits for ever. -/
def DmaChannel.occasion (n : Fin 4) (c : DmaChannel) : Option Occasion :=
  match dmaTiming c.cntH with
  | 1 => some .vblank
  | 2 => some .hblank
  | 3 =>
    if n = 3 then some .video
    else if c.isFifo n then (if c.dad = fifoAddrA then some .fifoA else some .fifoB)
    else none
  | _ => none

/-- Trigger channel n if it waits for this occasion (R606). -/
def Dev.answer (occ : Occasion) (d : Dev) (n : Fin 4) : Dev :=
  if (d.channel n).status = .waiting ∧ (d.channel n).occasion n = some occ then d.trigger n else d

/-- `request_dma` (R606): the channels in the order 0, 1, 2, 3. -/
def Dev.requestDma (d : Dev) (occ : Occasion) : Dev := [0, 1, 2, 3].foldl (Dev.answer occ) d

/-- The configurations a write with bit 15 set is refused for (R621). -/
def dmaProhibited (n : Fin 4) (v : Half) : Bool :=
  dmaEnabled v && (dmaSrcMode v == 3 || (n == 0 && dmaTiming v == 3) || (n == 3 && dmaDrq v))

/-- Cancel the start a status holds (R600). -/
def Dev.cancelStart (d : Dev) : DmaStatus → Dev
  | .scheduled h => d.removeEvent h
  | .disabled | .waiting | .running => d

/-- A write of DMAnCNT_H that is not refused (R600). -/
def Dev.dmaControlStore (d : Dev) (n : Fin 4) (v : Half) : Dev :=
  let old := d.channel n
  let c := { old with cntH := v &&& 0xFFE0 }
  if !dmaEnabled old.cntH && dmaEnabled v then
    if dmaTiming v = 0 then (d.setChannel n (c.latch n)).trigger n
    else d.setChannel n { c.latch n with status := .waiting }
  else if dmaEnabled old.cntH && !dmaEnabled v then
    (d.setChannel n { c with status := .disabled }).cancelStart old.status
  else d.setChannel n c

/-- A write of DMAnCNT_H (R600, R621, R622). -/
def Dev.dmaControlWrite (d : Dev) (n : Fin 4) (v : Half) : Res Dev :=
  if (d.channel n).status = .running then .refused .implementationDefined
  else if dmaProhibited n v then .refused .implementationDefined
  else .next (d.dmaControlStore n v)

/-- The start event of channel n fires (R608). -/
def Dev.fireDmaStart (d : Dev) (n : Fin 4) : Dev :=
  d.setChannel n { d.channel n with status := .running }

/-! ## The external agents -/

/-- One call of an external agent (60_exceptions.md R543). -/
def Dev.envCall (d : Dev) : EnvCall → Dev
  | .requestInterrupt k => d.requestInterrupt k
  | .requestDma occ => d.requestDma occ

/-! ## Time -/

/-- Run the callback of an event (61_scheduler.md R561). The time it fell due is its timestamp. -/
def Dev.fire (d : Dev) (e : Event) : Dev :=
  match e.kind with
  | .timerOverflow i => d.fireOverflow i e.timestamp
  | .dmaStart n => d.fireDmaStart n
  | .irqUpdate v => { d with irqSignal := v }
  | .external calls => calls.foldl Dev.envCall d

/-- Fire due events, at most `fuel` of them (R565). -/
def Dev.drain : Nat → Dev → Dev
  | 0, d => d
  | fuel + 1, d =>
    match d.pickDue with
    | none => d
    | some (e, d) => Dev.drain fuel ((d.removeEvent e.handle).fire e)

/-- Enough fuel: every event a callback posts is later than the one that fired, so the sum of the due events'
latenesses, each plus one, falls with every firing (R565). -/
def Dev.dueWork (d : Dev) : Nat :=
  (d.events.map fun e => if e.timestamp ≤ d.now then d.now - e.timestamp + 1 else 0).sum

/-- Let `c` cycles pass and fire every event that falls due (R565). -/
def Dev.advance (d : Dev) (c : Nat) : Dev :=
  let d := { d with now := d.now + c }
  Dev.drain d.dueWork d

end Sys2Proof.Machine
end

