-- ==== Sys2Proof/Machine/Memory.lean ====
section
/-!
DEFINITION. The bytes behind the bus (20_memory.md R101 to R104): reading and writing one byte of the canonical
list, and the wider little-endian accesses built from it in one place (R103).
-/
namespace Sys2Proof.Machine

/-- The byte at an address. -/
def Memory.read : Memory → Nat → Byte
  | [], _ => Config.unlistedByte
  | (b, v) :: rest, a => if b = a then v else Memory.read rest a

/-- Write one byte; the value an unlisted address reads as removes the entry. -/
def Memory.write : Memory → Nat → Byte → Memory
  | [], a, v => if v = Config.unlistedByte then [] else [(a, v)]
  | (b, w) :: rest, a, v =>
    if a < b then (if v = Config.unlistedByte then (b, w) :: rest else (a, v) :: (b, w) :: rest)
    else if a = b then (if v = Config.unlistedByte then rest else (a, v) :: rest)
    else (b, w) :: Memory.write rest a v

/-- How many bytes. -/
def Width.bytes : Width → Nat
  | .byte => 1 | .half => 2 | .word => 4

/-- Byte k of a word (R103). -/
def byteOf (v : Word) (k : Nat) : Byte := v.extractLsb' (8 * k) 8

/-- Read at an aligned address, zero-extended to 32 bits (R103, R104). -/
def Memory.load (m : Memory) (a : Nat) : Width → Word
  | .byte => (m.read a).zeroExtend 32
  | .half => (m.read (a + 1) ++ m.read a).zeroExtend 32
  | .word => m.read (a + 3) ++ m.read (a + 2) ++ m.read (a + 1) ++ m.read a

/-- Write the low bytes of a word at an aligned address (R103, R104). -/
def Memory.store (m : Memory) (a : Nat) (v : Word) : Width → Memory
  | .byte => m.write a (byteOf v 0)
  | .half => (m.write a (byteOf v 0)).write (a + 1) (byteOf v 1)
  | .word =>
    (((m.write a (byteOf v 0)).write (a + 1) (byteOf v 1)).write (a + 2) (byteOf v 2)).write (a + 3) (byteOf v 3)

end Sys2Proof.Machine
end

