-- ==== Sys2Proof/Machine/Io.lean ====
section
/-!
DEFINITION. The memory-mapped registers of the block (10_state.md R67), reached by halfwords (20_memory.md R110
to R112).
-/
namespace Sys2Proof.Machine

/-- A 16-bit register of the block, or one half of a 32-bit one (10_state.md R67). -/
inductive IoReg where
  | dmaSadLo (n : Fin 4)
  | dmaSadHi (n : Fin 4)
  | dmaDadLo (n : Fin 4)
  | dmaDadHi (n : Fin 4)
  | dmaCntL (n : Fin 4)
  | dmaCntH (n : Fin 4)
  | timerCntL (i : Fin 4)
  | timerCntH (i : Fin 4)
  | ie
  | iflag
  | waitcnt
  | ime
  deriving DecidableEq, Repr

/-- The halfword register at an even offset from 0x04000000 (R67). -/
def ioRegAt (off : Nat) : Option IoReg :=
  if 0xB0 ≤ off ∧ off < 0xE0 then
    let n : Fin 4 := Fin.ofNat 4 ((off - 0xB0) / 12)
    match (off - 0xB0) % 12 with
    | 0 => some (.dmaSadLo n)
    | 2 => some (.dmaSadHi n)
    | 4 => some (.dmaDadLo n)
    | 6 => some (.dmaDadHi n)
    | 8 => some (.dmaCntL n)
    | 10 => some (.dmaCntH n)
    | _ => none
  else if 0x100 ≤ off ∧ off < 0x110 then
    let i : Fin 4 := Fin.ofNat 4 ((off - 0x100) / 4)
    match (off - 0x100) % 4 with
    | 0 => some (.timerCntL i)
    | 2 => some (.timerCntH i)
    | _ => none
  else if off = 0x200 then some .ie
  else if off = 0x202 then some .iflag
  else if off = 0x204 then some .waitcnt
  else if off = 0x208 then some .ime
  else none

/-- The offset of HALTCNT (R57). -/
def haltcntOffset : Nat := 0x301

/-- What a halfword read returns (20_memory.md R110); none for a write-only register. -/
def Dev.ioRead (d : Dev) : IoReg → Option Half
  | .dmaSadLo _ | .dmaSadHi _ | .dmaDadLo _ | .dmaDadHi _ | .dmaCntL _ => none
  | .dmaCntH n => some (d.channel n).cntH
  | .timerCntL i => some ((d.timer i).counter i d.now)
  | .timerCntH i => some (d.timer i).control
  | .ie => some d.ie
  | .iflag => some d.iflag
  | .waitcnt => some d.waitcnt
  | .ime => some (if d.ime then 1 else 0)

/-- The stored value an 8-bit write merges its byte into (R112). -/
def Dev.ioStored (d : Dev) : IoReg → Half
  | .dmaSadLo n => (d.channel n).sad.extractLsb' 0 16
  | .dmaSadHi n => (d.channel n).sad.extractLsb' 16 16
  | .dmaDadLo n => (d.channel n).dad.extractLsb' 0 16
  | .dmaDadHi n => (d.channel n).dad.extractLsb' 16 16
  | .dmaCntL n => (d.channel n).cntL
  | .dmaCntH n => (d.channel n).cntH
  | .timerCntL i => (d.timer i).reload
  | .timerCntH i => (d.timer i).control
  | .ie => d.ie
  | .iflag => 0
  | .waitcnt => d.waitcnt
  | .ime => if d.ime then 1 else 0

/-- Put a halfword into the low half of a word. -/
def setLowHalf (w : Word) (v : Half) : Word := w.extractLsb' 16 16 ++ v

/-- Put a halfword into the high half of a word. -/
def setHighHalf (w : Word) (v : Half) : Word := v ++ w.extractLsb' 0 16

/-- The write action of a halfword register (20_memory.md R111). -/
def Dev.ioWrite (d : Dev) (r : IoReg) (v : Half) : Res Dev :=
  match r with
  | .dmaSadLo n =>
    .next (d.setChannel n { d.channel n with sad := setLowHalf (d.channel n).sad v &&& srcMask n })
  | .dmaSadHi n =>
    .next (d.setChannel n { d.channel n with sad := setHighHalf (d.channel n).sad v &&& srcMask n })
  | .dmaDadLo n =>
    .next (d.setChannel n { d.channel n with dad := setLowHalf (d.channel n).dad v &&& dstMask n })
  | .dmaDadHi n =>
    .next (d.setChannel n { d.channel n with dad := setHighHalf (d.channel n).dad v &&& dstMask n })
  | .dmaCntL n => .next (d.setChannel n { d.channel n with cntL := v &&& cntMask n })
  | .dmaCntH n => d.dmaControlWrite n v
  | .timerCntL i => .next (d.timerReloadWrite i v)
  | .timerCntH i => .next (d.timerControlWrite i v)
  | .ie => .next { d with ie := v }.irqChanged
  | .iflag => .next { d with iflag := d.iflag &&& ~~~v }.irqChanged
  | .waitcnt => .next { d with waitcnt := v &&& 0x7FFF }
  | .ime => .next { d with ime := v.getLsbD 0 }.irqChanged

/-- A write of HALTCNT (10_state.md R57). -/
def Dev.haltcntWrite (d : Dev) (v : Byte) : Res Dev :=
  if v.getLsbD 7 then .refused .stopMode else .next { d with halted := true }

/-- Put a byte into one lane of a halfword (R112). -/
def setLane (h : Half) (high : Bool) (v : Byte) : Half :=
  if high then v ++ h.extractLsb' 0 8 else h.extractLsb' 8 8 ++ v

/-- One byte of a halfword. -/
def laneOf (h : Half) (high : Bool) : Byte := if high then h.extractLsb' 8 8 else h.extractLsb' 0 8

/-- A halfword write at an even offset; an unused half of a register's word ignores it (R112). -/
def Dev.ioWriteHalf (d : Dev) (off : Nat) (v : Half) : Res Dev :=
  match ioRegAt off with
  | some r => d.ioWrite r v
  | none => .next d

/-- An 8-bit write: HALTCNT, or a merge into the register's stored value (R112). -/
def Dev.ioWriteByte (d : Dev) (off : Nat) (v : Byte) : Res Dev :=
  if off = haltcntOffset then d.haltcntWrite v
  else
    match ioRegAt (off - off % 2) with
    | some r => d.ioWrite r (setLane (d.ioStored r) (off % 2 == 1) v)
    | none => .next d

/-- Feed the value of one part to the next; a fault or a refusal ends both. -/
def andThen {α β : Type} (r : Res α) (f : α → Res β) : Res β :=
  match r with
  | .next a => f a
  | .fault e => .fault e
  | .refused e => .refused e

/-- A write to this block at an aligned offset: a word is two halfwords, the lower first (R112). -/
def Dev.ioStore (d : Dev) (off : Nat) (v : Word) : Width → Res Dev
  | .byte => d.ioWriteByte off (v.extractLsb' 0 8)
  | .half => d.ioWriteHalf off (v.extractLsb' 0 16)
  | .word => andThen (d.ioWriteHalf off (v.extractLsb' 0 16)) fun d => d.ioWriteHalf (off + 2) (v.extractLsb' 16 16)

/-- A halfword read at an even offset, with the free value for the bits no register gives, and how many free
values were drawn (R110, R112). -/
def Dev.ioReadHalf (d : Dev) (draws off : Nat) : Half × Nat :=
  match (ioRegAt off).bind d.ioRead with
  | some h => (h, draws)
  | none => ((Config.freeValue draws).extractLsb' 0 16, draws + 1)

/-- A read from this block at an aligned offset, zero-extended, and the number of draws after it (R112). -/
def Dev.ioLoad (d : Dev) (draws off : Nat) : Width → Word × Nat
  | .byte =>
    let (h, draws) := d.ioReadHalf draws (off - off % 2)
    ((laneOf h (off % 2 == 1)).zeroExtend 32, draws)
  | .half =>
    let (h, draws) := d.ioReadHalf draws off
    (h.zeroExtend 32, draws)
  | .word =>
    let (lo, draws) := d.ioReadHalf draws off
    let (hi, draws) := d.ioReadHalf draws (off + 2)
    (hi ++ lo, draws)

end Sys2Proof.Machine
end

