-- ==== Sys2Proof/Machine/Bus.lean ====
section
/-!
DEFINITION. The bus (20_memory.md): which side serves an address, what an access costs (70_reset_and_hazards.md
R733, R736), and the four primitives through which all time passes: a read, a write, and an idle cycle.
-/
namespace Sys2Proof.Machine

/-! ## Where an address leads -/

/-- What serves an access (20_memory.md R102, R109). The address carried is the one memory knows the byte by, so
the mirrors of a region share their bytes. -/
inductive Target where
  /-- A register of this block, by its offset in the I/O region. -/
  | io (offset : Nat)
  /-- Memory that holds what is written. -/
  | ram (address : Nat)
  /-- Memory that ignores writes. -/
  | rom (address : Nat)
  /-- No memory of this model: an external device or nothing. -/
  | openBus
  deriving DecidableEq, Repr

/-- Does the byte at this offset of the I/O region belong to a register of the block? (10_state.md R67). -/
def isIoByte (off : Nat) : Bool := off == haltcntOffset || (ioRegAt (off - off % 2)).isSome

/-- What serves an aligned address (R102, R109). The mirrors of VRAM and of SRAM, which R102 does not lay out, are
the GBA's: assumption log 11. -/
def targetOf (a : Nat) : Target :=
  match a / 2 ^ 24 with
  | 0 => if a < 0x4000 then .rom a else .openBus
  | 2 => .ram (0x02000000 + a % 0x40000)
  | 3 => .ram (0x03000000 + a % 0x8000)
  | 4 => if isIoByte (a - 0x04000000) then .io (a - 0x04000000) else .openBus
  | 5 => .ram (0x05000000 + a % 0x400)
  | 6 => .ram (0x06000000 + if a % 0x20000 < 0x18000 then a % 0x20000 else a % 0x20000 - 0x8000)
  | 7 => .ram (0x07000000 + a % 0x400)
  | 8 | 9 | 10 | 11 | 12 | 13 => .rom (0x08000000 + a % 0x2000000)
  | 14 | 15 => .ram (0x0E000000 + a % 0x10000)
  | _ => .openBus

/-- Force an address to the alignment of a width (R107). -/
def alignAddr (a : Word) : Width → Word
  | .byte => a
  | .half => a &&& 0xFFFFFFFE
  | .word => a &&& 0xFFFFFFFC

/-! ## What an access costs -/

/-- Is this access an opcode fetch, or a data access? The bounds of R736 differ. -/
inductive AccessKind where
  | opcode | data
  deriving DecidableEq, Repr

/-- The number a field of WAITCNT gives (10_state.md R56). -/
def waitField (waitcnt : Half) (lo len : Nat) : Nat := waitcnt.toNat / 2 ^ lo % 2 ^ len

/-- The wait cycles of a 2-bit field of WAITCNT (R56, R733). -/
def firstWait (code : Nat) : Nat :=
  match code with
  | 0 => 4 | 1 => 3 | 2 => 2 | _ => 8

/-- WSk_N, for the wait states k = 0, 1, 2 (R733). -/
def romWaitN (waitcnt : Half) (k : Nat) : Nat := firstWait (waitField waitcnt (2 + 3 * k) 2)

/-- WSk_S (R733). -/
def romWaitS (waitcnt : Half) (k : Nat) : Nat :=
  if waitField waitcnt (4 + 3 * k) 1 = 1 then 1
  else
    match k with
    | 0 => 2 | 1 => 4 | _ => 8

/-- The region of an address (R102). -/
def regionOf (a : Nat) : Region :=
  match a / 2 ^ 24 with
  | 0 => if a < 0x4000 then .bios else .unused
  | 2 => .ewram
  | 3 => .iwram
  | 4 => .io
  | 5 => .palette
  | 6 => .vram
  | 7 => .oam
  | 8 | 9 => .rom 0
  | 10 | 11 => .rom 1
  | 12 | 13 => .rom 2
  | 14 | 15 => .sram
  | _ => .unused

/-- Is this a region of game pak ROM? -/
def Region.isRom : Region → Bool
  | .rom _ => true
  | .bios | .ewram | .iwram | .io | .palette | .vram | .oam | .sram | .unused => false

/-- The cost of a game pak ROM access by the default table (R733). -/
def romCycles (waitcnt : Half) (k : Nat) (w : Width) (acc : AccessClass) : Nat :=
  match w, acc with
  | .word, .nonseq => (1 + romWaitN waitcnt k) + (1 + romWaitS waitcnt k)
  | .word, .seq => 2 * (1 + romWaitS waitcnt k)
  | .byte, .nonseq | .half, .nonseq => 1 + romWaitN waitcnt k
  | .byte, .seq | .half, .seq => 1 + romWaitS waitcnt k

/-- The default access costs, with the prefetch buffer off (R733). ACCESS_CYCLES itself is OPEN (00_scope.md R12, D4):
this is what an access costs unless the machine's `costs` say otherwise. DESIGN CHOICE: assumption log 21. -/
def tableCycles (waitcnt : Half) (r : Region) (w : Width) (acc : AccessClass) : Nat :=
  match r with
  | .bios | .iwram | .io | .oam | .unused => 1
  | .ewram => if w = .word then 6 else 3
  | .palette | .vram => if w = .word then 2 else 1
  | .rom k => romCycles waitcnt k w acc
  | .sram => 1 + firstWait (waitField waitcnt 0 2)

/-- The first access of a 128 KiB block of game pak ROM is non-sequential whatever class it was given (R733). -/
def romClass (a : Nat) (acc : AccessClass) : AccessClass :=
  if (regionOf a).isRom && a % 0x20000 == 0 then .nonseq else acc

/-- Does this row give the cost of the access? -/
def CostRow.gives (row : CostRow) (waitcnt : Half) (r : Region) (w : Width) (acc : AccessClass) : Bool :=
  row.region == r && row.width == w && row.acc == acc && row.waitcnt == waitcnt

/-- ACCESS_CYCLES of the machine, with the prefetch buffer off (00_scope.md R12, 20_memory.md R105): its own row for
the access, else the default table. DESIGN CHOICE: assumption log 21. -/
def Dev.regionCycles (d : Dev) (r : Region) (w : Width) (acc : AccessClass) : Nat :=
  match d.costs.find? fun row => row.gives d.waitcnt r w acc with
  | some row => row.cycles
  | none => tableCycles d.waitcnt r w acc

/-- What an access at an address costs with the prefetch buffer off. -/
def Dev.baseCycles (d : Dev) (a : Nat) (w : Width) (acc : AccessClass) : Nat :=
  d.regionCycles (regionOf a) w (romClass a acc)

/-- The least and the greatest cost of a game pak ROM access while the prefetch buffer is on (R736). R736 states no
width for the "one S access of the same region" a prefetch in progress may add, and no bound for a sequential data
access. The model's choice for both, DESIGN CHOICE: the S access has the width of the access itself, and the widest of
the other bounds is taken (assumption log 7). -/
def Dev.prefetchBounds (d : Dev) (kind : AccessKind) (a : Nat) (w : Width) (acc : AccessClass) : Nat × Nat :=
  let cost := d.baseCycles a w acc
  let seqCost := d.regionCycles (regionOf a) w .seq
  match romClass a acc, kind with
  | .seq, .opcode => (1, cost)
  | .seq, .data => (1, cost + seqCost)
  | .nonseq, _ => (cost, cost + seqCost)

/-- Is the cost of an access at this address open? (R736). -/
def Dev.prefetchOpen (d : Dev) (a : Nat) : Bool := d.waitcnt.getLsbD 14 && (regionOf a).isRom

/-- The cost of an access (R105, R733, R736): a free value between the bounds where the prefetch buffer decides. -/
def Dev.accessCycles (d : Dev) (kind : AccessKind) (a : Nat) (w : Width) (acc : AccessClass) : Nat :=
  if d.prefetchOpen a then
    let (lo, hi) := d.prefetchBounds kind a w acc
    lo + Config.prefetchCost d.prefetchSeq a % (hi - lo + 1)
  else d.baseCycles a w acc

/-- The prefetch state after an access (R736). -/
def Dev.touchPrefetch (d : Dev) (a : Nat) : Dev :=
  if d.prefetchOpen a then { d with prefetchSeq := d.prefetchSeq + 1 } else d

/-- The time an access at an aligned address takes passes, and events fire (20_memory.md R106). -/
def Dev.passAccess (d : Dev) (kind : AccessKind) (a : Nat) (w : Width) (acc : AccessClass) : Dev :=
  (d.touchPrefetch a).advance (d.accessCycles kind a w acc)

/-! ## The primitives -/

/-- The value a read finds at an aligned address, and the number of draws after it (R109, R110, R113). -/
def State.peek (s : State) (a : Nat) (w : Width) : Word × Nat :=
  match targetOf a with
  | .io off => s.dev.ioLoad s.draws off w
  | .ram b | .rom b => (s.mem.load b w, s.draws)
  | .openBus => ((Config.freeValue s.draws) &&& (BitVec.allOnes 32 >>> (32 - 8 * w.bytes)), s.draws + 1)

/-- The time of an access passes (R106, step 2). -/
def State.passAccess (s : State) (kind : AccessKind) (a : Word) (w : Width) (acc : AccessClass) : State :=
  { s with dev := s.dev.passAccess kind (alignAddr a w).toNat w acc }

/-- `MemRead` (00_scope.md R16): its time passes, then the value is read with the state as it is then (R106). -/
def State.memRead (s : State) (kind : AccessKind) (a : Word) (w : Width) (acc : AccessClass) : Word × State :=
  let s := s.passAccess kind a w acc
  let (v, draws) := s.peek (alignAddr a w).toNat w
  (v, { s with draws := draws })

/-- What a write does at an aligned address (R109, R111, R113). -/
def State.poke (s : State) (a : Nat) (w : Width) (v : Word) : Res State :=
  match targetOf a with
  | .io off => andThen (s.dev.ioStore off v w) fun dev => .next { s with dev := dev }
  | .ram b => .next { s with mem := s.mem.store b v w }
  | .rom _ | .openBus => .next s

/-- `MemWrite` (00_scope.md R16): its time passes, then the write takes effect (R106). -/
def State.memWrite (s : State) (a : Word) (w : Width) (v : Word) (acc : AccessClass) : Res State :=
  (s.passAccess .data a w acc).poke (alignAddr a w).toNat w v

/-- `Idle` (R16, R105): one internal cycle. -/
def State.idle (s : State) : State := { s with dev := s.dev.advance 1 }

/-- `Idle`, `n` times. -/
def State.idles : Nat → State → State
  | 0, s => s
  | n + 1, s => State.idles n s.idle

end Sys2Proof.Machine
end

