-- ==== Sys2Proof/Syntax.lean ====
section
/-!
DEFINITION. The syntax of both instruction sets: one constructor for each row name of spec/opcode_table.json
(the rows that share a name are the index patterns of one instruction). An ARM constructor carries its
condition (30_encoding.md R171). Should-be bits are no fields: they are not checked (R169).
-/
namespace Sys2Proof

/-- The condition field of an ARM instruction and of a THUMB conditional branch (40_arm_dataproc.md R200). -/
inductive Cond where
  | eq | ne | cs | cc | mi | pl | vs | vc | hi | ls | ge | lt | gt | le | al | nv
  deriving DecidableEq, Repr

/-- The shift types of a register operand (30_encoding.md R155). -/
inductive ShiftType where
  | lsl | lsr | asr | ror
  deriving DecidableEq, Repr

/-- The indexing of a single transfer (R160, R162): `offset` is P = 1, W = 0; `pre` is P = 1, W = 1 (write
back); `post` is P = 0, W = 0 (always writes back). P = 0, W = 1 is another row of the table. -/
inductive Indexing where
  | offset | pre | post
  deriving DecidableEq, Repr

/-- The instructions of the ARM7TDMI: the ARM rows, then the THUMB rows (names beginning with t). `sf` is the
S bit, `up` the U bit, `wb` the W bit of a block transfer; `bits` is the instruction without its condition. -/
inductive Instr where
  /-- BX{cond} Rm (R332). -/
  | bx (cond : Cond) (rm : Reg)
  /-- MUL{cond}{S} Rd, Rm, Rs (R261). -/
  | mul (cond : Cond) (sf : Bool) (rd rs rm : Reg)
  /-- MLA{cond}{S} Rd, Rm, Rs, Rn (R262). -/
  | mla (cond : Cond) (sf : Bool) (rd rn rs rm : Reg)
  /-- UMULL{cond}{S} RdLo, RdHi, Rm, Rs (R264). -/
  | umull (cond : Cond) (sf : Bool) (rdHi rdLo rs rm : Reg)
  /-- UMLAL{cond}{S} RdLo, RdHi, Rm, Rs (R265). -/
  | umlal (cond : Cond) (sf : Bool) (rdHi rdLo rs rm : Reg)
  /-- SMULL{cond}{S} RdLo, RdHi, Rm, Rs (R266). -/
  | smull (cond : Cond) (sf : Bool) (rdHi rdLo rs rm : Reg)
  /-- SMLAL{cond}{S} RdLo, RdHi, Rm, Rs (R267). -/
  | smlal (cond : Cond) (sf : Bool) (rdHi rdLo rs rm : Reg)
  /-- SWP{cond} Rd, Rm, [Rn] (R318). -/
  | swp (cond : Cond) (rn rd rm : Reg)
  /-- SWP{cond}B Rd, Rm, [Rn] (R319). -/
  | swpb (cond : Cond) (rn rd rm : Reg)
  /-- the multiply/swap extension space, row 5 of R154 (R170). -/
  | armUnallocMul (cond : Cond) (bits : BitVec 28)
  /-- a halfword form with L = 0 and SH = 1x (R299). -/
  | hwUnalloc (cond : Cond) (bits : BitVec 28)
  /-- a halfword form with P = 0 and W = 1 (R299). -/
  | hwUnpred (cond : Cond) (bits : BitVec 28)
  /-- STRH, 8-bit immediate offset (R295). -/
  | strhImm (cond : Cond) (ix : Indexing) (up : Bool) (rn rd : Reg) (imm : BitVec 8)
  /-- STRH, register offset (R295). -/
  | strhReg (cond : Cond) (ix : Indexing) (up : Bool) (rn rd rm : Reg)
  /-- LDRH, 8-bit immediate offset (R294). -/
  | ldrhImm (cond : Cond) (ix : Indexing) (up : Bool) (rn rd : Reg) (imm : BitVec 8)
  /-- LDRH, register offset (R294). -/
  | ldrhReg (cond : Cond) (ix : Indexing) (up : Bool) (rn rd rm : Reg)
  /-- LDRSB, 8-bit immediate offset (R297). -/
  | ldrsbImm (cond : Cond) (ix : Indexing) (up : Bool) (rn rd : Reg) (imm : BitVec 8)
  /-- LDRSB, register offset (R297). -/
  | ldrsbReg (cond : Cond) (ix : Indexing) (up : Bool) (rn rd rm : Reg)
  /-- LDRSH, 8-bit immediate offset (R298). -/
  | ldrshImm (cond : Cond) (ix : Indexing) (up : Bool) (rn rd : Reg) (imm : BitVec 8)
  /-- LDRSH, register offset (R298). -/
  | ldrshReg (cond : Cond) (ix : Indexing) (up : Bool) (rn rd rm : Reg)
  /-- MRS{cond} Rd, CPSR or SPSR (R350). -/
  | mrs (cond : Cond) (spsr : Bool) (rd : Reg)
  /-- MSR{cond} CPSR_<fields> or SPSR_<fields>, Rm (R351). -/
  | msrReg (cond : Cond) (spsr : Bool) (mask : BitVec 4) (rm : Reg)
  /-- MSR{cond} CPSR_<fields> or SPSR_<fields>, #imm (R352). -/
  | msrImm (cond : Cond) (spsr : Bool) (mask rot : BitVec 4) (imm : BitVec 8)
  /-- the control extension space, row 10 of R154 (R170). -/
  | armUnallocCtrl (cond : Cond) (bits : BitVec 28)
  /-- AND, register shifted by an immediate (R220). -/
  | andShImm (cond : Cond) (sf : Bool) (rn rd : Reg) (n : BitVec 5) (sh : ShiftType) (rm : Reg)
  /-- AND, register shifted by a register (R220). -/
  | andShReg (cond : Cond) (sf : Bool) (rn rd rs : Reg) (sh : ShiftType) (rm : Reg)
  /-- AND, rotated 8-bit immediate (R220). -/
  | andImm (cond : Cond) (sf : Bool) (rn rd : Reg) (rot : BitVec 4) (imm : BitVec 8)
  /-- EOR, register shifted by an immediate (R221). -/
  | eorShImm (cond : Cond) (sf : Bool) (rn rd : Reg) (n : BitVec 5) (sh : ShiftType) (rm : Reg)
  /-- EOR, register shifted by a register (R221). -/
  | eorShReg (cond : Cond) (sf : Bool) (rn rd rs : Reg) (sh : ShiftType) (rm : Reg)
  /-- EOR, rotated 8-bit immediate (R221). -/
  | eorImm (cond : Cond) (sf : Bool) (rn rd : Reg) (rot : BitVec 4) (imm : BitVec 8)
  /-- SUB, register shifted by an immediate (R222). -/
  | subShImm (cond : Cond) (sf : Bool) (rn rd : Reg) (n : BitVec 5) (sh : ShiftType) (rm : Reg)
  /-- SUB, register shifted by a register (R222). -/
  | subShReg (cond : Cond) (sf : Bool) (rn rd rs : Reg) (sh : ShiftType) (rm : Reg)
  /-- SUB, rotated 8-bit immediate (R222). -/
  | subImm (cond : Cond) (sf : Bool) (rn rd : Reg) (rot : BitVec 4) (imm : BitVec 8)
  /-- RSB, register shifted by an immediate (R223). -/
  | rsbShImm (cond : Cond) (sf : Bool) (rn rd : Reg) (n : BitVec 5) (sh : ShiftType) (rm : Reg)
  /-- RSB, register shifted by a register (R223). -/
  | rsbShReg (cond : Cond) (sf : Bool) (rn rd rs : Reg) (sh : ShiftType) (rm : Reg)
  /-- RSB, rotated 8-bit immediate (R223). -/
  | rsbImm (cond : Cond) (sf : Bool) (rn rd : Reg) (rot : BitVec 4) (imm : BitVec 8)
  /-- ADD, register shifted by an immediate (R224). -/
  | addShImm (cond : Cond) (sf : Bool) (rn rd : Reg) (n : BitVec 5) (sh : ShiftType) (rm : Reg)
  /-- ADD, register shifted by a register (R224). -/
  | addShReg (cond : Cond) (sf : Bool) (rn rd rs : Reg) (sh : ShiftType) (rm : Reg)
  /-- ADD, rotated 8-bit immediate (R224). -/
  | addImm (cond : Cond) (sf : Bool) (rn rd : Reg) (rot : BitVec 4) (imm : BitVec 8)
  /-- ADC, register shifted by an immediate (R225). -/
  | adcShImm (cond : Cond) (sf : Bool) (rn rd : Reg) (n : BitVec 5) (sh : ShiftType) (rm : Reg)
  /-- ADC, register shifted by a register (R225). -/
  | adcShReg (cond : Cond) (sf : Bool) (rn rd rs : Reg) (sh : ShiftType) (rm : Reg)
  /-- ADC, rotated 8-bit immediate (R225). -/
  | adcImm (cond : Cond) (sf : Bool) (rn rd : Reg) (rot : BitVec 4) (imm : BitVec 8)
  /-- SBC, register shifted by an immediate (R226). -/
  | sbcShImm (cond : Cond) (sf : Bool) (rn rd : Reg) (n : BitVec 5) (sh : ShiftType) (rm : Reg)
  /-- SBC, register shifted by a register (R226). -/
  | sbcShReg (cond : Cond) (sf : Bool) (rn rd rs : Reg) (sh : ShiftType) (rm : Reg)
  /-- SBC, rotated 8-bit immediate (R226). -/
  | sbcImm (cond : Cond) (sf : Bool) (rn rd : Reg) (rot : BitVec 4) (imm : BitVec 8)
  /-- RSC, register shifted by an immediate (R227). -/
  | rscShImm (cond : Cond) (sf : Bool) (rn rd : Reg) (n : BitVec 5) (sh : ShiftType) (rm : Reg)
  /-- RSC, register shifted by a register (R227). -/
  | rscShReg (cond : Cond) (sf : Bool) (rn rd rs : Reg) (sh : ShiftType) (rm : Reg)
  /-- RSC, rotated 8-bit immediate (R227). -/
  | rscImm (cond : Cond) (sf : Bool) (rn rd : Reg) (rot : BitVec 4) (imm : BitVec 8)
  /-- TST, register shifted by an immediate (R228). -/
  | tstShImm (cond : Cond) (rn rd : Reg) (n : BitVec 5) (sh : ShiftType) (rm : Reg)
  /-- TST, register shifted by a register (R228). -/
  | tstShReg (cond : Cond) (rn rd rs : Reg) (sh : ShiftType) (rm : Reg)
  /-- TST, rotated 8-bit immediate (R228). -/
  | tstImm (cond : Cond) (rn rd : Reg) (rot : BitVec 4) (imm : BitVec 8)
  /-- TEQ, register shifted by an immediate (R229). -/
  | teqShImm (cond : Cond) (rn rd : Reg) (n : BitVec 5) (sh : ShiftType) (rm : Reg)
  /-- TEQ, register shifted by a register (R229). -/
  | teqShReg (cond : Cond) (rn rd rs : Reg) (sh : ShiftType) (rm : Reg)
  /-- TEQ, rotated 8-bit immediate (R229). -/
  | teqImm (cond : Cond) (rn rd : Reg) (rot : BitVec 4) (imm : BitVec 8)
  /-- CMP, register shifted by an immediate (R230). -/
  | cmpShImm (cond : Cond) (rn rd : Reg) (n : BitVec 5) (sh : ShiftType) (rm : Reg)
  /-- CMP, register shifted by a register (R230). -/
  | cmpShReg (cond : Cond) (rn rd rs : Reg) (sh : ShiftType) (rm : Reg)
  /-- CMP, rotated 8-bit immediate (R230). -/
  | cmpImm (cond : Cond) (rn rd : Reg) (rot : BitVec 4) (imm : BitVec 8)
  /-- CMN, register shifted by an immediate (R231). -/
  | cmnShImm (cond : Cond) (rn rd : Reg) (n : BitVec 5) (sh : ShiftType) (rm : Reg)
  /-- CMN, register shifted by a register (R231). -/
  | cmnShReg (cond : Cond) (rn rd rs : Reg) (sh : ShiftType) (rm : Reg)
  /-- CMN, rotated 8-bit immediate (R231). -/
  | cmnImm (cond : Cond) (rn rd : Reg) (rot : BitVec 4) (imm : BitVec 8)
  /-- ORR, register shifted by an immediate (R232). -/
  | orrShImm (cond : Cond) (sf : Bool) (rn rd : Reg) (n : BitVec 5) (sh : ShiftType) (rm : Reg)
  /-- ORR, register shifted by a register (R232). -/
  | orrShReg (cond : Cond) (sf : Bool) (rn rd rs : Reg) (sh : ShiftType) (rm : Reg)
  /-- ORR, rotated 8-bit immediate (R232). -/
  | orrImm (cond : Cond) (sf : Bool) (rn rd : Reg) (rot : BitVec 4) (imm : BitVec 8)
  /-- MOV, register shifted by an immediate (R233). -/
  | movShImm (cond : Cond) (sf : Bool) (rd : Reg) (n : BitVec 5) (sh : ShiftType) (rm : Reg)
  /-- MOV, register shifted by a register (R233). -/
  | movShReg (cond : Cond) (sf : Bool) (rd rs : Reg) (sh : ShiftType) (rm : Reg)
  /-- MOV, rotated 8-bit immediate (R233). -/
  | movImm (cond : Cond) (sf : Bool) (rd : Reg) (rot : BitVec 4) (imm : BitVec 8)
  /-- BIC, register shifted by an immediate (R234). -/
  | bicShImm (cond : Cond) (sf : Bool) (rn rd : Reg) (n : BitVec 5) (sh : ShiftType) (rm : Reg)
  /-- BIC, register shifted by a register (R234). -/
  | bicShReg (cond : Cond) (sf : Bool) (rn rd rs : Reg) (sh : ShiftType) (rm : Reg)
  /-- BIC, rotated 8-bit immediate (R234). -/
  | bicImm (cond : Cond) (sf : Bool) (rn rd : Reg) (rot : BitVec 4) (imm : BitVec 8)
  /-- MVN, register shifted by an immediate (R235). -/
  | mvnShImm (cond : Cond) (sf : Bool) (rd : Reg) (n : BitVec 5) (sh : ShiftType) (rm : Reg)
  /-- MVN, register shifted by a register (R235). -/
  | mvnShReg (cond : Cond) (sf : Bool) (rd rs : Reg) (sh : ShiftType) (rm : Reg)
  /-- MVN, rotated 8-bit immediate (R235). -/
  | mvnImm (cond : Cond) (sf : Bool) (rd : Reg) (rot : BitVec 4) (imm : BitVec 8)
  /-- STR, 12-bit immediate offset (R285). -/
  | strImm (cond : Cond) (ix : Indexing) (up : Bool) (rn rd : Reg) (off : BitVec 12)
  /-- STR, shifted register offset (R285). -/
  | strReg (cond : Cond) (ix : Indexing) (up : Bool) (rn rd : Reg) (n : BitVec 5) (sh : ShiftType) (rm : Reg)
  /-- STRT, post-indexed, 12-bit immediate offset (R289). -/
  | strtImm (cond : Cond) (up : Bool) (rn rd : Reg) (off : BitVec 12)
  /-- STRT, post-indexed, shifted register offset (R289). -/
  | strtReg (cond : Cond) (up : Bool) (rn rd : Reg) (n : BitVec 5) (sh : ShiftType) (rm : Reg)
  /-- STRB, 12-bit immediate offset (R286). -/
  | strbImm (cond : Cond) (ix : Indexing) (up : Bool) (rn rd : Reg) (off : BitVec 12)
  /-- STRB, shifted register offset (R286). -/
  | strbReg (cond : Cond) (ix : Indexing) (up : Bool) (rn rd : Reg) (n : BitVec 5) (sh : ShiftType) (rm : Reg)
  /-- STRBT, post-indexed, 12-bit immediate offset (R290). -/
  | strbtImm (cond : Cond) (up : Bool) (rn rd : Reg) (off : BitVec 12)
  /-- STRBT, post-indexed, shifted register offset (R290). -/
  | strbtReg (cond : Cond) (up : Bool) (rn rd : Reg) (n : BitVec 5) (sh : ShiftType) (rm : Reg)
  /-- LDR, 12-bit immediate offset (R282). -/
  | ldrImm (cond : Cond) (ix : Indexing) (up : Bool) (rn rd : Reg) (off : BitVec 12)
  /-- LDR, shifted register offset (R282). -/
  | ldrReg (cond : Cond) (ix : Indexing) (up : Bool) (rn rd : Reg) (n : BitVec 5) (sh : ShiftType) (rm : Reg)
  /-- LDRT, post-indexed, 12-bit immediate offset (R287). -/
  | ldrtImm (cond : Cond) (up : Bool) (rn rd : Reg) (off : BitVec 12)
  /-- LDRT, post-indexed, shifted register offset (R287). -/
  | ldrtReg (cond : Cond) (up : Bool) (rn rd : Reg) (n : BitVec 5) (sh : ShiftType) (rm : Reg)
  /-- LDRB, 12-bit immediate offset (R283). -/
  | ldrbImm (cond : Cond) (ix : Indexing) (up : Bool) (rn rd : Reg) (off : BitVec 12)
  /-- LDRB, shifted register offset (R283). -/
  | ldrbReg (cond : Cond) (ix : Indexing) (up : Bool) (rn rd : Reg) (n : BitVec 5) (sh : ShiftType) (rm : Reg)
  /-- LDRBT, post-indexed, 12-bit immediate offset (R288). -/
  | ldrbtImm (cond : Cond) (up : Bool) (rn rd : Reg) (off : BitVec 12)
  /-- LDRBT, post-indexed, shifted register offset (R288). -/
  | ldrbtReg (cond : Cond) (up : Bool) (rn rd : Reg) (n : BitVec 5) (sh : ShiftType) (rm : Reg)
  /-- the undefined instruction, row 16 of R154 (R341). -/
  | und (cond : Cond) (bits : BitVec 28)
  /-- STMIA Rn, list (R307). -/
  | stmIa (cond : Cond) (wb : Bool) (rn : Reg) (list : BitVec 16)
  /-- STMIA Rn, list with S = 1 (R312). -/
  | stmSIa (cond : Cond) (wb : Bool) (rn : Reg) (list : BitVec 16)
  /-- LDMIA Rn, list (R306). -/
  | ldmIa (cond : Cond) (wb : Bool) (rn : Reg) (list : BitVec 16)
  /-- LDMIA Rn, list with S = 1 (R311). -/
  | ldmSIa (cond : Cond) (wb : Bool) (rn : Reg) (list : BitVec 16)
  /-- STMIB Rn, list (R307). -/
  | stmIb (cond : Cond) (wb : Bool) (rn : Reg) (list : BitVec 16)
  /-- STMIB Rn, list with S = 1 (R312). -/
  | stmSIb (cond : Cond) (wb : Bool) (rn : Reg) (list : BitVec 16)
  /-- LDMIB Rn, list (R306). -/
  | ldmIb (cond : Cond) (wb : Bool) (rn : Reg) (list : BitVec 16)
  /-- LDMIB Rn, list with S = 1 (R311). -/
  | ldmSIb (cond : Cond) (wb : Bool) (rn : Reg) (list : BitVec 16)
  /-- STMDA Rn, list (R307). -/
  | stmDa (cond : Cond) (wb : Bool) (rn : Reg) (list : BitVec 16)
  /-- STMDA Rn, list with S = 1 (R312). -/
  | stmSDa (cond : Cond) (wb : Bool) (rn : Reg) (list : BitVec 16)
  /-- LDMDA Rn, list (R306). -/
  | ldmDa (cond : Cond) (wb : Bool) (rn : Reg) (list : BitVec 16)
  /-- LDMDA Rn, list with S = 1 (R311). -/
  | ldmSDa (cond : Cond) (wb : Bool) (rn : Reg) (list : BitVec 16)
  /-- STMDB Rn, list (R307). -/
  | stmDb (cond : Cond) (wb : Bool) (rn : Reg) (list : BitVec 16)
  /-- STMDB Rn, list with S = 1 (R312). -/
  | stmSDb (cond : Cond) (wb : Bool) (rn : Reg) (list : BitVec 16)
  /-- LDMDB Rn, list (R306). -/
  | ldmDb (cond : Cond) (wb : Bool) (rn : Reg) (list : BitVec 16)
  /-- LDMDB Rn, list with S = 1 (R311). -/
  | ldmSDb (cond : Cond) (wb : Bool) (rn : Reg) (list : BitVec 16)
  /-- B{cond} label (R330). -/
  | b (cond : Cond) (off : BitVec 24)
  /-- BL{cond} label (R331). -/
  | bl (cond : Cond) (off : BitVec 24)
  /-- LDC and STC (R345). -/
  | ldcStc (cond : Cond) (p u nbit w ld : Bool) (rn crd : Reg) (cp : BitVec 4) (off : BitVec 8)
  /-- CDP (R345). -/
  | cdp (cond : Cond) (op1 : BitVec 4) (crn crd : Reg) (cp : BitVec 4) (op2 : BitVec 3) (crm : Reg)
  /-- MRC and MCR (R345). -/
  | mrcMcr (cond : Cond) (op1 : BitVec 3) (ld : Bool) (crn rd : Reg) (cp : BitVec 4) (op2 : BitVec 3) (crm : Reg)
  /-- SWI{cond} imm24 (R340). -/
  | swi (cond : Cond) (comment : BitVec 24)
  /-- THUMB LSL Rd, Rs, #n (R360). -/
  | tLslImm (n : BitVec 5) (rs rd : LowReg)
  /-- THUMB LSR Rd, Rs, #n (R361). -/
  | tLsrImm (n : BitVec 5) (rs rd : LowReg)
  /-- THUMB ASR Rd, Rs, #n (R362). -/
  | tAsrImm (n : BitVec 5) (rs rd : LowReg)
  /-- THUMB ADD Rd, Rs, Rn (R365). -/
  | tAddReg (rn rs rd : LowReg)
  /-- THUMB SUB Rd, Rs, Rn (R366). -/
  | tSubReg (rn rs rd : LowReg)
  /-- THUMB ADD Rd, Rs, #imm3 (R367). -/
  | tAddImm3 (imm : BitVec 3) (rs rd : LowReg)
  /-- THUMB SUB Rd, Rs, #imm3 (R368). -/
  | tSubImm3 (imm : BitVec 3) (rs rd : LowReg)
  /-- THUMB MOV Rd, #imm8 (R370). -/
  | tMovImm8 (rd : LowReg) (imm : BitVec 8)
  /-- THUMB CMP Rd, #imm8 (R371). -/
  | tCmpImm8 (rd : LowReg) (imm : BitVec 8)
  /-- THUMB ADD Rd, #imm8 (R372). -/
  | tAddImm8 (rd : LowReg) (imm : BitVec 8)
  /-- THUMB SUB Rd, #imm8 (R373). -/
  | tSubImm8 (rd : LowReg) (imm : BitVec 8)
  /-- THUMB AND Rd, Rs (R374). -/
  | tAnd (rs rd : LowReg)
  /-- THUMB EOR Rd, Rs (R375). -/
  | tEor (rs rd : LowReg)
  /-- THUMB LSL Rd, Rs (R376). -/
  | tLslReg (rs rd : LowReg)
  /-- THUMB LSR Rd, Rs (R377). -/
  | tLsrReg (rs rd : LowReg)
  /-- THUMB ASR Rd, Rs (R378). -/
  | tAsrReg (rs rd : LowReg)
  /-- THUMB ADC Rd, Rs (R379). -/
  | tAdc (rs rd : LowReg)
  /-- THUMB SBC Rd, Rs (R380). -/
  | tSbc (rs rd : LowReg)
  /-- THUMB ROR Rd, Rs (R381). -/
  | tRorReg (rs rd : LowReg)
  /-- THUMB TST Rd, Rs (R382). -/
  | tTst (rs rd : LowReg)
  /-- THUMB NEG Rd, Rs (R383). -/
  | tNeg (rs rd : LowReg)
  /-- THUMB CMP Rd, Rs (R384). -/
  | tCmpReg (rs rd : LowReg)
  /-- THUMB CMN Rd, Rs (R385). -/
  | tCmn (rs rd : LowReg)
  /-- THUMB ORR Rd, Rs (R386). -/
  | tOrr (rs rd : LowReg)
  /-- THUMB MUL Rd, Rs (R387). -/
  | tMul (rs rd : LowReg)
  /-- THUMB BIC Rd, Rs (R388). -/
  | tBic (rs rd : LowReg)
  /-- THUMB MVN Rd, Rs (R389). -/
  | tMvn (rs rd : LowReg)
  /-- THUMB ADD Hd, Hs (R392). -/
  | tAddHi (hs hd : Reg)
  /-- THUMB CMP Hd, Hs (R393). -/
  | tCmpHi (hs hd : Reg)
  /-- THUMB MOV Hd, Hs (R394). -/
  | tMovHi (hs hd : Reg)
  /-- THUMB BX Hs; the Hd field is kept (R395, R178). -/
  | tBx (hs hd : Reg)
  /-- THUMB LDR Rd, [PC, #imm] (R400). -/
  | tLdrPc (rd : LowReg) (imm : BitVec 8)
  /-- THUMB STR Rd, [Rb, Ro] (R402). -/
  | tStrReg (ro rb rd : LowReg)
  /-- THUMB STRB Rd, [Rb, Ro] (R403). -/
  | tStrbReg (ro rb rd : LowReg)
  /-- THUMB LDR Rd, [Rb, Ro] (R404). -/
  | tLdrReg (ro rb rd : LowReg)
  /-- THUMB LDRB Rd, [Rb, Ro] (R405). -/
  | tLdrbReg (ro rb rd : LowReg)
  /-- THUMB STRH Rd, [Rb, Ro] (R406). -/
  | tStrhReg (ro rb rd : LowReg)
  /-- THUMB LDRH Rd, [Rb, Ro] (R407). -/
  | tLdrhReg (ro rb rd : LowReg)
  /-- THUMB LDSB Rd, [Rb, Ro] (R408). -/
  | tLdsbReg (ro rb rd : LowReg)
  /-- THUMB LDSH Rd, [Rb, Ro] (R409). -/
  | tLdshReg (ro rb rd : LowReg)
  /-- THUMB STR Rd, [Rb, #imm] (R410). -/
  | tStrImm (off : BitVec 5) (rb rd : LowReg)
  /-- THUMB LDR Rd, [Rb, #imm] (R411). -/
  | tLdrImm (off : BitVec 5) (rb rd : LowReg)
  /-- THUMB STRB Rd, [Rb, #imm] (R412). -/
  | tStrbImm (off : BitVec 5) (rb rd : LowReg)
  /-- THUMB LDRB Rd, [Rb, #imm] (R413). -/
  | tLdrbImm (off : BitVec 5) (rb rd : LowReg)
  /-- THUMB STRH Rd, [Rb, #imm] (R414). -/
  | tStrhImm (off : BitVec 5) (rb rd : LowReg)
  /-- THUMB LDRH Rd, [Rb, #imm] (R415). -/
  | tLdrhImm (off : BitVec 5) (rb rd : LowReg)
  /-- THUMB STR Rd, [SP, #imm] (R416). -/
  | tStrSp (rd : LowReg) (imm : BitVec 8)
  /-- THUMB LDR Rd, [SP, #imm] (R417). -/
  | tLdrSp (rd : LowReg) (imm : BitVec 8)
  /-- THUMB ADD Rd, PC, #imm (R418). -/
  | tAddPc (rd : LowReg) (imm : BitVec 8)
  /-- THUMB ADD Rd, SP, #imm (R419). -/
  | tAddSp (rd : LowReg) (imm : BitVec 8)
  /-- THUMB ADD SP, #imm or #-imm (R420). -/
  | tAddSpImm (neg : Bool) (imm : BitVec 7)
  /-- THUMB PUSH (R422). -/
  | tPush (lr : Bool) (list : BitVec 8)
  /-- THUMB POP (R423). -/
  | tPop (pc : Bool) (list : BitVec 8)
  /-- the THUMB unallocated spaces, rows 15, 17 and 21 of R172 (R182). -/
  | tUnalloc (bits : BitVec 16)
  /-- THUMB STMIA Rb!, list (R426). -/
  | tStmia (rb : LowReg) (list : BitVec 8)
  /-- THUMB LDMIA Rb!, list (R427). -/
  | tLdmia (rb : LowReg) (list : BitVec 8)
  /-- THUMB SWI imm8 (R445). -/
  | tSwi (value : BitVec 8)
  /-- THUMB B<cond> label, cond 0000 to 1101 (R440). -/
  | tBcond (cond : Cond) (off : BitVec 8)
  /-- THUMB B label (R442). -/
  | tB (off : BitVec 11)
  /-- THUMB BL, first half (R446). -/
  | tBlPrefix (off : BitVec 11)
  /-- THUMB BL, second half (R447). -/
  | tBlSuffix (off : BitVec 11)
  deriving DecidableEq, Repr

end Sys2Proof
end

