-- ==== Sys2Proof/Machine/Ops.lean ====
section
/-!
DEFINITION. The named operations of the CPU: the register file and its banks (10_state.md R34), the status
registers (R36, R37), the pipeline flush (R45), taking an exception and returning from one (60_exceptions.md R503,
40_arm_dataproc.md R210), and the frame every instruction runs in (30_encoding.md R150).
-/
namespace Sys2Proof.Machine

/-! ## Registers -/

/-- The place of a banked r13 or r14 in the register file (10_state.md R31). -/
def bankBase : Mode → Nat
  | .usr | .sys => 13
  | .fiq => 20
  | .irq => 22
  | .svc => 24
  | .abt => 26
  | .und => 28

/-- `phys(i, m)` (R34), as an index of the register file, for r0 to r14. -/
def physIndex (i : Reg) (m : Mode) : Fin 30 :=
  if i.val ≤ 7 then Fin.ofNat 30 i.val
  else if i.val ≤ 12 then Fin.ofNat 30 (if m = .fiq then i.val + 7 else i.val)
  else Fin.ofNat 30 (bankBase m + (i.val - 13))

/-- `x[i]` read (00_scope.md R15): r15 reads `pc`, the address of the instruction plus two widths (10_state.md
R38). -/
def Cpu.x (c : Cpu) (i : Reg) : Word := if i = pcReg then c.pc else c.regs.get (physIndex i c.cpsr.mode)

/-- `x[i]` of a state. -/
def State.x (s : State) (i : Reg) : Word := s.cpu.x i

/-- Write `x[i]` for r0 to r14; r15 is written by `branchTo` alone. -/
def Cpu.setX (c : Cpu) (i : Reg) (v : Word) : Cpu :=
  if i = pcReg then c else { c with regs := c.regs.set (physIndex i c.cpsr.mode) v }

/-- Write `x[i]` of a state. -/
def State.setX (s : State) (i : Reg) (v : Word) : State := { s with cpu := s.cpu.setX i v }

/-- `x_usr[i]` read (R15): the User-mode register whatever the mode. -/
def State.xUsr (s : State) (i : Reg) : Word := if i = pcReg then s.cpu.pc else s.cpu.regs.get (physIndex i .usr)

/-- Write `x_usr[i]`. -/
def State.setXUsr (s : State) (i : Reg) (v : Word) : State :=
  { s with cpu := if i = pcReg then s.cpu else { s.cpu with regs := s.cpu.regs.set (physIndex i .usr) v } }

/-- Does `x[i]` reach a register other than U[i]? (10_state.md R72). -/
def isBanked (i : Reg) (m : Mode) : Bool := i != pcReg && physIndex i m != physIndex i .usr

/-- The width of an instruction in bytes in the current state (00_scope.md glossary). -/
def Cpu.w (c : Cpu) : Word := if c.cpsr.t then 2 else 4

/-- PC <- PC + w (10_state.md R40). -/
def State.advancePc (s : State) : State := { s with cpu := { s.cpu with pc := s.cpu.pc + s.cpu.w } }

/-- Set the class of the next opcode fetch (R47). -/
def State.setFetch (s : State) (acc : AccessClass) : State := { s with cpu := { s.cpu with fetchType := acc } }

/-- The end of an instruction that made a data access and did not flush (R47, R40). -/
def State.endData (s : State) : State := (s.setFetch .nonseq).advancePc

/-! ## Status registers -/

/-- The five bits of a mode (R32). -/
def Mode.code : Mode → BitVec 5
  | .usr => 0x10 | .fiq => 0x11 | .irq => 0x12 | .svc => 0x13 | .abt => 0x17 | .und => 0x1B | .sys => 0x1F

/-- The mode five bits name; none for the 25 invalid values (R32, R33). -/
def Mode.ofCode (m : BitVec 5) : Option Mode :=
  match m.toNat with
  | 0x10 => some .usr
  | 0x11 => some .fiq
  | 0x12 => some .irq
  | 0x13 => some .svc
  | 0x17 => some .abt
  | 0x1B => some .und
  | 0x1F => some .sys
  | _ => none

/-- A bit as a one-bit vector. -/
def bit (b : Bool) : BitVec 1 := if b then 1 else 0

/-- The layout of a status register (R36): bits 27:8 read as 0. -/
def psrWord (n z c v i f t : Bool) (m : BitVec 5) : Word :=
  bit n ++ bit z ++ bit c ++ bit v ++ (0 : BitVec 20) ++ bit i ++ bit f ++ bit t ++ m

/-- CPSR as a word (R36). -/
def Cpsr.toWord (p : Cpsr) : Word := psrWord p.n p.z p.c p.v p.i p.f p.t p.mode.code

/-- An SPSR as a word (R37). -/
def Spsr.toWord (p : Spsr) : Word := psrWord p.n p.z p.c p.v p.i p.f p.t p.m

/-- The snapshot of CPSR an exception saves (R37). -/
def Cpsr.save (p : Cpsr) : Spsr := ⟨p.n, p.z, p.c, p.v, p.i, p.f, p.t, p.mode.code⟩

/-- The CPSR an SPSR restores, in a mode already found valid (R33). -/
def Spsr.restore (p : Spsr) (m : Mode) : Cpsr := ⟨p.n, p.z, p.c, p.v, p.i, p.f, p.t, m⟩

/-- SPSR(m) (R34); usr and sys have none. -/
def Cpu.spsr (c : Cpu) : Mode → Option Spsr
  | .usr | .sys => none
  | .fiq => some c.spsrFiq
  | .irq => some c.spsrIrq
  | .svc => some c.spsrSvc
  | .abt => some c.spsrAbt
  | .und => some c.spsrUnd

/-- Write SPSR(m). -/
def Cpu.setSpsr (c : Cpu) (m : Mode) (p : Spsr) : Cpu :=
  match m with
  | .usr | .sys => c
  | .fiq => { c with spsrFiq := p }
  | .irq => { c with spsrIrq := p }
  | .svc => { c with spsrSvc := p }
  | .abt => { c with spsrAbt := p }
  | .und => { c with spsrUnd := p }

/-- Replace CPSR. A change of the mode changes the visible registers at once (R41). -/
def State.setCpsr (s : State) (p : Cpsr) : State := { s with cpu := { s.cpu with cpsr := p } }

/-- Write the flags N, Z, C and V. -/
def State.setFlags (s : State) (n z c v : Bool) : State :=
  s.setCpsr { s.cpu.cpsr with n := n, z := z, c := c, v := v }

/-! ## The pipeline -/

/-- The two fetches of a flush at an aligned address (R45). -/
def State.refill (s : State) (a : Word) (w : Width) (step : Word) : State :=
  let (e, s) := s.memRead .opcode a w .nonseq
  let (d, s) := s.memRead .opcode (a + step) w .seq
  { s with cpu := { s.cpu with executing := e, decoding := d, pc := a + step + step, fetchType := .seq } }

/-- `pc <- target` with the flush that follows (R45, R46). -/
def State.branchTo (s : State) (target : Word) : State :=
  if s.cpu.cpsr.t then s.refill (alignAddr target .half) .half 2
  else s.refill (alignAddr target .word) .word 4

/-! ## Refusals -/

/-- Go on unless a case is refused. -/
def refuseIf (c : Bool) (r : Refusal) (next : Res State) : Res State := if c then .refused r else next

/-- Go on unless QUIRKS = refuse and a case is one of its own (00_scope.md R12, D15). -/
def refuseQuirk (c : Bool) (r : Refusal) (next : Res State) : Res State :=
  refuseIf (Config.quirks == .refuse && c) r next

/-! ## Exceptions -/

/-- Taking an exception (60_exceptions.md R503): SPSR of the new mode <- CPSR, the mode, I <- 1, r14 of the new mode,
T <- 0, and the flush at the vector. -/
def State.enterException (s : State) (mode : Mode) (vector lr : Word) : State :=
  let saved := s.cpu.cpsr.save
  let s := s.setCpsr { s.cpu.cpsr with mode := mode }
  let s := { s with cpu := s.cpu.setSpsr mode saved }
  let s := s.setCpsr { s.cpu.cpsr with i := true }
  let s := s.setX lrReg lr
  let s := s.setCpsr { s.cpu.cpsr with t := false }
  s.branchTo vector

/-- The address after the instruction that executes: A + w, `pc` being A + 2w (R38). -/
def State.nextAddress (s : State) : Word := s.cpu.pc - s.cpu.w

/-- The Undefined Instruction exception (60_exceptions.md R504). -/
def State.raiseUndefined (s : State) : State := s.enterException .und 0x00000004 s.nextAddress

/-- The software interrupt (R504). -/
def State.raiseSwi (s : State) : State := s.enterException .svc 0x00000008 s.nextAddress

/-- `restore_cpsr_from_spsr` (40_arm_dataproc.md R210). -/
def State.restoreCpsr (s : State) : Res State :=
  match s.cpu.spsr s.cpu.cpsr.mode with
  | none => .refused .noSpsr
  | some p =>
    match Mode.ofCode p.m with
    | none => .refused .invalidMode
    | some m => .next (s.setCpsr (p.restore m))

/-- The return from an exception (60_exceptions.md R512): CPSR from the SPSR, then the flush in the restored state. -/
def State.exceptionReturn (s : State) (target : Word) : Res State :=
  andThen s.restoreCpsr fun s => .next (s.branchTo target)

/-- Write a register that may be r15: r15 is a branch, any other ends the instruction (10_state.md R40). -/
def State.writeOrBranch (s : State) (rd : Reg) (v : Word) : State :=
  if rd = pcReg then s.branchTo v else (s.setX rd v).advancePc

/-! ## Conditions and the frame of an instruction -/

/-- `cond_passed` (40_arm_dataproc.md R200). -/
def condPassed (p : Cpsr) : Cond → Bool
  | .eq => p.z
  | .ne => !p.z
  | .cs => p.c
  | .cc => !p.c
  | .mi => p.n
  | .pl => !p.n
  | .vs => p.v
  | .vc => !p.v
  | .hi => p.c && !p.z
  | .ls => !p.c || p.z
  | .ge => p.n == p.v
  | .lt => p.n != p.v
  | .gt => !p.z && p.n == p.v
  | .le => p.z || p.n != p.v
  | .al => true
  | .nv => false

/-- Set or clear the user-bank hazard (10_state.md R72). -/
def State.setHazard (s : State) (b : Bool) : State := { s with cpu := { s.cpu with ubankHazard := b } }

/-- A condition-failed ARM instruction (40_arm_dataproc.md R201). -/
def State.skip (s : State) : State :=
  { s with cpu := { s.cpu with pc := s.cpu.pc + 4, fetchType := .nonseq, ubankHazard := false } }

/-- Does the hazard forbid an instruction that names these registers? (R72). -/
def State.hazardStops (s : State) (uses : List Reg) : Bool :=
  s.cpu.ubankHazard && uses.any fun i => isBanked i s.cpu.cpsr.mode

/-- What every executed instruction runs in: the hazard check on the registers it names as x[i], and the hazard's
end (R72). -/
def runInstr (uses : List Reg) (body : State → Res State) (s : State) : Res State :=
  if s.hazardStops uses then .refused .unpredictable else body (s.setHazard false)

/-- An ARM instruction: its condition first (30_encoding.md R150, 40_arm_dataproc.md R201). -/
def armInstr (cond : Cond) (uses : List Reg) (body : State → Res State) (s : State) : Res State :=
  if condPassed s.cpu.cpsr cond then runInstr uses body s else .next s.skip

/-- A THUMB instruction always executes (30_encoding.md R180). -/
def thumbInstr (uses : List Reg) (body : State → Res State) (s : State) : Res State := runInstr uses body s

end Sys2Proof.Machine
end

