-- ==== Sys2Proof/Machine/Operands.lean ====
section
/-!
DEFINITION. Every operand form: the barrel shifter and the second operand of data processing (40_arm_dataproc.md
R203 to R209), the addresses of single and block transfers (42_arm_loadstore.md R281, R293, R305, R309), and the
immediates (30_encoding.md R168, R176).
-/
namespace Sys2Proof.Machine

/-! ## The barrel shifter: a value and the carry -/

/-- LSL by an amount (R206). -/
def lslC (v : Word) (n : Nat) (c : Bool) : Word × Bool :=
  if n = 0 then (v, c)
  else if n ≤ 31 then (v <<< n, v.getLsbD (32 - n))
  else if n = 32 then (0, v.getLsbD 0)
  else (0, false)

/-- LSR by an amount (R207). -/
def lsrC (v : Word) (n : Nat) (c : Bool) : Word × Bool :=
  if n = 0 then (v, c)
  else if n ≤ 31 then (v >>> n, v.getLsbD (n - 1))
  else if n = 32 then (0, v.getLsbD 31)
  else (0, false)

/-- ASR by an amount (R208). -/
def asrC (v : Word) (n : Nat) (c : Bool) : Word × Bool :=
  if n = 0 then (v, c)
  else if n ≤ 31 then (v.sshiftRight n, v.getLsbD (n - 1))
  else (if v.getLsbD 31 then 0xFFFFFFFF else 0, v.getLsbD 31)

/-- ROR by an amount (R209). -/
def rorC (v : Word) (n : Nat) (c : Bool) : Word × Bool :=
  if n = 0 then (v, c)
  else if n % 32 = 0 then (v, v.getLsbD 31)
  else (v.rotateRight (n % 32), v.getLsbD (n % 32 - 1))

/-- RRX (R209). -/
def rrxC (v : Word) (c : Bool) : Word × Bool := (bit c ++ v.extractLsb' 1 31, v.getLsbD 0)

/-- A shift by an amount, as a register gives it (R204). -/
def shiftBy (sh : ShiftType) (v : Word) (n : Nat) (c : Bool) : Word × Bool :=
  match sh with
  | .lsl => lslC v n c
  | .lsr => lsrC v n c
  | .asr => asrC v n c
  | .ror => rorC v n c

/-- A shift by an immediate, whose 0 has a meaning for each type (R205). -/
def shiftByImm (sh : ShiftType) (v : Word) (n : BitVec 5) (c : Bool) : Word × Bool :=
  match sh with
  | .lsl => lslC v n.toNat c
  | .lsr => lsrC v (if n = 0 then 32 else n.toNat) c
  | .asr => asrC v (if n = 0 then 32 else n.toNat) c
  | .ror => if n = 0 then rrxC v c else rorC v n.toNat c

/-- The rotated 8-bit immediate (30_encoding.md R168). -/
def rotatedImm (rot : BitVec 4) (imm : BitVec 8) : Word := (imm.zeroExtend 32).rotateRight (2 * rot.toNat)

/-- `shifter_imm` (R203). -/
def shifterImm (rot : BitVec 4) (imm : BitVec 8) (c : Bool) : Word × Bool :=
  (rotatedImm rot imm, if rot = 0 then c else (rotatedImm rot imm).getLsbD 31)

/-! ## The second operand of data processing -/

/-- The three forms (30_encoding.md R155). -/
inductive Operand2 where
  | imm (rot : BitVec 4) (imm : BitVec 8)
  | shImm (n : BitVec 5) (sh : ShiftType) (rm : Reg)
  | shReg (rs : Reg) (sh : ShiftType) (rm : Reg)
  deriving DecidableEq, Repr

/-- Is this the register-specified shift? (R204). -/
def Operand2.isShReg : Operand2 → Bool
  | .imm _ _ | .shImm _ _ _ => false
  | .shReg _ _ _ => true

/-- The registers the operand reads. -/
def Operand2.uses : Operand2 → List Reg
  | .imm _ _ => []
  | .shImm _ _ rm => [rm]
  | .shReg rs _ rm => [rs, rm]

/-- A register read under a register-specified shift: r15 reads A + 12 (R204). -/
def State.xLate (s : State) (i : Reg) : Word := if i = pcReg then s.cpu.pc + 4 else s.x i

/-- A first operand: r15 reads A + 12 when the second is a register-specified shift (R204, R214). -/
def State.xFor (s : State) (o : Operand2) (i : Reg) : Word := if o.isShReg then s.xLate i else s.x i

/-- The shifter's value and carry (R214). -/
def Operand2.value (o : Operand2) (s : State) : Word × Bool :=
  match o with
  | .imm rot v8 => shifterImm rot v8 s.cpu.cpsr.c
  | .shImm n sh rm => shiftByImm sh (s.x rm) n s.cpu.cpsr.c
  | .shReg rs sh rm => shiftBy sh (s.xLate rm) ((s.x rs).toNat % 256) s.cpu.cpsr.c

/-- The internal cycle of a register-specified shift (R204). -/
def Operand2.time (o : Operand2) (s : State) : State := if o.isShReg then s.idle else s

/-! ## Addresses of single transfers -/

/-- The offset of a single transfer (30_encoding.md R160, R162). -/
inductive Offset where
  | imm (v : Word)
  | reg (rm : Reg)
  | shReg (n : BitVec 5) (sh : ShiftType) (rm : Reg)
  deriving DecidableEq, Repr

/-- The register an offset reads. -/
def Offset.uses : Offset → List Reg
  | .imm _ => []
  | .reg rm => [rm]
  | .shReg _ _ rm => [rm]

/-- The offset's value; the shifter carry is discarded and RRX reads C (R281, R293). -/
def Offset.value (o : Offset) (s : State) : Word :=
  match o with
  | .imm v => v
  | .reg rm => s.x rm
  | .shReg n sh rm => (shiftByImm sh (s.x rm) n s.cpu.cpsr.c).1

/-- Is Rm r15? It is refused (R281, R293). -/
def Offset.namesPc (o : Offset) : Bool := o.uses.contains pcReg

/-- The base moved by the offset, `moved` (R281). -/
def State.movedBase (s : State) (rn : Reg) (up : Bool) (o : Offset) : Word :=
  if up then s.x rn + o.value s else s.x rn - o.value s

/-- The address of the transfer, `addr` (R281). -/
def State.transferAddr (s : State) (ix : Indexing) (rn : Reg) (up : Bool) (o : Offset) : Word :=
  match ix with
  | .offset | .pre => s.movedBase rn up o
  | .post => s.x rn

/-- Does the transfer write the base back? (R281). -/
def writesBack : Indexing → Bool
  | .offset => false
  | .pre | .post => true

/-! ## Addresses of block transfers -/

/-- The four modes of a block transfer (R305). -/
inductive BlockMode where
  | ia | ib | da | db
  deriving DecidableEq, Repr

/-- The registers of a list, lowest first (R305). -/
def regsOf (list : BitVec 16) : List Reg := (List.finRange 16).filter fun i => list.getLsbD i.val

/-- The registers transferred: of an empty list, r15 alone (R309). -/
def blockRegs (list : BitVec 16) : List Reg := if list = 0 then [pcReg] else regsOf list

/-- How many registers the base moves for: 16 for an empty list (R309). -/
def blockCount (list : BitVec 16) : Nat := if list = 0 then 16 else (regsOf list).length

/-- Four bytes for each register, as a word. -/
def blockSize (list : BitVec 16) : Word := BitVec.ofNat 32 (4 * blockCount list)

/-- The first address of a block transfer before its alignment (R305, R309). -/
def blockStart (mode : BlockMode) (base : Word) (list : BitVec 16) : Word :=
  match mode with
  | .ia => base
  | .ib => base + 4
  | .da => base - blockSize list + 4
  | .db => base - blockSize list

/-- The write-back value (R305, R309). -/
def blockEnd (mode : BlockMode) (base : Word) (list : BitVec 16) : Word :=
  match mode with
  | .ia | .ib => base + blockSize list
  | .da | .db => base - blockSize list

/-! ## PC-relative addresses -/

/-- `(A + 4) & ~3` of the THUMB PC-relative forms (45_thumb_mem_branch.md R400, R418). -/
def State.pcWord (s : State) : Word := alignAddr s.cpu.pc .word

/-- `zext_32(imm) << k` (30_encoding.md R176). -/
def scaled (k : Nat) {n : Nat} (imm : BitVec n) : Word := imm.zeroExtend 32 <<< k

/-- `sext_32(off) << k` (R168, R176). -/
def branchOffset (k : Nat) {n : Nat} (off : BitVec n) : Word := off.signExtend 32 <<< k

end Sys2Proof.Machine
end

