-- ==== Sys2Proof/Machine/Flags.lean ====
section
/-!
DEFINITION. Every flag computation: the 33-bit addition (40_arm_dataproc.md R211), the operations of data
processing with their flags (R212, R213, R220 to R235), and the flags of the multiplies (41_arm_multiply.md R263).
-/
namespace Sys2Proof.Machine

/-- A result with the carry and the overflow that go with it. -/
structure AluOut where
  r : Word
  c : Bool
  v : Bool
  deriving DecidableEq, Repr

/-- `add_with_carry` (R211). -/
def addWithCarry (a b : Word) (cin : Bool) : AluOut :=
  let sum33 : BitVec 33 := a.zeroExtend 33 + b.zeroExtend 33 + (bit cin).zeroExtend 33
  let r : Word := sum33.extractLsb' 0 32
  ⟨r, sum33.getLsbD 32, (~~~(a ^^^ b) &&& (b ^^^ r)).getLsbD 31⟩

/-- The sixteen operations of data processing (R220 to R235). -/
inductive AluOp where
  | and | eor | sub | rsb | add | adc | sbc | rsc | tst | teq | cmp | cmn | orr | mov | bic | mvn
  deriving DecidableEq, Repr

/-- Does the operation write only flags? (R216). -/
def AluOp.isTest : AluOp → Bool
  | .tst | .teq | .cmp | .cmn => true
  | .and | .eor | .sub | .rsb | .add | .adc | .sbc | .rsc | .orr | .mov | .bic | .mvn => false

/-- Does the operation read Rn? MOV and MVN do not (R216). -/
def AluOp.readsRn : AluOp → Bool
  | .mov | .mvn => false
  | .and | .eor | .sub | .rsb | .add | .adc | .sbc | .rsc | .tst | .teq | .cmp | .cmn | .orr | .bic => true

/-- The operation on a = x[Rn] and b, the shifter's value, with the shifter's carry: the result, and the C and V
that it sets. A logical operation leaves V (R212); an arithmetic one discards the shifter's carry (R213). -/
def AluOp.apply (op : AluOp) (a b : Word) (shc : Bool) (p : Cpsr) : AluOut :=
  match op with
  | .and | .tst => ⟨a &&& b, shc, p.v⟩
  | .eor | .teq => ⟨a ^^^ b, shc, p.v⟩
  | .sub | .cmp => addWithCarry a (~~~b) true
  | .rsb => addWithCarry b (~~~a) true
  | .add | .cmn => addWithCarry a b false
  | .adc => addWithCarry a b p.c
  | .sbc => addWithCarry a (~~~b) p.c
  | .rsc => addWithCarry b (~~~a) p.c
  | .orr => ⟨a ||| b, shc, p.v⟩
  | .mov => ⟨b, shc, p.v⟩
  | .bic => ⟨a &&& ~~~b, shc, p.v⟩
  | .mvn => ⟨~~~b, shc, p.v⟩

/-- N and Z from the result, C and V with it (R212, R213). -/
def State.setAluFlags (s : State) (o : AluOut) : State := s.setFlags (o.r.getLsbD 31) (o.r == 0) o.c o.v

/-- Set the flags if S = 1. -/
def State.setAluFlagsIf (s : State) (sf : Bool) (o : AluOut) : State := if sf then s.setAluFlags o else s

/-- The flags of a 32-bit multiply with S = 1: N and Z from the result, C a free value, V unchanged (R263). -/
def State.setMulFlags (s : State) (r : Word) : State :=
  { s.setFlags (r.getLsbD 31) (r == 0) (Config.mulFlag s.draws) s.cpu.cpsr.v with draws := s.draws + 1 }

/-- The flags of a 64-bit multiply with S = 1: N and Z from the result, C and V free values (R263). -/
def State.setMulLongFlags (s : State) (p : BitVec 64) : State :=
  { s.setFlags (p.getLsbD 63) (p == 0) (Config.mulFlag s.draws) (Config.mulFlag (s.draws + 1)) with
    draws := s.draws + 2 }

end Sys2Proof.Machine
end

