-- ==== Sys2Proof/Machine/LoadStore.lean ====
section
/-!
DEFINITION. The ARM single transfers and swaps (42_arm_loadstore.md R280 to R299, R318, R319), over the loads and
stores that the THUMB forms share (45_thumb_mem_branch.md section 1).
-/
namespace Sys2Proof.Machine

/-! ## Loads and stores of one value -/

/-- What a load reads and how it extends it. -/
inductive LoadKind where
  | word | byte | half | sbyte | shalf
  deriving DecidableEq, Repr

/-- What a store writes. -/
inductive StoreKind where
  | word | byte | half
  deriving DecidableEq, Repr

/-- Is a load of this kind misaligned at this address? (20_memory.md R108). -/
def LoadKind.misalignedAt (k : LoadKind) (a : Word) : Bool :=
  match k with
  | .word => a.extractLsb' 0 2 != 0
  | .half | .shalf => a.getLsbD 0
  | .byte | .sbyte => false

/-- Is a store of this kind misaligned at this address? (R108). -/
def StoreKind.misalignedAt (k : StoreKind) (a : Word) : Bool :=
  match k with
  | .word => a.extractLsb' 0 2 != 0
  | .half => a.getLsbD 0
  | .byte => false

/-- The width a load reads at an address: an odd LDRSH reads a byte (42_arm_loadstore.md R296). -/
def LoadKind.widthAt (k : LoadKind) (a : Word) : Width :=
  match k with
  | .word => .word
  | .byte | .sbyte => .byte
  | .half => .half
  | .shalf => if a.getLsbD 0 then .byte else .half

/-- The width a store writes. -/
def StoreKind.width : StoreKind → Width
  | .word => .word
  | .byte => .byte
  | .half => .half

/-- The loaded value from what the bus returned: rotated, zero-extended or sign-extended (R283, R284, R294, R296 to
R298). -/
def LoadKind.extend (k : LoadKind) (a : Word) (v : Word) : Word :=
  match k with
  | .word => v.rotateRight (8 * (a.toNat % 4))
  | .byte => (v.extractLsb' 0 8).zeroExtend 32
  | .half => ((v.extractLsb' 0 16).zeroExtend 32).rotateRight (8 * (a.toNat % 2))
  | .sbyte => (v.extractLsb' 0 8).signExtend 32
  | .shalf => if a.getLsbD 0 then (v.extractLsb' 0 8).signExtend 32 else (v.extractLsb' 0 16).signExtend 32

/-- The read of a load, non-sequential, and the value it gives (R291). -/
def State.loadValue (s : State) (k : LoadKind) (a : Word) : Word × State :=
  let (v, s) := s.memRead .data a (k.widthAt a) .nonseq
  (k.extend a v, s)

/-- The write of a store, non-sequential (R291). -/
def State.storeValue (s : State) (k : StoreKind) (a v : Word) : Res State := s.memWrite a k.width v .nonseq

/-- Write the base back, if the transfer does. -/
def State.writeBack (s : State) (wb : Bool) (rn : Reg) (v : Word) : State := if wb then s.setX rn v else s

/-- The end of a load: a value for r15 is a branch, any other register is written (R291). -/
def State.finishLoad (s : State) (rd : Reg) (v : Word) : State :=
  if rd = pcReg then s.branchTo v else (s.setX rd v).endData

/-- A load at an address, with its order of effects: the read, the idle cycle, the base, Rd (R291). -/
def loadAt (k : LoadKind) (a : Word) (wb : Bool) (rn rd : Reg) (moved : Word) (s : State) : Res State :=
  refuseQuirk (k.misalignedAt a) .misaligned <|
  .next (((s.loadValue k a).2.idle.writeBack wb rn moved).finishLoad rd (s.loadValue k a).1)

/-- A store at an address, with its order of effects: the write, then the base (R291). -/
def storeAt (k : StoreKind) (a v : Word) (wb : Bool) (rn : Reg) (moved : Word) (s : State) : Res State :=
  refuseQuirk (k.misalignedAt a) .misaligned <|
  andThen (s.storeValue k a v) fun s => .next (s.writeBack wb rn moved).endData

/-- The value a store of Rd stores: r15 stores A + 12 (R280). -/
def State.storedReg (s : State) (rd : Reg) : Word := if rd = pcReg then s.cpu.pc + 4 else s.x rd

/-! ## Single transfers -/

/-- Is the address form refused? Rm = 15, and Rn = 15 with write-back (R281, R293). -/
def addressRefused (ix : Indexing) (rn : Reg) (o : Offset) : Bool :=
  o.namesPc || (writesBack ix && rn == pcReg)

/-- May a load of this kind name r15 as Rd? Only LDR (R282, R283, R293). -/
def LoadKind.allowsPc : LoadKind → Bool
  | .word => true
  | .byte | .half | .sbyte | .shalf => false

/-- May a store of this kind name r15 as Rd? Only STR (R285, R286, R293). -/
def StoreKind.allowsPc : StoreKind → Bool
  | .word => true
  | .byte | .half => false

/-- A single load (R282, R283, R294, R297, R298). -/
def loadInstr (k : LoadKind) (cond : Cond) (ix : Indexing) (up : Bool) (rn rd : Reg) (o : Offset) (s : State) :
    Res State :=
  armInstr cond (rn :: rd :: o.uses) (fun s =>
    refuseIf (addressRefused ix rn o || (rd == pcReg && !k.allowsPc)) .unpredictable <|
    refuseQuirk (writesBack ix && rn == rd) .unpredictable <|
    loadAt k (s.transferAddr ix rn up o) (writesBack ix) rn rd (s.movedBase rn up o) s) s

/-- A single store (R285, R286, R295). -/
def storeInstr (k : StoreKind) (cond : Cond) (ix : Indexing) (up : Bool) (rn rd : Reg) (o : Offset) (s : State) :
    Res State :=
  armInstr cond (rn :: rd :: o.uses) (fun s =>
    refuseIf (addressRefused ix rn o || (rd == pcReg && !k.allowsPc)) .unpredictable <|
    refuseQuirk (writesBack ix && rn == rd) .unpredictable <|
    refuseQuirk (rd == pcReg) .implementationDefined <|
    storeAt k (s.transferAddr ix rn up o) (s.storedReg rd) (writesBack ix) rn (s.movedBase rn up o) s) s

/-- A 12-bit offset (30_encoding.md R168). -/
def imm12 (off : BitVec 12) : Offset := .imm (off.zeroExtend 32)

/-- An 8-bit offset (R168). -/
def imm8 (off : BitVec 8) : Offset := .imm (off.zeroExtend 32)

/-- LDR, 12-bit immediate offset (R282). -/
def execLdrImm (cond : Cond) (ix : Indexing) (up : Bool) (rn rd : Reg) (off : BitVec 12) (s : State) : Res State :=
  loadInstr .word cond ix up rn rd (imm12 off) s

/-- LDR, shifted register offset (R282). -/
def execLdrReg (cond : Cond) (ix : Indexing) (up : Bool) (rn rd : Reg) (n : BitVec 5) (sh : ShiftType) (rm : Reg)
    (s : State) : Res State :=
  loadInstr .word cond ix up rn rd (.shReg n sh rm) s

/-- LDRT, immediate offset: the post-indexed LDR (R287). -/
def execLdrtImm (cond : Cond) (up : Bool) (rn rd : Reg) (off : BitVec 12) (s : State) : Res State :=
  loadInstr .word cond .post up rn rd (imm12 off) s

/-- LDRT, shifted register offset: the post-indexed LDR (R287). -/
def execLdrtReg (cond : Cond) (up : Bool) (rn rd : Reg) (n : BitVec 5) (sh : ShiftType) (rm : Reg) (s : State) :
    Res State :=
  loadInstr .word cond .post up rn rd (.shReg n sh rm) s

/-- LDRB, 12-bit immediate offset (R283). -/
def execLdrbImm (cond : Cond) (ix : Indexing) (up : Bool) (rn rd : Reg) (off : BitVec 12) (s : State) : Res State :=
  loadInstr .byte cond ix up rn rd (imm12 off) s

/-- LDRB, shifted register offset (R283). -/
def execLdrbReg (cond : Cond) (ix : Indexing) (up : Bool) (rn rd : Reg) (n : BitVec 5) (sh : ShiftType) (rm : Reg)
    (s : State) : Res State :=
  loadInstr .byte cond ix up rn rd (.shReg n sh rm) s

/-- LDRBT, immediate offset: the post-indexed LDRB (R288). -/
def execLdrbtImm (cond : Cond) (up : Bool) (rn rd : Reg) (off : BitVec 12) (s : State) : Res State :=
  loadInstr .byte cond .post up rn rd (imm12 off) s

/-- LDRBT, shifted register offset: the post-indexed LDRB (R288). -/
def execLdrbtReg (cond : Cond) (up : Bool) (rn rd : Reg) (n : BitVec 5) (sh : ShiftType) (rm : Reg) (s : State) :
    Res State :=
  loadInstr .byte cond .post up rn rd (.shReg n sh rm) s

/-- STR, 12-bit immediate offset (R285). -/
def execStrImm (cond : Cond) (ix : Indexing) (up : Bool) (rn rd : Reg) (off : BitVec 12) (s : State) : Res State :=
  storeInstr .word cond ix up rn rd (imm12 off) s

/-- STR, shifted register offset (R285). -/
def execStrReg (cond : Cond) (ix : Indexing) (up : Bool) (rn rd : Reg) (n : BitVec 5) (sh : ShiftType) (rm : Reg)
    (s : State) : Res State :=
  storeInstr .word cond ix up rn rd (.shReg n sh rm) s

/-- STRT, immediate offset: the post-indexed STR (R289). -/
def execStrtImm (cond : Cond) (up : Bool) (rn rd : Reg) (off : BitVec 12) (s : State) : Res State :=
  storeInstr .word cond .post up rn rd (imm12 off) s

/-- STRT, shifted register offset: the post-indexed STR (R289). -/
def execStrtReg (cond : Cond) (up : Bool) (rn rd : Reg) (n : BitVec 5) (sh : ShiftType) (rm : Reg) (s : State) :
    Res State :=
  storeInstr .word cond .post up rn rd (.shReg n sh rm) s

/-- STRB, 12-bit immediate offset (R286). -/
def execStrbImm (cond : Cond) (ix : Indexing) (up : Bool) (rn rd : Reg) (off : BitVec 12) (s : State) : Res State :=
  storeInstr .byte cond ix up rn rd (imm12 off) s

/-- STRB, shifted register offset (R286). -/
def execStrbReg (cond : Cond) (ix : Indexing) (up : Bool) (rn rd : Reg) (n : BitVec 5) (sh : ShiftType) (rm : Reg)
    (s : State) : Res State :=
  storeInstr .byte cond ix up rn rd (.shReg n sh rm) s

/-- STRBT, immediate offset: the post-indexed STRB (R290). -/
def execStrbtImm (cond : Cond) (up : Bool) (rn rd : Reg) (off : BitVec 12) (s : State) : Res State :=
  storeInstr .byte cond .post up rn rd (imm12 off) s

/-- STRBT, shifted register offset: the post-indexed STRB (R290). -/
def execStrbtReg (cond : Cond) (up : Bool) (rn rd : Reg) (n : BitVec 5) (sh : ShiftType) (rm : Reg) (s : State) :
    Res State :=
  storeInstr .byte cond .post up rn rd (.shReg n sh rm) s

/-- STRH, 8-bit immediate offset (R295). -/
def execStrhImm (cond : Cond) (ix : Indexing) (up : Bool) (rn rd : Reg) (imm : BitVec 8) (s : State) : Res State :=
  storeInstr .half cond ix up rn rd (imm8 imm) s

/-- STRH, register offset (R295). -/
def execStrhReg (cond : Cond) (ix : Indexing) (up : Bool) (rn rd rm : Reg) (s : State) : Res State :=
  storeInstr .half cond ix up rn rd (.reg rm) s

/-- LDRH, 8-bit immediate offset (R294). -/
def execLdrhImm (cond : Cond) (ix : Indexing) (up : Bool) (rn rd : Reg) (imm : BitVec 8) (s : State) : Res State :=
  loadInstr .half cond ix up rn rd (imm8 imm) s

/-- LDRH, register offset (R294). -/
def execLdrhReg (cond : Cond) (ix : Indexing) (up : Bool) (rn rd rm : Reg) (s : State) : Res State :=
  loadInstr .half cond ix up rn rd (.reg rm) s

/-- LDRSB, 8-bit immediate offset (R297). -/
def execLdrsbImm (cond : Cond) (ix : Indexing) (up : Bool) (rn rd : Reg) (imm : BitVec 8) (s : State) : Res State :=
  loadInstr .sbyte cond ix up rn rd (imm8 imm) s

/-- LDRSB, register offset (R297). -/
def execLdrsbReg (cond : Cond) (ix : Indexing) (up : Bool) (rn rd rm : Reg) (s : State) : Res State :=
  loadInstr .sbyte cond ix up rn rd (.reg rm) s

/-- LDRSH, 8-bit immediate offset (R298). -/
def execLdrshImm (cond : Cond) (ix : Indexing) (up : Bool) (rn rd : Reg) (imm : BitVec 8) (s : State) : Res State :=
  loadInstr .shalf cond ix up rn rd (imm8 imm) s

/-- LDRSH, register offset (R298). -/
def execLdrshReg (cond : Cond) (ix : Indexing) (up : Bool) (rn rd rm : Reg) (s : State) : Res State :=
  loadInstr .shalf cond ix up rn rd (.reg rm) s

/-! ## The refused halfword forms -/

/-- The space with L = 0 and SH = 1x: `refuse(unallocated)` when the condition passes (R299). -/
def execHwUnalloc (cond : Cond) (_bits : BitVec 28) (s : State) : Res State :=
  armInstr cond [] (fun _ => .refused .unallocated) s

/-- P = 0 with W = 1: `refuse(unpredictable)` when the condition passes (R299). -/
def execHwUnpred (cond : Cond) (_bits : BitVec 28) (s : State) : Res State :=
  armInstr cond [] (fun _ => .refused .unpredictable) s

/-! ## Swaps -/

/-- The swap's three accesses and its register write, the operands read first (R318, R319). -/
def swapAt (lk : LoadKind) (sk : StoreKind) (a v : Word) (rd : Reg) (s : State) : Res State :=
  refuseQuirk (sk.misalignedAt a) .misaligned <|
  andThen ((s.loadValue lk a).2.storeValue sk a v) fun t => .next (t.idle.setX rd (s.loadValue lk a).1).endData

/-- A swap (R318, R319). -/
def swapInstr (lk : LoadKind) (sk : StoreKind) (cond : Cond) (rn rd rm : Reg) (s : State) : Res State :=
  armInstr cond [rn, rd, rm] (fun s =>
    refuseIf ([rn, rd, rm].contains pcReg) .unpredictable <|
    refuseQuirk (rd == rn || rm == rn) .unpredictable <|
    swapAt lk sk (s.x rn) (s.x rm) rd s) s

/-- SWP (R318). -/
def execSwp (cond : Cond) (rn rd rm : Reg) (s : State) : Res State := swapInstr .word .word cond rn rd rm s

/-- SWPB (R319). -/
def execSwpb (cond : Cond) (rn rd rm : Reg) (s : State) : Res State := swapInstr .byte .byte cond rn rd rm s

end Sys2Proof.Machine
end

