-- ==== Sys2Proof/Machine/BlockTransfer.lean ====
section
/-!
DEFINITION. The ARM block transfers (42_arm_loadstore.md R305 to R313), over the block reads and writes that the
THUMB forms share (45_thumb_mem_branch.md R422 to R427).
-/
namespace Sys2Proof.Machine

/-! ## Shared block accesses -/

/-- Read one word for each register, at rising addresses, the first with class `acc` and the rest sequential
(R305, R313). -/
def State.readBlock : List Reg → Word → AccessClass → State → List (Reg × Word) × State
  | [], _, _, s => ([], s)
  | i :: rest, a, acc, s =>
    let (v, s) := s.memRead .data a .word acc
    let (vs, s) := State.readBlock rest (a + 4) .seq s
    ((i, v) :: vs, s)

/-- Write each loaded value but that of r15 (R306). -/
def State.writeRegs (write : State → Reg → Word → State) (vs : List (Reg × Word)) (s : State) : State :=
  vs.foldl (fun s p => if p.1 = pcReg then s else write s p.1 p.2) s

/-- The value loaded for r15, if it is in the list. -/
def pcValue (vs : List (Reg × Word)) : Option Word := (vs.find? fun p => p.1 == pcReg).map Prod.snd

/-- Write one word for each register, at rising addresses (R307). Each value is read at its own write, in the state
that holds the write-back made after the first access; `after` is that write-back. -/
def State.writeBlock (value : State → Reg → Word) (after : State → State) :
    List Reg → Word → AccessClass → State → Res State
  | [], _, _, s => .next s
  | i :: rest, a, acc, s =>
    andThen (s.memWrite a .word (value s i) acc) fun s => State.writeBlock value id rest (a + 4) .seq (after s)

/-! ## LDM -/

/-- The reads and the idle cycle of a block load: the values, and the state after them with the base written back if
it is to be (R306, R313). No access reads a register, so the write-back's place among the accesses does not show. -/
def State.loadBlock (s : State) (regs : List Reg) (a : Word) (wb : Bool) (rn : Reg) (back : Word) :
    List (Reg × Word) × State :=
  let (vs, s) := State.readBlock regs (alignAddr a .word) .nonseq s
  (vs, (s.writeBack wb rn back).idle)

/-- The end of a block load into the visible registers (R306). -/
def State.finishLdm (s : State) (vs : List (Reg × Word)) : State :=
  let s := s.writeRegs State.setX vs
  match pcValue vs with
  | some v => s.branchTo v
  | none => s.endData

/-- Does an LDM write its base back? Not when the base is in the list (R306, R308). -/
def ldmWritesBack (wb : Bool) (rn : Reg) (list : BitVec 16) : Bool := wb && !list.getLsbD rn.val

/-- Is an empty list refused? (R309). -/
def emptyRefused (list : BitVec 16) : Bool := Config.emptyRlist == .refuse && list == 0

/-- The loads of an LDM, ARM or THUMB, from a first address with a write-back value. -/
def ldmLoads (s : State) (wb : Bool) (rn : Reg) (list : BitVec 16) (a back : Word) : List (Reg × Word) × State :=
  s.loadBlock (blockRegs list) a (ldmWritesBack wb rn list) rn back

/-- LDM with S = 0 (R306); a misaligned base is refused with QUIRKS = refuse (20_memory.md R108). -/
def ldmCore (mode : BlockMode) (wb : Bool) (rn : Reg) (list : BitVec 16) (s : State) : Res State :=
  refuseIf (emptyRefused list) .unpredictable <|
  refuseQuirk (wb && list.getLsbD rn.val) .unpredictable <|
  refuseQuirk (LoadKind.word.misalignedAt (s.x rn)) .misaligned <|
  let loaded := ldmLoads s wb rn list (blockStart mode (s.x rn) list) (blockEnd mode (s.x rn) list)
  .next (loaded.2.finishLdm loaded.1)

/-- LDM with S = 0, Rn = 15 refused (R305). -/
def ldmInstr (mode : BlockMode) (cond : Cond) (wb : Bool) (rn : Reg) (list : BitVec 16) (s : State) : Res State :=
  armInstr cond (rn :: blockRegs list) (fun s =>
    refuseIf (rn == pcReg) .unpredictable (ldmCore mode wb rn list s)) s

/-- Is the mode one without an SPSR? -/
def Cpu.noSpsr (c : Cpu) : Bool := (c.spsr c.cpsr.mode).isNone

/-- Does the list, with an empty one as r15 alone, hold r15? -/
def loadsPc (list : BitVec 16) : Bool := (blockRegs list).contains pcReg

/-- LDM with S = 1 and r15 in the list: the exception return (R311, case (a)). -/
def ldmReturn (mode : BlockMode) (wb : Bool) (rn : Reg) (list : BitVec 16) (s : State) : Res State :=
  let loaded := ldmLoads s wb rn list (blockStart mode (s.x rn) list) (blockEnd mode (s.x rn) list)
  (loaded.2.writeRegs State.setX loaded.1).exceptionReturn ((pcValue loaded.1).getD 0)

/-- LDM with S = 1 and without r15: the User-mode registers, and the hazard after it (R311, case (b)). -/
def ldmUser (mode : BlockMode) (rn : Reg) (list : BitVec 16) (s : State) : Res State :=
  let loaded := ldmLoads s false rn list (blockStart mode (s.x rn) list) 0
  .next ((loaded.2.writeRegs State.setXUsr loaded.1).endData.setHazard true)

/-- The registers an LDM or STM with S = 1 names as x[i]: the base, and for case (a) the loaded ones. -/
def userBlockUses (pc : Bool) (rn : Reg) (list : BitVec 16) : List Reg := if pc then rn :: blockRegs list else [rn]

/-- LDM with S = 1 (R311), a misaligned base as in `ldmCore`. An empty list loads r15, so it is case (a): assumption
log 12. -/
def ldmSInstr (mode : BlockMode) (cond : Cond) (wb : Bool) (rn : Reg) (list : BitVec 16) (s : State) : Res State :=
  armInstr cond (userBlockUses (loadsPc list) rn list) (fun s =>
    refuseIf (rn == pcReg || s.cpu.noSpsr || emptyRefused list) .unpredictable <|
    if loadsPc list then
      refuseQuirk (wb && list.getLsbD rn.val) .unpredictable <|
      refuseQuirk (LoadKind.word.misalignedAt (s.x rn)) .misaligned (ldmReturn mode wb rn list s)
    else
      refuseIf wb .unpredictable <|
      refuseQuirk (LoadKind.word.misalignedAt (s.x rn)) .misaligned (ldmUser mode rn list s)) s

/-! ## STM -/

/-- The value a block store stores for a register: r15 stores PC + w, A + 12 in ARM state and A + 6 in THUMB state
(R280, R309, 45_thumb_mem_branch.md R422, R426). -/
def storedX (s : State) (i : Reg) : Word := if i = pcReg then s.cpu.pc + s.cpu.w else s.x i

/-- The value an STM with S = 1 stores: the User-mode register (R312). -/
def storedXUsr (s : State) (i : Reg) : Word := if i = pcReg then s.cpu.pc + s.cpu.w else s.xUsr i

/-- Is the base in the list and not the lowest? (R308). -/
def baseNotLowest (rn : Reg) (list : BitVec 16) : Bool := list.getLsbD rn.val && (regsOf list).head? != some rn

/-- STM with S = 0, ARM or THUMB (R307, R308), a misaligned base as in `ldmCore`. -/
def stmCore (mode : BlockMode) (wb : Bool) (rn : Reg) (list : BitVec 16) (s : State) : Res State :=
  refuseIf (emptyRefused list) .unpredictable <|
  refuseQuirk (wb && baseNotLowest rn list) .unpredictable <|
  refuseQuirk (StoreKind.word.misalignedAt (s.x rn)) .misaligned <|
  andThen (s.writeBlock storedX (fun t => t.writeBack wb rn (blockEnd mode (s.x rn) list)) (blockRegs list)
    (alignAddr (blockStart mode (s.x rn) list) .word) .nonseq) fun t => .next t.endData

/-- STM with S = 0, Rn = 15 refused (R305, R307). -/
def stmInstr (mode : BlockMode) (cond : Cond) (wb : Bool) (rn : Reg) (list : BitVec 16) (s : State) : Res State :=
  armInstr cond (rn :: blockRegs list) (fun s =>
    refuseIf (rn == pcReg) .unpredictable <|
    refuseQuirk (loadsPc list) .implementationDefined (stmCore mode wb rn list s)) s

/-- STM with S = 1 (R312), a misaligned base as in `ldmCore`. -/
def stmSInstr (mode : BlockMode) (cond : Cond) (wb : Bool) (rn : Reg) (list : BitVec 16) (s : State) : Res State :=
  armInstr cond [rn] (fun s =>
    refuseIf (rn == pcReg || wb || s.cpu.noSpsr || emptyRefused list) .unpredictable <|
    refuseQuirk (loadsPc list) .implementationDefined <|
    refuseQuirk (StoreKind.word.misalignedAt (s.x rn)) .misaligned <|
    andThen (s.writeBlock storedXUsr id (blockRegs list) (alignAddr (blockStart mode (s.x rn) list) .word) .nonseq)
      fun t => .next t.endData) s

/-! ## The instructions -/

/-- STMIA (R307). -/
def execStmIa (cond : Cond) (wb : Bool) (rn : Reg) (list : BitVec 16) (s : State) : Res State :=
  stmInstr .ia cond wb rn list s

/-- STMIA with S = 1 (R312). -/
def execStmSIa (cond : Cond) (wb : Bool) (rn : Reg) (list : BitVec 16) (s : State) : Res State :=
  stmSInstr .ia cond wb rn list s

/-- LDMIA (R306). -/
def execLdmIa (cond : Cond) (wb : Bool) (rn : Reg) (list : BitVec 16) (s : State) : Res State :=
  ldmInstr .ia cond wb rn list s

/-- LDMIA with S = 1 (R311). -/
def execLdmSIa (cond : Cond) (wb : Bool) (rn : Reg) (list : BitVec 16) (s : State) : Res State :=
  ldmSInstr .ia cond wb rn list s

/-- STMIB (R307). -/
def execStmIb (cond : Cond) (wb : Bool) (rn : Reg) (list : BitVec 16) (s : State) : Res State :=
  stmInstr .ib cond wb rn list s

/-- STMIB with S = 1 (R312). -/
def execStmSIb (cond : Cond) (wb : Bool) (rn : Reg) (list : BitVec 16) (s : State) : Res State :=
  stmSInstr .ib cond wb rn list s

/-- LDMIB (R306). -/
def execLdmIb (cond : Cond) (wb : Bool) (rn : Reg) (list : BitVec 16) (s : State) : Res State :=
  ldmInstr .ib cond wb rn list s

/-- LDMIB with S = 1 (R311). -/
def execLdmSIb (cond : Cond) (wb : Bool) (rn : Reg) (list : BitVec 16) (s : State) : Res State :=
  ldmSInstr .ib cond wb rn list s

/-- STMDA (R307). -/
def execStmDa (cond : Cond) (wb : Bool) (rn : Reg) (list : BitVec 16) (s : State) : Res State :=
  stmInstr .da cond wb rn list s

/-- STMDA with S = 1 (R312). -/
def execStmSDa (cond : Cond) (wb : Bool) (rn : Reg) (list : BitVec 16) (s : State) : Res State :=
  stmSInstr .da cond wb rn list s

/-- LDMDA (R306). -/
def execLdmDa (cond : Cond) (wb : Bool) (rn : Reg) (list : BitVec 16) (s : State) : Res State :=
  ldmInstr .da cond wb rn list s

/-- LDMDA with S = 1 (R311). -/
def execLdmSDa (cond : Cond) (wb : Bool) (rn : Reg) (list : BitVec 16) (s : State) : Res State :=
  ldmSInstr .da cond wb rn list s

/-- STMDB (R307). -/
def execStmDb (cond : Cond) (wb : Bool) (rn : Reg) (list : BitVec 16) (s : State) : Res State :=
  stmInstr .db cond wb rn list s

/-- STMDB with S = 1 (R312). -/
def execStmSDb (cond : Cond) (wb : Bool) (rn : Reg) (list : BitVec 16) (s : State) : Res State :=
  stmSInstr .db cond wb rn list s

/-- LDMDB (R306). -/
def execLdmDb (cond : Cond) (wb : Bool) (rn : Reg) (list : BitVec 16) (s : State) : Res State :=
  ldmInstr .db cond wb rn list s

/-- LDMDB with S = 1 (R311). -/
def execLdmSDb (cond : Cond) (wb : Bool) (rn : Reg) (list : BitVec 16) (s : State) : Res State :=
  ldmSInstr .db cond wb rn list s

end Sys2Proof.Machine
end

