-- ==== Sys2Proof/Machine/BranchSystem.lean ====
section
/-!
DEFINITION. The ARM branches, the instructions that take an exception, the status-register transfers
(43_arm_branch_system.md R330 to R355) and the refused ARM spaces (30_encoding.md R170).
-/
namespace Sys2Proof.Machine

/-! ## Branches -/

/-- The target of B and BL: A + 8 plus the signed word offset (R330). -/
def State.armTarget (s : State) (off : BitVec 24) : Word := s.cpu.pc + branchOffset 2 off

/-- B (R330). -/
def execB (cond : Cond) (off : BitVec 24) (s : State) : Res State :=
  armInstr cond [] (fun s => .next (s.branchTo (s.armTarget off))) s

/-- BL (R331). -/
def execBl (cond : Cond) (off : BitVec 24) (s : State) : Res State :=
  armInstr cond [lrReg] (fun s => .next ((s.setX lrReg s.nextAddress).branchTo (s.armTarget off))) s

/-- The state change and flush of BX, ARM or THUMB (R332, 44_thumb_alu.md R395). -/
def bxTo (t : Word) (s : State) : Res State :=
  refuseQuirk (!t.getLsbD 0 && t.getLsbD 1) .unpredictable <|
  .next ((s.setCpsr { s.cpu.cpsr with t := t.getLsbD 0 }).branchTo t)

/-- BX (R332). -/
def execBx (cond : Cond) (rm : Reg) (s : State) : Res State := armInstr cond [rm] (fun s => bxTo (s.x rm) s) s

/-! ## Exceptions -/

/-- SWI (R340); the comment is not read. -/
def execSwi (cond : Cond) (_comment : BitVec 24) (s : State) : Res State :=
  armInstr cond [] (fun s => .next s.raiseSwi) s

/-- The undefined instruction (R341). -/
def execUnd (cond : Cond) (_bits : BitVec 28) (s : State) : Res State :=
  armInstr cond [] (fun s => .next s.raiseUndefined) s

/-- LDC and STC: no coprocessor answers (R345). -/
def execLdcStc (cond : Cond) (_p _u _nbit _w _ld : Bool) (_rn _crd : Reg) (_cp : BitVec 4) (_off : BitVec 8)
    (s : State) : Res State :=
  armInstr cond [] (fun s => .next s.raiseUndefined) s

/-- CDP: no coprocessor answers (R345). -/
def execCdp (cond : Cond) (_op1 : BitVec 4) (_crn _crd : Reg) (_cp : BitVec 4) (_op2 : BitVec 3) (_crm : Reg)
    (s : State) : Res State :=
  armInstr cond [] (fun s => .next s.raiseUndefined) s

/-- MRC and MCR: no coprocessor answers (R345). -/
def execMrcMcr (cond : Cond) (_op1 : BitVec 3) (_ld : Bool) (_crn _rd : Reg) (_cp : BitVec 4) (_op2 : BitVec 3)
    (_crm : Reg) (s : State) : Res State :=
  armInstr cond [] (fun s => .next s.raiseUndefined) s

/-! ## Status registers -/

/-- MRS once its operands are allowed (R350). -/
def mrsBody (spsr : Bool) (rd : Reg) (s : State) : Res State :=
  if spsr then
    match s.cpu.spsr s.cpu.cpsr.mode with
    | none => .refused .noSpsr
    | some p => .next (s.setX rd p.toWord).advancePc
  else .next (s.setX rd s.cpu.cpsr.toWord).advancePc

/-- MRS (R350). -/
def execMrs (cond : Cond) (spsr : Bool) (rd : Reg) (s : State) : Res State :=
  armInstr cond [rd] (fun s => refuseIf (rd == pcReg) .unpredictable (mrsBody spsr rd s)) s

/-- The flags field of an SPSR, written if the mask has f (R353). -/
def Spsr.writeFlags (p : Spsr) (f : Bool) (v : Word) : Spsr :=
  if f then { p with n := v.getLsbD 31, z := v.getLsbD 30, c := v.getLsbD 29, v := v.getLsbD 28 } else p

/-- The control field of an SPSR, written if the mask has c: any mode value, any T (R353). -/
def Spsr.writeControl (p : Spsr) (c : Bool) (v : Word) : Spsr :=
  if c then { p with i := v.getLsbD 7, f := v.getLsbD 6, t := v.getLsbD 5, m := v.extractLsb' 0 5 } else p

/-- The flags field of CPSR, written if the mask has f (R353). -/
def Cpsr.writeFlags (p : Cpsr) (f : Bool) (v : Word) : Cpsr :=
  if f then { p with n := v.getLsbD 31, z := v.getLsbD 30, c := v.getLsbD 29, v := v.getLsbD 28 } else p

/-- The control field of CPSR, written if the mask has c and the mode is not usr (R353, R354). -/
def Cpsr.writeControl (p : Cpsr) (c : Bool) (v : Word) : Res Cpsr :=
  if c && p.mode != .usr then
    match Mode.ofCode (v.extractLsb' 0 5) with
    | none => .refused .invalidMode
    | some m =>
      if v.getLsbD 5 != p.t then .refused .tChange
      else .next { p with i := v.getLsbD 7, f := v.getLsbD 6, mode := m }
  else .next p

/-- `psr_write` (R353): mask bit 3 is f and bit 0 is c; s and x reach only reserved bits. -/
def psrWrite (spsr : Bool) (mask : BitVec 4) (v : Word) (s : State) : Res State :=
  if spsr then
    match s.cpu.spsr s.cpu.cpsr.mode with
    | none => .refused .noSpsr
    | some p =>
      let p := (p.writeFlags (mask.getLsbD 3) v).writeControl (mask.getLsbD 0) v
      .next { s with cpu := s.cpu.setSpsr s.cpu.cpsr.mode p }
  else
    andThen ((s.cpu.cpsr.writeFlags (mask.getLsbD 3) v).writeControl (mask.getLsbD 0) v) fun p => .next (s.setCpsr p)

/-- An MSR of a value (R351, R352): it neither writes PC nor flushes. -/
def msrBody (spsr : Bool) (mask : BitVec 4) (v : Word) (s : State) : Res State :=
  andThen (psrWrite spsr mask v s) fun s => .next s.advancePc

/-- MSR, register operand (R351). -/
def execMsrReg (cond : Cond) (spsr : Bool) (mask : BitVec 4) (rm : Reg) (s : State) : Res State :=
  armInstr cond [rm] (fun s => refuseIf (rm == pcReg) .unpredictable (msrBody spsr mask (s.x rm) s)) s

/-- MSR, immediate operand (R352). -/
def execMsrImm (cond : Cond) (spsr : Bool) (mask rot : BitVec 4) (imm : BitVec 8) (s : State) : Res State :=
  armInstr cond [] (fun s => msrBody spsr mask (rotatedImm rot imm) s) s

/-! ## The refused spaces -/

/-- The multiply and swap extension space: `refuse(unallocated)` when the condition passes (30_encoding.md R170). -/
def execArmUnallocMul (cond : Cond) (_bits : BitVec 28) (s : State) : Res State :=
  armInstr cond [] (fun _ => .refused .unallocated) s

/-- The control extension space: `refuse(unallocated)` when the condition passes (R170). -/
def execArmUnallocCtrl (cond : Cond) (_bits : BitVec 28) (s : State) : Res State :=
  armInstr cond [] (fun _ => .refused .unallocated) s

end Sys2Proof.Machine
end

