-- ==== Sys2Proof/Machine/DataProc.lean ====
section
/-!
DEFINITION. The sixteen ARM data-processing instructions in their three operand forms (40_arm_dataproc.md R214 to
R235), each a line over `dataProc`.
-/
namespace Sys2Proof.Machine

/-- The registers a data-processing instruction names as x[i]. -/
def dpUses (op : AluOp) (rn rd : Reg) (o : Operand2) : List Reg :=
  (if op.readsRn then [rn] else []) ++ (if op.isTest then [] else [rd]) ++ o.uses

/-- Is r15 named where QUIRKS = refuse forbids it, beside a register-specified shift? (R204). -/
def dpQuirk (op : AluOp) (rn rd : Reg) (o : Operand2) : Bool := o.isShReg && (dpUses op rn rd o).contains pcReg

/-- Is this form refused? Rs = 15 (R204), and a test with Rd = 15 (R216). -/
def dpRefused (op : AluOp) (rd : Reg) (o : Operand2) : Bool :=
  (op.isTest && rd == pcReg) ||
    match o with
    | .imm _ _ | .shImm _ _ _ => false
    | .shReg rs _ _ => rs == pcReg

/-- The result and its flags (R214). -/
def dpResult (op : AluOp) (rn : Reg) (o : Operand2) (s : State) : AluOut :=
  op.apply (s.xFor o rn) (o.value s).1 (o.value s).2 s.cpu.cpsr

/-- The end of the instruction, when its result is known (R214). -/
def dpFinish (op : AluOp) (sf : Bool) (rd : Reg) (out : AluOut) (s : State) : Res State :=
  if op.isTest then .next (s.setAluFlags out).advancePc
  else if rd = pcReg then (if sf then s.exceptionReturn out.r else .next (s.branchTo out.r))
  else .next ((s.setX rd out.r).setAluFlagsIf sf out).advancePc

/-- `dp_execute` (R214). -/
def dpExecute (op : AluOp) (sf : Bool) (rn rd : Reg) (o : Operand2) (s : State) : Res State :=
  refuseIf (dpRefused op rd o) .unpredictable <|
  refuseQuirk (dpQuirk op rn rd o) .unpredictable <|
  dpFinish op sf rd (dpResult op rn o s) (o.time s)

/-- A data-processing instruction. -/
def dataProc (op : AluOp) (cond : Cond) (sf : Bool) (rn rd : Reg) (o : Operand2) (s : State) : Res State :=
  armInstr cond (dpUses op rn rd o) (dpExecute op sf rn rd o) s

/-- AND, register shifted by an immediate (R220). -/
def execAndShImm (cond : Cond) (sf : Bool) (rn rd : Reg) (n : BitVec 5) (sh : ShiftType) (rm : Reg) (s : State) : Res State :=
  dataProc .and cond sf rn rd (.shImm n sh rm) s

/-- AND, register shifted by a register (R220). -/
def execAndShReg (cond : Cond) (sf : Bool) (rn rd rs : Reg) (sh : ShiftType) (rm : Reg) (s : State) : Res State :=
  dataProc .and cond sf rn rd (.shReg rs sh rm) s

/-- AND, rotated immediate (R220). -/
def execAndImm (cond : Cond) (sf : Bool) (rn rd : Reg) (rot : BitVec 4) (imm : BitVec 8) (s : State) : Res State :=
  dataProc .and cond sf rn rd (.imm rot imm) s

/-- EOR, register shifted by an immediate (R221). -/
def execEorShImm (cond : Cond) (sf : Bool) (rn rd : Reg) (n : BitVec 5) (sh : ShiftType) (rm : Reg) (s : State) : Res State :=
  dataProc .eor cond sf rn rd (.shImm n sh rm) s

/-- EOR, register shifted by a register (R221). -/
def execEorShReg (cond : Cond) (sf : Bool) (rn rd rs : Reg) (sh : ShiftType) (rm : Reg) (s : State) : Res State :=
  dataProc .eor cond sf rn rd (.shReg rs sh rm) s

/-- EOR, rotated immediate (R221). -/
def execEorImm (cond : Cond) (sf : Bool) (rn rd : Reg) (rot : BitVec 4) (imm : BitVec 8) (s : State) : Res State :=
  dataProc .eor cond sf rn rd (.imm rot imm) s

/-- SUB, register shifted by an immediate (R222). -/
def execSubShImm (cond : Cond) (sf : Bool) (rn rd : Reg) (n : BitVec 5) (sh : ShiftType) (rm : Reg) (s : State) : Res State :=
  dataProc .sub cond sf rn rd (.shImm n sh rm) s

/-- SUB, register shifted by a register (R222). -/
def execSubShReg (cond : Cond) (sf : Bool) (rn rd rs : Reg) (sh : ShiftType) (rm : Reg) (s : State) : Res State :=
  dataProc .sub cond sf rn rd (.shReg rs sh rm) s

/-- SUB, rotated immediate (R222). -/
def execSubImm (cond : Cond) (sf : Bool) (rn rd : Reg) (rot : BitVec 4) (imm : BitVec 8) (s : State) : Res State :=
  dataProc .sub cond sf rn rd (.imm rot imm) s

/-- RSB, register shifted by an immediate (R223). -/
def execRsbShImm (cond : Cond) (sf : Bool) (rn rd : Reg) (n : BitVec 5) (sh : ShiftType) (rm : Reg) (s : State) : Res State :=
  dataProc .rsb cond sf rn rd (.shImm n sh rm) s

/-- RSB, register shifted by a register (R223). -/
def execRsbShReg (cond : Cond) (sf : Bool) (rn rd rs : Reg) (sh : ShiftType) (rm : Reg) (s : State) : Res State :=
  dataProc .rsb cond sf rn rd (.shReg rs sh rm) s

/-- RSB, rotated immediate (R223). -/
def execRsbImm (cond : Cond) (sf : Bool) (rn rd : Reg) (rot : BitVec 4) (imm : BitVec 8) (s : State) : Res State :=
  dataProc .rsb cond sf rn rd (.imm rot imm) s

/-- ADD, register shifted by an immediate (R224). -/
def execAddShImm (cond : Cond) (sf : Bool) (rn rd : Reg) (n : BitVec 5) (sh : ShiftType) (rm : Reg) (s : State) : Res State :=
  dataProc .add cond sf rn rd (.shImm n sh rm) s

/-- ADD, register shifted by a register (R224). -/
def execAddShReg (cond : Cond) (sf : Bool) (rn rd rs : Reg) (sh : ShiftType) (rm : Reg) (s : State) : Res State :=
  dataProc .add cond sf rn rd (.shReg rs sh rm) s

/-- ADD, rotated immediate (R224). -/
def execAddImm (cond : Cond) (sf : Bool) (rn rd : Reg) (rot : BitVec 4) (imm : BitVec 8) (s : State) : Res State :=
  dataProc .add cond sf rn rd (.imm rot imm) s

/-- ADC, register shifted by an immediate (R225). -/
def execAdcShImm (cond : Cond) (sf : Bool) (rn rd : Reg) (n : BitVec 5) (sh : ShiftType) (rm : Reg) (s : State) : Res State :=
  dataProc .adc cond sf rn rd (.shImm n sh rm) s

/-- ADC, register shifted by a register (R225). -/
def execAdcShReg (cond : Cond) (sf : Bool) (rn rd rs : Reg) (sh : ShiftType) (rm : Reg) (s : State) : Res State :=
  dataProc .adc cond sf rn rd (.shReg rs sh rm) s

/-- ADC, rotated immediate (R225). -/
def execAdcImm (cond : Cond) (sf : Bool) (rn rd : Reg) (rot : BitVec 4) (imm : BitVec 8) (s : State) : Res State :=
  dataProc .adc cond sf rn rd (.imm rot imm) s

/-- SBC, register shifted by an immediate (R226). -/
def execSbcShImm (cond : Cond) (sf : Bool) (rn rd : Reg) (n : BitVec 5) (sh : ShiftType) (rm : Reg) (s : State) : Res State :=
  dataProc .sbc cond sf rn rd (.shImm n sh rm) s

/-- SBC, register shifted by a register (R226). -/
def execSbcShReg (cond : Cond) (sf : Bool) (rn rd rs : Reg) (sh : ShiftType) (rm : Reg) (s : State) : Res State :=
  dataProc .sbc cond sf rn rd (.shReg rs sh rm) s

/-- SBC, rotated immediate (R226). -/
def execSbcImm (cond : Cond) (sf : Bool) (rn rd : Reg) (rot : BitVec 4) (imm : BitVec 8) (s : State) : Res State :=
  dataProc .sbc cond sf rn rd (.imm rot imm) s

/-- RSC, register shifted by an immediate (R227). -/
def execRscShImm (cond : Cond) (sf : Bool) (rn rd : Reg) (n : BitVec 5) (sh : ShiftType) (rm : Reg) (s : State) : Res State :=
  dataProc .rsc cond sf rn rd (.shImm n sh rm) s

/-- RSC, register shifted by a register (R227). -/
def execRscShReg (cond : Cond) (sf : Bool) (rn rd rs : Reg) (sh : ShiftType) (rm : Reg) (s : State) : Res State :=
  dataProc .rsc cond sf rn rd (.shReg rs sh rm) s

/-- RSC, rotated immediate (R227). -/
def execRscImm (cond : Cond) (sf : Bool) (rn rd : Reg) (rot : BitVec 4) (imm : BitVec 8) (s : State) : Res State :=
  dataProc .rsc cond sf rn rd (.imm rot imm) s

/-- TST, register shifted by an immediate (R228). -/
def execTstShImm (cond : Cond) (rn rd : Reg) (n : BitVec 5) (sh : ShiftType) (rm : Reg) (s : State) : Res State :=
  dataProc .tst cond true rn rd (.shImm n sh rm) s

/-- TST, register shifted by a register (R228). -/
def execTstShReg (cond : Cond) (rn rd rs : Reg) (sh : ShiftType) (rm : Reg) (s : State) : Res State :=
  dataProc .tst cond true rn rd (.shReg rs sh rm) s

/-- TST, rotated immediate (R228). -/
def execTstImm (cond : Cond) (rn rd : Reg) (rot : BitVec 4) (imm : BitVec 8) (s : State) : Res State :=
  dataProc .tst cond true rn rd (.imm rot imm) s

/-- TEQ, register shifted by an immediate (R229). -/
def execTeqShImm (cond : Cond) (rn rd : Reg) (n : BitVec 5) (sh : ShiftType) (rm : Reg) (s : State) : Res State :=
  dataProc .teq cond true rn rd (.shImm n sh rm) s

/-- TEQ, register shifted by a register (R229). -/
def execTeqShReg (cond : Cond) (rn rd rs : Reg) (sh : ShiftType) (rm : Reg) (s : State) : Res State :=
  dataProc .teq cond true rn rd (.shReg rs sh rm) s

/-- TEQ, rotated immediate (R229). -/
def execTeqImm (cond : Cond) (rn rd : Reg) (rot : BitVec 4) (imm : BitVec 8) (s : State) : Res State :=
  dataProc .teq cond true rn rd (.imm rot imm) s

/-- CMP, register shifted by an immediate (R230). -/
def execCmpShImm (cond : Cond) (rn rd : Reg) (n : BitVec 5) (sh : ShiftType) (rm : Reg) (s : State) : Res State :=
  dataProc .cmp cond true rn rd (.shImm n sh rm) s

/-- CMP, register shifted by a register (R230). -/
def execCmpShReg (cond : Cond) (rn rd rs : Reg) (sh : ShiftType) (rm : Reg) (s : State) : Res State :=
  dataProc .cmp cond true rn rd (.shReg rs sh rm) s

/-- CMP, rotated immediate (R230). -/
def execCmpImm (cond : Cond) (rn rd : Reg) (rot : BitVec 4) (imm : BitVec 8) (s : State) : Res State :=
  dataProc .cmp cond true rn rd (.imm rot imm) s

/-- CMN, register shifted by an immediate (R231). -/
def execCmnShImm (cond : Cond) (rn rd : Reg) (n : BitVec 5) (sh : ShiftType) (rm : Reg) (s : State) : Res State :=
  dataProc .cmn cond true rn rd (.shImm n sh rm) s

/-- CMN, register shifted by a register (R231). -/
def execCmnShReg (cond : Cond) (rn rd rs : Reg) (sh : ShiftType) (rm : Reg) (s : State) : Res State :=
  dataProc .cmn cond true rn rd (.shReg rs sh rm) s

/-- CMN, rotated immediate (R231). -/
def execCmnImm (cond : Cond) (rn rd : Reg) (rot : BitVec 4) (imm : BitVec 8) (s : State) : Res State :=
  dataProc .cmn cond true rn rd (.imm rot imm) s

/-- ORR, register shifted by an immediate (R232). -/
def execOrrShImm (cond : Cond) (sf : Bool) (rn rd : Reg) (n : BitVec 5) (sh : ShiftType) (rm : Reg) (s : State) : Res State :=
  dataProc .orr cond sf rn rd (.shImm n sh rm) s

/-- ORR, register shifted by a register (R232). -/
def execOrrShReg (cond : Cond) (sf : Bool) (rn rd rs : Reg) (sh : ShiftType) (rm : Reg) (s : State) : Res State :=
  dataProc .orr cond sf rn rd (.shReg rs sh rm) s

/-- ORR, rotated immediate (R232). -/
def execOrrImm (cond : Cond) (sf : Bool) (rn rd : Reg) (rot : BitVec 4) (imm : BitVec 8) (s : State) : Res State :=
  dataProc .orr cond sf rn rd (.imm rot imm) s

/-- MOV, register shifted by an immediate (R233). -/
def execMovShImm (cond : Cond) (sf : Bool) (rd : Reg) (n : BitVec 5) (sh : ShiftType) (rm : Reg) (s : State) : Res State :=
  dataProc .mov cond sf 0 rd (.shImm n sh rm) s

/-- MOV, register shifted by a register (R233). -/
def execMovShReg (cond : Cond) (sf : Bool) (rd rs : Reg) (sh : ShiftType) (rm : Reg) (s : State) : Res State :=
  dataProc .mov cond sf 0 rd (.shReg rs sh rm) s

/-- MOV, rotated immediate (R233). -/
def execMovImm (cond : Cond) (sf : Bool) (rd : Reg) (rot : BitVec 4) (imm : BitVec 8) (s : State) : Res State :=
  dataProc .mov cond sf 0 rd (.imm rot imm) s

/-- BIC, register shifted by an immediate (R234). -/
def execBicShImm (cond : Cond) (sf : Bool) (rn rd : Reg) (n : BitVec 5) (sh : ShiftType) (rm : Reg) (s : State) : Res State :=
  dataProc .bic cond sf rn rd (.shImm n sh rm) s

/-- BIC, register shifted by a register (R234). -/
def execBicShReg (cond : Cond) (sf : Bool) (rn rd rs : Reg) (sh : ShiftType) (rm : Reg) (s : State) : Res State :=
  dataProc .bic cond sf rn rd (.shReg rs sh rm) s

/-- BIC, rotated immediate (R234). -/
def execBicImm (cond : Cond) (sf : Bool) (rn rd : Reg) (rot : BitVec 4) (imm : BitVec 8) (s : State) : Res State :=
  dataProc .bic cond sf rn rd (.imm rot imm) s

/-- MVN, register shifted by an immediate (R235). -/
def execMvnShImm (cond : Cond) (sf : Bool) (rd : Reg) (n : BitVec 5) (sh : ShiftType) (rm : Reg) (s : State) : Res State :=
  dataProc .mvn cond sf 0 rd (.shImm n sh rm) s

/-- MVN, register shifted by a register (R235). -/
def execMvnShReg (cond : Cond) (sf : Bool) (rd rs : Reg) (sh : ShiftType) (rm : Reg) (s : State) : Res State :=
  dataProc .mvn cond sf 0 rd (.shReg rs sh rm) s

/-- MVN, rotated immediate (R235). -/
def execMvnImm (cond : Cond) (sf : Bool) (rd : Reg) (rot : BitVec 4) (imm : BitVec 8) (s : State) : Res State :=
  dataProc .mvn cond sf 0 rd (.imm rot imm) s

end Sys2Proof.Machine
end

