-- ==== Sys2Proof/Machine/Multiply.lean ====
section
/-!
DEFINITION. The six ARM multiplies (41_arm_multiply.md R260 to R267).
-/
namespace Sys2Proof.Machine

/-- `m(v, signed_ok)` (R260). -/
def mulCycles (v : Word) (signedOk : Bool) : Nat :=
  if v.extractLsb' 8 24 = 0 || (signedOk && v.extractLsb' 8 24 = 0xFFFFFF) then 1
  else if v.extractLsb' 16 16 = 0 || (signedOk && v.extractLsb' 16 16 = 0xFFFF) then 2
  else if v.extractLsb' 24 8 = 0 || (signedOk && v.extractLsb' 24 8 = 0xFF) then 3
  else 4

/-- Write a 32-bit product after `n` internal cycles (R263). -/
def mulFinish (n : Nat) (sf : Bool) (rd : Reg) (r : Word) (s : State) : State :=
  let s := (s.idles n).setX rd r
  (if sf then s.setMulFlags r else s).advancePc

/-- MUL, and MLA with its addend (R261, R262); the operands are read first. -/
def mulCore (cond : Cond) (sf : Bool) (rd rs rm : Reg) (uses : List Reg) (acc : State → Word) (extra : Nat)
    (s : State) : Res State :=
  armInstr cond uses (fun s =>
    refuseIf (uses.contains pcReg) .unpredictable <|
    refuseQuirk (rd == rm) .unpredictable <|
    .next (mulFinish (mulCycles (s.x rs) true + extra) sf rd (s.x rm * s.x rs + acc s) s)) s

/-- MUL (R261). -/
def execMul (cond : Cond) (sf : Bool) (rd rs rm : Reg) (s : State) : Res State :=
  mulCore cond sf rd rs rm [rd, rs, rm] (fun _ => 0) 0 s

/-- MLA (R262). -/
def execMla (cond : Cond) (sf : Bool) (rd rn rs rm : Reg) (s : State) : Res State :=
  mulCore cond sf rd rs rm [rd, rn, rs, rm] (fun s => s.x rn) 1 s

/-- The 64-bit product of two words (R264, R266). -/
def product64 (signed : Bool) (a b : Word) : BitVec 64 :=
  if signed then a.signExtend 64 * b.signExtend 64 else a.zeroExtend 64 * b.zeroExtend 64

/-- Write a 64-bit product after `n` internal cycles (R263). -/
def mulLongFinish (n : Nat) (sf : Bool) (rdHi rdLo : Reg) (p : BitVec 64) (s : State) : State :=
  let s := ((s.idles n).setX rdLo (p.extractLsb' 0 32)).setX rdHi (p.extractLsb' 32 32)
  (if sf then s.setMulLongFlags p else s).advancePc

/-- The long multiplies (R263 to R267); the operands are read first. -/
def mulLongCore (signed : Bool) (cond : Cond) (sf : Bool) (rdHi rdLo rs rm : Reg) (acc : State → BitVec 64)
    (extra : Nat) (s : State) : Res State :=
  armInstr cond [rdHi, rdLo, rs, rm] (fun s =>
    refuseIf ([rdHi, rdLo, rs, rm].contains pcReg || rdHi == rdLo) .unpredictable <|
    refuseQuirk (rdHi == rm || rdLo == rm) .unpredictable <|
    .next (mulLongFinish (mulCycles (s.x rs) signed + extra) sf rdHi rdLo
      (product64 signed (s.x rm) (s.x rs) + acc s) s)) s

/-- UMULL (R264). -/
def execUmull (cond : Cond) (sf : Bool) (rdHi rdLo rs rm : Reg) (s : State) : Res State :=
  mulLongCore false cond sf rdHi rdLo rs rm (fun _ => 0) 1 s

/-- UMLAL (R265). -/
def execUmlal (cond : Cond) (sf : Bool) (rdHi rdLo rs rm : Reg) (s : State) : Res State :=
  mulLongCore false cond sf rdHi rdLo rs rm (fun s => s.x rdHi ++ s.x rdLo) 2 s

/-- SMULL (R266). -/
def execSmull (cond : Cond) (sf : Bool) (rdHi rdLo rs rm : Reg) (s : State) : Res State :=
  mulLongCore true cond sf rdHi rdLo rs rm (fun _ => 0) 1 s

/-- SMLAL (R267). -/
def execSmlal (cond : Cond) (sf : Bool) (rdHi rdLo rs rm : Reg) (s : State) : Res State :=
  mulLongCore true cond sf rdHi rdLo rs rm (fun s => s.x rdHi ++ s.x rdLo) 2 s

end Sys2Proof.Machine
end

