-- ==== Sys2Proof/Machine/ThumbAlu.lean ====
section
/-!
DEFINITION. THUMB formats 1 to 5 (44_thumb_alu.md R360 to R395).
-/
namespace Sys2Proof.Machine

/-- The end of a THUMB instruction of formats 1 to 4 with a result: the register, unless it is a comparison, and the
flags (44_thumb_alu.md section 1). -/
def thumbFinish (test : Bool) (rd : LowReg) (out : AluOut) (s : State) : State :=
  ((if test then s else s.setX rd.toReg out.r).setAluFlags out).advancePc

/-! ## Format 1 -/

/-- A shift by an immediate, whose 0 means 32 for LSR and ASR (R360 to R362). -/
def thumbShift (sh : ShiftType) (n : BitVec 5) (rs rd : LowReg) (s : State) : Res State :=
  thumbInstr [] (fun s =>
    let (r, sc) := shiftByImm sh (s.x rs.toReg) n s.cpu.cpsr.c
    .next (thumbFinish false rd ⟨r, sc, s.cpu.cpsr.v⟩ s)) s

/-- LSL, immediate (R360). -/
def execTLslImm (n : BitVec 5) (rs rd : LowReg) (s : State) : Res State := thumbShift .lsl n rs rd s

/-- LSR, immediate (R361). -/
def execTLsrImm (n : BitVec 5) (rs rd : LowReg) (s : State) : Res State := thumbShift .lsr n rs rd s

/-- ASR, immediate (R362). -/
def execTAsrImm (n : BitVec 5) (rs rd : LowReg) (s : State) : Res State := thumbShift .asr n rs rd s

/-! ## Formats 2 and 3, and the plain operations of format 4 -/

/-- An operation on two values, with no shifter: C passes through a logical one (44_thumb_alu.md section 5). -/
def thumbAlu (op : AluOp) (a b : State → Word) (rd : LowReg) (s : State) : Res State :=
  thumbInstr [] (fun s => .next (thumbFinish op.isTest rd (op.apply (a s) (b s) s.cpu.cpsr.c s.cpu.cpsr) s)) s

/-- A low register as an operand. -/
def lowX (r : LowReg) (s : State) : Word := s.x r.toReg

/-- ADD, register (R365). -/
def execTAddReg (rn rs rd : LowReg) (s : State) : Res State := thumbAlu .add (lowX rs) (lowX rn) rd s

/-- SUB, register (R366). -/
def execTSubReg (rn rs rd : LowReg) (s : State) : Res State := thumbAlu .sub (lowX rs) (lowX rn) rd s

/-- ADD, 3-bit immediate (R367). -/
def execTAddImm3 (imm : BitVec 3) (rs rd : LowReg) (s : State) : Res State :=
  thumbAlu .add (lowX rs) (fun _ => imm.zeroExtend 32) rd s

/-- SUB, 3-bit immediate (R368). -/
def execTSubImm3 (imm : BitVec 3) (rs rd : LowReg) (s : State) : Res State :=
  thumbAlu .sub (lowX rs) (fun _ => imm.zeroExtend 32) rd s

/-- MOV, 8-bit immediate (R370). -/
def execTMovImm8 (rd : LowReg) (imm : BitVec 8) (s : State) : Res State :=
  thumbAlu .mov (fun _ => 0) (fun _ => imm.zeroExtend 32) rd s

/-- CMP, 8-bit immediate (R371). -/
def execTCmpImm8 (rd : LowReg) (imm : BitVec 8) (s : State) : Res State :=
  thumbAlu .cmp (lowX rd) (fun _ => imm.zeroExtend 32) rd s

/-- ADD, 8-bit immediate (R372). -/
def execTAddImm8 (rd : LowReg) (imm : BitVec 8) (s : State) : Res State :=
  thumbAlu .add (lowX rd) (fun _ => imm.zeroExtend 32) rd s

/-- SUB, 8-bit immediate (R373). -/
def execTSubImm8 (rd : LowReg) (imm : BitVec 8) (s : State) : Res State :=
  thumbAlu .sub (lowX rd) (fun _ => imm.zeroExtend 32) rd s

/-- AND (R374). -/
def execTAnd (rs rd : LowReg) (s : State) : Res State := thumbAlu .and (lowX rd) (lowX rs) rd s

/-- EOR (R375). -/
def execTEor (rs rd : LowReg) (s : State) : Res State := thumbAlu .eor (lowX rd) (lowX rs) rd s

/-- ADC (R379). -/
def execTAdc (rs rd : LowReg) (s : State) : Res State := thumbAlu .adc (lowX rd) (lowX rs) rd s

/-- SBC (R380). -/
def execTSbc (rs rd : LowReg) (s : State) : Res State := thumbAlu .sbc (lowX rd) (lowX rs) rd s

/-- TST (R382). -/
def execTTst (rs rd : LowReg) (s : State) : Res State := thumbAlu .tst (lowX rd) (lowX rs) rd s

/-- NEG: 0 - x[Rs] (R383). -/
def execTNeg (rs rd : LowReg) (s : State) : Res State := thumbAlu .sub (fun _ => 0) (lowX rs) rd s

/-- CMP, low registers (R384). -/
def execTCmpReg (rs rd : LowReg) (s : State) : Res State := thumbAlu .cmp (lowX rd) (lowX rs) rd s

/-- CMN (R385). -/
def execTCmn (rs rd : LowReg) (s : State) : Res State := thumbAlu .cmn (lowX rd) (lowX rs) rd s

/-- ORR (R386). -/
def execTOrr (rs rd : LowReg) (s : State) : Res State := thumbAlu .orr (lowX rd) (lowX rs) rd s

/-- BIC (R388). -/
def execTBic (rs rd : LowReg) (s : State) : Res State := thumbAlu .bic (lowX rd) (lowX rs) rd s

/-- MVN (R389). -/
def execTMvn (rs rd : LowReg) (s : State) : Res State := thumbAlu .mvn (fun _ => 0) (lowX rs) rd s

/-! ## Format 4: the shifts by a register, and MUL -/

/-- A shift by a register, with its internal cycle (44_thumb_alu.md section 5). -/
def thumbShiftReg (sh : ShiftType) (rs rd : LowReg) (s : State) : Res State :=
  thumbInstr [] (fun s =>
    let (r, sc) := shiftBy sh (s.x rd.toReg) ((s.x rs.toReg).toNat % 256) s.cpu.cpsr.c
    .next (thumbFinish false rd ⟨r, sc, s.cpu.cpsr.v⟩ s.idle)) s

/-- LSL, register (R376). -/
def execTLslReg (rs rd : LowReg) (s : State) : Res State := thumbShiftReg .lsl rs rd s

/-- LSR, register (R377). -/
def execTLsrReg (rs rd : LowReg) (s : State) : Res State := thumbShiftReg .lsr rs rd s

/-- ASR, register (R378). -/
def execTAsrReg (rs rd : LowReg) (s : State) : Res State := thumbShiftReg .asr rs rd s

/-- ROR, register (R381). -/
def execTRorReg (rs rd : LowReg) (s : State) : Res State := thumbShiftReg .ror rs rd s

/-- MUL (R387): the multiplier operand is the old value of Rd. -/
def execTMul (rs rd : LowReg) (s : State) : Res State :=
  thumbInstr [] (fun s =>
    refuseQuirk (rd == rs) .unpredictable <|
    .next (mulFinish (mulCycles (s.x rd.toReg) true) true rd.toReg (s.x rs.toReg * s.x rd.toReg) s)) s

/-! ## Format 5 -/

/-- Are both operands low registers? The data sheet calls ADD, CMP and MOV undefined then (30_encoding.md R178). -/
def bothLow (hs hd : Reg) : Bool := decide (hs.val < 8) && decide (hd.val < 8)

/-- ADD, hi registers (R392). -/
def execTAddHi (hs hd : Reg) (s : State) : Res State :=
  thumbInstr [hs, hd] (fun s =>
    refuseQuirk (bothLow hs hd) .unpredictable (.next (s.writeOrBranch hd (s.x hd + s.x hs)))) s

/-- CMP, hi registers (R393). -/
def execTCmpHi (hs hd : Reg) (s : State) : Res State :=
  thumbInstr [hs, hd] (fun s =>
    refuseQuirk (bothLow hs hd) .unpredictable <|
    .next (s.setAluFlags (addWithCarry (s.x hd) (~~~(s.x hs)) true)).advancePc) s

/-- MOV, hi registers (R394). -/
def execTMovHi (hs hd : Reg) (s : State) : Res State :=
  thumbInstr [hs, hd] (fun s =>
    refuseQuirk (bothLow hs hd) .unpredictable (.next (s.writeOrBranch hd (s.x hs)))) s

/-- BX (R395); the Hd field is ignored (30_encoding.md R178). -/
def execTBx (hs hd : Reg) (s : State) : Res State :=
  thumbInstr [hs] (fun s => refuseQuirk (hd != 0) .unpredictable (bxTo (s.x hs) s)) s

end Sys2Proof.Machine
end

