-- ==== Sys2Proof/Machine/ThumbBranch.lean ====
section
/-!
DEFINITION. THUMB formats 16 to 19 (45_thumb_mem_branch.md R440 to R447) and the unallocated spaces (30_encoding.md
R182).
-/
namespace Sys2Proof.Machine

/-- B{cond} (R440): a branch that is not taken keeps the fetch class. -/
def execTBcond (cond : Cond) (off : BitVec 8) (s : State) : Res State :=
  thumbInstr [] (fun s =>
    .next (if condPassed s.cpu.cpsr cond then s.branchTo (s.cpu.pc + branchOffset 1 off) else s.advancePc)) s

/-- B (R442). -/
def execTB (off : BitVec 11) (s : State) : Res State :=
  thumbInstr [] (fun s => .next (s.branchTo (s.cpu.pc + branchOffset 1 off))) s

/-- SWI (R445); the value is not read. -/
def execTSwi (_value : BitVec 8) (s : State) : Res State := thumbInstr [] (fun s => .next s.raiseSwi) s

/-- BL, first half (R446). -/
def execTBlPrefix (off : BitVec 11) (s : State) : Res State :=
  thumbInstr [lrReg] (fun s => .next (s.setX lrReg (s.cpu.pc + branchOffset 12 off)).advancePc) s

/-- BL, second half (R447): the link has bit 0 set, and the state does not change. -/
def execTBlSuffix (off : BitVec 11) (s : State) : Res State :=
  thumbInstr [lrReg] (fun s =>
    .next ((s.setX lrReg (s.nextAddress ||| 1)).branchTo (s.x lrReg + scaled 1 off))) s

/-- The unallocated spaces: `refuse(unallocated)` (30_encoding.md R182). -/
def execTUnalloc (_bits : BitVec 16) (s : State) : Res State := thumbInstr [] (fun _ => .refused .unallocated) s

end Sys2Proof.Machine
end

