-- ==== Sys2Proof/Machine/ThumbMem.lean ====
section
/-!
DEFINITION. THUMB formats 6 to 15: transfers, address generation, the stack (45_thumb_mem_branch.md R400 to R427).
-/
namespace Sys2Proof.Machine

/-! ## Single transfers -/

/-- A THUMB load at an address, with no write-back (section 1). -/
def thumbLoad (k : LoadKind) (uses : List Reg) (rd : LowReg) (addr : State → Word) (s : State) : Res State :=
  thumbInstr uses (fun s => loadAt k (addr s) false rd.toReg rd.toReg 0 s) s

/-- A THUMB store at an address, with no write-back (section 1). -/
def thumbStore (k : StoreKind) (uses : List Reg) (rd : LowReg) (addr : State → Word) (s : State) : Res State :=
  thumbInstr uses (fun s => storeAt k (addr s) (s.x rd.toReg) false rd.toReg 0 s) s

/-- The address of formats 7 and 8: x[Rb] + x[Ro]. -/
def regAddr (ro rb : LowReg) (s : State) : Word := s.x rb.toReg + s.x ro.toReg

/-- The address of formats 9 and 10: x[Rb] plus the scaled offset. -/
def immAddr (k : Nat) (off : BitVec 5) (rb : LowReg) (s : State) : Word := s.x rb.toReg + scaled k off

/-- The address of format 11: x[13] plus the scaled offset. -/
def spAddr (imm : BitVec 8) (s : State) : Word := s.x spReg + scaled 2 imm

/-- LDR, PC-relative (R400). -/
def execTLdrPc (rd : LowReg) (imm : BitVec 8) (s : State) : Res State :=
  thumbLoad .word [] rd (fun s => s.pcWord + scaled 2 imm) s

/-- STR, register offset (R402). -/
def execTStrReg (ro rb rd : LowReg) (s : State) : Res State := thumbStore .word [] rd (regAddr ro rb) s

/-- STRB, register offset (R403). -/
def execTStrbReg (ro rb rd : LowReg) (s : State) : Res State := thumbStore .byte [] rd (regAddr ro rb) s

/-- LDR, register offset (R404). -/
def execTLdrReg (ro rb rd : LowReg) (s : State) : Res State := thumbLoad .word [] rd (regAddr ro rb) s

/-- LDRB, register offset (R405). -/
def execTLdrbReg (ro rb rd : LowReg) (s : State) : Res State := thumbLoad .byte [] rd (regAddr ro rb) s

/-- STRH, register offset (R406). -/
def execTStrhReg (ro rb rd : LowReg) (s : State) : Res State := thumbStore .half [] rd (regAddr ro rb) s

/-- LDRH, register offset (R407). -/
def execTLdrhReg (ro rb rd : LowReg) (s : State) : Res State := thumbLoad .half [] rd (regAddr ro rb) s

/-- LDSB, register offset (R408). -/
def execTLdsbReg (ro rb rd : LowReg) (s : State) : Res State := thumbLoad .sbyte [] rd (regAddr ro rb) s

/-- LDSH, register offset (R409). -/
def execTLdshReg (ro rb rd : LowReg) (s : State) : Res State := thumbLoad .shalf [] rd (regAddr ro rb) s

/-- STR, immediate offset (R410). -/
def execTStrImm (off : BitVec 5) (rb rd : LowReg) (s : State) : Res State :=
  thumbStore .word [] rd (immAddr 2 off rb) s

/-- LDR, immediate offset (R411). -/
def execTLdrImm (off : BitVec 5) (rb rd : LowReg) (s : State) : Res State :=
  thumbLoad .word [] rd (immAddr 2 off rb) s

/-- STRB, immediate offset (R412). -/
def execTStrbImm (off : BitVec 5) (rb rd : LowReg) (s : State) : Res State :=
  thumbStore .byte [] rd (immAddr 0 off rb) s

/-- LDRB, immediate offset (R413). -/
def execTLdrbImm (off : BitVec 5) (rb rd : LowReg) (s : State) : Res State :=
  thumbLoad .byte [] rd (immAddr 0 off rb) s

/-- STRH, immediate offset (R414). -/
def execTStrhImm (off : BitVec 5) (rb rd : LowReg) (s : State) : Res State :=
  thumbStore .half [] rd (immAddr 1 off rb) s

/-- LDRH, immediate offset (R415). -/
def execTLdrhImm (off : BitVec 5) (rb rd : LowReg) (s : State) : Res State :=
  thumbLoad .half [] rd (immAddr 1 off rb) s

/-- STR, SP-relative (R416). -/
def execTStrSp (rd : LowReg) (imm : BitVec 8) (s : State) : Res State := thumbStore .word [spReg] rd (spAddr imm) s

/-- LDR, SP-relative (R417). -/
def execTLdrSp (rd : LowReg) (imm : BitVec 8) (s : State) : Res State := thumbLoad .word [spReg] rd (spAddr imm) s

/-! ## Address generation and the stack pointer -/

/-- ADD Rd, PC, #imm (R418). -/
def execTAddPc (rd : LowReg) (imm : BitVec 8) (s : State) : Res State :=
  thumbInstr [] (fun s => .next (s.setX rd.toReg (s.pcWord + scaled 2 imm)).advancePc) s

/-- ADD Rd, SP, #imm (R419). -/
def execTAddSp (rd : LowReg) (imm : BitVec 8) (s : State) : Res State :=
  thumbInstr [spReg] (fun s => .next (s.setX rd.toReg (spAddr imm s)).advancePc) s

/-- ADD SP, #imm or #-imm (R420). -/
def execTAddSpImm (neg : Bool) (imm : BitVec 7) (s : State) : Res State :=
  thumbInstr [spReg] (fun s =>
    .next (s.setX spReg (if neg then s.x spReg - scaled 2 imm else s.x spReg + scaled 2 imm)).advancePc) s

/-! ## The stack and the multiple transfers -/

/-- The list of PUSH: r0 to r7, and lr when R = 1 (R422). -/
def pushList (lr : Bool) (list : BitVec 8) : BitVec 16 := (0 : BitVec 1) ++ bit lr ++ (0 : BitVec 6) ++ list

/-- The list of POP: r0 to r7, and pc when R = 1 (R423). -/
def popList (pc : Bool) (list : BitVec 8) : BitVec 16 := bit pc ++ (0 : BitVec 7) ++ list

/-- The list of a multiple transfer. -/
def lowList (list : BitVec 8) : BitVec 16 := list.zeroExtend 16

/-- PUSH is STMDB sp!, with an empty list storing A + 6 (R422). -/
def execTPush (lr : Bool) (list : BitVec 8) (s : State) : Res State :=
  thumbInstr (spReg :: blockRegs (pushList lr list)) (stmCore .db true spReg (pushList lr list)) s

/-- POP is LDMIA sp!, staying in THUMB state (R423). -/
def execTPop (pc : Bool) (list : BitVec 8) (s : State) : Res State :=
  thumbInstr (spReg :: blockRegs (popList pc list)) (ldmCore .ia true spReg (popList pc list)) s

/-- STMIA Rb!, with an empty list storing A + 6 (R426). -/
def execTStmia (rb : LowReg) (list : BitVec 8) (s : State) : Res State :=
  thumbInstr [] (stmCore .ia true rb.toReg (lowList list)) s

/-- LDMIA Rb!, with an empty list loading pc (R427). -/
def execTLdmia (rb : LowReg) (list : BitVec 8) (s : State) : Res State :=
  thumbInstr [] (ldmCore .ia true rb.toReg (lowList list)) s

end Sys2Proof.Machine
end

