-- ==== Sys2Proof/Machine/Dispatch.lean ====
section
/-!
DEFINITION. The meaning of each instruction, one arm per constructor.
-/
namespace Sys2Proof.Machine

/-- What an instruction does to the state in which it was fetched (30_encoding.md R150, steps 4 and 5). -/
def exec (i : Instr) (s : State) : Host.Outcome State Fault Refusal :=
  match i with
  | .bx cond rm => Sys2Proof.Machine.execBx cond rm s
  | .mul cond sf rd rs rm => Sys2Proof.Machine.execMul cond sf rd rs rm s
  | .mla cond sf rd rn rs rm => Sys2Proof.Machine.execMla cond sf rd rn rs rm s
  | .umull cond sf rdHi rdLo rs rm => Sys2Proof.Machine.execUmull cond sf rdHi rdLo rs rm s
  | .umlal cond sf rdHi rdLo rs rm => Sys2Proof.Machine.execUmlal cond sf rdHi rdLo rs rm s
  | .smull cond sf rdHi rdLo rs rm => Sys2Proof.Machine.execSmull cond sf rdHi rdLo rs rm s
  | .smlal cond sf rdHi rdLo rs rm => Sys2Proof.Machine.execSmlal cond sf rdHi rdLo rs rm s
  | .swp cond rn rd rm => Sys2Proof.Machine.execSwp cond rn rd rm s
  | .swpb cond rn rd rm => Sys2Proof.Machine.execSwpb cond rn rd rm s
  | .armUnallocMul cond bits => Sys2Proof.Machine.execArmUnallocMul cond bits s
  | .hwUnalloc cond bits => Sys2Proof.Machine.execHwUnalloc cond bits s
  | .hwUnpred cond bits => Sys2Proof.Machine.execHwUnpred cond bits s
  | .strhImm cond ix up rn rd imm => Sys2Proof.Machine.execStrhImm cond ix up rn rd imm s
  | .strhReg cond ix up rn rd rm => Sys2Proof.Machine.execStrhReg cond ix up rn rd rm s
  | .ldrhImm cond ix up rn rd imm => Sys2Proof.Machine.execLdrhImm cond ix up rn rd imm s
  | .ldrhReg cond ix up rn rd rm => Sys2Proof.Machine.execLdrhReg cond ix up rn rd rm s
  | .ldrsbImm cond ix up rn rd imm => Sys2Proof.Machine.execLdrsbImm cond ix up rn rd imm s
  | .ldrsbReg cond ix up rn rd rm => Sys2Proof.Machine.execLdrsbReg cond ix up rn rd rm s
  | .ldrshImm cond ix up rn rd imm => Sys2Proof.Machine.execLdrshImm cond ix up rn rd imm s
  | .ldrshReg cond ix up rn rd rm => Sys2Proof.Machine.execLdrshReg cond ix up rn rd rm s
  | .mrs cond spsr rd => Sys2Proof.Machine.execMrs cond spsr rd s
  | .msrReg cond spsr mask rm => Sys2Proof.Machine.execMsrReg cond spsr mask rm s
  | .msrImm cond spsr mask rot imm => Sys2Proof.Machine.execMsrImm cond spsr mask rot imm s
  | .armUnallocCtrl cond bits => Sys2Proof.Machine.execArmUnallocCtrl cond bits s
  | .andShImm cond sf rn rd n sh rm => Sys2Proof.Machine.execAndShImm cond sf rn rd n sh rm s
  | .andShReg cond sf rn rd rs sh rm => Sys2Proof.Machine.execAndShReg cond sf rn rd rs sh rm s
  | .andImm cond sf rn rd rot imm => Sys2Proof.Machine.execAndImm cond sf rn rd rot imm s
  | .eorShImm cond sf rn rd n sh rm => Sys2Proof.Machine.execEorShImm cond sf rn rd n sh rm s
  | .eorShReg cond sf rn rd rs sh rm => Sys2Proof.Machine.execEorShReg cond sf rn rd rs sh rm s
  | .eorImm cond sf rn rd rot imm => Sys2Proof.Machine.execEorImm cond sf rn rd rot imm s
  | .subShImm cond sf rn rd n sh rm => Sys2Proof.Machine.execSubShImm cond sf rn rd n sh rm s
  | .subShReg cond sf rn rd rs sh rm => Sys2Proof.Machine.execSubShReg cond sf rn rd rs sh rm s
  | .subImm cond sf rn rd rot imm => Sys2Proof.Machine.execSubImm cond sf rn rd rot imm s
  | .rsbShImm cond sf rn rd n sh rm => Sys2Proof.Machine.execRsbShImm cond sf rn rd n sh rm s
  | .rsbShReg cond sf rn rd rs sh rm => Sys2Proof.Machine.execRsbShReg cond sf rn rd rs sh rm s
  | .rsbImm cond sf rn rd rot imm => Sys2Proof.Machine.execRsbImm cond sf rn rd rot imm s
  | .addShImm cond sf rn rd n sh rm => Sys2Proof.Machine.execAddShImm cond sf rn rd n sh rm s
  | .addShReg cond sf rn rd rs sh rm => Sys2Proof.Machine.execAddShReg cond sf rn rd rs sh rm s
  | .addImm cond sf rn rd rot imm => Sys2Proof.Machine.execAddImm cond sf rn rd rot imm s
  | .adcShImm cond sf rn rd n sh rm => Sys2Proof.Machine.execAdcShImm cond sf rn rd n sh rm s
  | .adcShReg cond sf rn rd rs sh rm => Sys2Proof.Machine.execAdcShReg cond sf rn rd rs sh rm s
  | .adcImm cond sf rn rd rot imm => Sys2Proof.Machine.execAdcImm cond sf rn rd rot imm s
  | .sbcShImm cond sf rn rd n sh rm => Sys2Proof.Machine.execSbcShImm cond sf rn rd n sh rm s
  | .sbcShReg cond sf rn rd rs sh rm => Sys2Proof.Machine.execSbcShReg cond sf rn rd rs sh rm s
  | .sbcImm cond sf rn rd rot imm => Sys2Proof.Machine.execSbcImm cond sf rn rd rot imm s
  | .rscShImm cond sf rn rd n sh rm => Sys2Proof.Machine.execRscShImm cond sf rn rd n sh rm s
  | .rscShReg cond sf rn rd rs sh rm => Sys2Proof.Machine.execRscShReg cond sf rn rd rs sh rm s
  | .rscImm cond sf rn rd rot imm => Sys2Proof.Machine.execRscImm cond sf rn rd rot imm s
  | .tstShImm cond rn rd n sh rm => Sys2Proof.Machine.execTstShImm cond rn rd n sh rm s
  | .tstShReg cond rn rd rs sh rm => Sys2Proof.Machine.execTstShReg cond rn rd rs sh rm s
  | .tstImm cond rn rd rot imm => Sys2Proof.Machine.execTstImm cond rn rd rot imm s
  | .teqShImm cond rn rd n sh rm => Sys2Proof.Machine.execTeqShImm cond rn rd n sh rm s
  | .teqShReg cond rn rd rs sh rm => Sys2Proof.Machine.execTeqShReg cond rn rd rs sh rm s
  | .teqImm cond rn rd rot imm => Sys2Proof.Machine.execTeqImm cond rn rd rot imm s
  | .cmpShImm cond rn rd n sh rm => Sys2Proof.Machine.execCmpShImm cond rn rd n sh rm s
  | .cmpShReg cond rn rd rs sh rm => Sys2Proof.Machine.execCmpShReg cond rn rd rs sh rm s
  | .cmpImm cond rn rd rot imm => Sys2Proof.Machine.execCmpImm cond rn rd rot imm s
  | .cmnShImm cond rn rd n sh rm => Sys2Proof.Machine.execCmnShImm cond rn rd n sh rm s
  | .cmnShReg cond rn rd rs sh rm => Sys2Proof.Machine.execCmnShReg cond rn rd rs sh rm s
  | .cmnImm cond rn rd rot imm => Sys2Proof.Machine.execCmnImm cond rn rd rot imm s
  | .orrShImm cond sf rn rd n sh rm => Sys2Proof.Machine.execOrrShImm cond sf rn rd n sh rm s
  | .orrShReg cond sf rn rd rs sh rm => Sys2Proof.Machine.execOrrShReg cond sf rn rd rs sh rm s
  | .orrImm cond sf rn rd rot imm => Sys2Proof.Machine.execOrrImm cond sf rn rd rot imm s
  | .movShImm cond sf rd n sh rm => Sys2Proof.Machine.execMovShImm cond sf rd n sh rm s
  | .movShReg cond sf rd rs sh rm => Sys2Proof.Machine.execMovShReg cond sf rd rs sh rm s
  | .movImm cond sf rd rot imm => Sys2Proof.Machine.execMovImm cond sf rd rot imm s
  | .bicShImm cond sf rn rd n sh rm => Sys2Proof.Machine.execBicShImm cond sf rn rd n sh rm s
  | .bicShReg cond sf rn rd rs sh rm => Sys2Proof.Machine.execBicShReg cond sf rn rd rs sh rm s
  | .bicImm cond sf rn rd rot imm => Sys2Proof.Machine.execBicImm cond sf rn rd rot imm s
  | .mvnShImm cond sf rd n sh rm => Sys2Proof.Machine.execMvnShImm cond sf rd n sh rm s
  | .mvnShReg cond sf rd rs sh rm => Sys2Proof.Machine.execMvnShReg cond sf rd rs sh rm s
  | .mvnImm cond sf rd rot imm => Sys2Proof.Machine.execMvnImm cond sf rd rot imm s
  | .strImm cond ix up rn rd off => Sys2Proof.Machine.execStrImm cond ix up rn rd off s
  | .strReg cond ix up rn rd n sh rm => Sys2Proof.Machine.execStrReg cond ix up rn rd n sh rm s
  | .strtImm cond up rn rd off => Sys2Proof.Machine.execStrtImm cond up rn rd off s
  | .strtReg cond up rn rd n sh rm => Sys2Proof.Machine.execStrtReg cond up rn rd n sh rm s
  | .strbImm cond ix up rn rd off => Sys2Proof.Machine.execStrbImm cond ix up rn rd off s
  | .strbReg cond ix up rn rd n sh rm => Sys2Proof.Machine.execStrbReg cond ix up rn rd n sh rm s
  | .strbtImm cond up rn rd off => Sys2Proof.Machine.execStrbtImm cond up rn rd off s
  | .strbtReg cond up rn rd n sh rm => Sys2Proof.Machine.execStrbtReg cond up rn rd n sh rm s
  | .ldrImm cond ix up rn rd off => Sys2Proof.Machine.execLdrImm cond ix up rn rd off s
  | .ldrReg cond ix up rn rd n sh rm => Sys2Proof.Machine.execLdrReg cond ix up rn rd n sh rm s
  | .ldrtImm cond up rn rd off => Sys2Proof.Machine.execLdrtImm cond up rn rd off s
  | .ldrtReg cond up rn rd n sh rm => Sys2Proof.Machine.execLdrtReg cond up rn rd n sh rm s
  | .ldrbImm cond ix up rn rd off => Sys2Proof.Machine.execLdrbImm cond ix up rn rd off s
  | .ldrbReg cond ix up rn rd n sh rm => Sys2Proof.Machine.execLdrbReg cond ix up rn rd n sh rm s
  | .ldrbtImm cond up rn rd off => Sys2Proof.Machine.execLdrbtImm cond up rn rd off s
  | .ldrbtReg cond up rn rd n sh rm => Sys2Proof.Machine.execLdrbtReg cond up rn rd n sh rm s
  | .und cond bits => Sys2Proof.Machine.execUnd cond bits s
  | .stmIa cond wb rn list => Sys2Proof.Machine.execStmIa cond wb rn list s
  | .stmSIa cond wb rn list => Sys2Proof.Machine.execStmSIa cond wb rn list s
  | .ldmIa cond wb rn list => Sys2Proof.Machine.execLdmIa cond wb rn list s
  | .ldmSIa cond wb rn list => Sys2Proof.Machine.execLdmSIa cond wb rn list s
  | .stmIb cond wb rn list => Sys2Proof.Machine.execStmIb cond wb rn list s
  | .stmSIb cond wb rn list => Sys2Proof.Machine.execStmSIb cond wb rn list s
  | .ldmIb cond wb rn list => Sys2Proof.Machine.execLdmIb cond wb rn list s
  | .ldmSIb cond wb rn list => Sys2Proof.Machine.execLdmSIb cond wb rn list s
  | .stmDa cond wb rn list => Sys2Proof.Machine.execStmDa cond wb rn list s
  | .stmSDa cond wb rn list => Sys2Proof.Machine.execStmSDa cond wb rn list s
  | .ldmDa cond wb rn list => Sys2Proof.Machine.execLdmDa cond wb rn list s
  | .ldmSDa cond wb rn list => Sys2Proof.Machine.execLdmSDa cond wb rn list s
  | .stmDb cond wb rn list => Sys2Proof.Machine.execStmDb cond wb rn list s
  | .stmSDb cond wb rn list => Sys2Proof.Machine.execStmSDb cond wb rn list s
  | .ldmDb cond wb rn list => Sys2Proof.Machine.execLdmDb cond wb rn list s
  | .ldmSDb cond wb rn list => Sys2Proof.Machine.execLdmSDb cond wb rn list s
  | .b cond off => Sys2Proof.Machine.execB cond off s
  | .bl cond off => Sys2Proof.Machine.execBl cond off s
  | .ldcStc cond p u nbit w ld rn crd cp off => Sys2Proof.Machine.execLdcStc cond p u nbit w ld rn crd cp off s
  | .cdp cond op1 crn crd cp op2 crm => Sys2Proof.Machine.execCdp cond op1 crn crd cp op2 crm s
  | .mrcMcr cond op1 ld crn rd cp op2 crm => Sys2Proof.Machine.execMrcMcr cond op1 ld crn rd cp op2 crm s
  | .swi cond comment => Sys2Proof.Machine.execSwi cond comment s
  | .tLslImm n rs rd => Sys2Proof.Machine.execTLslImm n rs rd s
  | .tLsrImm n rs rd => Sys2Proof.Machine.execTLsrImm n rs rd s
  | .tAsrImm n rs rd => Sys2Proof.Machine.execTAsrImm n rs rd s
  | .tAddReg rn rs rd => Sys2Proof.Machine.execTAddReg rn rs rd s
  | .tSubReg rn rs rd => Sys2Proof.Machine.execTSubReg rn rs rd s
  | .tAddImm3 imm rs rd => Sys2Proof.Machine.execTAddImm3 imm rs rd s
  | .tSubImm3 imm rs rd => Sys2Proof.Machine.execTSubImm3 imm rs rd s
  | .tMovImm8 rd imm => Sys2Proof.Machine.execTMovImm8 rd imm s
  | .tCmpImm8 rd imm => Sys2Proof.Machine.execTCmpImm8 rd imm s
  | .tAddImm8 rd imm => Sys2Proof.Machine.execTAddImm8 rd imm s
  | .tSubImm8 rd imm => Sys2Proof.Machine.execTSubImm8 rd imm s
  | .tAnd rs rd => Sys2Proof.Machine.execTAnd rs rd s
  | .tEor rs rd => Sys2Proof.Machine.execTEor rs rd s
  | .tLslReg rs rd => Sys2Proof.Machine.execTLslReg rs rd s
  | .tLsrReg rs rd => Sys2Proof.Machine.execTLsrReg rs rd s
  | .tAsrReg rs rd => Sys2Proof.Machine.execTAsrReg rs rd s
  | .tAdc rs rd => Sys2Proof.Machine.execTAdc rs rd s
  | .tSbc rs rd => Sys2Proof.Machine.execTSbc rs rd s
  | .tRorReg rs rd => Sys2Proof.Machine.execTRorReg rs rd s
  | .tTst rs rd => Sys2Proof.Machine.execTTst rs rd s
  | .tNeg rs rd => Sys2Proof.Machine.execTNeg rs rd s
  | .tCmpReg rs rd => Sys2Proof.Machine.execTCmpReg rs rd s
  | .tCmn rs rd => Sys2Proof.Machine.execTCmn rs rd s
  | .tOrr rs rd => Sys2Proof.Machine.execTOrr rs rd s
  | .tMul rs rd => Sys2Proof.Machine.execTMul rs rd s
  | .tBic rs rd => Sys2Proof.Machine.execTBic rs rd s
  | .tMvn rs rd => Sys2Proof.Machine.execTMvn rs rd s
  | .tAddHi hs hd => Sys2Proof.Machine.execTAddHi hs hd s
  | .tCmpHi hs hd => Sys2Proof.Machine.execTCmpHi hs hd s
  | .tMovHi hs hd => Sys2Proof.Machine.execTMovHi hs hd s
  | .tBx hs hd => Sys2Proof.Machine.execTBx hs hd s
  | .tLdrPc rd imm => Sys2Proof.Machine.execTLdrPc rd imm s
  | .tStrReg ro rb rd => Sys2Proof.Machine.execTStrReg ro rb rd s
  | .tStrbReg ro rb rd => Sys2Proof.Machine.execTStrbReg ro rb rd s
  | .tLdrReg ro rb rd => Sys2Proof.Machine.execTLdrReg ro rb rd s
  | .tLdrbReg ro rb rd => Sys2Proof.Machine.execTLdrbReg ro rb rd s
  | .tStrhReg ro rb rd => Sys2Proof.Machine.execTStrhReg ro rb rd s
  | .tLdrhReg ro rb rd => Sys2Proof.Machine.execTLdrhReg ro rb rd s
  | .tLdsbReg ro rb rd => Sys2Proof.Machine.execTLdsbReg ro rb rd s
  | .tLdshReg ro rb rd => Sys2Proof.Machine.execTLdshReg ro rb rd s
  | .tStrImm off rb rd => Sys2Proof.Machine.execTStrImm off rb rd s
  | .tLdrImm off rb rd => Sys2Proof.Machine.execTLdrImm off rb rd s
  | .tStrbImm off rb rd => Sys2Proof.Machine.execTStrbImm off rb rd s
  | .tLdrbImm off rb rd => Sys2Proof.Machine.execTLdrbImm off rb rd s
  | .tStrhImm off rb rd => Sys2Proof.Machine.execTStrhImm off rb rd s
  | .tLdrhImm off rb rd => Sys2Proof.Machine.execTLdrhImm off rb rd s
  | .tStrSp rd imm => Sys2Proof.Machine.execTStrSp rd imm s
  | .tLdrSp rd imm => Sys2Proof.Machine.execTLdrSp rd imm s
  | .tAddPc rd imm => Sys2Proof.Machine.execTAddPc rd imm s
  | .tAddSp rd imm => Sys2Proof.Machine.execTAddSp rd imm s
  | .tAddSpImm neg imm => Sys2Proof.Machine.execTAddSpImm neg imm s
  | .tPush lr list => Sys2Proof.Machine.execTPush lr list s
  | .tPop pc list => Sys2Proof.Machine.execTPop pc list s
  | .tUnalloc bits => Sys2Proof.Machine.execTUnalloc bits s
  | .tStmia rb list => Sys2Proof.Machine.execTStmia rb list s
  | .tLdmia rb list => Sys2Proof.Machine.execTLdmia rb list s
  | .tSwi value => Sys2Proof.Machine.execTSwi value s
  | .tBcond cond off => Sys2Proof.Machine.execTBcond cond off s
  | .tB off => Sys2Proof.Machine.execTB off s
  | .tBlPrefix off => Sys2Proof.Machine.execTBlPrefix off s
  | .tBlSuffix off => Sys2Proof.Machine.execTBlSuffix off s

end Sys2Proof.Machine
end

