-- ==== Sys2Proof/Machine/Dma.lean ====
section
/-!
DEFINITION. The DMA engine: one channel's whole transfer and its completion (62_dma.md R611 to R620).
-/
namespace Sys2Proof.Machine

/-- `step(a, mode, s)`: the next address (R613). -/
def dmaStepAddr (mode : Nat) (word : Bool) (a : Word) : Word :=
  match mode with
  | 1 => a - (if word then 4 else 2)
  | 2 => a
  | _ => a + (if word then 4 else 2)

/-- The width of a unit (62_dma.md). -/
def unitWidth (word : Bool) : Width := if word then .word else .half

/-- A halfword fills both halves of the latch (R612, R616). -/
def latchOf (word : Bool) (v : Word) : Word := if word then v else v ||| v <<< 16

/-- What is written from the latch: a halfword unit takes the half that bit 1 of the destination selects, as R612's words
say (assumption log 22). -/
def unitOut (word : Bool) (latch dst : Word) : Word :=
  if word then latch else (if dst.getLsbD 1 then latch >>> 16 else latch) &&& 0xFFFF

/-- The read of a unit: below 0x02000000 its time passes and the latch stays (R616). -/
def State.dmaRead (s : State) (word : Bool) (src : Word) (acc : AccessClass) : State :=
  if 0x02000000 ≤ src.toNat then
    let (v, s) := s.memRead .data src (unitWidth word) acc
    { s with dev := { s.dev with dmaLatch := latchOf word v } }
  else s.passAccess .data src (unitWidth word) acc

/-- Move the working copy past one unit (R612, R613, R615). -/
def DmaChannel.stepped (n : Fin 4) (word : Bool) (c : DmaChannel) : DmaChannel :=
  { c with
    src := dmaStepAddr (dmaSrcMode c.cntH) word c.src
    dst := if c.isFifo n then c.dst else dmaStepAddr (dmaDstMode c.cntH) word c.dst
    count := c.count - 1 }

/-- One unit: a read, a write, the step (R612). -/
def State.dmaUnit (n : Fin 4) (word : Bool) (acc : AccessClass) (s : State) : Res State :=
  let t := s.dmaRead word (s.dev.channel n).src acc
  let dst := (t.dev.channel n).dst
  andThen (t.memWrite dst (unitWidth word) (unitOut word t.dev.dmaLatch dst) acc) fun u =>
    .next { u with dev := u.dev.setChannel n ((u.dev.channel n).stepped n word) }

/-- The units of a transfer, the first non-sequential and the rest sequential (R612, R614). -/
def State.dmaUnits (n : Fin 4) (word : Bool) : Nat → AccessClass → State → Res State
  | 0, _, s => .next s
  | k + 1, acc, s => andThen (s.dmaUnit n word acc) (State.dmaUnits n word k .seq)

/-- `transfer(n)` (R612). -/
def State.dmaTransfer (n : Fin 4) (s : State) : Res State :=
  s.dmaUnits n ((s.dev.channel n).isWord n) (s.dev.channel n).count .nonseq

/-- The interrupt of a completion, if it is enabled (R620). -/
def Dev.completionIrq (d : Dev) (n : Fin 4) : Dev :=
  if dmaIrqEnabled (d.channel n).cntH then d.requestInterrupt (dmaIrq n) else d

/-- The channel after its transfer: it waits again, or is disabled (R619, R620). -/
def DmaChannel.completed (n : Fin 4) (c : DmaChannel) : DmaChannel :=
  if dmaRepeat c.cntH && dmaTiming c.cntH != 0 then { c.relatch n with status := .waiting }
  else { c with cntH := c.cntH &&& 0x7FFF, status := .disabled }

/-- `complete(n)` (R620). -/
def Dev.dmaComplete (d : Dev) (n : Fin 4) : Dev :=
  let d := d.completionIrq n
  d.setChannel n ((d.channel n).completed n)

/-- The running channel of the highest priority (R611). -/
def Dev.runningChannel (d : Dev) : Option (Fin 4) :=
  [0, 1, 2, 3].find? fun n => (d.channel n).status == .running

/-- `dma_step()` for channel n (R611). -/
def State.dmaStep (s : State) (n : Fin 4) : Res State :=
  andThen (s.dmaTransfer n) fun t => .next { t with dev := t.dev.dmaComplete n }

end Sys2Proof.Machine
end

