-- ==== Sys2Proof/Decode.lean ====
section
/-!
DEFINITION. The two decoders (30_encoding.md R150 to R184), total on every word, and after them the encoder.
Words are read as numbers: bit 0 is the least significant (00_scope.md R13). The order of the tests is the
order of the decode lists, first match wins (R153).
-/
namespace Sys2Proof

/-! ## Fields -/

/-- The `len` bits of `w` from bit `lo` up, as a number (R13). -/
def field (w lo len : Nat) : Nat := w / 2 ^ lo % 2 ^ len

/-- Bit `lo` of `w`. -/
def flagAt (w lo : Nat) : Bool := w / 2 ^ lo % 2 == 1

/-- The 4-bit register field of `w` at bit `lo`. -/
def regAt (w lo : Nat) : Reg := Fin.ofNat 16 (w / 2 ^ lo)

/-- The 3-bit register field of `w` at bit `lo`. -/
def lowRegAt (w lo : Nat) : LowReg := Fin.ofNat 8 (w / 2 ^ lo)

/-- `len` bits of `w` from bit `lo` up, as a bit vector. -/
def bitsAt (len w lo : Nat) : BitVec len := BitVec.ofNat len (w / 2 ^ lo)

/-- The condition a 4-bit code names (40_arm_dataproc.md R200). -/
def Cond.ofCode (n : Nat) : Cond :=
  match n % 16 with
  | 0 => .eq | 1 => .ne | 2 => .cs | 3 => .cc | 4 => .mi | 5 => .pl | 6 => .vs | 7 => .vc
  | 8 => .hi | 9 => .ls | 10 => .ge | 11 => .lt | 12 => .gt | 13 => .le | 14 => .al | _ => .nv

/-- The 4-bit code of a condition (R200). -/
def Cond.code : Cond → Nat
  | .eq => 0 | .ne => 1 | .cs => 2 | .cc => 3 | .mi => 4 | .pl => 5 | .vs => 6 | .vc => 7
  | .hi => 8 | .ls => 9 | .ge => 10 | .lt => 11 | .gt => 12 | .le => 13 | .al => 14 | .nv => 15

/-- The shift type a 2-bit code names (R155). -/
def ShiftType.ofCode (n : Nat) : ShiftType :=
  match n % 4 with
  | 0 => .lsl | 1 => .lsr | 2 => .asr | _ => .ror

/-- The 2-bit code of a shift type (R155). -/
def ShiftType.code : ShiftType → Nat
  | .lsl => 0 | .lsr => 1 | .asr => 2 | .ror => 3

/-- The indexing that the P and W bits select (R160, R162). P = 0 with W = 1 belongs to other rows. -/
def indexingOf (p w : Bool) : Indexing :=
  if p then (if w then .pre else .offset) else .post

/-- The P bit of an indexing. -/
def Indexing.pBit : Indexing → Nat
  | .offset => 1 | .pre => 1 | .post => 0

/-- The W bit of an indexing. -/
def Indexing.wBit : Indexing → Nat
  | .offset => 0 | .pre => 1 | .post => 0

/-- A format-5 register: the H bit, then three bits (R178). -/
def hiRegAt (w hbit lo : Nat) : Reg := Fin.ofNat 16 (field w hbit 1 * 8 + field w lo 3)

/-! ## The refused spaces

Each takes the two parts of the ARM dispatch index: `hi` is instr[27:20], `lo` is instr[7:4] (R152). -/

/-- Row 5 of R154: `000x xxxx 1001` not taken by rows 1 to 4. -/
def isUnallocMul (hi lo : Nat) : Bool :=
  hi / 32 == 0 && lo == 9 && hi / 4 != 0 && hi / 8 != 1 && hi != 0x10 && hi != 0x14

/-- A halfword form with L = 0 and SH = 10 or 11 (R299). -/
def isHwUnalloc (hi lo : Nat) : Bool :=
  hi / 32 == 0 && hi % 2 == 0 && (lo == 13 || lo == 15)

/-- A halfword form with P = 0 and W = 1 that is not of the space before (R299). -/
def isHwUnpred (hi lo : Nat) : Bool :=
  hi / 32 == 0 && hi / 16 % 2 == 0 && hi / 2 % 2 == 1 && (lo == 11 || ((lo == 13 || lo == 15) && hi % 2 == 1))

/-- Row 10 of R154: `0001 0xx0 xxx0`, `0001 0xx0 0xx1` and `0011 0x00 xxxx` not taken by BX, MRS and MSR. -/
def isUnallocCtrl (hi lo : Nat) : Bool :=
  (hi / 8 == 2 && hi % 2 == 0 && (lo % 2 == 0 || lo / 8 == 0) && lo != 0 && !(hi == 0x12 && lo == 1))
    || hi == 0x30 || hi == 0x34

/-- Row 16 of R154: `011x xxxx xxx1`. -/
def isUndefined (hi lo : Nat) : Bool := hi / 32 == 3 && lo % 2 == 1

/-- Rows 15, 17 and 21 of R172, on the whole halfword. -/
def isThumbUnalloc (w : Nat) : Bool :=
  (w / 2 ^ 12 == 0xB && w / 2 ^ 8 != 0xB0 && w / 2 ^ 9 != 0x5A && w / 2 ^ 9 != 0x5E)
    || w / 2 ^ 8 == 0xDE || w / 2 ^ 11 == 0x1D

/-! ## The ARM decoder -/

/-- Multiply and multiply long (R156, R157). -/
def decodeMultiply (c : Cond) (w : Nat) : Instr :=
  match field w 21 3 with
  | 0 => .mul c (flagAt w 20) (regAt w 16) (regAt w 8) (regAt w 0)
  | 1 => .mla c (flagAt w 20) (regAt w 16) (regAt w 12) (regAt w 8) (regAt w 0)
  | 4 => .umull c (flagAt w 20) (regAt w 16) (regAt w 12) (regAt w 8) (regAt w 0)
  | 5 => .umlal c (flagAt w 20) (regAt w 16) (regAt w 12) (regAt w 8) (regAt w 0)
  | 6 => .smull c (flagAt w 20) (regAt w 16) (regAt w 12) (regAt w 8) (regAt w 0)
  | _ => .smlal c (flagAt w 20) (regAt w 16) (regAt w 12) (regAt w 8) (regAt w 0)

/-- Halfword and signed transfers (R160, R299): the refused forms first, then by L, SH and I. -/
def decodeHalfword (c : Cond) (w : Nat) : Instr :=
  let hi := field w 20 8
  let lo := field w 4 4
  let ix := indexingOf (flagAt w 24) (flagAt w 21)
  let imm : BitVec 8 := BitVec.ofNat 8 (field w 8 4 * 16 + field w 0 4)
  if isHwUnalloc hi lo then .hwUnalloc c (bitsAt 28 w 0)
  else if isHwUnpred hi lo then .hwUnpred c (bitsAt 28 w 0)
  else if flagAt w 20 then
    if lo == 11 then
      if flagAt w 22 then .ldrhImm c ix (flagAt w 23) (regAt w 16) (regAt w 12) imm
      else .ldrhReg c ix (flagAt w 23) (regAt w 16) (regAt w 12) (regAt w 0)
    else if lo == 13 then
      if flagAt w 22 then .ldrsbImm c ix (flagAt w 23) (regAt w 16) (regAt w 12) imm
      else .ldrsbReg c ix (flagAt w 23) (regAt w 16) (regAt w 12) (regAt w 0)
    else
      if flagAt w 22 then .ldrshImm c ix (flagAt w 23) (regAt w 16) (regAt w 12) imm
      else .ldrshReg c ix (flagAt w 23) (regAt w 16) (regAt w 12) (regAt w 0)
  else
    if flagAt w 22 then .strhImm c ix (flagAt w 23) (regAt w 16) (regAt w 12) imm
    else .strhReg c ix (flagAt w 23) (regAt w 16) (regAt w 12) (regAt w 0)

/-- Data processing, register operand shifted by an immediate (R155). -/
def decodeDpShImm (c : Cond) (w : Nat) : Instr :=
  match field w 21 4 with
  | 0 => .andShImm c (flagAt w 20) (regAt w 16) (regAt w 12) (bitsAt 5 w 7) (ShiftType.ofCode (field w 5 2)) (regAt w 0)
  | 1 => .eorShImm c (flagAt w 20) (regAt w 16) (regAt w 12) (bitsAt 5 w 7) (ShiftType.ofCode (field w 5 2)) (regAt w 0)
  | 2 => .subShImm c (flagAt w 20) (regAt w 16) (regAt w 12) (bitsAt 5 w 7) (ShiftType.ofCode (field w 5 2)) (regAt w 0)
  | 3 => .rsbShImm c (flagAt w 20) (regAt w 16) (regAt w 12) (bitsAt 5 w 7) (ShiftType.ofCode (field w 5 2)) (regAt w 0)
  | 4 => .addShImm c (flagAt w 20) (regAt w 16) (regAt w 12) (bitsAt 5 w 7) (ShiftType.ofCode (field w 5 2)) (regAt w 0)
  | 5 => .adcShImm c (flagAt w 20) (regAt w 16) (regAt w 12) (bitsAt 5 w 7) (ShiftType.ofCode (field w 5 2)) (regAt w 0)
  | 6 => .sbcShImm c (flagAt w 20) (regAt w 16) (regAt w 12) (bitsAt 5 w 7) (ShiftType.ofCode (field w 5 2)) (regAt w 0)
  | 7 => .rscShImm c (flagAt w 20) (regAt w 16) (regAt w 12) (bitsAt 5 w 7) (ShiftType.ofCode (field w 5 2)) (regAt w 0)
  | 8 => .tstShImm c (regAt w 16) (regAt w 12) (bitsAt 5 w 7) (ShiftType.ofCode (field w 5 2)) (regAt w 0)
  | 9 => .teqShImm c (regAt w 16) (regAt w 12) (bitsAt 5 w 7) (ShiftType.ofCode (field w 5 2)) (regAt w 0)
  | 10 => .cmpShImm c (regAt w 16) (regAt w 12) (bitsAt 5 w 7) (ShiftType.ofCode (field w 5 2)) (regAt w 0)
  | 11 => .cmnShImm c (regAt w 16) (regAt w 12) (bitsAt 5 w 7) (ShiftType.ofCode (field w 5 2)) (regAt w 0)
  | 12 => .orrShImm c (flagAt w 20) (regAt w 16) (regAt w 12) (bitsAt 5 w 7) (ShiftType.ofCode (field w 5 2)) (regAt w 0)
  | 13 => .movShImm c (flagAt w 20) (regAt w 12) (bitsAt 5 w 7) (ShiftType.ofCode (field w 5 2)) (regAt w 0)
  | 14 => .bicShImm c (flagAt w 20) (regAt w 16) (regAt w 12) (bitsAt 5 w 7) (ShiftType.ofCode (field w 5 2)) (regAt w 0)
  | _ => .mvnShImm c (flagAt w 20) (regAt w 12) (bitsAt 5 w 7) (ShiftType.ofCode (field w 5 2)) (regAt w 0)

/-- Data processing, register operand shifted by a register (R155). -/
def decodeDpShReg (c : Cond) (w : Nat) : Instr :=
  match field w 21 4 with
  | 0 => .andShReg c (flagAt w 20) (regAt w 16) (regAt w 12) (regAt w 8) (ShiftType.ofCode (field w 5 2)) (regAt w 0)
  | 1 => .eorShReg c (flagAt w 20) (regAt w 16) (regAt w 12) (regAt w 8) (ShiftType.ofCode (field w 5 2)) (regAt w 0)
  | 2 => .subShReg c (flagAt w 20) (regAt w 16) (regAt w 12) (regAt w 8) (ShiftType.ofCode (field w 5 2)) (regAt w 0)
  | 3 => .rsbShReg c (flagAt w 20) (regAt w 16) (regAt w 12) (regAt w 8) (ShiftType.ofCode (field w 5 2)) (regAt w 0)
  | 4 => .addShReg c (flagAt w 20) (regAt w 16) (regAt w 12) (regAt w 8) (ShiftType.ofCode (field w 5 2)) (regAt w 0)
  | 5 => .adcShReg c (flagAt w 20) (regAt w 16) (regAt w 12) (regAt w 8) (ShiftType.ofCode (field w 5 2)) (regAt w 0)
  | 6 => .sbcShReg c (flagAt w 20) (regAt w 16) (regAt w 12) (regAt w 8) (ShiftType.ofCode (field w 5 2)) (regAt w 0)
  | 7 => .rscShReg c (flagAt w 20) (regAt w 16) (regAt w 12) (regAt w 8) (ShiftType.ofCode (field w 5 2)) (regAt w 0)
  | 8 => .tstShReg c (regAt w 16) (regAt w 12) (regAt w 8) (ShiftType.ofCode (field w 5 2)) (regAt w 0)
  | 9 => .teqShReg c (regAt w 16) (regAt w 12) (regAt w 8) (ShiftType.ofCode (field w 5 2)) (regAt w 0)
  | 10 => .cmpShReg c (regAt w 16) (regAt w 12) (regAt w 8) (ShiftType.ofCode (field w 5 2)) (regAt w 0)
  | 11 => .cmnShReg c (regAt w 16) (regAt w 12) (regAt w 8) (ShiftType.ofCode (field w 5 2)) (regAt w 0)
  | 12 => .orrShReg c (flagAt w 20) (regAt w 16) (regAt w 12) (regAt w 8) (ShiftType.ofCode (field w 5 2)) (regAt w 0)
  | 13 => .movShReg c (flagAt w 20) (regAt w 12) (regAt w 8) (ShiftType.ofCode (field w 5 2)) (regAt w 0)
  | 14 => .bicShReg c (flagAt w 20) (regAt w 16) (regAt w 12) (regAt w 8) (ShiftType.ofCode (field w 5 2)) (regAt w 0)
  | _ => .mvnShReg c (flagAt w 20) (regAt w 12) (regAt w 8) (ShiftType.ofCode (field w 5 2)) (regAt w 0)

/-- Data processing, rotated immediate (R155). -/
def decodeDpImm (c : Cond) (w : Nat) : Instr :=
  match field w 21 4 with
  | 0 => .andImm c (flagAt w 20) (regAt w 16) (regAt w 12) (bitsAt 4 w 8) (bitsAt 8 w 0)
  | 1 => .eorImm c (flagAt w 20) (regAt w 16) (regAt w 12) (bitsAt 4 w 8) (bitsAt 8 w 0)
  | 2 => .subImm c (flagAt w 20) (regAt w 16) (regAt w 12) (bitsAt 4 w 8) (bitsAt 8 w 0)
  | 3 => .rsbImm c (flagAt w 20) (regAt w 16) (regAt w 12) (bitsAt 4 w 8) (bitsAt 8 w 0)
  | 4 => .addImm c (flagAt w 20) (regAt w 16) (regAt w 12) (bitsAt 4 w 8) (bitsAt 8 w 0)
  | 5 => .adcImm c (flagAt w 20) (regAt w 16) (regAt w 12) (bitsAt 4 w 8) (bitsAt 8 w 0)
  | 6 => .sbcImm c (flagAt w 20) (regAt w 16) (regAt w 12) (bitsAt 4 w 8) (bitsAt 8 w 0)
  | 7 => .rscImm c (flagAt w 20) (regAt w 16) (regAt w 12) (bitsAt 4 w 8) (bitsAt 8 w 0)
  | 8 => .tstImm c (regAt w 16) (regAt w 12) (bitsAt 4 w 8) (bitsAt 8 w 0)
  | 9 => .teqImm c (regAt w 16) (regAt w 12) (bitsAt 4 w 8) (bitsAt 8 w 0)
  | 10 => .cmpImm c (regAt w 16) (regAt w 12) (bitsAt 4 w 8) (bitsAt 8 w 0)
  | 11 => .cmnImm c (regAt w 16) (regAt w 12) (bitsAt 4 w 8) (bitsAt 8 w 0)
  | 12 => .orrImm c (flagAt w 20) (regAt w 16) (regAt w 12) (bitsAt 4 w 8) (bitsAt 8 w 0)
  | 13 => .movImm c (flagAt w 20) (regAt w 12) (bitsAt 4 w 8) (bitsAt 8 w 0)
  | 14 => .bicImm c (flagAt w 20) (regAt w 16) (regAt w 12) (bitsAt 4 w 8) (bitsAt 8 w 0)
  | _ => .mvnImm c (flagAt w 20) (regAt w 12) (bitsAt 4 w 8) (bitsAt 8 w 0)

/-- Single data transfers with an immediate offset (R162): by P and W, then L and B. -/
def decodeTransferImm (c : Cond) (w : Nat) : Instr :=
  let ix := indexingOf (flagAt w 24) (flagAt w 21)
  if !flagAt w 24 && flagAt w 21 then
    match flagAt w 20, flagAt w 22 with
    | false, false => .strtImm c (flagAt w 23) (regAt w 16) (regAt w 12) (bitsAt 12 w 0)
    | false, true => .strbtImm c (flagAt w 23) (regAt w 16) (regAt w 12) (bitsAt 12 w 0)
    | true, false => .ldrtImm c (flagAt w 23) (regAt w 16) (regAt w 12) (bitsAt 12 w 0)
    | true, true => .ldrbtImm c (flagAt w 23) (regAt w 16) (regAt w 12) (bitsAt 12 w 0)
  else
    match flagAt w 20, flagAt w 22 with
    | false, false => .strImm c ix (flagAt w 23) (regAt w 16) (regAt w 12) (bitsAt 12 w 0)
    | false, true => .strbImm c ix (flagAt w 23) (regAt w 16) (regAt w 12) (bitsAt 12 w 0)
    | true, false => .ldrImm c ix (flagAt w 23) (regAt w 16) (regAt w 12) (bitsAt 12 w 0)
    | true, true => .ldrbImm c ix (flagAt w 23) (regAt w 16) (regAt w 12) (bitsAt 12 w 0)

/-- Single data transfers with a shifted register offset (R162): by P and W, then L and B. -/
def decodeTransferReg (c : Cond) (w : Nat) : Instr :=
  let ix := indexingOf (flagAt w 24) (flagAt w 21)
  let n : BitVec 5 := bitsAt 5 w 7
  let sh := ShiftType.ofCode (field w 5 2)
  if !flagAt w 24 && flagAt w 21 then
    match flagAt w 20, flagAt w 22 with
    | false, false => .strtReg c (flagAt w 23) (regAt w 16) (regAt w 12) n sh (regAt w 0)
    | false, true => .strbtReg c (flagAt w 23) (regAt w 16) (regAt w 12) n sh (regAt w 0)
    | true, false => .ldrtReg c (flagAt w 23) (regAt w 16) (regAt w 12) n sh (regAt w 0)
    | true, true => .ldrbtReg c (flagAt w 23) (regAt w 16) (regAt w 12) n sh (regAt w 0)
  else
    match flagAt w 20, flagAt w 22 with
    | false, false => .strReg c ix (flagAt w 23) (regAt w 16) (regAt w 12) n sh (regAt w 0)
    | false, true => .strbReg c ix (flagAt w 23) (regAt w 16) (regAt w 12) n sh (regAt w 0)
    | true, false => .ldrReg c ix (flagAt w 23) (regAt w 16) (regAt w 12) n sh (regAt w 0)
    | true, true => .ldrbReg c ix (flagAt w 23) (regAt w 16) (regAt w 12) n sh (regAt w 0)

/-- Block transfers (R164, R305): by P, U, S and L. -/
def decodeBlock (c : Cond) (w : Nat) : Instr :=
  match field w 23 2, flagAt w 22, flagAt w 20 with
  | 0, false, false => .stmDa c (flagAt w 21) (regAt w 16) (bitsAt 16 w 0)
  | 0, false, true => .ldmDa c (flagAt w 21) (regAt w 16) (bitsAt 16 w 0)
  | 0, true, false => .stmSDa c (flagAt w 21) (regAt w 16) (bitsAt 16 w 0)
  | 0, true, true => .ldmSDa c (flagAt w 21) (regAt w 16) (bitsAt 16 w 0)
  | 1, false, false => .stmIa c (flagAt w 21) (regAt w 16) (bitsAt 16 w 0)
  | 1, false, true => .ldmIa c (flagAt w 21) (regAt w 16) (bitsAt 16 w 0)
  | 1, true, false => .stmSIa c (flagAt w 21) (regAt w 16) (bitsAt 16 w 0)
  | 1, true, true => .ldmSIa c (flagAt w 21) (regAt w 16) (bitsAt 16 w 0)
  | 2, false, false => .stmDb c (flagAt w 21) (regAt w 16) (bitsAt 16 w 0)
  | 2, false, true => .ldmDb c (flagAt w 21) (regAt w 16) (bitsAt 16 w 0)
  | 2, true, false => .stmSDb c (flagAt w 21) (regAt w 16) (bitsAt 16 w 0)
  | 2, true, true => .ldmSDb c (flagAt w 21) (regAt w 16) (bitsAt 16 w 0)
  | _, false, false => .stmIb c (flagAt w 21) (regAt w 16) (bitsAt 16 w 0)
  | _, false, true => .ldmIb c (flagAt w 21) (regAt w 16) (bitsAt 16 w 0)
  | _, true, false => .stmSIb c (flagAt w 21) (regAt w 16) (bitsAt 16 w 0)
  | _, true, true => .ldmSIb c (flagAt w 21) (regAt w 16) (bitsAt 16 w 0)

/-- Coprocessor instructions (R166). -/
def decodeCoprocessor (c : Cond) (w : Nat) : Instr :=
  if field w 25 3 == 6 then
    .ldcStc c (flagAt w 24) (flagAt w 23) (flagAt w 22) (flagAt w 21) (flagAt w 20) (regAt w 16) (regAt w 12)
      (bitsAt 4 w 8) (bitsAt 8 w 0)
  else if flagAt w 4 then
    .mrcMcr c (bitsAt 3 w 21) (flagAt w 20) (regAt w 16) (regAt w 12) (bitsAt 4 w 8) (bitsAt 3 w 5) (regAt w 0)
  else
    .cdp c (bitsAt 4 w 20) (regAt w 16) (regAt w 12) (bitsAt 4 w 8) (bitsAt 3 w 5) (regAt w 0)

/-- The ARM decode list of R154, first match wins. Every word decodes. -/
def decodeArmNat (w : Nat) : Instr :=
  let c := Cond.ofCode (w / 2 ^ 28)
  let hi := field w 20 8
  let lo := field w 4 4
  if hi == 0x12 && lo == 1 then .bx c (regAt w 0)
  else if (hi / 4 == 0 || hi / 8 == 1) && lo == 9 then decodeMultiply c w
  else if hi == 0x10 && lo == 9 then .swp c (regAt w 16) (regAt w 12) (regAt w 0)
  else if hi == 0x14 && lo == 9 then .swpb c (regAt w 16) (regAt w 12) (regAt w 0)
  else if isUnallocMul hi lo then .armUnallocMul c (bitsAt 28 w 0)
  else if hi / 32 == 0 && lo / 8 == 1 && lo % 2 == 1 then decodeHalfword c w
  else if (hi == 0x10 || hi == 0x14) && lo == 0 then .mrs c (flagAt w 22) (regAt w 12)
  else if (hi == 0x12 || hi == 0x16) && lo == 0 then .msrReg c (flagAt w 22) (bitsAt 4 w 16) (regAt w 0)
  else if hi == 0x32 || hi == 0x36 then .msrImm c (flagAt w 22) (bitsAt 4 w 16) (bitsAt 4 w 8) (bitsAt 8 w 0)
  else if isUnallocCtrl hi lo then .armUnallocCtrl c (bitsAt 28 w 0)
  else if hi / 32 == 0 then (if lo % 2 == 0 then decodeDpShImm c w else decodeDpShReg c w)
  else if hi / 32 == 1 then decodeDpImm c w
  else if hi / 32 == 2 then decodeTransferImm c w
  else if hi / 32 == 3 then (if lo % 2 == 0 then decodeTransferReg c w else .und c (bitsAt 28 w 0))
  else if hi / 32 == 4 then decodeBlock c w
  else if hi / 32 == 5 then (if flagAt w 24 then .bl c (bitsAt 24 w 0) else .b c (bitsAt 24 w 0))
  else if hi / 16 == 15 then .swi c (bitsAt 24 w 0)
  else decodeCoprocessor c w

/-- The instruction of an ARM word. -/
def decodeArm (w : Word) : Instr := decodeArmNat w.toNat

/-! ## The THUMB decoder -/

/-- Format 4, ALU operations (R173). -/
def decodeThumbAlu (w : Nat) : Instr :=
  match field w 6 4 with
  | 0 => .tAnd (lowRegAt w 3) (lowRegAt w 0)
  | 1 => .tEor (lowRegAt w 3) (lowRegAt w 0)
  | 2 => .tLslReg (lowRegAt w 3) (lowRegAt w 0)
  | 3 => .tLsrReg (lowRegAt w 3) (lowRegAt w 0)
  | 4 => .tAsrReg (lowRegAt w 3) (lowRegAt w 0)
  | 5 => .tAdc (lowRegAt w 3) (lowRegAt w 0)
  | 6 => .tSbc (lowRegAt w 3) (lowRegAt w 0)
  | 7 => .tRorReg (lowRegAt w 3) (lowRegAt w 0)
  | 8 => .tTst (lowRegAt w 3) (lowRegAt w 0)
  | 9 => .tNeg (lowRegAt w 3) (lowRegAt w 0)
  | 10 => .tCmpReg (lowRegAt w 3) (lowRegAt w 0)
  | 11 => .tCmn (lowRegAt w 3) (lowRegAt w 0)
  | 12 => .tOrr (lowRegAt w 3) (lowRegAt w 0)
  | 13 => .tMul (lowRegAt w 3) (lowRegAt w 0)
  | 14 => .tBic (lowRegAt w 3) (lowRegAt w 0)
  | _ => .tMvn (lowRegAt w 3) (lowRegAt w 0)

/-- Format 5, hi-register operations and BX (R173, R178). -/
def decodeThumbHi (w : Nat) : Instr :=
  match field w 8 2 with
  | 0 => .tAddHi (hiRegAt w 6 3) (hiRegAt w 7 0)
  | 1 => .tCmpHi (hiRegAt w 6 3) (hiRegAt w 7 0)
  | 2 => .tMovHi (hiRegAt w 6 3) (hiRegAt w 7 0)
  | _ => .tBx (hiRegAt w 6 3) (hiRegAt w 7 0)

/-- Formats 7 and 8, register offset (R174), by bits 11:9. -/
def decodeThumbRegOffset (w : Nat) : Instr :=
  match field w 9 3 with
  | 0 => .tStrReg (lowRegAt w 6) (lowRegAt w 3) (lowRegAt w 0)
  | 1 => .tStrhReg (lowRegAt w 6) (lowRegAt w 3) (lowRegAt w 0)
  | 2 => .tStrbReg (lowRegAt w 6) (lowRegAt w 3) (lowRegAt w 0)
  | 3 => .tLdsbReg (lowRegAt w 6) (lowRegAt w 3) (lowRegAt w 0)
  | 4 => .tLdrReg (lowRegAt w 6) (lowRegAt w 3) (lowRegAt w 0)
  | 5 => .tLdrhReg (lowRegAt w 6) (lowRegAt w 3) (lowRegAt w 0)
  | 6 => .tLdrbReg (lowRegAt w 6) (lowRegAt w 3) (lowRegAt w 0)
  | _ => .tLdshReg (lowRegAt w 6) (lowRegAt w 3) (lowRegAt w 0)

/-- The halfwords whose top four bits are 1011: formats 13 and 14, else unallocated (R172 rows 13 to 15). -/
def decodeThumbMisc (w : Nat) : Instr :=
  if field w 8 4 == 0 then .tAddSpImm (flagAt w 7) (bitsAt 7 w 0)
  else if field w 9 3 == 2 then .tPush (flagAt w 8) (bitsAt 8 w 0)
  else if field w 9 3 == 6 then .tPop (flagAt w 8) (bitsAt 8 w 0)
  else .tUnalloc (bitsAt 16 w 0)

/-- The halfwords whose top four bits are 1101: SWI, the unallocated condition, B{cond} (R172 rows 17 to 19). -/
def decodeThumbCond (w : Nat) : Instr :=
  if field w 8 4 == 14 then .tUnalloc (bitsAt 16 w 0)
  else if field w 8 4 == 15 then .tSwi (bitsAt 8 w 0)
  else .tBcond (Cond.ofCode (field w 8 4)) (bitsAt 8 w 0)

/-- The THUMB decode list of R172, by instr[15:11]. Every halfword decodes. -/
def decodeThumbNat (w : Nat) : Instr :=
  match field w 11 5 with
  | 0 => .tLslImm (bitsAt 5 w 6) (lowRegAt w 3) (lowRegAt w 0)
  | 1 => .tLsrImm (bitsAt 5 w 6) (lowRegAt w 3) (lowRegAt w 0)
  | 2 => .tAsrImm (bitsAt 5 w 6) (lowRegAt w 3) (lowRegAt w 0)
  | 3 =>
    match field w 9 2 with
    | 0 => .tAddReg (lowRegAt w 6) (lowRegAt w 3) (lowRegAt w 0)
    | 1 => .tSubReg (lowRegAt w 6) (lowRegAt w 3) (lowRegAt w 0)
    | 2 => .tAddImm3 (bitsAt 3 w 6) (lowRegAt w 3) (lowRegAt w 0)
    | _ => .tSubImm3 (bitsAt 3 w 6) (lowRegAt w 3) (lowRegAt w 0)
  | 4 => .tMovImm8 (lowRegAt w 8) (bitsAt 8 w 0)
  | 5 => .tCmpImm8 (lowRegAt w 8) (bitsAt 8 w 0)
  | 6 => .tAddImm8 (lowRegAt w 8) (bitsAt 8 w 0)
  | 7 => .tSubImm8 (lowRegAt w 8) (bitsAt 8 w 0)
  | 8 => if flagAt w 10 then decodeThumbHi w else decodeThumbAlu w
  | 9 => .tLdrPc (lowRegAt w 8) (bitsAt 8 w 0)
  | 10 => decodeThumbRegOffset w
  | 11 => decodeThumbRegOffset w
  | 12 => .tStrImm (bitsAt 5 w 6) (lowRegAt w 3) (lowRegAt w 0)
  | 13 => .tLdrImm (bitsAt 5 w 6) (lowRegAt w 3) (lowRegAt w 0)
  | 14 => .tStrbImm (bitsAt 5 w 6) (lowRegAt w 3) (lowRegAt w 0)
  | 15 => .tLdrbImm (bitsAt 5 w 6) (lowRegAt w 3) (lowRegAt w 0)
  | 16 => .tStrhImm (bitsAt 5 w 6) (lowRegAt w 3) (lowRegAt w 0)
  | 17 => .tLdrhImm (bitsAt 5 w 6) (lowRegAt w 3) (lowRegAt w 0)
  | 18 => .tStrSp (lowRegAt w 8) (bitsAt 8 w 0)
  | 19 => .tLdrSp (lowRegAt w 8) (bitsAt 8 w 0)
  | 20 => .tAddPc (lowRegAt w 8) (bitsAt 8 w 0)
  | 21 => .tAddSp (lowRegAt w 8) (bitsAt 8 w 0)
  | 22 => decodeThumbMisc w
  | 23 => decodeThumbMisc w
  | 24 => .tStmia (lowRegAt w 8) (bitsAt 8 w 0)
  | 25 => .tLdmia (lowRegAt w 8) (bitsAt 8 w 0)
  | 26 => decodeThumbCond w
  | 27 => decodeThumbCond w
  | 28 => .tB (bitsAt 11 w 0)
  | 29 => .tUnalloc (bitsAt 16 w 0)
  | 30 => .tBlPrefix (bitsAt 11 w 0)
  | _ => .tBlSuffix (bitsAt 11 w 0)

/-- The instruction of a THUMB halfword. -/
def decodeThumb (h : Half) : Instr := decodeThumbNat h.toNat

/-! ## Decoding bytes -/

/-- Why bytes are no instruction. Every word and every halfword decodes (R154, R172), so there is one reason. -/
inductive DecodeError where
  /-- Fewer bytes than one instruction of the state takes. -/
  | truncated
  deriving DecidableEq, Repr

/-- The instruction at the head of a list of bytes, in THUMB or in ARM state, and the bytes after it. The
first byte is the least significant (20_memory.md R103). -/
def decodeBytes (thumb : Bool) (bytes : List Byte) : Except DecodeError (Instr × List Byte) :=
  if thumb then
    match bytes with
    | b0 :: b1 :: rest => .ok (decodeThumb (b1 ++ b0), rest)
    | _ => .error .truncated
  else
    match bytes with
    | b0 :: b1 :: b2 :: b3 :: rest => .ok (decodeArm (b3 ++ b2 ++ b1 ++ b0), rest)
    | _ => .error .truncated

/-- The first `n` bytes of a number, least significant first. -/
def bytesOfNat : Nat → Nat → List Byte
  | 0, _ => []
  | n + 1, w => BitVec.ofNat 8 w :: bytesOfNat n (w / 256)

/-- The instruction the decoder reads from a word of the opcode table: 32 bits are an ARM row, 16 bits a THUMB
row (R151); no row has another size. -/
def decodeTableWord (nbits w : Nat) : Option Instr :=
  let read (thumb : Bool) : Option Instr :=
    match decodeBytes thumb (bytesOfNat (nbits / 8) w) with
    | .ok (i, _) => some i
    | .error _ => none
  if nbits == 32 then read false else if nbits == 16 then read true else none

/-! ## The encoder -/

/-- The condition and the dispatch bits instr[27:20] of an ARM word. -/
def armHead (c : Cond) (hi : Nat) : Nat := c.code * 2 ^ 28 + hi * 2 ^ 20

/-- A multiply: bits 24:21 are `op`, the register fields in descending order (R156, R157). -/
def encMultiply (c : Cond) (op : Nat) (sf : Bool) (a b rs rm : Reg) : Nat :=
  c.code * 2 ^ 28 + op * 2 ^ 21 + sf.toNat * 2 ^ 20 + a.val * 2 ^ 16 + b.val * 2 ^ 12 + rs.val * 2 ^ 8
    + 9 * 2 ^ 4 + rm.val

/-- The part of a halfword transfer before its offset; `l` is the L bit, `sh` bits 6:5 (R160). -/
def encHalfword (c : Cond) (ix : Indexing) (up : Bool) (i l : Nat) (rn rd : Reg) (sh : Nat) : Nat :=
  c.code * 2 ^ 28 + ix.pBit * 2 ^ 24 + up.toNat * 2 ^ 23 + i * 2 ^ 22 + ix.wBit * 2 ^ 21 + l * 2 ^ 20
    + rn.val * 2 ^ 16 + rd.val * 2 ^ 12 + 2 ^ 7 + sh * 2 ^ 5 + 2 ^ 4

/-- A halfword transfer with an immediate offset (R160, R168). -/
def encHalfwordImm (c : Cond) (ix : Indexing) (up : Bool) (l : Nat) (rn rd : Reg) (sh : Nat) (imm : BitVec 8) : Nat :=
  encHalfword c ix up 1 l rn rd sh + imm.toNat / 16 * 2 ^ 8 + imm.toNat % 16

/-- A halfword transfer with a register offset (R160). -/
def encHalfwordReg (c : Cond) (ix : Indexing) (up : Bool) (l : Nat) (rn rd : Reg) (sh : Nat) (rm : Reg) : Nat :=
  encHalfword c ix up 0 l rn rd sh + rm.val

/-- The part of a data-processing word before operand 2 (R155). -/
def encDp (c : Cond) (i op s : Nat) (rn rd : Reg) : Nat :=
  c.code * 2 ^ 28 + i * 2 ^ 25 + op * 2 ^ 21 + s * 2 ^ 20 + rn.val * 2 ^ 16 + rd.val * 2 ^ 12

/-- Operand 2 as a register shifted by an immediate (R155). -/
def encOp2ShImm (n : BitVec 5) (sh : ShiftType) (rm : Reg) : Nat :=
  n.toNat * 2 ^ 7 + sh.code * 2 ^ 5 + rm.val

/-- Operand 2 as a register shifted by a register (R155). -/
def encOp2ShReg (rs : Reg) (sh : ShiftType) (rm : Reg) : Nat :=
  rs.val * 2 ^ 8 + sh.code * 2 ^ 5 + 2 ^ 4 + rm.val

/-- Operand 2 as a rotated immediate (R155). -/
def encOp2Imm (rot : BitVec 4) (imm : BitVec 8) : Nat := rot.toNat * 2 ^ 8 + imm.toNat

/-- The part of a single data transfer before its offset (R162). -/
def encTransfer (c : Cond) (i p : Nat) (up : Bool) (b w l : Nat) (rn rd : Reg) : Nat :=
  c.code * 2 ^ 28 + 2 ^ 26 + i * 2 ^ 25 + p * 2 ^ 24 + up.toNat * 2 ^ 23 + b * 2 ^ 22 + w * 2 ^ 21 + l * 2 ^ 20
    + rn.val * 2 ^ 16 + rd.val * 2 ^ 12

/-- A block transfer: `pu` is P and U, `s` and `l` the S and L bits (R164). -/
def encBlock (c : Cond) (pu s : Nat) (wb : Bool) (l : Nat) (rn : Reg) (list : BitVec 16) : Nat :=
  c.code * 2 ^ 28 + 2 ^ 27 + pu * 2 ^ 23 + s * 2 ^ 22 + wb.toNat * 2 ^ 21 + l * 2 ^ 20 + rn.val * 2 ^ 16 + list.toNat

/-- A THUMB word of three 3-bit fields under `top` = instr[15:9]. -/
def encThumb3 (top a b d : Nat) : Nat := top * 2 ^ 9 + a * 2 ^ 6 + b * 2 ^ 3 + d

/-- A THUMB word of a 5-bit field and two registers under `top` = instr[15:11]. -/
def encThumb5 (top : Nat) (n : BitVec 5) (b d : LowReg) : Nat := top * 2 ^ 11 + n.toNat * 2 ^ 6 + b.val * 2 ^ 3 + d.val

/-- A THUMB word of a register and an 8-bit field under `top` = instr[15:11]. -/
def encThumb8 (top : Nat) (d : LowReg) (imm : BitVec 8) : Nat := top * 2 ^ 11 + d.val * 2 ^ 8 + imm.toNat

/-- Format 4 (R173). -/
def encThumbAlu (op : Nat) (rs rd : LowReg) : Nat := 0x10 * 2 ^ 10 + op * 2 ^ 6 + rs.val * 2 ^ 3 + rd.val

/-- Format 5 (R173, R178). -/
def encThumbHi (op : Nat) (hs hd : Reg) : Nat :=
  0x11 * 2 ^ 10 + op * 2 ^ 8 + hd.val / 8 * 2 ^ 7 + hs.val / 8 * 2 ^ 6 + hs.val % 8 * 2 ^ 3 + hd.val % 8

/-- The word of a well-formed instruction, a number below 2^32 (ARM) or 2^16 (THUMB). Should-be fields take the
values they should have (R156 to R161). -/
def encode : Instr → Nat
  | .bx cond rm => armHead cond 0x12 + 0xFFF * 2 ^ 8 + 2 ^ 4 + rm.val
  | .mul cond sf rd rs rm => encMultiply cond 0 sf rd 0 rs rm
  | .mla cond sf rd rn rs rm => encMultiply cond 1 sf rd rn rs rm
  | .umull cond sf rdHi rdLo rs rm => encMultiply cond 4 sf rdHi rdLo rs rm
  | .umlal cond sf rdHi rdLo rs rm => encMultiply cond 5 sf rdHi rdLo rs rm
  | .smull cond sf rdHi rdLo rs rm => encMultiply cond 6 sf rdHi rdLo rs rm
  | .smlal cond sf rdHi rdLo rs rm => encMultiply cond 7 sf rdHi rdLo rs rm
  | .swp cond rn rd rm =>
    armHead cond 0x10 + rn.val * 2 ^ 16 + rd.val * 2 ^ 12 + 9 * 2 ^ 4 + rm.val
  | .swpb cond rn rd rm =>
    armHead cond 0x14 + rn.val * 2 ^ 16 + rd.val * 2 ^ 12 + 9 * 2 ^ 4 + rm.val
  | .armUnallocMul cond bits => cond.code * 2 ^ 28 + bits.toNat
  | .hwUnalloc cond bits => cond.code * 2 ^ 28 + bits.toNat
  | .hwUnpred cond bits => cond.code * 2 ^ 28 + bits.toNat
  | .strhImm cond ix up rn rd imm => encHalfwordImm cond ix up 0 rn rd 1 imm
  | .strhReg cond ix up rn rd rm => encHalfwordReg cond ix up 0 rn rd 1 rm
  | .ldrhImm cond ix up rn rd imm => encHalfwordImm cond ix up 1 rn rd 1 imm
  | .ldrhReg cond ix up rn rd rm => encHalfwordReg cond ix up 1 rn rd 1 rm
  | .ldrsbImm cond ix up rn rd imm => encHalfwordImm cond ix up 1 rn rd 2 imm
  | .ldrsbReg cond ix up rn rd rm => encHalfwordReg cond ix up 1 rn rd 2 rm
  | .ldrshImm cond ix up rn rd imm => encHalfwordImm cond ix up 1 rn rd 3 imm
  | .ldrshReg cond ix up rn rd rm => encHalfwordReg cond ix up 1 rn rd 3 rm
  | .mrs cond spsr rd =>
    armHead cond 0x10 + spsr.toNat * 2 ^ 22 + 0xF * 2 ^ 16 + rd.val * 2 ^ 12
  | .msrReg cond spsr mask rm =>
    armHead cond 0x12 + spsr.toNat * 2 ^ 22 + mask.toNat * 2 ^ 16 + 0xF * 2 ^ 12 + rm.val
  | .msrImm cond spsr mask rot imm =>
    armHead cond 0x32 + spsr.toNat * 2 ^ 22 + mask.toNat * 2 ^ 16 + 0xF * 2 ^ 12 + encOp2Imm rot imm
  | .armUnallocCtrl cond bits => cond.code * 2 ^ 28 + bits.toNat
  | .andShImm cond sf rn rd n sh rm => encDp cond 0 0 sf.toNat rn rd + encOp2ShImm n sh rm
  | .andShReg cond sf rn rd rs sh rm => encDp cond 0 0 sf.toNat rn rd + encOp2ShReg rs sh rm
  | .andImm cond sf rn rd rot imm => encDp cond 1 0 sf.toNat rn rd + encOp2Imm rot imm
  | .eorShImm cond sf rn rd n sh rm => encDp cond 0 1 sf.toNat rn rd + encOp2ShImm n sh rm
  | .eorShReg cond sf rn rd rs sh rm => encDp cond 0 1 sf.toNat rn rd + encOp2ShReg rs sh rm
  | .eorImm cond sf rn rd rot imm => encDp cond 1 1 sf.toNat rn rd + encOp2Imm rot imm
  | .subShImm cond sf rn rd n sh rm => encDp cond 0 2 sf.toNat rn rd + encOp2ShImm n sh rm
  | .subShReg cond sf rn rd rs sh rm => encDp cond 0 2 sf.toNat rn rd + encOp2ShReg rs sh rm
  | .subImm cond sf rn rd rot imm => encDp cond 1 2 sf.toNat rn rd + encOp2Imm rot imm
  | .rsbShImm cond sf rn rd n sh rm => encDp cond 0 3 sf.toNat rn rd + encOp2ShImm n sh rm
  | .rsbShReg cond sf rn rd rs sh rm => encDp cond 0 3 sf.toNat rn rd + encOp2ShReg rs sh rm
  | .rsbImm cond sf rn rd rot imm => encDp cond 1 3 sf.toNat rn rd + encOp2Imm rot imm
  | .addShImm cond sf rn rd n sh rm => encDp cond 0 4 sf.toNat rn rd + encOp2ShImm n sh rm
  | .addShReg cond sf rn rd rs sh rm => encDp cond 0 4 sf.toNat rn rd + encOp2ShReg rs sh rm
  | .addImm cond sf rn rd rot imm => encDp cond 1 4 sf.toNat rn rd + encOp2Imm rot imm
  | .adcShImm cond sf rn rd n sh rm => encDp cond 0 5 sf.toNat rn rd + encOp2ShImm n sh rm
  | .adcShReg cond sf rn rd rs sh rm => encDp cond 0 5 sf.toNat rn rd + encOp2ShReg rs sh rm
  | .adcImm cond sf rn rd rot imm => encDp cond 1 5 sf.toNat rn rd + encOp2Imm rot imm
  | .sbcShImm cond sf rn rd n sh rm => encDp cond 0 6 sf.toNat rn rd + encOp2ShImm n sh rm
  | .sbcShReg cond sf rn rd rs sh rm => encDp cond 0 6 sf.toNat rn rd + encOp2ShReg rs sh rm
  | .sbcImm cond sf rn rd rot imm => encDp cond 1 6 sf.toNat rn rd + encOp2Imm rot imm
  | .rscShImm cond sf rn rd n sh rm => encDp cond 0 7 sf.toNat rn rd + encOp2ShImm n sh rm
  | .rscShReg cond sf rn rd rs sh rm => encDp cond 0 7 sf.toNat rn rd + encOp2ShReg rs sh rm
  | .rscImm cond sf rn rd rot imm => encDp cond 1 7 sf.toNat rn rd + encOp2Imm rot imm
  | .tstShImm cond rn rd n sh rm => encDp cond 0 8 1 rn rd + encOp2ShImm n sh rm
  | .tstShReg cond rn rd rs sh rm => encDp cond 0 8 1 rn rd + encOp2ShReg rs sh rm
  | .tstImm cond rn rd rot imm => encDp cond 1 8 1 rn rd + encOp2Imm rot imm
  | .teqShImm cond rn rd n sh rm => encDp cond 0 9 1 rn rd + encOp2ShImm n sh rm
  | .teqShReg cond rn rd rs sh rm => encDp cond 0 9 1 rn rd + encOp2ShReg rs sh rm
  | .teqImm cond rn rd rot imm => encDp cond 1 9 1 rn rd + encOp2Imm rot imm
  | .cmpShImm cond rn rd n sh rm => encDp cond 0 10 1 rn rd + encOp2ShImm n sh rm
  | .cmpShReg cond rn rd rs sh rm => encDp cond 0 10 1 rn rd + encOp2ShReg rs sh rm
  | .cmpImm cond rn rd rot imm => encDp cond 1 10 1 rn rd + encOp2Imm rot imm
  | .cmnShImm cond rn rd n sh rm => encDp cond 0 11 1 rn rd + encOp2ShImm n sh rm
  | .cmnShReg cond rn rd rs sh rm => encDp cond 0 11 1 rn rd + encOp2ShReg rs sh rm
  | .cmnImm cond rn rd rot imm => encDp cond 1 11 1 rn rd + encOp2Imm rot imm
  | .orrShImm cond sf rn rd n sh rm => encDp cond 0 12 sf.toNat rn rd + encOp2ShImm n sh rm
  | .orrShReg cond sf rn rd rs sh rm => encDp cond 0 12 sf.toNat rn rd + encOp2ShReg rs sh rm
  | .orrImm cond sf rn rd rot imm => encDp cond 1 12 sf.toNat rn rd + encOp2Imm rot imm
  | .movShImm cond sf rd n sh rm => encDp cond 0 13 sf.toNat 0 rd + encOp2ShImm n sh rm
  | .movShReg cond sf rd rs sh rm => encDp cond 0 13 sf.toNat 0 rd + encOp2ShReg rs sh rm
  | .movImm cond sf rd rot imm => encDp cond 1 13 sf.toNat 0 rd + encOp2Imm rot imm
  | .bicShImm cond sf rn rd n sh rm => encDp cond 0 14 sf.toNat rn rd + encOp2ShImm n sh rm
  | .bicShReg cond sf rn rd rs sh rm => encDp cond 0 14 sf.toNat rn rd + encOp2ShReg rs sh rm
  | .bicImm cond sf rn rd rot imm => encDp cond 1 14 sf.toNat rn rd + encOp2Imm rot imm
  | .mvnShImm cond sf rd n sh rm => encDp cond 0 15 sf.toNat 0 rd + encOp2ShImm n sh rm
  | .mvnShReg cond sf rd rs sh rm => encDp cond 0 15 sf.toNat 0 rd + encOp2ShReg rs sh rm
  | .mvnImm cond sf rd rot imm => encDp cond 1 15 sf.toNat 0 rd + encOp2Imm rot imm
  | .strImm cond ix up rn rd off => encTransfer cond 0 ix.pBit up 0 ix.wBit 0 rn rd + off.toNat
  | .strReg cond ix up rn rd n sh rm =>
    encTransfer cond 1 ix.pBit up 0 ix.wBit 0 rn rd + encOp2ShImm n sh rm
  | .strtImm cond up rn rd off => encTransfer cond 0 0 up 0 1 0 rn rd + off.toNat
  | .strtReg cond up rn rd n sh rm => encTransfer cond 1 0 up 0 1 0 rn rd + encOp2ShImm n sh rm
  | .strbImm cond ix up rn rd off => encTransfer cond 0 ix.pBit up 1 ix.wBit 0 rn rd + off.toNat
  | .strbReg cond ix up rn rd n sh rm =>
    encTransfer cond 1 ix.pBit up 1 ix.wBit 0 rn rd + encOp2ShImm n sh rm
  | .strbtImm cond up rn rd off => encTransfer cond 0 0 up 1 1 0 rn rd + off.toNat
  | .strbtReg cond up rn rd n sh rm => encTransfer cond 1 0 up 1 1 0 rn rd + encOp2ShImm n sh rm
  | .ldrImm cond ix up rn rd off => encTransfer cond 0 ix.pBit up 0 ix.wBit 1 rn rd + off.toNat
  | .ldrReg cond ix up rn rd n sh rm =>
    encTransfer cond 1 ix.pBit up 0 ix.wBit 1 rn rd + encOp2ShImm n sh rm
  | .ldrtImm cond up rn rd off => encTransfer cond 0 0 up 0 1 1 rn rd + off.toNat
  | .ldrtReg cond up rn rd n sh rm => encTransfer cond 1 0 up 0 1 1 rn rd + encOp2ShImm n sh rm
  | .ldrbImm cond ix up rn rd off => encTransfer cond 0 ix.pBit up 1 ix.wBit 1 rn rd + off.toNat
  | .ldrbReg cond ix up rn rd n sh rm =>
    encTransfer cond 1 ix.pBit up 1 ix.wBit 1 rn rd + encOp2ShImm n sh rm
  | .ldrbtImm cond up rn rd off => encTransfer cond 0 0 up 1 1 1 rn rd + off.toNat
  | .ldrbtReg cond up rn rd n sh rm => encTransfer cond 1 0 up 1 1 1 rn rd + encOp2ShImm n sh rm
  | .und cond bits => cond.code * 2 ^ 28 + bits.toNat
  | .stmIa cond wb rn list => encBlock cond 1 0 wb 0 rn list
  | .stmSIa cond wb rn list => encBlock cond 1 1 wb 0 rn list
  | .ldmIa cond wb rn list => encBlock cond 1 0 wb 1 rn list
  | .ldmSIa cond wb rn list => encBlock cond 1 1 wb 1 rn list
  | .stmIb cond wb rn list => encBlock cond 3 0 wb 0 rn list
  | .stmSIb cond wb rn list => encBlock cond 3 1 wb 0 rn list
  | .ldmIb cond wb rn list => encBlock cond 3 0 wb 1 rn list
  | .ldmSIb cond wb rn list => encBlock cond 3 1 wb 1 rn list
  | .stmDa cond wb rn list => encBlock cond 0 0 wb 0 rn list
  | .stmSDa cond wb rn list => encBlock cond 0 1 wb 0 rn list
  | .ldmDa cond wb rn list => encBlock cond 0 0 wb 1 rn list
  | .ldmSDa cond wb rn list => encBlock cond 0 1 wb 1 rn list
  | .stmDb cond wb rn list => encBlock cond 2 0 wb 0 rn list
  | .stmSDb cond wb rn list => encBlock cond 2 1 wb 0 rn list
  | .ldmDb cond wb rn list => encBlock cond 2 0 wb 1 rn list
  | .ldmSDb cond wb rn list => encBlock cond 2 1 wb 1 rn list
  | .b cond off => armHead cond 0xA0 + off.toNat
  | .bl cond off => armHead cond 0xB0 + off.toNat
  | .ldcStc cond p u nbit w ld rn crd cp off =>
    armHead cond 0xC0 + p.toNat * 2 ^ 24 + u.toNat * 2 ^ 23 + nbit.toNat * 2 ^ 22 + w.toNat * 2 ^ 21 + ld.toNat * 2 ^ 20 + rn.val * 2 ^ 16 + crd.val * 2 ^ 12 + cp.toNat * 2 ^ 8 + off.toNat
  | .cdp cond op1 crn crd cp op2 crm =>
    armHead cond 0xE0 + op1.toNat * 2 ^ 20 + crn.val * 2 ^ 16 + crd.val * 2 ^ 12 + cp.toNat * 2 ^ 8 + op2.toNat * 2 ^ 5 + crm.val
  | .mrcMcr cond op1 ld crn rd cp op2 crm =>
    armHead cond 0xE0 + op1.toNat * 2 ^ 21 + ld.toNat * 2 ^ 20 + crn.val * 2 ^ 16 + rd.val * 2 ^ 12 + cp.toNat * 2 ^ 8 + op2.toNat * 2 ^ 5 + 2 ^ 4 + crm.val
  | .swi cond comment => armHead cond 0xF0 + comment.toNat
  | .tLslImm n rs rd => encThumb5 0 n rs rd
  | .tLsrImm n rs rd => encThumb5 1 n rs rd
  | .tAsrImm n rs rd => encThumb5 2 n rs rd
  | .tAddReg rn rs rd => encThumb3 0xC rn.val rs.val rd.val
  | .tSubReg rn rs rd => encThumb3 0xD rn.val rs.val rd.val
  | .tAddImm3 imm rs rd => encThumb3 0xE imm.toNat rs.val rd.val
  | .tSubImm3 imm rs rd => encThumb3 0xF imm.toNat rs.val rd.val
  | .tMovImm8 rd imm => encThumb8 4 rd imm
  | .tCmpImm8 rd imm => encThumb8 5 rd imm
  | .tAddImm8 rd imm => encThumb8 6 rd imm
  | .tSubImm8 rd imm => encThumb8 7 rd imm
  | .tAnd rs rd => encThumbAlu 0 rs rd
  | .tEor rs rd => encThumbAlu 1 rs rd
  | .tLslReg rs rd => encThumbAlu 2 rs rd
  | .tLsrReg rs rd => encThumbAlu 3 rs rd
  | .tAsrReg rs rd => encThumbAlu 4 rs rd
  | .tAdc rs rd => encThumbAlu 5 rs rd
  | .tSbc rs rd => encThumbAlu 6 rs rd
  | .tRorReg rs rd => encThumbAlu 7 rs rd
  | .tTst rs rd => encThumbAlu 8 rs rd
  | .tNeg rs rd => encThumbAlu 9 rs rd
  | .tCmpReg rs rd => encThumbAlu 10 rs rd
  | .tCmn rs rd => encThumbAlu 11 rs rd
  | .tOrr rs rd => encThumbAlu 12 rs rd
  | .tMul rs rd => encThumbAlu 13 rs rd
  | .tBic rs rd => encThumbAlu 14 rs rd
  | .tMvn rs rd => encThumbAlu 15 rs rd
  | .tAddHi hs hd => encThumbHi 0 hs hd
  | .tCmpHi hs hd => encThumbHi 1 hs hd
  | .tMovHi hs hd => encThumbHi 2 hs hd
  | .tBx hs hd => encThumbHi 3 hs hd
  | .tLdrPc rd imm => encThumb8 9 rd imm
  | .tStrReg ro rb rd => encThumb3 0x28 ro.val rb.val rd.val
  | .tStrbReg ro rb rd => encThumb3 0x2a ro.val rb.val rd.val
  | .tLdrReg ro rb rd => encThumb3 0x2c ro.val rb.val rd.val
  | .tLdrbReg ro rb rd => encThumb3 0x2e ro.val rb.val rd.val
  | .tStrhReg ro rb rd => encThumb3 0x29 ro.val rb.val rd.val
  | .tLdrhReg ro rb rd => encThumb3 0x2d ro.val rb.val rd.val
  | .tLdsbReg ro rb rd => encThumb3 0x2b ro.val rb.val rd.val
  | .tLdshReg ro rb rd => encThumb3 0x2f ro.val rb.val rd.val
  | .tStrImm off rb rd => encThumb5 12 off rb rd
  | .tLdrImm off rb rd => encThumb5 13 off rb rd
  | .tStrbImm off rb rd => encThumb5 14 off rb rd
  | .tLdrbImm off rb rd => encThumb5 15 off rb rd
  | .tStrhImm off rb rd => encThumb5 16 off rb rd
  | .tLdrhImm off rb rd => encThumb5 17 off rb rd
  | .tStrSp rd imm => encThumb8 18 rd imm
  | .tLdrSp rd imm => encThumb8 19 rd imm
  | .tAddPc rd imm => encThumb8 20 rd imm
  | .tAddSp rd imm => encThumb8 21 rd imm
  | .tAddSpImm neg imm => 0xB0 * 2 ^ 8 + neg.toNat * 2 ^ 7 + imm.toNat
  | .tPush lr list => 0xB4 * 2 ^ 8 + lr.toNat * 2 ^ 8 + list.toNat
  | .tPop pc list => 0xBC * 2 ^ 8 + pc.toNat * 2 ^ 8 + list.toNat
  | .tUnalloc bits => bits.toNat
  | .tStmia rb list => encThumb8 24 rb list
  | .tLdmia rb list => encThumb8 25 rb list
  | .tSwi value => 0xDF * 2 ^ 8 + value.toNat
  | .tBcond cond off => 0xD * 2 ^ 12 + cond.code * 2 ^ 8 + off.toNat
  | .tB off => 0x1C * 2 ^ 11 + off.toNat
  | .tBlPrefix off => 0x1E * 2 ^ 11 + off.toNat
  | .tBlSuffix off => 0x1F * 2 ^ 11 + off.toNat

/-- The size of an instruction in bits: 32 for the ARM set, 16 for the THUMB set (R151). -/
def Instr.width : Instr → Nat
  | .bx _ _ => 32
  | .mul _ _ _ _ _ => 32
  | .mla _ _ _ _ _ _ => 32
  | .umull _ _ _ _ _ _ => 32
  | .umlal _ _ _ _ _ _ => 32
  | .smull _ _ _ _ _ _ => 32
  | .smlal _ _ _ _ _ _ => 32
  | .swp _ _ _ _ => 32
  | .swpb _ _ _ _ => 32
  | .armUnallocMul _ _ => 32
  | .hwUnalloc _ _ => 32
  | .hwUnpred _ _ => 32
  | .strhImm _ _ _ _ _ _ => 32
  | .strhReg _ _ _ _ _ _ => 32
  | .ldrhImm _ _ _ _ _ _ => 32
  | .ldrhReg _ _ _ _ _ _ => 32
  | .ldrsbImm _ _ _ _ _ _ => 32
  | .ldrsbReg _ _ _ _ _ _ => 32
  | .ldrshImm _ _ _ _ _ _ => 32
  | .ldrshReg _ _ _ _ _ _ => 32
  | .mrs _ _ _ => 32
  | .msrReg _ _ _ _ => 32
  | .msrImm _ _ _ _ _ => 32
  | .armUnallocCtrl _ _ => 32
  | .andShImm _ _ _ _ _ _ _ => 32
  | .andShReg _ _ _ _ _ _ _ => 32
  | .andImm _ _ _ _ _ _ => 32
  | .eorShImm _ _ _ _ _ _ _ => 32
  | .eorShReg _ _ _ _ _ _ _ => 32
  | .eorImm _ _ _ _ _ _ => 32
  | .subShImm _ _ _ _ _ _ _ => 32
  | .subShReg _ _ _ _ _ _ _ => 32
  | .subImm _ _ _ _ _ _ => 32
  | .rsbShImm _ _ _ _ _ _ _ => 32
  | .rsbShReg _ _ _ _ _ _ _ => 32
  | .rsbImm _ _ _ _ _ _ => 32
  | .addShImm _ _ _ _ _ _ _ => 32
  | .addShReg _ _ _ _ _ _ _ => 32
  | .addImm _ _ _ _ _ _ => 32
  | .adcShImm _ _ _ _ _ _ _ => 32
  | .adcShReg _ _ _ _ _ _ _ => 32
  | .adcImm _ _ _ _ _ _ => 32
  | .sbcShImm _ _ _ _ _ _ _ => 32
  | .sbcShReg _ _ _ _ _ _ _ => 32
  | .sbcImm _ _ _ _ _ _ => 32
  | .rscShImm _ _ _ _ _ _ _ => 32
  | .rscShReg _ _ _ _ _ _ _ => 32
  | .rscImm _ _ _ _ _ _ => 32
  | .tstShImm _ _ _ _ _ _ => 32
  | .tstShReg _ _ _ _ _ _ => 32
  | .tstImm _ _ _ _ _ => 32
  | .teqShImm _ _ _ _ _ _ => 32
  | .teqShReg _ _ _ _ _ _ => 32
  | .teqImm _ _ _ _ _ => 32
  | .cmpShImm _ _ _ _ _ _ => 32
  | .cmpShReg _ _ _ _ _ _ => 32
  | .cmpImm _ _ _ _ _ => 32
  | .cmnShImm _ _ _ _ _ _ => 32
  | .cmnShReg _ _ _ _ _ _ => 32
  | .cmnImm _ _ _ _ _ => 32
  | .orrShImm _ _ _ _ _ _ _ => 32
  | .orrShReg _ _ _ _ _ _ _ => 32
  | .orrImm _ _ _ _ _ _ => 32
  | .movShImm _ _ _ _ _ _ => 32
  | .movShReg _ _ _ _ _ _ => 32
  | .movImm _ _ _ _ _ => 32
  | .bicShImm _ _ _ _ _ _ _ => 32
  | .bicShReg _ _ _ _ _ _ _ => 32
  | .bicImm _ _ _ _ _ _ => 32
  | .mvnShImm _ _ _ _ _ _ => 32
  | .mvnShReg _ _ _ _ _ _ => 32
  | .mvnImm _ _ _ _ _ => 32
  | .strImm _ _ _ _ _ _ => 32
  | .strReg _ _ _ _ _ _ _ _ => 32
  | .strtImm _ _ _ _ _ => 32
  | .strtReg _ _ _ _ _ _ _ => 32
  | .strbImm _ _ _ _ _ _ => 32
  | .strbReg _ _ _ _ _ _ _ _ => 32
  | .strbtImm _ _ _ _ _ => 32
  | .strbtReg _ _ _ _ _ _ _ => 32
  | .ldrImm _ _ _ _ _ _ => 32
  | .ldrReg _ _ _ _ _ _ _ _ => 32
  | .ldrtImm _ _ _ _ _ => 32
  | .ldrtReg _ _ _ _ _ _ _ => 32
  | .ldrbImm _ _ _ _ _ _ => 32
  | .ldrbReg _ _ _ _ _ _ _ _ => 32
  | .ldrbtImm _ _ _ _ _ => 32
  | .ldrbtReg _ _ _ _ _ _ _ => 32
  | .und _ _ => 32
  | .stmIa _ _ _ _ => 32
  | .stmSIa _ _ _ _ => 32
  | .ldmIa _ _ _ _ => 32
  | .ldmSIa _ _ _ _ => 32
  | .stmIb _ _ _ _ => 32
  | .stmSIb _ _ _ _ => 32
  | .ldmIb _ _ _ _ => 32
  | .ldmSIb _ _ _ _ => 32
  | .stmDa _ _ _ _ => 32
  | .stmSDa _ _ _ _ => 32
  | .ldmDa _ _ _ _ => 32
  | .ldmSDa _ _ _ _ => 32
  | .stmDb _ _ _ _ => 32
  | .stmSDb _ _ _ _ => 32
  | .ldmDb _ _ _ _ => 32
  | .ldmSDb _ _ _ _ => 32
  | .b _ _ => 32
  | .bl _ _ => 32
  | .ldcStc _ _ _ _ _ _ _ _ _ _ => 32
  | .cdp _ _ _ _ _ _ _ => 32
  | .mrcMcr _ _ _ _ _ _ _ _ => 32
  | .swi _ _ => 32
  | .tLslImm _ _ _ => 16
  | .tLsrImm _ _ _ => 16
  | .tAsrImm _ _ _ => 16
  | .tAddReg _ _ _ => 16
  | .tSubReg _ _ _ => 16
  | .tAddImm3 _ _ _ => 16
  | .tSubImm3 _ _ _ => 16
  | .tMovImm8 _ _ => 16
  | .tCmpImm8 _ _ => 16
  | .tAddImm8 _ _ => 16
  | .tSubImm8 _ _ => 16
  | .tAnd _ _ => 16
  | .tEor _ _ => 16
  | .tLslReg _ _ => 16
  | .tLsrReg _ _ => 16
  | .tAsrReg _ _ => 16
  | .tAdc _ _ => 16
  | .tSbc _ _ => 16
  | .tRorReg _ _ => 16
  | .tTst _ _ => 16
  | .tNeg _ _ => 16
  | .tCmpReg _ _ => 16
  | .tCmn _ _ => 16
  | .tOrr _ _ => 16
  | .tMul _ _ => 16
  | .tBic _ _ => 16
  | .tMvn _ _ => 16
  | .tAddHi _ _ => 16
  | .tCmpHi _ _ => 16
  | .tMovHi _ _ => 16
  | .tBx _ _ => 16
  | .tLdrPc _ _ => 16
  | .tStrReg _ _ _ => 16
  | .tStrbReg _ _ _ => 16
  | .tLdrReg _ _ _ => 16
  | .tLdrbReg _ _ _ => 16
  | .tStrhReg _ _ _ => 16
  | .tLdrhReg _ _ _ => 16
  | .tLdsbReg _ _ _ => 16
  | .tLdshReg _ _ _ => 16
  | .tStrImm _ _ _ => 16
  | .tLdrImm _ _ _ => 16
  | .tStrbImm _ _ _ => 16
  | .tLdrbImm _ _ _ => 16
  | .tStrhImm _ _ _ => 16
  | .tLdrhImm _ _ _ => 16
  | .tStrSp _ _ => 16
  | .tLdrSp _ _ => 16
  | .tAddPc _ _ => 16
  | .tAddSp _ _ => 16
  | .tAddSpImm _ _ => 16
  | .tPush _ _ => 16
  | .tPop _ _ => 16
  | .tUnalloc _ => 16
  | .tStmia _ _ => 16
  | .tLdmia _ _ => 16
  | .tSwi _ => 16
  | .tBcond _ _ => 16
  | .tB _ => 16
  | .tBlPrefix _ => 16
  | .tBlSuffix _ => 16

/-- The condition of an ARM instruction; a THUMB instruction has none (R180: the condition of B{cond} is an
operand). -/
def Instr.armCond : Instr → Option Cond
  | .bx cond _ => some cond
  | .mul cond _ _ _ _ => some cond
  | .mla cond _ _ _ _ _ => some cond
  | .umull cond _ _ _ _ _ => some cond
  | .umlal cond _ _ _ _ _ => some cond
  | .smull cond _ _ _ _ _ => some cond
  | .smlal cond _ _ _ _ _ => some cond
  | .swp cond _ _ _ => some cond
  | .swpb cond _ _ _ => some cond
  | .armUnallocMul cond _ => some cond
  | .hwUnalloc cond _ => some cond
  | .hwUnpred cond _ => some cond
  | .strhImm cond _ _ _ _ _ => some cond
  | .strhReg cond _ _ _ _ _ => some cond
  | .ldrhImm cond _ _ _ _ _ => some cond
  | .ldrhReg cond _ _ _ _ _ => some cond
  | .ldrsbImm cond _ _ _ _ _ => some cond
  | .ldrsbReg cond _ _ _ _ _ => some cond
  | .ldrshImm cond _ _ _ _ _ => some cond
  | .ldrshReg cond _ _ _ _ _ => some cond
  | .mrs cond _ _ => some cond
  | .msrReg cond _ _ _ => some cond
  | .msrImm cond _ _ _ _ => some cond
  | .armUnallocCtrl cond _ => some cond
  | .andShImm cond _ _ _ _ _ _ => some cond
  | .andShReg cond _ _ _ _ _ _ => some cond
  | .andImm cond _ _ _ _ _ => some cond
  | .eorShImm cond _ _ _ _ _ _ => some cond
  | .eorShReg cond _ _ _ _ _ _ => some cond
  | .eorImm cond _ _ _ _ _ => some cond
  | .subShImm cond _ _ _ _ _ _ => some cond
  | .subShReg cond _ _ _ _ _ _ => some cond
  | .subImm cond _ _ _ _ _ => some cond
  | .rsbShImm cond _ _ _ _ _ _ => some cond
  | .rsbShReg cond _ _ _ _ _ _ => some cond
  | .rsbImm cond _ _ _ _ _ => some cond
  | .addShImm cond _ _ _ _ _ _ => some cond
  | .addShReg cond _ _ _ _ _ _ => some cond
  | .addImm cond _ _ _ _ _ => some cond
  | .adcShImm cond _ _ _ _ _ _ => some cond
  | .adcShReg cond _ _ _ _ _ _ => some cond
  | .adcImm cond _ _ _ _ _ => some cond
  | .sbcShImm cond _ _ _ _ _ _ => some cond
  | .sbcShReg cond _ _ _ _ _ _ => some cond
  | .sbcImm cond _ _ _ _ _ => some cond
  | .rscShImm cond _ _ _ _ _ _ => some cond
  | .rscShReg cond _ _ _ _ _ _ => some cond
  | .rscImm cond _ _ _ _ _ => some cond
  | .tstShImm cond _ _ _ _ _ => some cond
  | .tstShReg cond _ _ _ _ _ => some cond
  | .tstImm cond _ _ _ _ => some cond
  | .teqShImm cond _ _ _ _ _ => some cond
  | .teqShReg cond _ _ _ _ _ => some cond
  | .teqImm cond _ _ _ _ => some cond
  | .cmpShImm cond _ _ _ _ _ => some cond
  | .cmpShReg cond _ _ _ _ _ => some cond
  | .cmpImm cond _ _ _ _ => some cond
  | .cmnShImm cond _ _ _ _ _ => some cond
  | .cmnShReg cond _ _ _ _ _ => some cond
  | .cmnImm cond _ _ _ _ => some cond
  | .orrShImm cond _ _ _ _ _ _ => some cond
  | .orrShReg cond _ _ _ _ _ _ => some cond
  | .orrImm cond _ _ _ _ _ => some cond
  | .movShImm cond _ _ _ _ _ => some cond
  | .movShReg cond _ _ _ _ _ => some cond
  | .movImm cond _ _ _ _ => some cond
  | .bicShImm cond _ _ _ _ _ _ => some cond
  | .bicShReg cond _ _ _ _ _ _ => some cond
  | .bicImm cond _ _ _ _ _ => some cond
  | .mvnShImm cond _ _ _ _ _ => some cond
  | .mvnShReg cond _ _ _ _ _ => some cond
  | .mvnImm cond _ _ _ _ => some cond
  | .strImm cond _ _ _ _ _ => some cond
  | .strReg cond _ _ _ _ _ _ _ => some cond
  | .strtImm cond _ _ _ _ => some cond
  | .strtReg cond _ _ _ _ _ _ => some cond
  | .strbImm cond _ _ _ _ _ => some cond
  | .strbReg cond _ _ _ _ _ _ _ => some cond
  | .strbtImm cond _ _ _ _ => some cond
  | .strbtReg cond _ _ _ _ _ _ => some cond
  | .ldrImm cond _ _ _ _ _ => some cond
  | .ldrReg cond _ _ _ _ _ _ _ => some cond
  | .ldrtImm cond _ _ _ _ => some cond
  | .ldrtReg cond _ _ _ _ _ _ => some cond
  | .ldrbImm cond _ _ _ _ _ => some cond
  | .ldrbReg cond _ _ _ _ _ _ _ => some cond
  | .ldrbtImm cond _ _ _ _ => some cond
  | .ldrbtReg cond _ _ _ _ _ _ => some cond
  | .und cond _ => some cond
  | .stmIa cond _ _ _ => some cond
  | .stmSIa cond _ _ _ => some cond
  | .ldmIa cond _ _ _ => some cond
  | .ldmSIa cond _ _ _ => some cond
  | .stmIb cond _ _ _ => some cond
  | .stmSIb cond _ _ _ => some cond
  | .ldmIb cond _ _ _ => some cond
  | .ldmSIb cond _ _ _ => some cond
  | .stmDa cond _ _ _ => some cond
  | .stmSDa cond _ _ _ => some cond
  | .ldmDa cond _ _ _ => some cond
  | .ldmSDa cond _ _ _ => some cond
  | .stmDb cond _ _ _ => some cond
  | .stmSDb cond _ _ _ => some cond
  | .ldmDb cond _ _ _ => some cond
  | .ldmSDb cond _ _ _ => some cond
  | .b cond _ => some cond
  | .bl cond _ => some cond
  | .ldcStc cond _ _ _ _ _ _ _ _ _ => some cond
  | .cdp cond _ _ _ _ _ _ => some cond
  | .mrcMcr cond _ _ _ _ _ _ _ => some cond
  | .swi cond _ => some cond
  | .tLslImm _ _ _ => none
  | .tLsrImm _ _ _ => none
  | .tAsrImm _ _ _ => none
  | .tAddReg _ _ _ => none
  | .tSubReg _ _ _ => none
  | .tAddImm3 _ _ _ => none
  | .tSubImm3 _ _ _ => none
  | .tMovImm8 _ _ => none
  | .tCmpImm8 _ _ => none
  | .tAddImm8 _ _ => none
  | .tSubImm8 _ _ => none
  | .tAnd _ _ => none
  | .tEor _ _ => none
  | .tLslReg _ _ => none
  | .tLsrReg _ _ => none
  | .tAsrReg _ _ => none
  | .tAdc _ _ => none
  | .tSbc _ _ => none
  | .tRorReg _ _ => none
  | .tTst _ _ => none
  | .tNeg _ _ => none
  | .tCmpReg _ _ => none
  | .tCmn _ _ => none
  | .tOrr _ _ => none
  | .tMul _ _ => none
  | .tBic _ _ => none
  | .tMvn _ _ => none
  | .tAddHi _ _ => none
  | .tCmpHi _ _ => none
  | .tMovHi _ _ => none
  | .tBx _ _ => none
  | .tLdrPc _ _ => none
  | .tStrReg _ _ _ => none
  | .tStrbReg _ _ _ => none
  | .tLdrReg _ _ _ => none
  | .tLdrbReg _ _ _ => none
  | .tStrhReg _ _ _ => none
  | .tLdrhReg _ _ _ => none
  | .tLdsbReg _ _ _ => none
  | .tLdshReg _ _ _ => none
  | .tStrImm _ _ _ => none
  | .tLdrImm _ _ _ => none
  | .tStrbImm _ _ _ => none
  | .tLdrbImm _ _ _ => none
  | .tStrhImm _ _ _ => none
  | .tLdrhImm _ _ _ => none
  | .tStrSp _ _ => none
  | .tLdrSp _ _ => none
  | .tAddPc _ _ => none
  | .tAddSp _ _ => none
  | .tAddSpImm _ _ => none
  | .tPush _ _ => none
  | .tPop _ _ => none
  | .tUnalloc _ => none
  | .tStmia _ _ => none
  | .tLdmia _ _ => none
  | .tSwi _ => none
  | .tBcond _ _ => none
  | .tB _ => none
  | .tBlPrefix _ => none
  | .tBlSuffix _ => none

end Sys2Proof
end

