-- ==== Sys2Proof/Machine/Fetch.lean ====
section
/-!
DEFINITION. The parts of a step around an instruction: retire, shift and fetch (30_encoding.md R150), the instruction
in the pipeline, taking an IRQ (60_exceptions.md R508), and the halted CPU (61_scheduler.md R575).
-/
namespace Sys2Proof.Machine

/-- The width of an opcode in the current state (30_encoding.md R151). -/
def Cpu.opcodeWidth (c : Cpu) : Width := if c.cpsr.t then .half else .word

/-- Step 2 of R150: `executing` retires, `decoding` moves up, and an opcode is fetched at PC. -/
def State.fetchStage (s : State) : State :=
  let (v, t) := s.memRead .opcode s.cpu.pc s.cpu.opcodeWidth s.cpu.fetchType
  { t with cpu := { t.cpu with executing := s.cpu.decoding, decoding := v, fetchType := .seq } }

/-- Step 3 of R150: the instruction that `executing` holds. -/
def Cpu.currentInstr (c : Cpu) : Instr :=
  if c.cpsr.t then decodeThumb (c.executing.extractLsb' 0 16) else decodeArm c.executing

/-- Is an IRQ taken at this boundary? (60_exceptions.md R508). -/
def State.irqDue (s : State) : Bool := s.dev.irqSignal && !s.cpu.cpsr.i

/-- lr_irq is `next + 4`, `next` being the address of the instruction the IRQ preempts (R508). -/
def Cpu.irqReturn (c : Cpu) : Word := c.pc - c.w - c.w + 4

/-- `take_irq()` (R508): the abandoned step's opcode fetch, then the entry; the hazard ends (10_state.md R72). -/
def State.takeIrq (s : State) : State :=
  let t := (s.memRead .opcode s.cpu.pc s.cpu.opcodeWidth s.cpu.fetchType).2
  (t.setHazard false).enterException .irq 0x00000018 s.cpu.irqReturn

/-- Leave the halt if an interrupt is available (R530). -/
def State.wake (s : State) : State :=
  if s.dev.available then { s with dev := { s.dev with halted := false } } else s

/-- The halted CPU sleeps to the next event (R575); with none it is stuck (R572). -/
def State.sleep (s : State) : Res State :=
  match s.dev.remainingCycles with
  | none => .fault .stuck
  | some c => .next { s with dev := s.dev.advance c }

/-- The pipeline holds a word to run next, in the instruction set its width names. -/
def Cpu.holding (c : Cpu) (nbits w : Nat) : Cpu :=
  { c with
    executing := BitVec.ofNat 32 (if nbits = 16 then w % 2 ^ 16 else w)
    cpsr := { c.cpsr with t := nbits == 16 } }

end Sys2Proof.Machine
end

