-- ==== Sys2Proof/Machine/Step.lean ====
section
/-!
DEFINITION. One iteration of the tick loop (61_scheduler.md R575).
-/
namespace Sys2Proof.Machine

/-- One CPU step (30_encoding.md R150): an IRQ at the boundary, or the instruction in the pipeline. -/
def cpuStep (s : State) : Host.Outcome State Fault Refusal :=
  if s.irqDue then .next s.takeIrq else exec s.cpu.currentInstr s.fetchStage

/-- One step of the machine (61_scheduler.md R575): a running DMA channel, else the halted CPU, else the CPU. -/
def step (s : State) : Host.Outcome State Fault Refusal :=
  match s.dev.runningChannel with
  | some n => s.dmaStep n
  | none => if s.wake.dev.halted then s.wake.sleep else cpuStep s.wake

/-- The state with an instruction of `nbits` bits where the next CPU step takes its instruction from, the pipeline's
`executing` (30_encoding.md R150). How a program comes to run from reset: assumption log 13. -/
def State.withFetchWord (s : State) (nbits w : Nat) : State := { s with cpu := s.cpu.holding nbits w }

end Sys2Proof.Machine
end

