-- ==== Sys2Proof/Machine/Launch.lean ====
section
/-!
DEFINITION. How a run starts (70_reset_and_hazards.md R700 to R711), over any memory image and any ACCESS_CYCLES
(00_scope.md R11), and what an external agent does between steps (60_exceptions.md R543).
-/
namespace Sys2Proof.Machine

/-- The state reset sets before its flush (R700, 10_state.md R70). -/
def State.beforeFlush (d : ResetDraw) (m : Memory) (costs : List CostRow) : State where
  cpu := { Cpu.resetWith d with pc := 0, fetchType := .nonseq }
  dev := { Dev.resetAt 0 with costs := costs }
  mem := m
  draws := 0

/-- Power-on reset with a memory image and an ACCESS_CYCLES: the flush at 0 in ARM state (R700). -/
def State.powerOn (d : ResetDraw) (m : Memory) (costs : List CostRow) : State :=
  (State.beforeFlush d m costs).branchTo 0

/-- The general registers BIOS_SKIP names (R710): r13_usr, r13_irq and r13_svc, every other 0. -/
def biosRegs : Vector Word 30 :=
  (((Vector.replicate 30 (0 : Word)).set 13 0x03007F00).set 22 0x03007FA0).set 24 0x03007FE0

/-- The launch premise BIOS_SKIP (R710). -/
def State.biosSkip (m : Memory) (costs : List CostRow) : State :=
  let s := State.beforeFlush { ResetDraw.zero with regs := biosRegs } m costs
  (s.setCpsr ⟨false, false, false, false, false, false, false, .sys⟩).branchTo 0x08000000

/-- The launch premise THUMB_AT_ZERO (R711): reset in THUMB state, with a chosen lr. -/
def State.thumbAtZero (d : ResetDraw) (m : Memory) (costs : List CostRow) (lr : Word) : State :=
  let s := State.beforeFlush d m costs
  ((s.setCpsr { s.cpu.cpsr with t := true }).setX lrReg lr).branchTo 0

/-- A call of an external agent between two steps (60_exceptions.md R543). -/
def State.envCall (s : State) (c : EnvCall) : State := { s with dev := s.dev.envCall c }

end Sys2Proof.Machine
end

