-- ==== Sys2Proof/Safety.lean ====
section
/-!
DEFINITION. The words claims are stated in: what an instruction names, when it executes, what it keeps, the effects
that instructions share, and what a safe state of the devices is (the invariants every step keeps).
-/
namespace Sys2Proof.Machine

/-! ## What is kept -/

/-- The general registers of every bank but the listed places, the control bits of CPSR and the five SPSRs. -/
structure Keeps (dst : List (Fin 30)) (s u : State) : Prop where
  regs : ∀ j, j ∉ dst → u.cpu.regs.get j = s.cpu.regs.get j
  mode : u.cpu.cpsr.mode = s.cpu.cpsr.mode
  thumb : u.cpu.cpsr.t = s.cpu.cpsr.t
  masks : u.cpu.cpsr.i = s.cpu.cpsr.i ∧ u.cpu.cpsr.f = s.cpu.cpsr.f
  spsrs : ∀ m, u.cpu.spsr m = s.cpu.spsr m

/-- N, Z, C and V. -/
structure KeepsFlags (s u : State) : Prop where
  n : u.cpu.cpsr.n = s.cpu.cpsr.n
  z : u.cpu.cpsr.z = s.cpu.cpsr.z
  c : u.cpu.cpsr.c = s.cpu.cpsr.c
  v : u.cpu.cpsr.v = s.cpu.cpsr.v

/-- Every byte of memory but those the instruction stores to. -/
def KeepsBytes (stored : Nat → Prop) (s u : State) : Prop := ∀ a, ¬ stored a → u.mem.read a = s.mem.read a

/-- No byte is stored to. -/
def nowhere (_ : Nat) : Prop := False

/-- The bytes from `b` up that a store of this width writes. -/
def bytesFrom (b : Nat) (w : Width) (a : Nat) : Prop := b ≤ a ∧ a < b + w.bytes

/-- The place of a register of the current mode (10_state.md R34). -/
def State.place (s : State) (i : Reg) : Fin 30 := physIndex i s.cpu.cpsr.mode

/-- The end of an instruction that does not write PC (R40, R47): PC moves past it, the next fetch has the given
class, the pipeline is as the step's fetch left it, and the hazard is over. -/
structure Advanced (acc : AccessClass) (s u : State) : Prop where
  pc : u.cpu.pc = s.cpu.pc + s.cpu.w
  fetch : u.cpu.fetchType = acc
  pipeline : u.cpu.executing = s.cpu.executing ∧ u.cpu.decoding = s.cpu.decoding
  hazard : u.cpu.ubankHazard = false

/-! ## Memory -/

/-- The bus serves this aligned address from the byte `b` of memory (20_memory.md R101, R102). -/
def Served (a : Word) (b : Nat) : Prop := targetOf a.toNat = .ram b ∨ targetOf a.toNat = .rom b

/-- The effect of a flush at a target (10_state.md R45) on a machine that held the devices `d` and the memory `m`:
PC two widths past the aligned target, the pipeline holding the opcodes there, and the time of the two fetches. -/
structure Flushed (d : Dev) (m : Memory) (target : Word) (u : State) : Prop where
  pc : u.cpu.pc = alignAddr target u.cpu.opcodeWidth + u.cpu.w + u.cpu.w
  fetch : u.cpu.fetchType = .seq
  executing : ∀ b, Served (alignAddr target u.cpu.opcodeWidth) b → u.cpu.executing = m.load b u.cpu.opcodeWidth
  decoding : ∀ b, Served (alignAddr target u.cpu.opcodeWidth + u.cpu.w) b →
    u.cpu.decoding = m.load b u.cpu.opcodeWidth
  time : u.dev = (d.passAccess .opcode (alignAddr target u.cpu.opcodeWidth).toNat u.cpu.opcodeWidth
    .nonseq).passAccess .opcode (alignAddr target u.cpu.opcodeWidth + u.cpu.w).toNat u.cpu.opcodeWidth .seq
  mem : u.mem = m
  hazard : u.cpu.ubankHazard = false

/-- The effect of taking an exception (60_exceptions.md R503) on a machine that held the CPSR, registers and
SPSRs of `s`, the devices `d` and the memory of `s`. -/
structure Entered (s : State) (d : Dev) (mode : Mode) (vector lr : Word) (u : State) : Prop where
  cpsr : u.cpu.cpsr = { s.cpu.cpsr with mode := mode, i := true, t := false }
  saved : u.cpu.spsr mode = some s.cpu.cpsr.save
  link : u.x lrReg = lr
  flushed : Flushed d s.mem vector u
  regs : ∀ j, j ≠ physIndex lrReg mode → u.cpu.regs.get j = s.cpu.regs.get j
  spsrs : ∀ m, m ≠ mode → u.cpu.spsr m = s.cpu.spsr m

/-- The effect of one store when its time has passed and the devices are `d` (20_memory.md R106, R109), `d'` being the
devices after it: memory that holds what is written takes the bytes, a register of the block runs its write action,
and anything else keeps every byte. -/
def Stored (d d' : Dev) (a : Word) (w : Width) (v : Word) (s u : State) : Prop :=
  match targetOf (alignAddr a w).toNat with
  | .ram b =>
    d' = d ∧ (∀ k, k < w.bytes → u.mem.read (b + k) = byteOf v k) ∧ KeepsBytes (bytesFrom b w) s u
  | .io off => d.ioStore off v w = .next d' ∧ KeepsBytes nowhere s u
  | .rom _ | .openBus => d' = d ∧ KeepsBytes nowhere s u

/-- The store is not one of the register writes the spec refuses (62_dma.md R621, R622, 60_exceptions.md R532). -/
def StoreAllowed (d : Dev) (a : Word) (w : Width) (v : Word) : Prop :=
  ∀ off, targetOf (alignAddr a w).toNat = .io off → ∃ d', d.ioStore off v w = .next d'

/-- The devices after a data access at an address, before the access takes effect. -/
def State.timeOf (s : State) (a : Word) (w : Width) : Dev := (s.passAccess .data a w .nonseq).dev

/-- The address of word k of a block transfer (42_arm_loadstore.md R305). -/
def blockAddr (mode : BlockMode) (base : Word) (list : BitVec 16) (k : Nat) : Word :=
  alignAddr (blockStart mode base list) .word + BitVec.ofNat 32 (4 * k)

/-- The places of the registers of a block transfer, r15 aside. -/
def State.places (s : State) (regs : List Reg) : List (Fin 30) := (regs.filter fun r => r != pcReg).map s.place

/-- The class of access k of a transfer: the first non-sequential, the rest sequential (42_arm_loadstore.md R313,
62_dma.md R614). -/
def runClass (k : Nat) : AccessClass := if k = 0 then .nonseq else .seq

/-- The machine after the first reads of a block load, one word at each address (R305, R313). -/
def State.afterReads (s : State) (addr : Nat → Word) : Nat → State
  | 0 => s
  | k + 1 => ((s.afterReads addr k).memRead .data (addr k) .word (runClass k)).2

/-- `v` is what read k of a block load finds: the word of memory, or of the registers of the block as they are when its
time has passed. Where nothing of the model answers the read, `v` is free. -/
structure State.BlockRead (s : State) (addr : Nat → Word) (k : Nat) (v : Word) : Prop where
  memory : ∀ b, Served (addr k) b → v = s.mem.load b .word
  block : ∀ off, targetOf (addr k).toNat = .io off →
    v = (((s.afterReads addr k).passAccess .data (addr k) .word (runClass k)).dev.ioLoad (s.afterReads addr k).draws
      off .word).1

/-- The devices after the reads of a block load of this many registers and its internal cycle (R313). -/
def State.loadTime (s : State) (addr : Nat → Word) (count : Nat) : Dev := (s.afterReads addr count).dev.advance 1

/-- The machine after the first writes of a block store, one value at each address, or the refusal of one of them (R307,
R313). -/
def State.afterWrites (s : State) (addr value : Nat → Word) : Nat → Res State
  | 0 => .next s
  | k + 1 => andThen (s.afterWrites addr value k) fun t => t.memWrite (addr k) .word (value k) (runClass k)

/-! ## The registers of the block -/

/-- The halfword registers of the block by their offsets (10_state.md R67), each with the stored value an 8-bit write
merges its byte into (20_memory.md R112): 0 for IF, and for TMiCNT_L the reload value (assumption log 20). -/
def Dev.storedHalves (d : Dev) : List (Nat × Half) :=
  [(0x200, d.ie), (0x202, 0), (0x204, d.waitcnt), (0x208, if d.ime then 1 else 0)] ++
    (List.finRange 4).flatMap fun n =>
      [(0xB0 + 12 * n.val, (d.channel n).sad.extractLsb' 0 16), (0xB2 + 12 * n.val, (d.channel n).sad.extractLsb' 16 16),
        (0xB4 + 12 * n.val, (d.channel n).dad.extractLsb' 0 16), (0xB6 + 12 * n.val, (d.channel n).dad.extractLsb' 16 16),
        (0xB8 + 12 * n.val, (d.channel n).cntL), (0xBA + 12 * n.val, (d.channel n).cntH),
        (0x100 + 4 * n.val, (d.timer n).reload), (0x102 + 4 * n.val, (d.timer n).control)]

end Sys2Proof.Machine

namespace Sys2Proof

open Machine

/-! ## When an instruction executes -/

/-- The registers an instruction reads or writes as x[i] (10_state.md R72). A field the rules ignore names nothing;
r0 to r7, which no mode banks, are left out of the THUMB forms. -/
def Instr.names : Instr → List Reg
  | .andShImm _ _ rn rd _ _ rm | .eorShImm _ _ rn rd _ _ rm | .subShImm _ _ rn rd _ _ rm
    | .rsbShImm _ _ rn rd _ _ rm | .addShImm _ _ rn rd _ _ rm | .adcShImm _ _ rn rd _ _ rm
    | .sbcShImm _ _ rn rd _ _ rm | .rscShImm _ _ rn rd _ _ rm | .orrShImm _ _ rn rd _ _ rm
    | .bicShImm _ _ rn rd _ _ rm => [rn, rd, rm]
  | .andShReg _ _ rn rd rs _ rm | .eorShReg _ _ rn rd rs _ rm | .subShReg _ _ rn rd rs _ rm
    | .rsbShReg _ _ rn rd rs _ rm | .addShReg _ _ rn rd rs _ rm | .adcShReg _ _ rn rd rs _ rm
    | .sbcShReg _ _ rn rd rs _ rm | .rscShReg _ _ rn rd rs _ rm | .orrShReg _ _ rn rd rs _ rm
    | .bicShReg _ _ rn rd rs _ rm => [rn, rd, rs, rm]
  | .andImm _ _ rn rd _ _ | .eorImm _ _ rn rd _ _ | .subImm _ _ rn rd _ _ | .rsbImm _ _ rn rd _ _
    | .addImm _ _ rn rd _ _ | .adcImm _ _ rn rd _ _ | .sbcImm _ _ rn rd _ _ | .rscImm _ _ rn rd _ _
    | .orrImm _ _ rn rd _ _ | .bicImm _ _ rn rd _ _ => [rn, rd]
  | .tstShImm _ rn _ _ _ rm | .teqShImm _ rn _ _ _ rm | .cmpShImm _ rn _ _ _ rm | .cmnShImm _ rn _ _ _ rm => [rn, rm]
  | .tstShReg _ rn _ rs _ rm | .teqShReg _ rn _ rs _ rm | .cmpShReg _ rn _ rs _ rm
    | .cmnShReg _ rn _ rs _ rm => [rn, rs, rm]
  | .tstImm _ rn _ _ _ | .teqImm _ rn _ _ _ | .cmpImm _ rn _ _ _ | .cmnImm _ rn _ _ _ => [rn]
  | .movShImm _ _ rd _ _ rm | .mvnShImm _ _ rd _ _ rm => [rd, rm]
  | .movShReg _ _ rd rs _ rm | .mvnShReg _ _ rd rs _ rm => [rd, rs, rm]
  | .movImm _ _ rd _ _ | .mvnImm _ _ rd _ _ => [rd]
  | .mul _ _ rd rs rm => [rd, rs, rm]
  | .mla _ _ rd rn rs rm => [rd, rn, rs, rm]
  | .umull _ _ rdHi rdLo rs rm | .umlal _ _ rdHi rdLo rs rm | .smull _ _ rdHi rdLo rs rm
    | .smlal _ _ rdHi rdLo rs rm => [rdHi, rdLo, rs, rm]
  | .ldrImm _ _ _ rn rd _ | .ldrtImm _ _ rn rd _ | .ldrbImm _ _ _ rn rd _ | .ldrbtImm _ _ rn rd _
    | .strImm _ _ _ rn rd _ | .strtImm _ _ rn rd _ | .strbImm _ _ _ rn rd _ | .strbtImm _ _ rn rd _
    | .ldrhImm _ _ _ rn rd _ | .ldrsbImm _ _ _ rn rd _ | .ldrshImm _ _ _ rn rd _ | .strhImm _ _ _ rn rd _ => [rn, rd]
  | .ldrReg _ _ _ rn rd _ _ rm | .ldrtReg _ _ rn rd _ _ rm | .ldrbReg _ _ _ rn rd _ _ rm
    | .ldrbtReg _ _ rn rd _ _ rm | .strReg _ _ _ rn rd _ _ rm | .strtReg _ _ rn rd _ _ rm
    | .strbReg _ _ _ rn rd _ _ rm | .strbtReg _ _ rn rd _ _ rm | .ldrhReg _ _ _ rn rd rm
    | .ldrsbReg _ _ _ rn rd rm | .ldrshReg _ _ _ rn rd rm | .strhReg _ _ _ rn rd rm => [rn, rd, rm]
  | .swp _ rn rd rm | .swpb _ rn rd rm => [rn, rd, rm]
  | .ldmIa _ _ rn list | .ldmIb _ _ rn list | .ldmDa _ _ rn list | .ldmDb _ _ rn list | .stmIa _ _ rn list
    | .stmIb _ _ rn list | .stmDa _ _ rn list | .stmDb _ _ rn list => rn :: blockRegs list
  | .ldmSIa _ _ rn list | .ldmSIb _ _ rn list | .ldmSDa _ _ rn list | .ldmSDb _ _ rn list =>
      if loadsPc list then rn :: blockRegs list else [rn]
  | .stmSIa _ _ rn _ | .stmSIb _ _ rn _ | .stmSDa _ _ rn _ | .stmSDb _ _ rn _ => [rn]
  | .bx _ rm | .msrReg _ _ _ rm => [rm]
  | .mrs _ _ rd => [rd]
  | .bl _ _ | .tBlPrefix _ | .tBlSuffix _ => [lrReg]
  | .tAddHi hs hd | .tCmpHi hs hd | .tMovHi hs hd => [hs, hd]
  | .tBx hs _ => [hs]
  | .tStrSp _ _ | .tLdrSp _ _ | .tAddSp _ _ | .tAddSpImm _ _ => [spReg]
  | .tPush lr list => spReg :: blockRegs (pushList lr list)
  | .tPop pc list => spReg :: blockRegs (popList pc list)
  | .armUnallocMul _ _ | .hwUnalloc _ _ | .hwUnpred _ _ | .msrImm _ _ _ _ _ | .armUnallocCtrl _ _ | .und _ _
    | .b _ _ | .ldcStc _ _ _ _ _ _ _ _ _ _ | .cdp _ _ _ _ _ _ _ | .mrcMcr _ _ _ _ _ _ _ _ | .swi _ _
    | .tLslImm _ _ _ | .tLsrImm _ _ _ | .tAsrImm _ _ _ | .tAddReg _ _ _ | .tSubReg _ _ _ | .tAddImm3 _ _ _
    | .tSubImm3 _ _ _ | .tMovImm8 _ _ | .tCmpImm8 _ _ | .tAddImm8 _ _ | .tSubImm8 _ _ | .tAnd _ _ | .tEor _ _
    | .tLslReg _ _ | .tLsrReg _ _ | .tAsrReg _ _ | .tAdc _ _ | .tSbc _ _ | .tRorReg _ _ | .tTst _ _
    | .tNeg _ _ | .tCmpReg _ _ | .tCmn _ _ | .tOrr _ _ | .tMul _ _ | .tBic _ _ | .tMvn _ _ | .tLdrPc _ _
    | .tStrReg _ _ _ | .tStrbReg _ _ _ | .tLdrReg _ _ _ | .tLdrbReg _ _ _ | .tStrhReg _ _ _ | .tLdrhReg _ _ _
    | .tLdsbReg _ _ _ | .tLdshReg _ _ _ | .tStrImm _ _ _ | .tLdrImm _ _ _ | .tStrbImm _ _ _ | .tLdrbImm _ _ _
    | .tStrhImm _ _ _ | .tLdrhImm _ _ _ | .tAddPc _ _ | .tUnalloc _ | .tStmia _ _ | .tLdmia _ _ | .tSwi _
    | .tBcond _ _ | .tB _ => []

/-- The instruction belongs to the set CPSR.T selects, its condition passes (40_arm_dataproc.md R200) and the
user-bank hazard does not forbid it (10_state.md R72). -/
structure Instr.Executes (i : Instr) (s : State) : Prop where
  set : s.cpu.cpsr.t = i.armCond.isNone
  cond : ∀ c, i.armCond = some c → condPassed s.cpu.cpsr c = true
  hazard : s.hazardStops i.names = false

/-! ## The instructions by their shape -/

/-- The parts of a data-processing instruction (40_arm_dataproc.md R214); MOV and MVN have no Rn, and a test has
S = 1. -/
structure DpParts where
  op : AluOp
  sf : Bool
  rn : Reg
  rd : Reg
  o : Operand2

/-- The data-processing instructions. -/
def Instr.asDp : Instr → Option DpParts
  | .andShImm _ sf rn rd n sh rm => some ⟨.and, sf, rn, rd, .shImm n sh rm⟩
  | .andShReg _ sf rn rd rs sh rm => some ⟨.and, sf, rn, rd, .shReg rs sh rm⟩
  | .andImm _ sf rn rd rot imm => some ⟨.and, sf, rn, rd, .imm rot imm⟩
  | .eorShImm _ sf rn rd n sh rm => some ⟨.eor, sf, rn, rd, .shImm n sh rm⟩
  | .eorShReg _ sf rn rd rs sh rm => some ⟨.eor, sf, rn, rd, .shReg rs sh rm⟩
  | .eorImm _ sf rn rd rot imm => some ⟨.eor, sf, rn, rd, .imm rot imm⟩
  | .subShImm _ sf rn rd n sh rm => some ⟨.sub, sf, rn, rd, .shImm n sh rm⟩
  | .subShReg _ sf rn rd rs sh rm => some ⟨.sub, sf, rn, rd, .shReg rs sh rm⟩
  | .subImm _ sf rn rd rot imm => some ⟨.sub, sf, rn, rd, .imm rot imm⟩
  | .rsbShImm _ sf rn rd n sh rm => some ⟨.rsb, sf, rn, rd, .shImm n sh rm⟩
  | .rsbShReg _ sf rn rd rs sh rm => some ⟨.rsb, sf, rn, rd, .shReg rs sh rm⟩
  | .rsbImm _ sf rn rd rot imm => some ⟨.rsb, sf, rn, rd, .imm rot imm⟩
  | .addShImm _ sf rn rd n sh rm => some ⟨.add, sf, rn, rd, .shImm n sh rm⟩
  | .addShReg _ sf rn rd rs sh rm => some ⟨.add, sf, rn, rd, .shReg rs sh rm⟩
  | .addImm _ sf rn rd rot imm => some ⟨.add, sf, rn, rd, .imm rot imm⟩
  | .adcShImm _ sf rn rd n sh rm => some ⟨.adc, sf, rn, rd, .shImm n sh rm⟩
  | .adcShReg _ sf rn rd rs sh rm => some ⟨.adc, sf, rn, rd, .shReg rs sh rm⟩
  | .adcImm _ sf rn rd rot imm => some ⟨.adc, sf, rn, rd, .imm rot imm⟩
  | .sbcShImm _ sf rn rd n sh rm => some ⟨.sbc, sf, rn, rd, .shImm n sh rm⟩
  | .sbcShReg _ sf rn rd rs sh rm => some ⟨.sbc, sf, rn, rd, .shReg rs sh rm⟩
  | .sbcImm _ sf rn rd rot imm => some ⟨.sbc, sf, rn, rd, .imm rot imm⟩
  | .rscShImm _ sf rn rd n sh rm => some ⟨.rsc, sf, rn, rd, .shImm n sh rm⟩
  | .rscShReg _ sf rn rd rs sh rm => some ⟨.rsc, sf, rn, rd, .shReg rs sh rm⟩
  | .rscImm _ sf rn rd rot imm => some ⟨.rsc, sf, rn, rd, .imm rot imm⟩
  | .tstShImm _ rn rd n sh rm => some ⟨.tst, true, rn, rd, .shImm n sh rm⟩
  | .tstShReg _ rn rd rs sh rm => some ⟨.tst, true, rn, rd, .shReg rs sh rm⟩
  | .tstImm _ rn rd rot imm => some ⟨.tst, true, rn, rd, .imm rot imm⟩
  | .teqShImm _ rn rd n sh rm => some ⟨.teq, true, rn, rd, .shImm n sh rm⟩
  | .teqShReg _ rn rd rs sh rm => some ⟨.teq, true, rn, rd, .shReg rs sh rm⟩
  | .teqImm _ rn rd rot imm => some ⟨.teq, true, rn, rd, .imm rot imm⟩
  | .cmpShImm _ rn rd n sh rm => some ⟨.cmp, true, rn, rd, .shImm n sh rm⟩
  | .cmpShReg _ rn rd rs sh rm => some ⟨.cmp, true, rn, rd, .shReg rs sh rm⟩
  | .cmpImm _ rn rd rot imm => some ⟨.cmp, true, rn, rd, .imm rot imm⟩
  | .cmnShImm _ rn rd n sh rm => some ⟨.cmn, true, rn, rd, .shImm n sh rm⟩
  | .cmnShReg _ rn rd rs sh rm => some ⟨.cmn, true, rn, rd, .shReg rs sh rm⟩
  | .cmnImm _ rn rd rot imm => some ⟨.cmn, true, rn, rd, .imm rot imm⟩
  | .orrShImm _ sf rn rd n sh rm => some ⟨.orr, sf, rn, rd, .shImm n sh rm⟩
  | .orrShReg _ sf rn rd rs sh rm => some ⟨.orr, sf, rn, rd, .shReg rs sh rm⟩
  | .orrImm _ sf rn rd rot imm => some ⟨.orr, sf, rn, rd, .imm rot imm⟩
  | .movShImm _ sf rd n sh rm => some ⟨.mov, sf, 0, rd, .shImm n sh rm⟩
  | .movShReg _ sf rd rs sh rm => some ⟨.mov, sf, 0, rd, .shReg rs sh rm⟩
  | .movImm _ sf rd rot imm => some ⟨.mov, sf, 0, rd, .imm rot imm⟩
  | .bicShImm _ sf rn rd n sh rm => some ⟨.bic, sf, rn, rd, .shImm n sh rm⟩
  | .bicShReg _ sf rn rd rs sh rm => some ⟨.bic, sf, rn, rd, .shReg rs sh rm⟩
  | .bicImm _ sf rn rd rot imm => some ⟨.bic, sf, rn, rd, .imm rot imm⟩
  | .mvnShImm _ sf rd n sh rm => some ⟨.mvn, sf, 0, rd, .shImm n sh rm⟩
  | .mvnShReg _ sf rd rs sh rm => some ⟨.mvn, sf, 0, rd, .shReg rs sh rm⟩
  | .mvnImm _ sf rd rot imm => some ⟨.mvn, sf, 0, rd, .imm rot imm⟩
  | _ => none

/-- The parts of an ARM single load (42_arm_loadstore.md R281, R293). -/
structure LoadParts where
  kind : LoadKind
  ix : Indexing
  up : Bool
  rn : Reg
  rd : Reg
  o : Offset

/-- The ARM single loads; the T forms are post-indexed (R287, R288). -/
def Instr.asLoad : Instr → Option LoadParts
  | .ldrImm _ ix up rn rd off => some ⟨.word, ix, up, rn, rd, imm12 off⟩
  | .ldrReg _ ix up rn rd n sh rm => some ⟨.word, ix, up, rn, rd, .shReg n sh rm⟩
  | .ldrtImm _ up rn rd off => some ⟨.word, .post, up, rn, rd, imm12 off⟩
  | .ldrtReg _ up rn rd n sh rm => some ⟨.word, .post, up, rn, rd, .shReg n sh rm⟩
  | .ldrbImm _ ix up rn rd off => some ⟨.byte, ix, up, rn, rd, imm12 off⟩
  | .ldrbReg _ ix up rn rd n sh rm => some ⟨.byte, ix, up, rn, rd, .shReg n sh rm⟩
  | .ldrbtImm _ up rn rd off => some ⟨.byte, .post, up, rn, rd, imm12 off⟩
  | .ldrbtReg _ up rn rd n sh rm => some ⟨.byte, .post, up, rn, rd, .shReg n sh rm⟩
  | .ldrhImm _ ix up rn rd imm => some ⟨.half, ix, up, rn, rd, imm8 imm⟩
  | .ldrhReg _ ix up rn rd rm => some ⟨.half, ix, up, rn, rd, .reg rm⟩
  | .ldrsbImm _ ix up rn rd imm => some ⟨.sbyte, ix, up, rn, rd, imm8 imm⟩
  | .ldrsbReg _ ix up rn rd rm => some ⟨.sbyte, ix, up, rn, rd, .reg rm⟩
  | .ldrshImm _ ix up rn rd imm => some ⟨.shalf, ix, up, rn, rd, imm8 imm⟩
  | .ldrshReg _ ix up rn rd rm => some ⟨.shalf, ix, up, rn, rd, .reg rm⟩
  | _ => none

/-- The parts of an ARM single store. -/
structure StoreParts where
  kind : StoreKind
  ix : Indexing
  up : Bool
  rn : Reg
  rd : Reg
  o : Offset

/-- The ARM single stores; the T forms are post-indexed (R289, R290). -/
def Instr.asStore : Instr → Option StoreParts
  | .strImm _ ix up rn rd off => some ⟨.word, ix, up, rn, rd, imm12 off⟩
  | .strReg _ ix up rn rd n sh rm => some ⟨.word, ix, up, rn, rd, .shReg n sh rm⟩
  | .strtImm _ up rn rd off => some ⟨.word, .post, up, rn, rd, imm12 off⟩
  | .strtReg _ up rn rd n sh rm => some ⟨.word, .post, up, rn, rd, .shReg n sh rm⟩
  | .strbImm _ ix up rn rd off => some ⟨.byte, ix, up, rn, rd, imm12 off⟩
  | .strbReg _ ix up rn rd n sh rm => some ⟨.byte, ix, up, rn, rd, .shReg n sh rm⟩
  | .strbtImm _ up rn rd off => some ⟨.byte, .post, up, rn, rd, imm12 off⟩
  | .strbtReg _ up rn rd n sh rm => some ⟨.byte, .post, up, rn, rd, .shReg n sh rm⟩
  | .strhImm _ ix up rn rd imm => some ⟨.half, ix, up, rn, rd, imm8 imm⟩
  | .strhReg _ ix up rn rd rm => some ⟨.half, ix, up, rn, rd, .reg rm⟩
  | _ => none

/-- The parts of a block transfer (30_encoding.md R164, 45_thumb_mem_branch.md R422 to R427). -/
structure BlockParts where
  load : Bool
  user : Bool
  mode : BlockMode
  wb : Bool
  rn : Reg
  list : BitVec 16

/-- The block transfers; `user` is the S bit. PUSH is STMDB sp! and POP is LDMIA sp! (R422, R423). -/
def Instr.asBlock : Instr → Option BlockParts
  | .ldmIa _ wb rn list => some ⟨true, false, .ia, wb, rn, list⟩
  | .ldmSIa _ wb rn list => some ⟨true, true, .ia, wb, rn, list⟩
  | .stmIa _ wb rn list => some ⟨false, false, .ia, wb, rn, list⟩
  | .stmSIa _ wb rn list => some ⟨false, true, .ia, wb, rn, list⟩
  | .ldmIb _ wb rn list => some ⟨true, false, .ib, wb, rn, list⟩
  | .ldmSIb _ wb rn list => some ⟨true, true, .ib, wb, rn, list⟩
  | .stmIb _ wb rn list => some ⟨false, false, .ib, wb, rn, list⟩
  | .stmSIb _ wb rn list => some ⟨false, true, .ib, wb, rn, list⟩
  | .ldmDa _ wb rn list => some ⟨true, false, .da, wb, rn, list⟩
  | .ldmSDa _ wb rn list => some ⟨true, true, .da, wb, rn, list⟩
  | .stmDa _ wb rn list => some ⟨false, false, .da, wb, rn, list⟩
  | .stmSDa _ wb rn list => some ⟨false, true, .da, wb, rn, list⟩
  | .ldmDb _ wb rn list => some ⟨true, false, .db, wb, rn, list⟩
  | .ldmSDb _ wb rn list => some ⟨true, true, .db, wb, rn, list⟩
  | .stmDb _ wb rn list => some ⟨false, false, .db, wb, rn, list⟩
  | .stmSDb _ wb rn list => some ⟨false, true, .db, wb, rn, list⟩
  | .tPush lr list => some ⟨false, false, .db, true, spReg, pushList lr list⟩
  | .tStmia rb list => some ⟨false, false, .ia, true, rb.toReg, lowList list⟩
  | .tPop pc list => some ⟨true, false, .ia, true, spReg, popList pc list⟩
  | .tLdmia rb list => some ⟨true, false, .ia, true, rb.toReg, lowList list⟩
  | _ => none

/-- The parts of a long multiply (41_arm_multiply.md R263). -/
structure LongParts where
  signed : Bool
  acc : Bool
  sf : Bool
  rdHi : Reg
  rdLo : Reg
  rs : Reg
  rm : Reg

/-- The long multiplies (R264 to R267). -/
def Instr.asLong : Instr → Option LongParts
  | .umull _ sf rdHi rdLo rs rm => some ⟨false, false, sf, rdHi, rdLo, rs, rm⟩
  | .umlal _ sf rdHi rdLo rs rm => some ⟨false, true, sf, rdHi, rdLo, rs, rm⟩
  | .smull _ sf rdHi rdLo rs rm => some ⟨true, false, sf, rdHi, rdLo, rs, rm⟩
  | .smlal _ sf rdHi rdLo rs rm => some ⟨true, true, sf, rdHi, rdLo, rs, rm⟩
  | _ => none

/-- The parts of a 32-bit multiply (R261, R262, 44_thumb_alu.md R387): `acc` is the addend's register. -/
structure MulParts where
  sf : Bool
  rd : Reg
  rs : Reg
  rm : Reg
  acc : Option Reg

/-- The 32-bit multiplies; the THUMB MUL multiplies by its own destination (R387). -/
def Instr.asMul : Instr → Option MulParts
  | .mul _ sf rd rs rm => some ⟨sf, rd, rs, rm, none⟩
  | .mla _ sf rd rn rs rm => some ⟨sf, rd, rs, rm, some rn⟩
  | .tMul rs rd => some ⟨true, rd.toReg, rd.toReg, rs.toReg, none⟩
  | _ => none

/-- The parts of a THUMB shift (44_thumb_alu.md sections 2 and 5): the operand, the amount, and whether the amount
comes from a register. -/
structure ThumbShiftParts where
  sh : ShiftType
  value : Word
  amount : Nat
  reg : Bool
  rd : LowReg

/-- The THUMB shifts; an immediate 0 means 32 for LSR and ASR (R361, R362), and a register gives its low byte. -/
def Instr.asThumbShift (s : State) : Instr → Option ThumbShiftParts
  | .tLslImm n rs rd => some ⟨.lsl, s.x rs.toReg, n.toNat, false, rd⟩
  | .tLsrImm n rs rd => some ⟨.lsr, s.x rs.toReg, if n = 0 then 32 else n.toNat, false, rd⟩
  | .tAsrImm n rs rd => some ⟨.asr, s.x rs.toReg, if n = 0 then 32 else n.toNat, false, rd⟩
  | .tLslReg rs rd => some ⟨.lsl, s.x rd.toReg, (s.x rs.toReg).toNat % 256, true, rd⟩
  | .tLsrReg rs rd => some ⟨.lsr, s.x rd.toReg, (s.x rs.toReg).toNat % 256, true, rd⟩
  | .tAsrReg rs rd => some ⟨.asr, s.x rd.toReg, (s.x rs.toReg).toNat % 256, true, rd⟩
  | .tRorReg rs rd => some ⟨.ror, s.x rd.toReg, (s.x rs.toReg).toNat % 256, true, rd⟩
  | _ => none

/-- The parts of an MSR (43_arm_branch_system.md R351, R352): the SPSR or CPSR, the mask and the value. -/
structure MsrParts where
  spsr : Bool
  mask : BitVec 4
  value : Word

/-- The MSR instructions; the register form with Rm = 15 is refused (R351). -/
def Instr.asMsr (s : State) : Instr → Option MsrParts
  | .msrReg _ spsr mask rm => if rm = pcReg then none else some ⟨spsr, mask, s.x rm⟩
  | .msrImm _ spsr mask rot imm => some ⟨spsr, mask, rotatedImm rot imm⟩
  | _ => none

/-- A THUMB operation on two values, with its low destination (44_thumb_alu.md sections 3 to 5). -/
structure ThumbAluParts where
  op : AluOp
  a : Word
  b : Word
  rd : LowReg

/-- The THUMB operations of formats 2 to 4 that take no shifter, with the values of their operands. -/
def Instr.asThumbAlu (s : State) : Instr → Option ThumbAluParts
  | .tAddReg rn rs rd => some ⟨.add, s.x rs.toReg, s.x rn.toReg, rd⟩
  | .tSubReg rn rs rd => some ⟨.sub, s.x rs.toReg, s.x rn.toReg, rd⟩
  | .tAddImm3 imm rs rd => some ⟨.add, s.x rs.toReg, imm.zeroExtend 32, rd⟩
  | .tSubImm3 imm rs rd => some ⟨.sub, s.x rs.toReg, imm.zeroExtend 32, rd⟩
  | .tMovImm8 rd imm => some ⟨.mov, 0, imm.zeroExtend 32, rd⟩
  | .tCmpImm8 rd imm => some ⟨.cmp, s.x rd.toReg, imm.zeroExtend 32, rd⟩
  | .tAddImm8 rd imm => some ⟨.add, s.x rd.toReg, imm.zeroExtend 32, rd⟩
  | .tSubImm8 rd imm => some ⟨.sub, s.x rd.toReg, imm.zeroExtend 32, rd⟩
  | .tAnd rs rd => some ⟨.and, s.x rd.toReg, s.x rs.toReg, rd⟩
  | .tEor rs rd => some ⟨.eor, s.x rd.toReg, s.x rs.toReg, rd⟩
  | .tAdc rs rd => some ⟨.adc, s.x rd.toReg, s.x rs.toReg, rd⟩
  | .tSbc rs rd => some ⟨.sbc, s.x rd.toReg, s.x rs.toReg, rd⟩
  | .tTst rs rd => some ⟨.tst, s.x rd.toReg, s.x rs.toReg, rd⟩
  | .tCmpReg rs rd => some ⟨.cmp, s.x rd.toReg, s.x rs.toReg, rd⟩
  | .tCmn rs rd => some ⟨.cmn, s.x rd.toReg, s.x rs.toReg, rd⟩
  | .tOrr rs rd => some ⟨.orr, s.x rd.toReg, s.x rs.toReg, rd⟩
  | .tBic rs rd => some ⟨.bic, s.x rd.toReg, s.x rs.toReg, rd⟩
  | .tMvn rs rd => some ⟨.mvn, 0, s.x rs.toReg, rd⟩
  | .tNeg rs rd => some ⟨.sub, 0, s.x rs.toReg, rd⟩
  | _ => none

/-- A THUMB single load: what it reads, where, and its low destination (45_thumb_mem_branch.md). -/
structure ThumbLoadParts where
  kind : LoadKind
  addr : Word
  rd : LowReg

/-- The THUMB single loads. -/
def Instr.asThumbLoad (s : State) : Instr → Option ThumbLoadParts
  | .tLdrPc rd imm => some ⟨.word, s.pcWord + scaled 2 imm, rd⟩
  | .tLdrReg ro rb rd => some ⟨.word, regAddr ro rb s, rd⟩
  | .tLdrbReg ro rb rd => some ⟨.byte, regAddr ro rb s, rd⟩
  | .tLdrhReg ro rb rd => some ⟨.half, regAddr ro rb s, rd⟩
  | .tLdsbReg ro rb rd => some ⟨.sbyte, regAddr ro rb s, rd⟩
  | .tLdshReg ro rb rd => some ⟨.shalf, regAddr ro rb s, rd⟩
  | .tLdrImm off rb rd => some ⟨.word, immAddr 2 off rb s, rd⟩
  | .tLdrbImm off rb rd => some ⟨.byte, immAddr 0 off rb s, rd⟩
  | .tLdrhImm off rb rd => some ⟨.half, immAddr 1 off rb s, rd⟩
  | .tLdrSp rd imm => some ⟨.word, spAddr imm s, rd⟩
  | _ => none

/-- A THUMB single store: what it writes, where, and its low source. -/
structure ThumbStoreParts where
  kind : StoreKind
  addr : Word
  rd : LowReg

/-- The THUMB single stores. -/
def Instr.asThumbStore (s : State) : Instr → Option ThumbStoreParts
  | .tStrReg ro rb rd => some ⟨.word, regAddr ro rb s, rd⟩
  | .tStrbReg ro rb rd => some ⟨.byte, regAddr ro rb s, rd⟩
  | .tStrhReg ro rb rd => some ⟨.half, regAddr ro rb s, rd⟩
  | .tStrImm off rb rd => some ⟨.word, immAddr 2 off rb s, rd⟩
  | .tStrbImm off rb rd => some ⟨.byte, immAddr 0 off rb s, rd⟩
  | .tStrhImm off rb rd => some ⟨.half, immAddr 1 off rb s, rd⟩
  | .tStrSp rd imm => some ⟨.word, spAddr imm s, rd⟩
  | _ => none

/-- Does the instruction store to memory? -/
def Instr.storing : Instr → Bool
  | .swp _ _ _ _ | .swpb _ _ _ _ | .strhImm _ _ _ _ _ _ | .strhReg _ _ _ _ _ _ | .strImm _ _ _ _ _ _
    | .strReg _ _ _ _ _ _ _ _ | .strtImm _ _ _ _ _ | .strtReg _ _ _ _ _ _ _ | .strbImm _ _ _ _ _ _
    | .strbReg _ _ _ _ _ _ _ _ | .strbtImm _ _ _ _ _ | .strbtReg _ _ _ _ _ _ _ | .stmIa _ _ _ _
    | .stmSIa _ _ _ _ | .stmIb _ _ _ _ | .stmSIb _ _ _ _ | .stmDa _ _ _ _ | .stmSDa _ _ _ _ | .stmDb _ _ _ _
    | .stmSDb _ _ _ _ | .tStrReg _ _ _ | .tStrbReg _ _ _ | .tStrhReg _ _ _ | .tStrImm _ _ _ | .tStrbImm _ _ _
    | .tStrhImm _ _ _ | .tStrSp _ _ | .tPush _ _ | .tStmia _ _ => true
  | .bx _ _ | .mul _ _ _ _ _ | .mla _ _ _ _ _ _ | .umull _ _ _ _ _ _ | .umlal _ _ _ _ _ _
    | .smull _ _ _ _ _ _ | .smlal _ _ _ _ _ _ | .armUnallocMul _ _ | .hwUnalloc _ _ | .hwUnpred _ _
    | .ldrhImm _ _ _ _ _ _ | .ldrhReg _ _ _ _ _ _ | .ldrsbImm _ _ _ _ _ _ | .ldrsbReg _ _ _ _ _ _
    | .ldrshImm _ _ _ _ _ _ | .ldrshReg _ _ _ _ _ _ | .mrs _ _ _ | .msrReg _ _ _ _ | .msrImm _ _ _ _ _
    | .armUnallocCtrl _ _ | .andShImm _ _ _ _ _ _ _ | .andShReg _ _ _ _ _ _ _ | .andImm _ _ _ _ _ _
    | .eorShImm _ _ _ _ _ _ _ | .eorShReg _ _ _ _ _ _ _ | .eorImm _ _ _ _ _ _ | .subShImm _ _ _ _ _ _ _
    | .subShReg _ _ _ _ _ _ _ | .subImm _ _ _ _ _ _ | .rsbShImm _ _ _ _ _ _ _ | .rsbShReg _ _ _ _ _ _ _
    | .rsbImm _ _ _ _ _ _ | .addShImm _ _ _ _ _ _ _ | .addShReg _ _ _ _ _ _ _ | .addImm _ _ _ _ _ _
    | .adcShImm _ _ _ _ _ _ _ | .adcShReg _ _ _ _ _ _ _ | .adcImm _ _ _ _ _ _ | .sbcShImm _ _ _ _ _ _ _
    | .sbcShReg _ _ _ _ _ _ _ | .sbcImm _ _ _ _ _ _ | .rscShImm _ _ _ _ _ _ _ | .rscShReg _ _ _ _ _ _ _
    | .rscImm _ _ _ _ _ _ | .tstShImm _ _ _ _ _ _ | .tstShReg _ _ _ _ _ _ | .tstImm _ _ _ _ _
    | .teqShImm _ _ _ _ _ _ | .teqShReg _ _ _ _ _ _ | .teqImm _ _ _ _ _ | .cmpShImm _ _ _ _ _ _
    | .cmpShReg _ _ _ _ _ _ | .cmpImm _ _ _ _ _ | .cmnShImm _ _ _ _ _ _ | .cmnShReg _ _ _ _ _ _
    | .cmnImm _ _ _ _ _ | .orrShImm _ _ _ _ _ _ _ | .orrShReg _ _ _ _ _ _ _ | .orrImm _ _ _ _ _ _
    | .movShImm _ _ _ _ _ _ | .movShReg _ _ _ _ _ _ | .movImm _ _ _ _ _ | .bicShImm _ _ _ _ _ _ _
    | .bicShReg _ _ _ _ _ _ _ | .bicImm _ _ _ _ _ _ | .mvnShImm _ _ _ _ _ _ | .mvnShReg _ _ _ _ _ _
    | .mvnImm _ _ _ _ _ | .ldrImm _ _ _ _ _ _ | .ldrReg _ _ _ _ _ _ _ _ | .ldrtImm _ _ _ _ _
    | .ldrtReg _ _ _ _ _ _ _ | .ldrbImm _ _ _ _ _ _ | .ldrbReg _ _ _ _ _ _ _ _ | .ldrbtImm _ _ _ _ _
    | .ldrbtReg _ _ _ _ _ _ _ | .und _ _ | .ldmIa _ _ _ _ | .ldmSIa _ _ _ _ | .ldmIb _ _ _ _
    | .ldmSIb _ _ _ _ | .ldmDa _ _ _ _ | .ldmSDa _ _ _ _ | .ldmDb _ _ _ _ | .ldmSDb _ _ _ _ | .b _ _
    | .bl _ _ | .ldcStc _ _ _ _ _ _ _ _ _ _ | .cdp _ _ _ _ _ _ _ | .mrcMcr _ _ _ _ _ _ _ _ | .swi _ _
    | .tLslImm _ _ _ | .tLsrImm _ _ _ | .tAsrImm _ _ _ | .tAddReg _ _ _ | .tSubReg _ _ _ | .tAddImm3 _ _ _
    | .tSubImm3 _ _ _ | .tMovImm8 _ _ | .tCmpImm8 _ _ | .tAddImm8 _ _ | .tSubImm8 _ _ | .tAnd _ _ | .tEor _ _
    | .tLslReg _ _ | .tLsrReg _ _ | .tAsrReg _ _ | .tAdc _ _ | .tSbc _ _ | .tRorReg _ _ | .tTst _ _
    | .tNeg _ _ | .tCmpReg _ _ | .tCmn _ _ | .tOrr _ _ | .tMul _ _ | .tBic _ _ | .tMvn _ _ | .tAddHi _ _
    | .tCmpHi _ _ | .tMovHi _ _ | .tBx _ _ | .tLdrPc _ _ | .tLdrReg _ _ _ | .tLdrbReg _ _ _ | .tLdrhReg _ _ _
    | .tLdsbReg _ _ _ | .tLdshReg _ _ _ | .tLdrImm _ _ _ | .tLdrbImm _ _ _ | .tLdrhImm _ _ _ | .tLdrSp _ _
    | .tAddPc _ _ | .tAddSp _ _ | .tAddSpImm _ _ | .tPop _ _ | .tUnalloc _ | .tLdmia _ _ | .tSwi _
    | .tBcond _ _ | .tB _ | .tBlPrefix _ | .tBlSuffix _ => false

end Sys2Proof

namespace Sys2Proof.Machine

/-! ## The operations of data processing, in integers -/

/-- A signed result that 32 bits do not hold. -/
def outOfRange (n : Int) : Bool := decide (n < -2 ^ 31) || decide (2 ^ 31 ≤ n)

/-- The result of an operation on a, b and the carry (R220 to R235). -/
def AluOp.result (op : AluOp) (a b : Word) (c : Bool) : Word :=
  match op with
  | .and | .tst => a &&& b
  | .eor | .teq => a ^^^ b
  | .sub | .cmp => a - b
  | .rsb => b - a
  | .add | .cmn => a + b
  | .adc => a + b + (if c then 1 else 0)
  | .sbc => a - b - (if c then 0 else 1)
  | .rsc => b - a - (if c then 0 else 1)
  | .orr => a ||| b
  | .mov => b
  | .bic => a &&& ~~~b
  | .mvn => ~~~b

/-- The C flag: the shifter's carry, the carry out of an addition, or no borrow of a subtraction (R211, R212). -/
def AluOp.carry (op : AluOp) (a b : Word) (c shc : Bool) : Bool :=
  match op with
  | .and | .tst | .eor | .teq | .orr | .mov | .bic | .mvn => shc
  | .sub | .cmp => decide (b.toNat ≤ a.toNat)
  | .rsb => decide (a.toNat ≤ b.toNat)
  | .add | .cmn => decide (2 ^ 32 ≤ a.toNat + b.toNat)
  | .adc => decide (2 ^ 32 ≤ a.toNat + b.toNat + c.toNat)
  | .sbc => decide (b.toNat + (!c).toNat ≤ a.toNat)
  | .rsc => decide (a.toNat + (!c).toNat ≤ b.toNat)

/-- The V flag: unchanged by a logical operation, else the signed overflow (R211, R236). -/
def AluOp.overflow (op : AluOp) (a b : Word) (c v : Bool) : Bool :=
  match op with
  | .and | .tst | .eor | .teq | .orr | .mov | .bic | .mvn => v
  | .sub | .cmp => outOfRange (a.toInt - b.toInt)
  | .rsb => outOfRange (b.toInt - a.toInt)
  | .add | .cmn => outOfRange (a.toInt + b.toInt)
  | .adc => outOfRange (a.toInt + b.toInt + c.toNat)
  | .sbc => outOfRange (a.toInt - b.toInt - (!c).toNat)
  | .rsc => outOfRange (b.toInt - a.toInt - (!c).toNat)

/-- N and Z follow a result, C and V are the given ones. -/
structure FlagsOf (r : Word) (c v : Bool) (p : Cpsr) : Prop where
  n : p.n = r.getLsbD 31
  z : p.z = true ↔ r = 0
  c : p.c = c
  v : p.v = v

/-! ## What a safe machine keeps -/

/-- PC is aligned to the width of the state (10_state.md R39). -/
def State.pcAligned (s : State) : Prop := if s.cpu.cpsr.t then s.cpu.pc.toNat % 2 = 0 else s.cpu.pc.toNat % 4 = 0

/-- Reserved bits of the block's registers hold what they read as (10_state.md R54, R56, R58, R59, R64). -/
structure Dev.Reserved (d : Dev) : Prop where
  iflag : d.iflag &&& 0xC000 = 0
  waitcnt : d.waitcnt &&& 0x8000 = 0
  timer : ∀ i, (d.timer i).control &&& 0xFF38 = 0
  sad : ∀ n, (d.channel n).sad &&& ~~~(srcMask n) = 0
  dad : ∀ n, (d.channel n).dad &&& ~~~(dstMask n) = 0
  cntL : ∀ n, (d.channel n).cntL &&& ~~~(cntMask n) = 0
  cntH : ∀ n, (d.channel n).cntH &&& 0x001F = 0

/-- The event set agrees with the devices: handles are issued in order (61_scheduler.md R562), a DMA channel is
enabled exactly when it is not disabled and scheduled exactly when its start event is pending (10_state.md R61), and
a timer has a pending overflow, due when its counter reaches 0x10000, exactly when it is free-running (63_timers.md
R640, R641, R647). -/
structure Dev.Coherent (d : Dev) : Prop where
  order : (d.events.map Event.handle).Pairwise (· < ·)
  fresh : ∀ e ∈ d.events, e.handle < d.nextHandle
  enabled : ∀ n, dmaEnabled (d.channel n).cntH = true ↔ (d.channel n).status ≠ .disabled
  scheduled : ∀ n h, (d.channel n).status = .scheduled h ↔ ∃ e ∈ d.events, e.handle = h ∧ e.kind = .dmaStart n
  running : ∀ i, (d.timer i).isFreeRunning i = true →
    (d.timer i).lastTs % timerPeriod (d.timer i).control = 0 ∧
      ∃ e ∈ d.events, (d.timer i).handle = some e.handle ∧ e.kind = .timerOverflow i ∧
        e.timestamp = (d.timer i).overflowAt
  idle : ∀ i, (d.timer i).isFreeRunning i = false → (d.timer i).handle = none
  overflow : ∀ i, ∀ e ∈ d.events, e.kind = .timerOverflow i → (d.timer i).handle = some e.handle

/-- No event is due: what time leaves whenever it has passed (61_scheduler.md R571). -/
def Dev.settled (d : Dev) : Prop := ∀ e ∈ d.events, d.now < e.timestamp

end Sys2Proof.Machine
end

