-- ==== Sys2Proof/WellFormed.lean ====
section
/-!
DEFINITION. Which terms of the syntax are instructions: the operand bounds that the types do not state. The
spaces are the decoder's own predicates, so that one repair of the decoder keeps both in step.
-/
namespace Sys2Proof

/-- The part instr[27:20] of the dispatch index of the 28 bits below a condition (30_encoding.md R152). -/
def indexHi (bits : BitVec 28) : Nat := field bits.toNat 20 8

/-- The part instr[7:4] of the dispatch index of the 28 bits below a condition (R152). -/
def indexLo (bits : BitVec 28) : Nat := field bits.toNat 4 4

/-- A THUMB conditional branch has a condition 0000 to 1101 (30_encoding.md R175); the words kept whole lie in
the space their constructor names (R163, R170, R182, R299). Every other operand is bounded by its type. -/
def Instr.wellFormed : Instr → Bool
  | .armUnallocMul _ bits => isUnallocMul (indexHi bits) (indexLo bits)
  | .hwUnalloc _ bits => isHwUnalloc (indexHi bits) (indexLo bits)
  | .hwUnpred _ bits => isHwUnpred (indexHi bits) (indexLo bits)
  | .armUnallocCtrl _ bits => isUnallocCtrl (indexHi bits) (indexLo bits)
  | .und _ bits => isUndefined (indexHi bits) (indexLo bits)
  | .tUnalloc bits => isThumbUnalloc bits.toNat
  | .tBcond cond _ => cond != .al && cond != .nv
  | .bx _ _ | .mul _ _ _ _ _ | .mla _ _ _ _ _ _ | .umull _ _ _ _ _ _ | .umlal _ _ _ _ _ _
    | .smull _ _ _ _ _ _ | .smlal _ _ _ _ _ _ | .swp _ _ _ _ | .swpb _ _ _ _ | .strhImm _ _ _ _ _ _
    | .strhReg _ _ _ _ _ _ | .ldrhImm _ _ _ _ _ _ | .ldrhReg _ _ _ _ _ _ | .ldrsbImm _ _ _ _ _ _
    | .ldrsbReg _ _ _ _ _ _ | .ldrshImm _ _ _ _ _ _ | .ldrshReg _ _ _ _ _ _ | .mrs _ _ _ | .msrReg _ _ _ _
    | .msrImm _ _ _ _ _ | .andShImm _ _ _ _ _ _ _ | .andShReg _ _ _ _ _ _ _ | .andImm _ _ _ _ _ _
    | .eorShImm _ _ _ _ _ _ _ | .eorShReg _ _ _ _ _ _ _ | .eorImm _ _ _ _ _ _ | .subShImm _ _ _ _ _ _ _
    | .subShReg _ _ _ _ _ _ _ | .subImm _ _ _ _ _ _ | .rsbShImm _ _ _ _ _ _ _ | .rsbShReg _ _ _ _ _ _ _
    | .rsbImm _ _ _ _ _ _ | .addShImm _ _ _ _ _ _ _ | .addShReg _ _ _ _ _ _ _ | .addImm _ _ _ _ _ _
    | .adcShImm _ _ _ _ _ _ _ | .adcShReg _ _ _ _ _ _ _ | .adcImm _ _ _ _ _ _ | .sbcShImm _ _ _ _ _ _ _
    | .sbcShReg _ _ _ _ _ _ _ | .sbcImm _ _ _ _ _ _ | .rscShImm _ _ _ _ _ _ _ | .rscShReg _ _ _ _ _ _ _
    | .rscImm _ _ _ _ _ _ | .tstShImm _ _ _ _ _ _ | .tstShReg _ _ _ _ _ _ | .tstImm _ _ _ _ _
    | .teqShImm _ _ _ _ _ _ | .teqShReg _ _ _ _ _ _ | .teqImm _ _ _ _ _ | .cmpShImm _ _ _ _ _ _
    | .cmpShReg _ _ _ _ _ _ | .cmpImm _ _ _ _ _ | .cmnShImm _ _ _ _ _ _ | .cmnShReg _ _ _ _ _ _
    | .cmnImm _ _ _ _ _ | .orrShImm _ _ _ _ _ _ _ | .orrShReg _ _ _ _ _ _ _ | .orrImm _ _ _ _ _ _
    | .movShImm _ _ _ _ _ _ | .movShReg _ _ _ _ _ _ | .movImm _ _ _ _ _ | .bicShImm _ _ _ _ _ _ _
    | .bicShReg _ _ _ _ _ _ _ | .bicImm _ _ _ _ _ _ | .mvnShImm _ _ _ _ _ _ | .mvnShReg _ _ _ _ _ _
    | .mvnImm _ _ _ _ _ | .strImm _ _ _ _ _ _ | .strReg _ _ _ _ _ _ _ _ | .strtImm _ _ _ _ _
    | .strtReg _ _ _ _ _ _ _ | .strbImm _ _ _ _ _ _ | .strbReg _ _ _ _ _ _ _ _ | .strbtImm _ _ _ _ _
    | .strbtReg _ _ _ _ _ _ _ | .ldrImm _ _ _ _ _ _ | .ldrReg _ _ _ _ _ _ _ _ | .ldrtImm _ _ _ _ _
    | .ldrtReg _ _ _ _ _ _ _ | .ldrbImm _ _ _ _ _ _ | .ldrbReg _ _ _ _ _ _ _ _ | .ldrbtImm _ _ _ _ _
    | .ldrbtReg _ _ _ _ _ _ _ | .stmIa _ _ _ _ | .stmSIa _ _ _ _ | .ldmIa _ _ _ _ | .ldmSIa _ _ _ _
    | .stmIb _ _ _ _ | .stmSIb _ _ _ _ | .ldmIb _ _ _ _ | .ldmSIb _ _ _ _ | .stmDa _ _ _ _ | .stmSDa _ _ _ _
    | .ldmDa _ _ _ _ | .ldmSDa _ _ _ _ | .stmDb _ _ _ _ | .stmSDb _ _ _ _ | .ldmDb _ _ _ _ | .ldmSDb _ _ _ _
    | .b _ _ | .bl _ _ | .ldcStc _ _ _ _ _ _ _ _ _ _ | .cdp _ _ _ _ _ _ _ | .mrcMcr _ _ _ _ _ _ _ _
    | .swi _ _ | .tLslImm _ _ _ | .tLsrImm _ _ _ | .tAsrImm _ _ _ | .tAddReg _ _ _ | .tSubReg _ _ _
    | .tAddImm3 _ _ _ | .tSubImm3 _ _ _ | .tMovImm8 _ _ | .tCmpImm8 _ _ | .tAddImm8 _ _ | .tSubImm8 _ _
    | .tAnd _ _ | .tEor _ _ | .tLslReg _ _ | .tLsrReg _ _ | .tAsrReg _ _ | .tAdc _ _ | .tSbc _ _
    | .tRorReg _ _ | .tTst _ _ | .tNeg _ _ | .tCmpReg _ _ | .tCmn _ _ | .tOrr _ _ | .tMul _ _ | .tBic _ _
    | .tMvn _ _ | .tAddHi _ _ | .tCmpHi _ _ | .tMovHi _ _ | .tBx _ _ | .tLdrPc _ _ | .tStrReg _ _ _
    | .tStrbReg _ _ _ | .tLdrReg _ _ _ | .tLdrbReg _ _ _ | .tStrhReg _ _ _ | .tLdrhReg _ _ _
    | .tLdsbReg _ _ _ | .tLdshReg _ _ _ | .tStrImm _ _ _ | .tLdrImm _ _ _ | .tStrbImm _ _ _ | .tLdrbImm _ _ _
    | .tStrhImm _ _ _ | .tLdrhImm _ _ _ | .tStrSp _ _ | .tLdrSp _ _ | .tAddPc _ _ | .tAddSp _ _
    | .tAddSpImm _ _ | .tPush _ _ | .tPop _ _ | .tStmia _ _ | .tLdmia _ _ | .tSwi _ | .tB _ | .tBlPrefix _
    | .tBlSuffix _ => true

end Sys2Proof
end

