-- ==== Sys2Proof/Certificates/Slice0/Obligations.lean ====
section
/-!
DEFINITION. The statements for the provers. `s` is the state before, `u` the state after; the vocabulary is
Sys2Proof/Safety.lean. A statement about an instruction is about `exec` in the state the step's fetch left. Where a rule
has a case for each setting of QUIRKS the statement is of `arm7tdmi`, the default of 00_scope.md R12 (assumption log 1).
-/
section
open Sys2Proof Sys2Proof.Machine

/-! ## Encoding -/

/-- Decoding what the encoder makes of a well-formed instruction gives the instruction back, with every operand at
every value (30_encoding.md R155 to R182). -/
def Obligations.DecodeEncode : Prop :=
  ∀ i : Instr, i.wellFormed = true →
    (i.width = 32 ∨ i.width = 16) ∧ encode i < 2 ^ i.width ∧
      (i.width = 32 → decodeArm (BitVec.ofNat 32 (encode i)) = i) ∧
        (i.width = 16 → decodeThumb (BitVec.ofNat 16 (encode i)) = i)

/-- Every word decodes to a well-formed instruction of its own set, and an ARM word to one with the condition its
top four bits name (30_encoding.md R151, R154, R171, R172, R180). -/
def Obligations.DecodedWellFormed : Prop :=
  (∀ w : Word, (decodeArm w).wellFormed = true ∧ (decodeArm w).width = 32 ∧
    (decodeArm w).armCond = some (Cond.ofCode (w.toNat / 2 ^ 28))) ∧
  ∀ h : Half, (decodeThumb h).wellFormed = true ∧ (decodeThumb h).width = 16 ∧ (decodeThumb h).armCond = none

/-- The words of the spec's examples decode to the instructions it names (R220, R265, R282, R307, R318, R330, R340,
R177, R422, R445). -/
def Obligations.ExampleWords : Prop :=
  decodeArm 0xE21100FF = .andImm .al true 1 0 0 0xFF ∧
  decodeArm 0xE0A10392 = .umlal .al false 1 0 3 2 ∧
  decodeArm 0xE5910004 = .ldrImm .al .offset true 1 0 4 ∧
  decodeArm 0xE92D4010 = .stmDb .al true 13 0x4010 ∧
  decodeArm 0xE1020091 = .swp .al 2 0 1 ∧
  decodeArm 0xEAFFFFFE = .b .al 0xFFFFFE ∧
  decodeArm 0xEF000005 = .swi .al 5 ∧
  decodeThumb 0x2005 = .tMovImm8 0 5 ∧
  decodeThumb 0x1C18 = .tAddImm3 0 3 0 ∧
  decodeThumb 0x4770 = .tBx 14 0 ∧
  decodeThumb 0xB510 = .tPush true 0x10 ∧
  decodeThumb 0xDF05 = .tSwi 5

/-- The whole spaces of branches, software interrupts and the undefined instruction, every operand bit kept
(R163, R165, R167). -/
def Obligations.WholeSpaces : Prop :=
  ∀ w : Word,
    (w.extractLsb' 25 3 = 5 → w.getLsbD 24 = false →
      decodeArm w = .b (Cond.ofCode (w.toNat / 2 ^ 28)) (w.extractLsb' 0 24)) ∧
    (w.extractLsb' 25 3 = 5 → w.getLsbD 24 = true →
      decodeArm w = .bl (Cond.ofCode (w.toNat / 2 ^ 28)) (w.extractLsb' 0 24)) ∧
    (w.extractLsb' 24 4 = 15 → decodeArm w = .swi (Cond.ofCode (w.toNat / 2 ^ 28)) (w.extractLsb' 0 24)) ∧
    (w.extractLsb' 25 3 = 3 → w.getLsbD 4 = true →
      decodeArm w = .und (Cond.ofCode (w.toNat / 2 ^ 28)) (w.extractLsb' 0 28))

/-! ## The step -/

/-- With no DMA channel running, the CPU not halted and no IRQ to take, a step is the meaning of the instruction
that `executing` decodes to, after the pipeline has shifted and the opcode at PC has been fetched (R150; 61_scheduler.md
R575; 60_exceptions.md R530). -/
def Obligations.StepRunsInstruction : Prop :=
  ∀ (s : State) (i : Instr),
    (∀ n, (s.dev.channel n).status ≠ .running) → (s.dev.halted = false ∨ s.dev.ie &&& s.dev.iflag ≠ 0) →
    (s.dev.irqSignal = true → s.cpu.cpsr.i = true) →
    (s.cpu.cpsr.t = false ∧ decodeArm s.cpu.executing = i ∨
      s.cpu.cpsr.t = true ∧ decodeThumb (s.cpu.executing.extractLsb' 0 16) = i) →
    ∃ u : State, step s = exec i u ∧ u.mem = s.mem ∧
      u.cpu = { s.cpu with executing := s.cpu.decoding, decoding := u.cpu.decoding, fetchType := .seq } ∧
      u.dev = (s.wake.passAccess .opcode s.cpu.pc s.cpu.opcodeWidth s.cpu.fetchType).dev ∧
      ∀ b, Served (alignAddr s.cpu.pc s.cpu.opcodeWidth) b → u.cpu.decoding = s.mem.load b s.cpu.opcodeWidth

/-- With `irq_signal` true and CPSR.I = 0 at the boundary, a CPU step runs no instruction: it makes the abandoned
fetch and takes the IRQ, lr_irq being PC - 4 in ARM state and PC in THUMB state (60_exceptions.md R508). -/
def Obligations.StepTakesIrq : Prop :=
  ∀ s : State,
    (∀ n, (s.dev.channel n).status ≠ .running) → (s.dev.halted = false ∨ s.dev.ie &&& s.dev.iflag ≠ 0) →
    s.dev.irqSignal = true → s.cpu.cpsr.i = false →
    ∃ u, step s = .next u ∧
      Entered s (s.wake.passAccess .opcode s.cpu.pc s.cpu.opcodeWidth s.cpu.fetchType).dev .irq 0x18
        (if s.cpu.cpsr.t then s.cpu.pc else s.cpu.pc - 4) u

/-- A halted CPU with no DMA channel running and no interrupt available sleeps to the earliest event, and is stuck if
there is none (61_scheduler.md R572, R575). -/
def Obligations.HaltedSleeps : Prop :=
  ∀ s : State, (∀ n, (s.dev.channel n).status ≠ .running) → s.dev.halted = true → s.dev.ie &&& s.dev.iflag = 0 →
    (s.dev.events = [] → step s = .fault .stuck) ∧
    ∀ e ∈ s.dev.events, (∀ f ∈ s.dev.events, e.timestamp ≤ f.timestamp) →
      step s = .next { s with dev := s.dev.advance (e.timestamp - s.dev.now) }

/-- The DMA engine runs before the CPU and leaves it alone: the running channel of the least number moves its count of
units, the first with non-sequential accesses and the rest with sequential ones (each as `DmaMovesUnits` says), and no
time passes after them. Then it waits again if it repeats and is not immediate, its count loaded anew and its destination
too in mode 3, the source going on; else it is disabled. It requests its interrupt if its irq bit is set (62_dma.md R611,
R612, R614, R619, R620; 61_scheduler.md R575). -/
def Obligations.DmaRunsFirst : Prop :=
  ∀ (s u : State) (n : Fin 4), (s.dev.channel n).status = .running →
    (∀ k, k < n → (s.dev.channel k).status ≠ .running) → step s = .next u →
    u.cpu = s.cpu ∧
    (∃ unit : Nat → State, unit 0 = s ∧
      (∀ k, k < (s.dev.channel n).count →
        (unit k).dmaUnit n ((s.dev.channel n).isWord n) (runClass k) = .next (unit (k + 1))) ∧
      let t := unit (s.dev.channel n).count
      let c := t.dev.channel n
      let fifo : Prop := (n = 1 ∨ n = 2) ∧ c.cntH.extractLsb' 12 2 = 3 ∧ (c.dad = 0x040000A0 ∨ c.dad = 0x040000A4)
      u.mem = t.mem ∧ u.dev.now = t.dev.now ∧ u.dev.dmaLatch = t.dev.dmaLatch ∧ (u.dev.channel n).src = c.src ∧
      (dmaIrqEnabled c.cntH = false → u.dev.iflag = t.dev.iflag) ∧
      (if dmaRepeat c.cntH = true ∧ dmaTiming c.cntH ≠ 0
        then (u.dev.channel n).count =
            (if fifo then 4 else if c.cntL = 0 then (if n = 3 then 0x10000 else 0x4000) else c.cntL.toNat) ∧
          (c.cntH.extractLsb' 5 2 = 3 ∧ ¬ fifo → (u.dev.channel n).dst.toNat =
            (if c.cntH.getLsbD 10 then c.dad.toNat / 4 * 4 else c.dad.toNat / 2 * 2)) ∧
          (¬ (c.cntH.extractLsb' 5 2 = 3 ∧ ¬ fifo) → (u.dev.channel n).dst = c.dst)
        else (u.dev.channel n).count = c.count ∧ (u.dev.channel n).dst = c.dst)) ∧
    (if dmaRepeat (s.dev.channel n).cntH = true ∧ dmaTiming (s.dev.channel n).cntH ≠ 0
      then (u.dev.channel n).status = .waiting ∧ (u.dev.channel n).cntH = (s.dev.channel n).cntH
      else (u.dev.channel n).status = .disabled ∧ (u.dev.channel n).cntH = (s.dev.channel n).cntH &&& 0x7FFF) ∧
    (dmaIrqEnabled (s.dev.channel n).cntH = true → u.dev.iflag.getLsbD (8 + n.val) = true)

/-! ## Reset -/

/-- Reset, for every draw of what it leaves open, every memory and every ACCESS_CYCLES: 10_state.md R70, row by row, with
the time of the flush (70_reset_and_hazards.md R700), two cycles by the default table, which is the model's choice of
that open parameter (assumption log 21). -/
def Obligations.ResetState : Prop :=
  ∀ (d : ResetDraw) (m : Memory) (costs : List CostRow),
    let u := State.powerOn d m costs
    u.cpu.cpsr = ⟨d.n, d.z, d.c, d.v, true, true, false, .svc⟩ ∧ u.cpu.regs = d.regs ∧
    u.cpu.spsrFiq = d.spsrFiq ∧ u.cpu.spsrIrq = d.spsrIrq ∧ u.cpu.spsrSvc = d.spsrSvc ∧
    u.cpu.spsrAbt = d.spsrAbt ∧ u.cpu.spsrUnd = d.spsrUnd ∧
    u.cpu.pc = 8 ∧ u.cpu.executing = m.load 0 .word ∧ u.cpu.decoding = m.load 4 .word ∧ u.cpu.fetchType = .seq ∧
    u.cpu.ubankHazard = false ∧ u.dev.halted = false ∧ u.dev.irqSignal = false ∧
    u.dev.ie = 0 ∧ u.dev.iflag = 0 ∧ u.dev.ime = false ∧ u.dev.waitcnt = 0 ∧ u.dev.dmaLatch = 0 ∧
    (∀ n, u.dev.channel n = ⟨0, 0, 0, 0, 0, 0, 0, .disabled⟩) ∧ (∀ i, u.dev.timer i = ⟨0, 0, 0, 0, none⟩) ∧
    u.dev.events = [] ∧ u.dev.nextHandle = 0 ∧ u.mem = m ∧ u.dev.costs = costs ∧
    u.dev.now = u.dev.accessCycles .opcode 0 .word .nonseq + u.dev.accessCycles .opcode 4 .word .seq ∧
    (costs = [] → u.dev.now = 2)

/-- The invariants below hold of `State.reset`. Its memory and its draw of the open registers are the model's
choice (assumption logs 3 and 10); the invariants do not depend on the draw. -/
def Obligations.ResetKeepsInvariants : Prop :=
  State.reset.mem.wf = true ∧ State.reset.pcAligned ∧ State.reset.dev.Reserved ∧ State.reset.dev.Coherent ∧
    State.reset.dev.settled

/-! ## Registers -/

/-- The banks (10_state.md R34): what is written to r_j in one mode is seen as r_i in another exactly when i = j and
the modes share that register: r0 to r7 always, r8 to r12 unless one of the two is FIQ, r13 and r14 only in one bank,
usr and sys sharing theirs. -/
def Obligations.BankedRegisters : Prop :=
  ∀ (s : State) (a b : Mode) (i j : Reg) (v : Word), i ≠ pcReg → j ≠ pcReg →
    let inMode (s : State) (m : Mode) : State := s.setCpsr { s.cpu.cpsr with mode := m }
    (inMode ((inMode s b).setX j v) a).x i =
      if i = j ∧ (i.val ≤ 7 ∨ a = b ∨ (i.val ≤ 12 ∧ a ≠ .fiq ∧ b ≠ .fiq) ∨
          ((a = .usr ∨ a = .sys) ∧ (b = .usr ∨ b = .sys)))
      then v else (inMode s a).x i

/-! ## Arithmetic -/

/-- Every operation of data processing gives the result and the flags of exact integer arithmetic (R211 to R213,
R220 to R235). -/
def Obligations.AluMatchesIntegers : Prop :=
  ∀ (op : AluOp) (a b : Word) (shc : Bool) (p : Cpsr),
    op.apply a b shc p = ⟨op.result a b p.c, op.carry a b p.c shc, op.overflow a b p.c p.v⟩

/-- After a comparison the conditions order the operands, signed and unsigned (40_arm_dataproc.md R200, R236). -/
def Obligations.CompareOrders : Prop :=
  ∀ (a b : Word) (shc : Bool) (p : Cpsr),
    let o := AluOp.cmp.apply a b shc p
    let q : Cpsr := { p with n := o.r.getLsbD 31, z := o.r == 0, c := o.c, v := o.v }
    (condPassed q .eq = true ↔ a = b) ∧ (condPassed q .cs = true ↔ b.toNat ≤ a.toNat) ∧
    (condPassed q .hi = true ↔ b.toNat < a.toNat) ∧ (condPassed q .ge = true ↔ b.toInt ≤ a.toInt) ∧
    (condPassed q .gt = true ↔ b.toInt < a.toInt)

/-- The barrel shifter bit by bit: where each bit of the value comes from, and the bit last shifted out as the carry
(40_arm_dataproc.md R206 to R209). -/
def Obligations.ShifterBits : Prop :=
  ∀ (v : Word) (n : Nat) (c : Bool),
    (∀ k, k < 32 → (lslC v n c).1.getLsbD k = (decide (n ≤ k) && v.getLsbD (k - n))) ∧
    (lslC v n c).2 = (if n = 0 then c else decide (n ≤ 32) && v.getLsbD (32 - n)) ∧
    (∀ k, k < 32 → (lsrC v n c).1.getLsbD k = v.getLsbD (k + n)) ∧
    (lsrC v n c).2 = (if n = 0 then c else v.getLsbD (n - 1)) ∧
    (∀ k, k < 32 → (asrC v n c).1.getLsbD k = v.getLsbD (min (k + n) 31)) ∧
    (asrC v n c).2 = (if n = 0 then c else v.getLsbD (min (n - 1) 31)) ∧
    (∀ k, k < 32 → (rorC v n c).1.getLsbD k = v.getLsbD ((k + n) % 32)) ∧
    (rorC v n c).2 = (if n = 0 then c else v.getLsbD ((n - 1) % 32)) ∧
    (∀ k, k < 31 → (rrxC v c).1.getLsbD k = v.getLsbD (k + 1)) ∧ (rrxC v c).1.getLsbD 31 = c ∧
    (rrxC v c).2 = v.getLsbD 0

/-- The two immediate forms of operand 2: the rotated byte with its carry (R203), and the shift by an immediate, whose
0 has a meaning of its own for each type (R205). -/
def Obligations.ImmediateOperands : Prop :=
  (∀ (rot : BitVec 4) (imm : BitVec 8) (c : Bool),
    (∀ k, k < 32 → (shifterImm rot imm c).1.getLsbD k = imm.getLsbD ((k + 2 * rot.toNat) % 32)) ∧
    (shifterImm rot imm c).2 = (if rot = 0 then c else (shifterImm rot imm c).1.getLsbD 31)) ∧
  ∀ (v : Word) (n : BitVec 5) (c : Bool),
    (n ≠ 0 → ∀ sh, shiftByImm sh v n c = shiftBy sh v n.toNat c) ∧
    shiftByImm .lsl v 0 c = (v, c) ∧ shiftByImm .lsr v 0 c = shiftBy .lsr v 32 c ∧
    shiftByImm .asr v 0 c = shiftBy .asr v 32 c ∧ shiftByImm .ror v 0 c = rrxC v c

/-! ## Data processing -/

/-- What the second operand and the first are, in each form: the rotated byte; a register shifted by an immediate; and a
register shifted by bits 7:0 of another, under which r15 reads A + 12, as an operand of each kind, and A + 8 elsewhere
(R203 to R205; 10_state.md R38). Then every data-processing form that writes a register other than r15: the result, the
flags if S = 1, and nothing else (R214 to R217, R220 to R235). -/
def Obligations.DpWritesRegister : Prop :=
  (∀ (s : State) (rn rs rm : Reg) (sh : ShiftType) (n : BitVec 5) (rot : BitVec 4) (imm : BitVec 8),
    let late (i : Reg) : Word := if i = pcReg then s.cpu.pc + 4 else s.x i
    s.x pcReg = s.cpu.pc ∧
    (Operand2.imm rot imm).value s = shifterImm rot imm s.cpu.cpsr.c ∧
    (Operand2.shImm n sh rm).value s = shiftByImm sh (s.x rm) n s.cpu.cpsr.c ∧
    (Operand2.shReg rs sh rm).value s = shiftBy sh (late rm) ((s.x rs).extractLsb' 0 8).toNat s.cpu.cpsr.c ∧
    s.xFor (.imm rot imm) rn = s.x rn ∧ s.xFor (.shImm n sh rm) rn = s.x rn ∧ s.xFor (.shReg rs sh rm) rn = late rn) ∧
  ∀ (i : Instr) (s : State) (p : DpParts), i.asDp = some p → i.Executes s →
    p.op.isTest = false → p.rd ≠ pcReg → (∀ rs sh rm, p.o = .shReg rs sh rm → rs ≠ pcReg) →
    let a := s.xFor p.o p.rn
    let b := (p.o.value s).1
    ∃ u, exec i s = .next u ∧ u.x p.rd = p.op.result a b s.cpu.cpsr.c ∧
      (p.sf = true → FlagsOf (p.op.result a b s.cpu.cpsr.c) (p.op.carry a b s.cpu.cpsr.c (p.o.value s).2)
        (p.op.overflow a b s.cpu.cpsr.c s.cpu.cpsr.v) u.cpu.cpsr) ∧
      (p.sf = false → KeepsFlags s u) ∧ Keeps [s.place p.rd] s u ∧ KeepsBytes nowhere s u ∧
      Advanced s.cpu.fetchType s u ∧ u.dev = if p.o.isShReg then s.dev.advance 1 else s.dev

/-- TST, TEQ, CMP and CMN write the four flags and nothing else, their operands as `DpWritesRegister` spells them (R216,
R228 to R231). -/
def Obligations.DpTestsSetFlags : Prop :=
  ∀ (i : Instr) (s : State) (p : DpParts), i.asDp = some p → i.Executes s →
    p.op.isTest = true → p.rd ≠ pcReg → (∀ rs sh rm, p.o = .shReg rs sh rm → rs ≠ pcReg) →
    let a := s.xFor p.o p.rn
    let b := (p.o.value s).1
    ∃ u, exec i s = .next u ∧
      FlagsOf (p.op.result a b s.cpu.cpsr.c) (p.op.carry a b s.cpu.cpsr.c (p.o.value s).2)
        (p.op.overflow a b s.cpu.cpsr.c s.cpu.cpsr.v) u.cpu.cpsr ∧
      Keeps [] s u ∧ KeepsBytes nowhere s u ∧ Advanced s.cpu.fetchType s u ∧
      u.dev = if p.o.isShReg then s.dev.advance 1 else s.dev

/-- With Rd = 15 and S = 0 the result, of operands as `DpWritesRegister` spells them, is a branch target: the pipeline is
flushed there, and nothing else changes (R214; 10_state.md R45). -/
def Obligations.DpBranches : Prop :=
  ∀ (i : Instr) (s : State) (p : DpParts), i.asDp = some p → i.Executes s →
    p.op.isTest = false → p.rd = pcReg → p.sf = false → (∀ rs sh rm, p.o = .shReg rs sh rm → rs ≠ pcReg) →
    ∃ u, exec i s = .next u ∧ Keeps [] s u ∧ KeepsFlags s u ∧
      Flushed (if p.o.isShReg then s.dev.advance 1 else s.dev) s.mem
        (p.op.result (s.xFor p.o p.rn) (p.o.value s).1 s.cpu.cpsr.c) u

/-- With Rd = 15 and S = 1 the SPSR of the current mode is copied into CPSR and the pipeline is flushed at the result,
of operands as `DpWritesRegister` spells them, in the restored state; usr and sys are refused, and so is a mode field
that names no mode (R210). -/
def Obligations.DpReturns : Prop :=
  ∀ (i : Instr) (s : State) (p : DpParts), i.asDp = some p → i.Executes s →
    p.op.isTest = false → p.rd = pcReg → p.sf = true → (∀ rs sh rm, p.o = .shReg rs sh rm → rs ≠ pcReg) →
    (s.cpu.cpsr.mode = .usr ∨ s.cpu.cpsr.mode = .sys → exec i s = .refused .noSpsr) ∧
    ∀ q, s.cpu.spsr s.cpu.cpsr.mode = some q →
      (Mode.ofCode q.m = none → exec i s = .refused .invalidMode) ∧
      ∀ m, Mode.ofCode q.m = some m →
        ∃ u, exec i s = .next u ∧ u.cpu.cpsr = ⟨q.n, q.z, q.c, q.v, q.i, q.f, q.t, m⟩ ∧
          u.cpu.regs = s.cpu.regs ∧ (∀ k, u.cpu.spsr k = s.cpu.spsr k) ∧
          Flushed (if p.o.isShReg then s.dev.advance 1 else s.dev) s.mem
            (p.op.result (s.xFor p.o p.rn) (p.o.value s).1 s.cpu.cpsr.c) u

/-! ## Conditions and the hazard -/

/-- A condition-failed ARM instruction, whatever it is, moves PC by 4, tags the next fetch N, ends the hazard and
changes nothing else; NV never passes (R201, R202). -/
def Obligations.ConditionFailed : Prop :=
  ∀ (i : Instr) (s : State) (c : Cond), i.armCond = some c →
    (condPassed s.cpu.cpsr c = false ∨ c = .nv) →
    exec i s = .next
      { s with cpu := { s.cpu with pc := s.cpu.pc + 4, fetchType := .nonseq, ubankHazard := false } }

/-- While the user-bank hazard holds, an instruction that names a banked register of the current mode is refused
(10_state.md R72; 70_reset_and_hazards.md R722). -/
def Obligations.HazardRefuses : Prop :=
  ∀ (i : Instr) (s : State), (∀ c, i.armCond = some c → condPassed s.cpu.cpsr c = true) →
    s.cpu.ubankHazard = true →
    (∃ r ∈ i.names, r ≠ pcReg ∧ physIndex r s.cpu.cpsr.mode ≠ physIndex r .usr) →
    exec i s = .refused .unpredictable

/-! ## Multiplies -/

/-- MUL, MLA and the THUMB MUL: the low 32 bits of the product and the addend, after m internal cycles (one more for
MLA), m counting the bytes of the multiplier; N and Z follow the result if S = 1, and V never changes (R260 to R263,
R387). C after S = 1 is a free value, of which nothing is said. -/
def Obligations.MultiplyWrites : Prop :=
  (∀ (v : Word) (signed : Bool), mulCycles v signed =
    if v.toNat < 2 ^ 8 ∨ (signed = true ∧ -2 ^ 8 ≤ v.toInt ∧ v.toInt < 0) then 1
    else if v.toNat < 2 ^ 16 ∨ (signed = true ∧ -2 ^ 16 ≤ v.toInt ∧ v.toInt < 0) then 2
    else if v.toNat < 2 ^ 24 ∨ (signed = true ∧ -2 ^ 24 ≤ v.toInt ∧ v.toInt < 0) then 3 else 4) ∧
  ∀ (i : Instr) (s : State) (p : MulParts), i.asMul = some p → i.Executes s →
    p.rd ≠ pcReg → p.rs ≠ pcReg → p.rm ≠ pcReg → p.acc ≠ some pcReg →
    let r := s.x p.rm * s.x p.rs + (match p.acc with | some rn => s.x rn | none => 0)
    ∃ u, exec i s = .next u ∧ u.x p.rd = r ∧
      (p.sf = true → u.cpu.cpsr.n = r.getLsbD 31 ∧ (u.cpu.cpsr.z = true ↔ r = 0) ∧ u.cpu.cpsr.v = s.cpu.cpsr.v) ∧
      (p.sf = false → KeepsFlags s u) ∧ Keeps [s.place p.rd] s u ∧ KeepsBytes nowhere s u ∧
      Advanced s.cpu.fetchType s u ∧
      u.dev = (s.idles (mulCycles (s.x p.rs) true + if p.acc.isSome then 1 else 0)).dev

/-- The long multiplies: the exact signed or unsigned product of 64 bits, with the accumulator added modulo 2^64, into
RdHi and RdLo; N and Z follow the 64 bits if S = 1 (R263 to R267). C and V after S = 1 are free values. -/
def Obligations.LongMultiplyWrites : Prop :=
  ∀ (i : Instr) (s : State) (p : LongParts), i.asLong = some p → i.Executes s →
    p.rdHi ≠ pcReg → p.rdLo ≠ pcReg → p.rs ≠ pcReg → p.rm ≠ pcReg → p.rdHi ≠ p.rdLo →
    let old : BitVec 64 := if p.acc then s.x p.rdHi ++ s.x p.rdLo else 0
    let r : BitVec 64 :=
      if p.signed then BitVec.ofInt 64 ((s.x p.rm).toInt * (s.x p.rs).toInt + old.toInt)
      else BitVec.ofNat 64 ((s.x p.rm).toNat * (s.x p.rs).toNat + old.toNat)
    ∃ u, exec i s = .next u ∧ u.x p.rdHi ++ u.x p.rdLo = r ∧
      (p.sf = true → u.cpu.cpsr.n = r.getLsbD 63 ∧ (u.cpu.cpsr.z = true ↔ r = 0)) ∧
      (p.sf = false → KeepsFlags s u) ∧ Keeps [s.place p.rdHi, s.place p.rdLo] s u ∧ KeepsBytes nowhere s u ∧
      Advanced s.cpu.fetchType s u ∧
      u.dev = (s.idles (mulCycles (s.x p.rs) p.signed + if p.acc then 2 else 1)).dev

/-! ## Single transfers -/

/-- Every ARM single load into a register other than r15: the value from memory or from a register of the block as
it is when the access's time has passed, extended as the form says, the base moved if the form writes it back and is
not the destination, and nothing else; then one internal cycle (R281 to R298). Where nothing of the model answers the
read, the value is free. -/
def Obligations.LoadWrites : Prop :=
  ∀ (i : Instr) (s : State) (p : LoadParts), i.asLoad = some p → i.Executes s →
    p.rd ≠ pcReg → addressRefused p.ix p.rn p.o = false →
    let a := s.transferAddr p.ix p.rn p.up p.o
    let w := p.kind.widthAt a
    ∃ u, exec i s = .next u ∧
      (∀ b, Served (alignAddr a w) b → u.x p.rd = p.kind.extend a (s.mem.load b w)) ∧
      (∀ off, targetOf (alignAddr a w).toNat = .io off →
        u.x p.rd = p.kind.extend a ((s.timeOf a w).ioLoad s.draws off w).1) ∧
      (writesBack p.ix = true → p.rn ≠ p.rd → u.x p.rn = s.movedBase p.rn p.up p.o) ∧
      Keeps (if writesBack p.ix then [s.place p.rd, s.place p.rn] else [s.place p.rd]) s u ∧
      KeepsFlags s u ∧ KeepsBytes nowhere s u ∧ Advanced .nonseq s u ∧ u.dev = (s.timeOf a w).advance 1

/-- LDR and LDRT into r15: the base as always, then a flush at the loaded value, in the same state (R282, R287, R291). -/
def Obligations.LoadBranches : Prop :=
  ∀ (i : Instr) (s : State) (p : LoadParts), i.asLoad = some p → i.Executes s →
    p.rd = pcReg → p.kind = .word → addressRefused p.ix p.rn p.o = false →
    let a := s.transferAddr p.ix p.rn p.up p.o
    ∃ u v, exec i s = .next u ∧ (∀ b, Served (alignAddr a .word) b → v = p.kind.extend a (s.mem.load b .word)) ∧
      Flushed ((s.timeOf a .word).advance 1) s.mem v u ∧
      (writesBack p.ix = true → u.x p.rn = s.movedBase p.rn p.up p.o) ∧
      Keeps (if writesBack p.ix then [s.place p.rn] else []) s u ∧ KeepsFlags s u

/-- What a load makes of memory, byte by byte: a misaligned word or halfword is the aligned one rotated, and a signed
form extends its sign, an odd LDRSH being an LDRSB (R284, R296; 20_memory.md R103, R108). -/
def Obligations.LoadedValues : Prop :=
  ∀ (m : Memory) (a : Word) (b : Nat),
    (∀ k, k < 4 → byteOf (LoadKind.extend .word a (m.load b .word)) k = m.read (b + (k + a.toNat % 4) % 4)) ∧
    LoadKind.extend .byte a (m.load b .byte) = BitVec.ofNat 32 (m.read b).toNat ∧
    (a.getLsbD 0 = false → LoadKind.extend .half a (m.load b .half) =
      BitVec.ofNat 32 ((m.read b).toNat + 256 * (m.read (b + 1)).toNat)) ∧
    (a.getLsbD 0 = true → LoadKind.extend .half a (m.load b .half) =
      BitVec.ofNat 32 ((m.read (b + 1)).toNat + 2 ^ 24 * (m.read b).toNat)) ∧
    LoadKind.extend .sbyte a (m.load b .byte) = BitVec.ofInt 32 (m.read b).toInt ∧
    (a.getLsbD 0 = false → LoadKind.extend .shalf a (m.load b (LoadKind.widthAt .shalf a)) =
      BitVec.ofInt 32 ((m.read b).toNat + 256 * (m.read (b + 1)).toInt)) ∧
    (a.getLsbD 0 = true → LoadKind.extend .shalf a (m.load b (LoadKind.widthAt .shalf a)) =
      BitVec.ofInt 32 (m.read b).toInt)

/-- Every ARM single store: the low bytes of the register (A + 12 for r15) at the aligned address the addressing mode
gives, the base moved after it if the form writes it back, and every other byte and register kept. A store to a
register of the block runs its write action; one the spec refuses is refused (R280, R281, R285, R286, R289 to R291,
R295). The model's choice, and no rule's: that a store to BIOS or game pak ROM keeps every byte and the devices
(assumption log 14), that one to another device or to nothing does (log 15), and that palette, VRAM and OAM take a byte
as any memory does (log 19). -/
def Obligations.StoreWrites : Prop :=
  ∀ (i : Instr) (s : State) (p : StoreParts), i.asStore = some p → i.Executes s → s.mem.wf = true →
    (p.rd = pcReg → p.kind = .word) → addressRefused p.ix p.rn p.o = false →
    let a := s.transferAddr p.ix p.rn p.up p.o
    let w := p.kind.width
    let v := if p.rd = pcReg then s.cpu.pc + 4 else s.x p.rd
    (StoreAllowed (s.timeOf a w) a w v →
      ∃ u, exec i s = .next u ∧ Stored (s.timeOf a w) u.dev a w v s u ∧
        (writesBack p.ix = true → u.x p.rn = s.movedBase p.rn p.up p.o) ∧
        Keeps (if writesBack p.ix then [s.place p.rn] else []) s u ∧ KeepsFlags s u ∧ Advanced .nonseq s u) ∧
    ∀ off e, targetOf (alignAddr a w).toNat = .io off → (s.timeOf a w).ioStore off v w = .refused e →
      exec i s = .refused e

/-- SWP and SWPB: the register takes what memory, or a register of the block, held when the read's time had passed, and
the same place takes the other register, the operands read first, with nothing between the two accesses; then one
internal cycle. A write the spec refuses is refused (R318, R319). That a swap with ROM, with another device or with
nothing keeps every byte, and that video memory takes a byte, is the model's choice (assumption logs 14, 15 and 19). -/
def Obligations.SwapExchanges : Prop :=
  ∀ (cond : Cond) (rn rd rm : Reg) (s : State) (byte : Bool),
    let i : Instr := if byte then .swpb cond rn rd rm else .swp cond rn rd rm
    let w : Width := if byte then .byte else .word
    let k : LoadKind := if byte then .byte else .word
    let d := (s.timeOf (s.x rn) w).passAccess .data (alignAddr (s.x rn) w).toNat w .nonseq
    i.Executes s → s.mem.wf = true → rn ≠ pcReg → rd ≠ pcReg → rm ≠ pcReg →
    (StoreAllowed d (s.x rn) w (s.x rm) →
      ∃ u d', exec i s = .next u ∧
        (∀ b, Served (alignAddr (s.x rn) w) b → u.x rd = k.extend (s.x rn) (s.mem.load b w)) ∧
        (∀ off, targetOf (alignAddr (s.x rn) w).toNat = .io off →
          u.x rd = k.extend (s.x rn) ((s.timeOf (s.x rn) w).ioLoad s.draws off w).1) ∧
        Stored d d' (s.x rn) w (s.x rm) s u ∧ u.dev = d'.advance 1 ∧
        Keeps [s.place rd] s u ∧ KeepsFlags s u ∧ Advanced .nonseq s u) ∧
    ∀ off e, targetOf (alignAddr (s.x rn) w).toNat = .io off → d.ioStore off (s.x rm) w = .refused e →
      exec i s = .refused e

/-! ## Block transfers -/

/-- LDM with S = 0, POP and LDMIA: each register of the list takes what the read at its address finds, lowest first, the
base is written back unless it is in the list, and r15 in the list is a flush at its word; nothing else changes, and the
time is that of the reads and one internal cycle (R305, R306, R308, R310, R313, R423, R427). An empty list is the model's
choice (assumption log 2): r15 alone, the base moved by 0x40. -/
def Obligations.BlockLoads : Prop :=
  ∀ (i : Instr) (s : State) (p : BlockParts), i.asBlock = some p → i.Executes s →
    p.load = true → p.user = false → p.rn ≠ pcReg →
    let regs := blockRegs p.list
    let addr := blockAddr p.mode (s.x p.rn) p.list
    ∃ u, exec i s = .next u ∧
      (∀ k r, regs[k]? = some r → r ≠ pcReg → s.BlockRead addr k (u.x r)) ∧
      (p.wb = true → p.rn ∉ regs → u.x p.rn = blockEnd p.mode (s.x p.rn) p.list) ∧
      Keeps (s.places (if p.wb then p.rn :: regs else regs)) s u ∧ KeepsFlags s u ∧ KeepsBytes nowhere s u ∧
      (pcReg ∉ regs → Advanced .nonseq s u ∧ u.dev = s.loadTime addr regs.length) ∧
      (pcReg ∈ regs → ∃ v, Flushed (s.loadTime addr regs.length) s.mem v u ∧
        ∀ k, regs[k]? = some pcReg → s.BlockRead addr k v)

/-- LDM with S = 1 and without r15: the User-mode registers take what the reads find, whatever the mode, in the time of
the reads and one internal cycle, and the hazard holds after it; in usr and sys, and with write-back, it is refused
(R311, R313). -/
def Obligations.BlockLoadsUser : Prop :=
  ∀ (i : Instr) (s : State) (p : BlockParts), i.asBlock = some p → i.Executes s →
    p.load = true → p.user = true → p.rn ≠ pcReg → pcReg ∉ blockRegs p.list →
    let regs := blockRegs p.list
    let addr := blockAddr p.mode (s.x p.rn) p.list
    (s.cpu.cpsr.mode = .usr ∨ s.cpu.cpsr.mode = .sys ∨ p.wb = true → exec i s = .refused .unpredictable) ∧
    (s.cpu.cpsr.mode ≠ .usr → s.cpu.cpsr.mode ≠ .sys → p.wb = false →
      ∃ u, exec i s = .next u ∧ (∀ k r, regs[k]? = some r → s.BlockRead addr k (u.xUsr r)) ∧
        Keeps (regs.map fun r => physIndex r .usr) s u ∧ KeepsFlags s u ∧ KeepsBytes nowhere s u ∧
        u.cpu.pc = s.cpu.pc + s.cpu.w ∧ u.cpu.fetchType = .nonseq ∧ u.cpu.ubankHazard = true ∧
        u.dev = s.loadTime addr regs.length)

/-- LDM with S = 1 and r15 in the list: the registers of the current mode take what the reads find, CPSR takes the SPSR
of that mode, and the flush at r15's word is in the restored state, after the time of the reads and one internal cycle;
usr and sys are refused, and so is an SPSR whose mode field names no mode (R311, R313, R210; 60_exceptions.md R512;
10_state.md R33). That an empty list is r15 alone with the base moved by 0x40, and so this form, is the model's choice
(assumption logs 2 and 12). -/
def Obligations.BlockLoadsReturn : Prop :=
  ∀ (i : Instr) (s : State) (p : BlockParts), i.asBlock = some p → i.Executes s →
    p.load = true → p.user = true → p.rn ≠ pcReg → pcReg ∈ blockRegs p.list →
    let regs := blockRegs p.list
    let addr := blockAddr p.mode (s.x p.rn) p.list
    (s.cpu.cpsr.mode = .usr ∨ s.cpu.cpsr.mode = .sys → exec i s = .refused .unpredictable) ∧
    ∀ q, s.cpu.spsr s.cpu.cpsr.mode = some q →
      (Mode.ofCode q.m = none → exec i s = .refused .invalidMode) ∧
      ∀ m, Mode.ofCode q.m = some m →
        ∃ u v, exec i s = .next u ∧ u.cpu.cpsr = ⟨q.n, q.z, q.c, q.v, q.i, q.f, q.t, m⟩ ∧
          (∀ k r, regs[k]? = some r → r ≠ pcReg → s.BlockRead addr k (u.cpu.regs.get (s.place r))) ∧
          (p.wb = true → p.rn ∉ regs →
            u.cpu.regs.get (s.place p.rn) = blockEnd p.mode (s.x p.rn) p.list) ∧
          (∀ j, j ∉ s.places (if p.wb then p.rn :: regs else regs) → u.cpu.regs.get j = s.cpu.regs.get j) ∧
          (∀ k, u.cpu.spsr k = s.cpu.spsr k) ∧ Flushed (s.loadTime addr regs.length) s.mem v u ∧
          ∀ k, regs[k]? = some pcReg → s.BlockRead addr k v

/-- STM, PUSH and STMIA: one word for each register, lowest first, at rising aligned addresses, in the time of those
writes, and no other byte. The base in the list stores its old value if it is the lowest and the written-back one
otherwise; r15 stores PC + w; with S = 1 the User-mode registers are stored. Each write to a register of the block runs
its write action, and one the spec refuses is refused (R305, R307, R308, R312, R313, R422, R426). The model's choice: an
empty list (assumption logs 2 and 12), and that a word for ROM, for another device or for nothing changes no byte (logs
14 and 15), while video memory takes it (log 19). -/
def Obligations.BlockStores : Prop :=
  ∀ (i : Instr) (s : State) (p : BlockParts), i.asBlock = some p → i.Executes s → s.mem.wf = true →
    p.load = false → p.rn ≠ pcReg →
    (p.user = true → p.wb = false ∧ s.cpu.cpsr.mode ≠ .usr ∧ s.cpu.cpsr.mode ≠ .sys) →
    let regs := blockRegs p.list
    let addr := blockAddr p.mode (s.x p.rn) p.list
    let value (k : Nat) : Word :=
      match regs[k]? with
      | none => 0
      | some r =>
        if r = pcReg then s.cpu.pc + s.cpu.w
        else if p.user then s.xUsr r
        else if r = p.rn ∧ p.wb = true ∧ k ≠ 0 then blockEnd p.mode (s.x p.rn) p.list
        else s.x r
    let out := s.afterWrites addr value regs.length
    (∀ e, out = .refused e → exec i s = .refused e) ∧
    (∀ t, out = .next t → ∃ u, exec i s = .next u ∧ u.mem = t.mem ∧ u.dev = t.dev ∧
      (p.wb = true → u.x p.rn = blockEnd p.mode (s.x p.rn) p.list) ∧
      Keeps (if p.wb then [s.place p.rn] else []) s u ∧ KeepsFlags s u ∧ Advanced .nonseq s u ∧
      KeepsBytes (fun a => ∃ k b, k < regs.length ∧ targetOf (addr k).toNat = .ram b ∧ bytesFrom b .word a) s u ∧
      ∀ k b, k < regs.length → targetOf (addr k).toNat = .ram b → u.mem.load b .word = value k) ∧
    ((∀ k off, k < regs.length → targetOf (addr k).toNat ≠ .io off) → ∃ t, out = .next t)

/-! ## Branches, exceptions and status registers -/

/-- B and BL: a flush at A + 8 plus four times the signed offset, BL with A + 4 in lr (R330, R331). -/
def Obligations.ArmBranches : Prop :=
  ∀ (cond : Cond) (off : BitVec 24) (s : State),
    ((Instr.b cond off).Executes s → ∃ u, exec (.b cond off) s = .next u ∧
      Flushed s.dev s.mem (s.cpu.pc + BitVec.ofInt 32 (4 * off.toInt)) u ∧ Keeps [] s u ∧ KeepsFlags s u) ∧
    ((Instr.bl cond off).Executes s → ∃ u, exec (.bl cond off) s = .next u ∧
      Flushed s.dev s.mem (s.cpu.pc + BitVec.ofInt 32 (4 * off.toInt)) u ∧ u.x lrReg = s.cpu.pc - 4 ∧
      Keeps [s.place lrReg] s u ∧ KeepsFlags s u)

/-- BX, ARM and THUMB: bit 0 of the register selects the state, and the flush is in that state; no other part of CPSR
changes (R332, R395). -/
def Obligations.BranchExchange : Prop :=
  ∀ (i : Instr) (r : Reg) (s : State), (∃ cond, i = .bx cond r) ∨ (∃ hd, i = .tBx r hd) → i.Executes s →
    ∃ u, exec i s = .next u ∧ u.cpu.cpsr = { s.cpu.cpsr with t := (s.x r).getLsbD 0 } ∧
      Flushed s.dev s.mem (s.x r) u ∧ u.cpu.regs = s.cpu.regs ∧ ∀ m, u.cpu.spsr m = s.cpu.spsr m

/-- SWI takes the software interrupt, and the undefined instruction and every coprocessor instruction the Undefined
Instruction exception, with the address of the next instruction in the new mode's lr (R340, R341, R345, R445; 60_exceptions.md
R503, R504). That they do so in the step after an LDM of User-mode registers too, while the hazard holds, is the model's
choice (assumption log 17). -/
def Obligations.InstructionsTakeExceptions : Prop :=
  ∀ (i : Instr) (s : State), i.Executes s →
    ((∃ c v, i = .swi c v) → ∃ u, exec i s = .next u ∧ Entered s s.dev .svc 0x08 (s.cpu.pc - 4) u) ∧
    ((∃ v, i = .tSwi v) → ∃ u, exec i s = .next u ∧ Entered s s.dev .svc 0x08 (s.cpu.pc - 2) u) ∧
    ((∃ c v, i = .und c v) ∨ (∃ c p up n w ld rn crd cp off, i = .ldcStc c p up n w ld rn crd cp off) ∨
        (∃ c op1 crn crd cp op2 crm, i = .cdp c op1 crn crd cp op2 crm) ∨
        (∃ c op1 ld crn rd cp op2 crm, i = .mrcMcr c op1 ld crn rd cp op2 crm) →
      ∃ u, exec i s = .next u ∧ Entered s s.dev .und 0x04 (s.cpu.pc - 4) u)

/-- MRS writes the status register's word: the four flags, I, F, T and the mode in their places, bits 27:8 zero; without
an SPSR it is refused (10_state.md R36, R37; R350). -/
def Obligations.MrsReads : Prop :=
  ∀ (cond : Cond) (spsr : Bool) (rd : Reg) (s : State), (Instr.mrs cond spsr rd).Executes s → rd ≠ pcReg →
    (spsr = true → s.cpu.spsr s.cpu.cpsr.mode = none → exec (.mrs cond spsr rd) s = .refused .noSpsr) ∧
    ∀ q, (if spsr then s.cpu.spsr s.cpu.cpsr.mode = some q
        else q = ⟨s.cpu.cpsr.n, s.cpu.cpsr.z, s.cpu.cpsr.c, s.cpu.cpsr.v, s.cpu.cpsr.i, s.cpu.cpsr.f, s.cpu.cpsr.t,
          s.cpu.cpsr.mode.code⟩) →
      ∃ u, exec (.mrs cond spsr rd) s = .next u ∧
        (u.x rd).getLsbD 31 = q.n ∧ (u.x rd).getLsbD 30 = q.z ∧ (u.x rd).getLsbD 29 = q.c ∧
        (u.x rd).getLsbD 28 = q.v ∧ (u.x rd).extractLsb' 8 20 = 0 ∧ (u.x rd).getLsbD 7 = q.i ∧
        (u.x rd).getLsbD 6 = q.f ∧ (u.x rd).getLsbD 5 = q.t ∧ (u.x rd).extractLsb' 0 5 = q.m ∧
        Keeps [s.place rd] s u ∧ KeepsFlags s u ∧ KeepsBytes nowhere s u ∧ Advanced s.cpu.fetchType s u ∧
        u.dev = s.dev

/-- MSR to CPSR: the f field writes the flags in every mode; the c field writes I, F and the mode in a privileged mode
and nothing in usr, and is refused if it names no mode or would change T; the s and x fields write nothing, and there
is no flush (R351 to R355). -/
def Obligations.MsrWritesCpsr : Prop :=
  ∀ (i : Instr) (s : State) (p : MsrParts), i.asMsr s = some p → i.Executes s → p.spsr = false →
    let control := p.mask.getLsbD 0 = true ∧ s.cpu.cpsr.mode ≠ .usr
    let flagsOk (q : Cpsr) : Prop :=
      if p.mask.getLsbD 3 then q.n = p.value.getLsbD 31 ∧ q.z = p.value.getLsbD 30 ∧ q.c = p.value.getLsbD 29 ∧
        q.v = p.value.getLsbD 28
      else q.n = s.cpu.cpsr.n ∧ q.z = s.cpu.cpsr.z ∧ q.c = s.cpu.cpsr.c ∧ q.v = s.cpu.cpsr.v
    let rest (u : State) : Prop :=
      u.cpu.cpsr.t = s.cpu.cpsr.t ∧ u.cpu.regs = s.cpu.regs ∧ (∀ m, u.cpu.spsr m = s.cpu.spsr m) ∧
        KeepsBytes nowhere s u ∧ Advanced s.cpu.fetchType s u ∧ u.dev = s.dev
    (¬ control → ∃ u, exec i s = .next u ∧ flagsOk u.cpu.cpsr ∧ u.cpu.cpsr.i = s.cpu.cpsr.i ∧
      u.cpu.cpsr.f = s.cpu.cpsr.f ∧ u.cpu.cpsr.mode = s.cpu.cpsr.mode ∧ rest u) ∧
    (control → Mode.ofCode (p.value.extractLsb' 0 5) = none → exec i s = .refused .invalidMode) ∧
    ∀ m, control → Mode.ofCode (p.value.extractLsb' 0 5) = some m →
      (p.value.getLsbD 5 ≠ s.cpu.cpsr.t → exec i s = .refused .tChange) ∧
      (p.value.getLsbD 5 = s.cpu.cpsr.t → ∃ u, exec i s = .next u ∧ flagsOk u.cpu.cpsr ∧
        u.cpu.cpsr.i = p.value.getLsbD 7 ∧ u.cpu.cpsr.f = p.value.getLsbD 6 ∧ u.cpu.cpsr.mode = m ∧ rest u)

/-- MSR to an SPSR writes the fields the mask names into the SPSR of the current mode, any mode value and any T among
them, and nothing else; without an SPSR it is refused (R351 to R354; 10_state.md R37). -/
def Obligations.MsrWritesSpsr : Prop :=
  ∀ (i : Instr) (s : State) (p : MsrParts), i.asMsr s = some p → i.Executes s → p.spsr = true →
    (s.cpu.spsr s.cpu.cpsr.mode = none → exec i s = .refused .noSpsr) ∧
    ∀ q, s.cpu.spsr s.cpu.cpsr.mode = some q →
      ∃ u q', exec i s = .next u ∧ u.cpu.spsr s.cpu.cpsr.mode = some q' ∧
        (if p.mask.getLsbD 3 then q'.n = p.value.getLsbD 31 ∧ q'.z = p.value.getLsbD 30 ∧
            q'.c = p.value.getLsbD 29 ∧ q'.v = p.value.getLsbD 28
          else q'.n = q.n ∧ q'.z = q.z ∧ q'.c = q.c ∧ q'.v = q.v) ∧
        (if p.mask.getLsbD 0 then q'.i = p.value.getLsbD 7 ∧ q'.f = p.value.getLsbD 6 ∧ q'.t = p.value.getLsbD 5 ∧
            q'.m = p.value.extractLsb' 0 5
          else q'.i = q.i ∧ q'.f = q.f ∧ q'.t = q.t ∧ q'.m = q.m) ∧
        u.cpu.cpsr = s.cpu.cpsr ∧ u.cpu.regs = s.cpu.regs ∧
        (∀ m, m ≠ s.cpu.cpsr.mode → u.cpu.spsr m = s.cpu.spsr m) ∧ KeepsBytes nowhere s u ∧
        Advanced s.cpu.fetchType s u ∧ u.dev = s.dev

/-! ## Refusals -/

/-- The unallocated spaces are refused when their condition passes, the halfword forms with P = 0 and W = 1 as
unpredictable (R170, R182, R299). -/
def Obligations.UnallocatedRefused : Prop :=
  ∀ (i : Instr) (s : State), i.Executes s →
    ((∃ c b, i = .armUnallocMul c b) ∨ (∃ c b, i = .armUnallocCtrl c b) ∨ (∃ c b, i = .hwUnalloc c b) ∨
      (∃ b, i = .tUnalloc b) → exec i s = .refused .unallocated) ∧
    ((∃ c b, i = .hwUnpred c b) → exec i s = .refused .unpredictable)

/-- The operand combinations refused under both settings of QUIRKS: r15 where a rule forbids it, equal long-multiply
destinations, a block store of User registers with write-back or in usr or sys (R204, R216, R263, R281, R283, R286,
R293, R305, R312, R318, R350, R351). The address of a single transfer is refused exactly when its offset register is r15,
or its base is r15 and is written back (R281, R293). -/
def Obligations.UnpredictableRefused : Prop :=
  (∀ (ix : Indexing) (rn : Reg) (o : Offset), addressRefused ix rn o = true ↔
    (o = .reg pcReg ∨ ∃ n sh, o = .shReg n sh pcReg) ∨ ((ix = .pre ∨ ix = .post) ∧ rn = pcReg)) ∧
  ∀ (i : Instr) (s : State), i.Executes s →
    ((∃ p, i.asDp = some p ∧ ((p.op.isTest = true ∧ p.rd = pcReg) ∨ ∃ sh rm, p.o = .shReg pcReg sh rm)) ∨
      (∃ p, i.asMul = some p ∧ (p.rd = pcReg ∨ p.rs = pcReg ∨ p.rm = pcReg ∨ p.acc = some pcReg)) ∨
      (∃ p, i.asLong = some p ∧ (p.rdHi = pcReg ∨ p.rdLo = pcReg ∨ p.rs = pcReg ∨ p.rm = pcReg ∨ p.rdHi = p.rdLo)) ∨
      (∃ p, i.asLoad = some p ∧ (addressRefused p.ix p.rn p.o = true ∨ (p.rd = pcReg ∧ p.kind ≠ .word))) ∨
      (∃ p, i.asStore = some p ∧ (addressRefused p.ix p.rn p.o = true ∨ (p.rd = pcReg ∧ p.kind ≠ .word))) ∨
      (∃ c rn rd rm, (i = .swp c rn rd rm ∨ i = .swpb c rn rd rm) ∧ (rn = pcReg ∨ rd = pcReg ∨ rm = pcReg)) ∨
      (∃ p, i.asBlock = some p ∧ p.rn = pcReg) ∨
      (∃ p, i.asBlock = some p ∧ p.load = false ∧ p.user = true ∧
        (p.wb = true ∨ s.cpu.cpsr.mode = .usr ∨ s.cpu.cpsr.mode = .sys)) ∨
      (∃ c b, i = .mrs c b pcReg) ∨ ∃ c b mask, i = .msrReg c b mask pcReg) →
    exec i s = .refused .unpredictable

/-! ## THUMB -/

/-- The seven THUMB shifts: the shifter's value into Rd, its carry into C, N and Z from the result, V unchanged, with one
internal cycle for a register's amount (R360 to R362, R376 to R378, R381). -/
def Obligations.ThumbShifts : Prop :=
  ∀ (i : Instr) (s : State) (p : ThumbShiftParts), i.asThumbShift s = some p → i.Executes s →
    let out := shiftBy p.sh p.value p.amount s.cpu.cpsr.c
    ∃ u, exec i s = .next u ∧ u.x p.rd.toReg = out.1 ∧ FlagsOf out.1 out.2 s.cpu.cpsr.v u.cpu.cpsr ∧
      Keeps [s.place p.rd.toReg] s u ∧ KeepsBytes nowhere s u ∧ Advanced s.cpu.fetchType s u ∧
      u.dev = if p.reg then s.dev.advance 1 else s.dev

/-- The THUMB operations on two values: the result into Rd unless it is a comparison, and the four flags, C passing
through a logical operation (R365 to R375, R379, R380, R382 to R386, R388, R389). -/
def Obligations.ThumbAluWrites : Prop :=
  ∀ (i : Instr) (s : State) (p : ThumbAluParts), i.asThumbAlu s = some p → i.Executes s →
    let r := p.op.result p.a p.b s.cpu.cpsr.c
    ∃ u, exec i s = .next u ∧ (p.op.isTest = false → u.x p.rd.toReg = r) ∧
      FlagsOf r (p.op.carry p.a p.b s.cpu.cpsr.c s.cpu.cpsr.c) (p.op.overflow p.a p.b s.cpu.cpsr.c s.cpu.cpsr.v)
        u.cpu.cpsr ∧
      Keeps (if p.op.isTest then [] else [s.place p.rd.toReg]) s u ∧ KeepsBytes nowhere s u ∧
      Advanced s.cpu.fetchType s u ∧ u.dev = s.dev

/-- The hi-register ADD and MOV write any register and no flag, r15 being a flush in THUMB state; the hi-register CMP
writes the flags of a subtraction and nothing else (R392 to R394). -/
def Obligations.ThumbHiRegisters : Prop :=
  ∀ (i : Instr) (s : State) (hs hd : Reg), i.Executes s →
    (i = .tAddHi hs hd ∨ i = .tMovHi hs hd →
      let r := if i = .tAddHi hs hd then s.x hd + s.x hs else s.x hs
      ∃ u, exec i s = .next u ∧ KeepsFlags s u ∧
        (hd ≠ pcReg → u.x hd = r ∧ Keeps [s.place hd] s u ∧ KeepsBytes nowhere s u ∧ Advanced s.cpu.fetchType s u ∧
          u.dev = s.dev) ∧
        (hd = pcReg → Keeps [] s u ∧ Flushed s.dev s.mem r u)) ∧
    (i = .tCmpHi hs hd →
      ∃ u, exec i s = .next u ∧
        FlagsOf (s.x hd - s.x hs) (decide ((s.x hs).toNat ≤ (s.x hd).toNat))
          (outOfRange ((s.x hd).toInt - (s.x hs).toInt)) u.cpu.cpsr ∧
        Keeps [] s u ∧ KeepsBytes nowhere s u ∧ Advanced s.cpu.fetchType s u ∧ u.dev = s.dev)

/-- Every THUMB single load, as the ARM forms, with no write-back (R400, R404, R405, R407 to R409, R411, R413, R415, R417). -/
def Obligations.ThumbLoadWrites : Prop :=
  ∀ (i : Instr) (s : State) (p : ThumbLoadParts), i.asThumbLoad s = some p → i.Executes s →
    let w := p.kind.widthAt p.addr
    ∃ u, exec i s = .next u ∧
      (∀ b, Served (alignAddr p.addr w) b → u.x p.rd.toReg = p.kind.extend p.addr (s.mem.load b w)) ∧
      (∀ off, targetOf (alignAddr p.addr w).toNat = .io off →
        u.x p.rd.toReg = p.kind.extend p.addr ((s.timeOf p.addr w).ioLoad s.draws off w).1) ∧
      Keeps [s.place p.rd.toReg] s u ∧ KeepsFlags s u ∧ KeepsBytes nowhere s u ∧ Advanced .nonseq s u ∧
      u.dev = (s.timeOf p.addr w).advance 1

/-- Every THUMB single store, as the ARM forms, with no write-back; a register write the spec refuses is refused (R402,
R403, R406, R410, R412, R414, R416). What a store to ROM, to another device, to nothing or of a byte to video memory does
is the model's choice (assumption logs 14, 15 and 19), as for the ARM forms. -/
def Obligations.ThumbStoreWrites : Prop :=
  ∀ (i : Instr) (s : State) (p : ThumbStoreParts), i.asThumbStore s = some p → i.Executes s → s.mem.wf = true →
    let w := p.kind.width
    let v := s.x p.rd.toReg
    (StoreAllowed (s.timeOf p.addr w) p.addr w v →
      ∃ u, exec i s = .next u ∧ Stored (s.timeOf p.addr w) u.dev p.addr w v s u ∧
        Keeps [] s u ∧ KeepsFlags s u ∧ Advanced .nonseq s u) ∧
    ∀ off e, targetOf (alignAddr p.addr w).toNat = .io off → (s.timeOf p.addr w).ioStore off v w = .refused e →
      exec i s = .refused e

/-- The THUMB address forms: Rd from PC with bit 1 cleared, Rd from SP, and SP moved up or down, with no flag changed
(R418 to R420). -/
def Obligations.ThumbAddresses : Prop :=
  ∀ (i : Instr) (s : State) (rd : Reg) (v : Word), i.Executes s →
    (∃ r imm, i = .tAddPc r imm ∧ rd = r.toReg ∧
        v.toNat = (s.cpu.pc.toNat / 4 * 4 + 4 * imm.toNat) % 2 ^ 32) ∨
      (∃ r imm, i = .tAddSp r imm ∧ rd = r.toReg ∧ v.toNat = ((s.x spReg).toNat + 4 * imm.toNat) % 2 ^ 32) ∨
      (∃ imm, i = .tAddSpImm false imm ∧ rd = spReg ∧ v.toNat = ((s.x spReg).toNat + 4 * imm.toNat) % 2 ^ 32) ∨
      (∃ imm, i = .tAddSpImm true imm ∧ rd = spReg ∧
        v = BitVec.ofInt 32 ((s.x spReg).toNat - 4 * imm.toNat)) →
    ∃ u, exec i s = .next u ∧ u.x rd = v ∧ Keeps [s.place rd] s u ∧ KeepsFlags s u ∧ KeepsBytes nowhere s u ∧
      Advanced s.cpu.fetchType s u ∧ u.dev = s.dev

/-- The THUMB branches: B{cond} if its condition passes and else the next instruction, B, and the two halves of BL, the
first leaving A + 4 plus the high offset in lr, the second branching from lr and leaving the next address with bit 0
set (R440, R442, R446, R447). -/
def Obligations.ThumbBranches : Prop :=
  ∀ (i : Instr) (s : State), i.Executes s →
    (∀ c off, i = .tBcond c off → ∃ u, exec i s = .next u ∧ Keeps [] s u ∧ KeepsFlags s u ∧
      (condPassed s.cpu.cpsr c = true → Flushed s.dev s.mem (s.cpu.pc + BitVec.ofInt 32 (2 * off.toInt)) u) ∧
      (condPassed s.cpu.cpsr c = false → KeepsBytes nowhere s u ∧ Advanced s.cpu.fetchType s u ∧ u.dev = s.dev)) ∧
    (∀ off, i = .tB off → ∃ u, exec i s = .next u ∧ Keeps [] s u ∧ KeepsFlags s u ∧
      Flushed s.dev s.mem (s.cpu.pc + BitVec.ofInt 32 (2 * off.toInt)) u) ∧
    (∀ off, i = .tBlPrefix off → ∃ u, exec i s = .next u ∧
      u.x lrReg = s.cpu.pc + BitVec.ofInt 32 (2 ^ 12 * off.toInt) ∧ Keeps [s.place lrReg] s u ∧ KeepsFlags s u ∧
      KeepsBytes nowhere s u ∧ Advanced s.cpu.fetchType s u ∧ u.dev = s.dev) ∧
    (∀ off, i = .tBlSuffix off → ∃ u, exec i s = .next u ∧ u.x lrReg = (s.cpu.pc - 2) ||| 1 ∧
      Keeps [s.place lrReg] s u ∧ KeepsFlags s u ∧
      Flushed s.dev s.mem (s.x lrReg + BitVec.ofNat 32 (2 * off.toNat)) u)

/-! ## The whole machine -/

/-- User mode is left only by taking an exception: SWI, Undefined Instruction or IRQ, with CPSR saved, I set, T clear and
PC at the vector (60_exceptions.md R536). -/
def Obligations.UserModeLeavesByException : Prop :=
  ∀ s u : State, step s = .next u → s.cpu.cpsr.mode = .usr → u.cpu.cpsr.mode ≠ .usr →
    ∃ m v, ((m, v) = (Mode.svc, (0x08 : Word)) ∨ (m, v) = (.und, 0x04) ∨ (m, v) = (.irq, 0x18)) ∧
      u.cpu.cpsr = { s.cpu.cpsr with mode := m, i := true, t := false } ∧
      u.cpu.spsr m = some s.cpu.cpsr.save ∧ u.cpu.pc = v + 8

/-- Time never goes back, and no step changes what an access costs (61_scheduler.md R566; 00_scope.md R11). An access
takes the cycles the machine's ACCESS_CYCLES gives for its region (20_memory.md R102), its width, its class, which is N
for the first access of a 128 KiB block of ROM, and WAITCNT: the first row it lists for them, or the default table
(R105, R733); with the prefetch buffer on an access to game pak ROM lies in the bounds of R736 instead. The default table
for an open parameter, and in R736 the width of the S access and the bound of a sequential data access, are the model's
choice (assumption logs 21 and 7). -/
def Obligations.TimeNeverDecreases : Prop :=
  (∀ s u : State, step s = .next u → s.dev.now ≤ u.dev.now ∧ u.dev.costs = s.dev.costs) ∧
  (∀ a : Nat, regionOf a =
    if a < 0x4000 then .bios
    else if a / 2 ^ 24 = 2 then .ewram
    else if a / 2 ^ 24 = 3 then .iwram
    else if a / 2 ^ 24 = 4 then .io
    else if a / 2 ^ 24 = 5 then .palette
    else if a / 2 ^ 24 = 6 then .vram
    else if a / 2 ^ 24 = 7 then .oam
    else if a / 2 ^ 25 = 4 then .rom 0
    else if a / 2 ^ 25 = 5 then .rom 1
    else if a / 2 ^ 25 = 6 then .rom 2
    else if a / 2 ^ 25 = 7 then .sram
    else .unused) ∧
  (∀ (d : Dev) (r : Region) (w : Width) (acc : AccessClass),
    let mine (row : CostRow) : Prop := row.region = r ∧ row.width = w ∧ row.acc = acc ∧ row.waitcnt = d.waitcnt
    let waits (code : BitVec 2) : Nat := if code = 0 then 4 else if code = 1 then 3 else if code = 2 then 2 else 8
    (∀ before row after, d.costs = before ++ row :: after → (∀ x ∈ before, ¬ mine x) → mine row →
      d.regionCycles r w acc = row.cycles) ∧
    ((∀ row ∈ d.costs, ¬ mine row) → d.regionCycles r w acc =
      match r with
      | .bios | .iwram | .io | .oam | .unused => 1
      | .ewram => if w = .word then 6 else 3
      | .palette | .vram => if w = .word then 2 else 1
      | .sram => 1 + waits (d.waitcnt.extractLsb' 0 2)
      | .rom k =>
        let first := 1 + waits (d.waitcnt.extractLsb' (2 + 3 * k.val) 2)
        let next := 1 +
          if d.waitcnt.getLsbD (4 + 3 * k.val) then 1 else if k = 0 then 2 else if k = 1 then 4 else 8
        if w = .word then (if acc = .nonseq then first + next else 2 * next)
        else if acc = .nonseq then first else next)) ∧
  ∀ (d : Dev) (kind : AccessKind) (a : Nat) (w : Width) (acc : AccessClass),
    let rom : Prop := ∃ k, regionOf a = .rom k
    let first : Prop := acc = .nonseq ∨ (rom ∧ a % 0x20000 = 0)
    let cost := d.regionCycles (regionOf a) w (if rom ∧ a % 0x20000 = 0 then .nonseq else acc)
    let one := d.regionCycles (regionOf a) w .seq
    (d.waitcnt.getLsbD 14 = false ∨ ¬ rom → d.accessCycles kind a w acc = cost) ∧
    (d.waitcnt.getLsbD 14 = true → rom → first →
      cost ≤ d.accessCycles kind a w acc ∧ d.accessCycles kind a w acc ≤ cost + one) ∧
    (d.waitcnt.getLsbD 14 = true → rom → ¬ first → 1 ≤ cost →
      1 ≤ d.accessCycles kind a w acc ∧
        d.accessCycles kind a w acc ≤ if kind = .opcode then cost else cost + one)

/-- Only the stores, the swaps, STM and PUSH change memory: every other instruction leaves every byte (the pseudocode of
every instruction rule). -/
def Obligations.OnlyStoresWriteMemory : Prop :=
  ∀ (i : Instr) (s u : State), i.storing = false → exec i s = .next u → KeepsBytes nowhere s u

/-- Every step keeps the canonical form of memory: rising addresses, and no entry for the value an unlisted byte
reads as. -/
def Obligations.StepKeepsMemoryForm : Prop :=
  ∀ s u : State, s.mem.wf = true → step s = .next u → u.mem.wf = true

/-- Every step keeps PC aligned to the width of the instruction set it is in (10_state.md R39). -/
def Obligations.StepKeepsPcAligned : Prop := ∀ s u : State, s.pcAligned → step s = .next u → u.pcAligned

/-- Every step keeps the reserved bits of the block's registers, the agreement of the event set with the DMA channels
and the timers, and leaves no event due (10_state.md R54 to R64; 61_scheduler.md R571; 63_timers.md R640, R641, R647). -/
def Obligations.StepKeepsDevices : Prop :=
  ∀ s u : State, s.dev.Reserved → s.dev.Coherent → s.dev.settled → step s = .next u →
    u.dev.Reserved ∧ u.dev.Coherent ∧ u.dev.settled

/-! ## Devices -/

/-- Advancing time moves the clock by exactly the cycles asked for and leaves no event due, from every state of the
devices (61_scheduler.md R565, R571). -/
def Obligations.AdvanceLeavesNothingDue : Prop :=
  ∀ (d : Dev) (c : Nat), (d.advance c).now = d.now + c ∧ (d.advance c).settled

/-- The IRQ signal follows a change exactly one cycle later: not at once, not in the same cycle, and with the level as
the change left it (60_exceptions.md R519, R522). -/
def Obligations.IrqDelayIsOneCycle : Prop :=
  ∀ d : Dev, d.Coherent → d.settled →
    let level := d.ime && (d.ie &&& d.iflag != 0)
    (d.irqChanged).irqSignal = d.irqSignal ∧ (d.irqChanged.advance 0).irqSignal = d.irqSignal ∧
      (d.irqChanged.advance 1).irqSignal = level

/-- The registers of the block by halfword: what a read gives, a free value where none answers, and what a write does:
IE and IME store and update the signal, IF clears the ones written and updates it, WAITCNT stores all but its read-only
bit, the DMA registers and the timers' reload store what their masks keep, and the control registers run their control
writes. A byte read takes its lane; a word read takes two halfwords, and a word write is two halfword writes, the lower
first; a byte write is one halfword write of the stored value with that lane changed. HALTCNT halts or is refused, and an
interrupt request sets its flag (10_state.md R53 to R59, R64; 20_memory.md R110 to R112; 60_exceptions.md R521, R532). The
model's choice: free values (assumption log 4), HALTCNT by a byte write alone (log 16), and that a byte of TMiCNT_L merges
into the reload value (log 20). -/
def Obligations.RegisterWrites : Prop :=
  (∀ (d : Dev) (draws : Nat) (n : Fin 4),
    d.ioReadHalf draws 0x200 = (d.ie, draws) ∧ d.ioReadHalf draws 0x202 = (d.iflag, draws) ∧
    d.ioReadHalf draws 0x204 = (d.waitcnt, draws) ∧
    d.ioReadHalf draws 0x208 = (if d.ime then 1 else 0, draws) ∧
    d.ioReadHalf draws (0xBA + 12 * n.val) = ((d.channel n).cntH, draws) ∧
    d.ioReadHalf draws (0x100 + 4 * n.val) = ((d.timer n).counter n d.now, draws) ∧
    d.ioReadHalf draws (0x102 + 4 * n.val) = ((d.timer n).control, draws)) ∧
  (∀ (d : Dev) (draws off : Nat),
    ((∃ n, n < 4 ∧ off ∈ [0xB0 + 12 * n, 0xB2 + 12 * n, 0xB4 + 12 * n, 0xB6 + 12 * n, 0xB8 + 12 * n]) ∨
        (∀ p ∈ d.storedHalves, p.1 ≠ off) →
      d.ioReadHalf draws off = ((Config.freeValue draws).extractLsb' 0 16, draws + 1)) ∧
    let lane := d.ioReadHalf draws (off - off % 2)
    let low := d.ioReadHalf draws off
    let high := d.ioReadHalf low.2 (off + 2)
    d.ioLoad draws off .byte = (BitVec.ofNat 32 (lane.1.toNat / 2 ^ (8 * (off % 2)) % 2 ^ 8), lane.2) ∧
    d.ioLoad draws off .half = (BitVec.ofNat 32 low.1.toNat, low.2) ∧
    d.ioLoad draws off .word = (high.1 ++ low.1, high.2)) ∧
  (∀ (d : Dev) (v : Word),
    let h : Half := v.extractLsb' 0 16
    d.ioStore 0x200 v .half = .next { d with ie := h }.irqChanged ∧
    d.ioStore 0x202 v .half = .next { d with iflag := d.iflag &&& ~~~h }.irqChanged ∧
    d.ioStore 0x204 v .half = .next { d with waitcnt := h &&& 0x7FFF } ∧
    d.ioStore 0x208 v .half = .next { d with ime := v.getLsbD 0 }.irqChanged ∧
    (∀ n : Fin 4,
      let c := d.channel n
      let srcMask : Word := if n = 0 then 0x07FFFFFF else 0x0FFFFFFF
      let dstMask : Word := if n = 3 then 0x0FFFFFFF else 0x07FFFFFF
      let cntMask : Half := if n = 3 then 0xFFFF else 0x3FFF
      d.ioStore (0xB0 + 12 * n.val) v .half =
        .next (d.setChannel n { c with sad := (c.sad.extractLsb' 16 16 ++ h) &&& srcMask }) ∧
      d.ioStore (0xB2 + 12 * n.val) v .half =
        .next (d.setChannel n { c with sad := (h ++ c.sad.extractLsb' 0 16) &&& srcMask }) ∧
      d.ioStore (0xB4 + 12 * n.val) v .half =
        .next (d.setChannel n { c with dad := (c.dad.extractLsb' 16 16 ++ h) &&& dstMask }) ∧
      d.ioStore (0xB6 + 12 * n.val) v .half =
        .next (d.setChannel n { c with dad := (h ++ c.dad.extractLsb' 0 16) &&& dstMask }) ∧
      d.ioStore (0xB8 + 12 * n.val) v .half = .next (d.setChannel n { c with cntL := h &&& cntMask }) ∧
      d.ioStore (0xBA + 12 * n.val) v .half = d.dmaControlWrite n h ∧
      d.ioStore (0x100 + 4 * n.val) v .half = .next (d.setTimer n { d.timer n with reload := h }) ∧
      d.ioStore (0x102 + 4 * n.val) v .half = .next (d.timerControlWrite n h)) ∧
    (∀ off, (∀ p ∈ d.storedHalves, p.1 ≠ off) → d.ioStore off v .half = .next d) ∧
    (∀ off stored, (off, stored) ∈ d.storedHalves →
      d.ioStore off v .byte =
        d.ioStore off (BitVec.ofNat 32 (stored.toNat / 2 ^ 8 * 2 ^ 8 + v.toNat % 2 ^ 8)) .half ∧
      d.ioStore (off + 1) v .byte =
        d.ioStore off (BitVec.ofNat 32 (v.toNat % 2 ^ 8 * 2 ^ 8 + stored.toNat % 2 ^ 8)) .half) ∧
    (∀ off e, d.ioStore off v .half = .refused e → d.ioStore off v .word = .refused e) ∧
    (∀ off u, d.ioStore off v .half = .next u → d.ioStore off v .word = u.ioStore (off + 2) (v >>> 16) .half) ∧
    (v.getLsbD 7 = false → d.ioStore 0x301 v .byte = .next { d with halted := true }) ∧
    (v.getLsbD 7 = true → d.ioStore 0x301 v .byte = .refused .stopMode)) ∧
  ∀ (d : Dev) (k : Fin 14), (d.requestInterrupt k).iflag = d.iflag ||| (1 : Half) <<< k.val ∧
    (d.requestInterrupt k).ie = d.ie ∧ (d.requestInterrupt k).ime = d.ime

/-- A timer's control write. The 0-to-1 edge loads the reload value and, if the timer is free-running, starts its count
two cycles later on its own tick, with the overflow posted for the cycle the count reaches 0x10000. Any other write keeps
the value counted so far: a free-running timer is settled at it and its pending overflow cancelled, and a timer that is
then free-running counts on from it, from the last tick of its new period, with a new overflow posted; a stopped or
cascaded one posts none. While the devices are coherent and settled a read of a free-running timer's counter is its value
with no wrap (63_timers.md R641, R642, R646 to R649). -/
def Obligations.TimersCount : Prop :=
  (∀ (d : Dev) (i : Fin 4) (v : Half), (d.timer i).enabled = false → v.getLsbD 7 = true →
    let u := d.timerControlWrite i v
    let period := timerPeriod v
    (u.timer i).base = (d.timer i).reload ∧ (u.timer i).reload = (d.timer i).reload ∧
    (u.timer i).control = v &&& 0x00C7 ∧
    (v.getLsbD 2 = false ∨ i = 0 →
      (u.timer i).lastTs = (d.now + 2) / period * period ∧ (u.timer i).handle = some d.nextHandle ∧
      u.events = d.events ++ [⟨(d.now + 2) / period * period + (0x10000 - (d.timer i).reload.toNat) * period,
        d.nextHandle, .timerOverflow i⟩]) ∧
    (v.getLsbD 2 = true → i ≠ 0 → u.events = d.events)) ∧
  (∀ (d : Dev) (i : Fin 4) (v : Half), (d.timer i).enabled = true ∨ v.getLsbD 7 = false →
    let t := d.timer i
    let u := d.timerControlWrite i v
    let running := t.isFreeRunning i = true
    let value := if running then t.counter i d.now else t.base
    let kept := if running then d.events.filter (fun e => t.handle != some e.handle) else d.events
    let start := d.now / timerPeriod v * timerPeriod v
    (∀ j, j ≠ i → u.timer j = d.timer j) ∧
    (v.getLsbD 7 = true ∧ (v.getLsbD 2 = false ∨ i = 0) →
      u.timer i = ⟨value, t.reload, v &&& 0x00C7, start, some d.nextHandle⟩ ∧
      u.events = kept ++ [⟨start + (0x10000 - value.toNat) * timerPeriod v, d.nextHandle, .timerOverflow i⟩]) ∧
    (¬ (v.getLsbD 7 = true ∧ (v.getLsbD 2 = false ∨ i = 0)) →
      u.timer i = ⟨value, t.reload, v &&& 0x00C7, if running then d.now else t.lastTs,
        if running then none else t.handle⟩ ∧ u.events = kept)) ∧
  ∀ (d : Dev) (i : Fin 4), d.Coherent → d.settled → (d.timer i).isFreeRunning i = true →
    ((d.timer i).counter i d.now).toNat =
      (d.timer i).base.toNat + (d.now - (d.timer i).lastTs) / timerPeriod (d.timer i).control

/-- An overflow that fell due at `ts` reloads the counter, posts the next overflow a whole number of ticks after `ts`
however late it fires, and requests the interrupt if it is enabled. A cascaded timer counts each overflow of the timer
below it by one, or at 0xFFFF reloads, requests its own interrupt and overflows in turn, so that the timer above counts:
every timer from the one above `i` up to the first that does not overflow moves, and no other (63_timers.md R650 to R653;
61_scheduler.md R570). -/
def Obligations.TimersOverflow : Prop :=
  ∀ (d : Dev) (i : Fin 4) (ts : Nat),
    let u := d.fireOverflow i ts
    (u.timer i).base = (d.timer i).reload ∧ (u.timer i).lastTs = ts ∧
    (u.timer i).reload = (d.timer i).reload ∧ (u.timer i).control = (d.timer i).control ∧
    (∃ h, (u.timer i).handle = some h ∧ (⟨ts + (0x10000 - (d.timer i).reload.toNat) * timerPeriod (d.timer i).control,
      h, .timerOverflow i⟩ : Event) ∈ u.events) ∧
    ((d.timer i).irqEnabled = true → u.iflag.getLsbD (3 + i.val) = true) ∧
    (∀ j, j < i → u.timer j = d.timer j) ∧
    ∀ j, i < j →
      let wraps (k : Fin 4) : Prop := (d.timer k).isCascaded k = true ∧ (d.timer k).base = 0xFFFF
      let reached : Prop := (d.timer j).isCascaded j = true ∧ ∀ k, i < k → k < j → wraps k
      (reached → (d.timer j).base ≠ 0xFFFF → u.timer j = { d.timer j with base := (d.timer j).base + 1 }) ∧
      (reached → (d.timer j).base = 0xFFFF → u.timer j = { d.timer j with base := (d.timer j).reload } ∧
        ((d.timer j).irqEnabled = true → u.iflag.getLsbD (3 + j.val) = true)) ∧
      (¬ reached → u.timer j = d.timer j)

/-- A DMA control write: the 0-to-1 edge latches the programmed registers and schedules an immediate channel two cycles
later or makes it wait; the 1-to-0 edge disables it and cancels a pending start; any other write only stores the
fields; a running channel and the refused configurations are refused (62_dma.md R600, R601, R607, R621, R622). -/
def Obligations.DmaControl : Prop :=
  ∀ (d : Dev) (n : Fin 4) (v : Half),
    let c := d.channel n
    let refused : Prop := c.status = .running ∨ (v.getLsbD 15 = true ∧
      (v.extractLsb' 7 2 = 3 ∨ (n = 0 ∧ v.extractLsb' 12 2 = 3) ∨ (n = 3 ∧ v.getLsbD 11 = true)))
    (refused → d.dmaControlWrite n v = .refused .implementationDefined) ∧
    (¬ refused → ∃ u, d.dmaControlWrite n v = .next u ∧ (u.channel n).cntH = v &&& 0xFFE0 ∧
      (u.channel n).sad = c.sad ∧ (u.channel n).dad = c.dad ∧ (u.channel n).cntL = c.cntL ∧
      (c.cntH.getLsbD 15 = false → v.getLsbD 15 = true →
        let word := v.getLsbD 10 = true ∨
          ((n = 1 ∨ n = 2) ∧ v.extractLsb' 12 2 = 3 ∧ (c.dad = 0x040000A0 ∨ c.dad = 0x040000A4))
        (u.channel n).src.toNat = (if word then c.sad.toNat / 4 * 4 else c.sad.toNat / 2 * 2) ∧
        (u.channel n).dst.toNat = (if word then c.dad.toNat / 4 * 4 else c.dad.toNat / 2 * 2) ∧
        (u.channel n).count =
          (if (n = 1 ∨ n = 2) ∧ v.extractLsb' 12 2 = 3 ∧ (c.dad = 0x040000A0 ∨ c.dad = 0x040000A4) then 4
            else if c.cntL = 0 then (if n = 3 then 0x10000 else 0x4000) else c.cntL.toNat) ∧
        (v.extractLsb' 12 2 = 0 → (u.channel n).status = .scheduled d.nextHandle ∧
          u.events = d.events ++ [⟨d.now + 2, d.nextHandle, .dmaStart n⟩]) ∧
        (v.extractLsb' 12 2 ≠ 0 → (u.channel n).status = .waiting ∧ u.events = d.events)) ∧
      (c.cntH.getLsbD 15 = true → v.getLsbD 15 = false → (u.channel n).status = .disabled ∧
        ∀ h, c.status = .scheduled h → ∀ e ∈ u.events, e.handle ≠ h) ∧
      (c.cntH.getLsbD 15 = v.getLsbD 15 → (u.channel n).status = c.status ∧ (u.channel n).src = c.src ∧
        (u.channel n).dst = c.dst ∧ (u.channel n).count = c.count ∧ u.events = d.events))

/-- One unit of a transfer between memories: the word or halfword at the source is written at the destination, or,
with the source below 0x02000000, what the DMA last read; both addresses step by the channel's modes and the count
falls by one (62_dma.md R612, R613, R616). That bit 1 of a halfword's destination selects bits 31:16 of the latch, as
R612's words and not its pseudocode say, is the model's choice of the two (assumption log 22). -/
def Obligations.DmaMovesUnits : Prop :=
  ∀ (s : State) (n : Fin 4) (word : Bool) (acc : AccessClass) (b e : Nat),
    let c := s.dev.channel n
    let w : Width := if word then .word else .half
    c.status = .running → s.mem.wf = true → targetOf (alignAddr c.dst w).toNat = .ram e →
    (c.src.toNat < 0x02000000 ∨ Served (alignAddr c.src w) b) →
    ∃ u, s.dmaUnit n word acc = .next u ∧
      (0x02000000 ≤ c.src.toNat → ∀ k, k < w.bytes → u.mem.read (e + k) = s.mem.read (b + k)) ∧
      (c.src.toNat < 0x02000000 → u.dev.dmaLatch = s.dev.dmaLatch ∧ ∀ k, k < w.bytes →
        u.mem.read (e + k) = byteOf s.dev.dmaLatch (k + if word = false ∧ c.dst.getLsbD 1 = true then 2 else 0)) ∧
      KeepsBytes (bytesFrom e w) s u ∧ u.cpu = s.cpu ∧
      (u.dev.channel n).src = dmaStepAddr (dmaSrcMode c.cntH) word c.src ∧
      (u.dev.channel n).dst = (if c.isFifo n then c.dst else dmaStepAddr (dmaDstMode c.cntH) word c.dst) ∧
      (u.dev.channel n).count = c.count - 1 ∧ (u.dev.channel n).status = .running

end
end

