-- ==== Sys2Proof/Laws/Memory.lean ====
section
/-!
SUPPORT. The laws of memory: the canonical form is kept, a read after a write, and two canonical memories that read
the same are the same list.
-/
namespace Sys2Proof.Machine

theorem Memory.wfFrom_cons {lo a : Nat} {v : Byte} {rest : Memory} :
    Memory.wfFrom lo ((a, v) :: rest) = true ↔
      lo ≤ a ∧ v ≠ Config.unlistedByte ∧ Memory.wfFrom (a + 1) rest = true := by
  simp [Memory.wfFrom, and_assoc]

theorem Memory.wfFrom_mono {m : Memory} {lo lo' : Nat} (h : lo' ≤ lo) (hm : Memory.wfFrom lo m = true) :
    Memory.wfFrom lo' m = true := by
  cases m with
  | nil => rfl
  | cons c rest =>
    obtain ⟨a, v⟩ := c
    rw [Memory.wfFrom_cons] at hm ⊢
    exact ⟨Nat.le_trans h hm.1, hm.2⟩

/-- Below its bound a canonical memory reads as unlisted. -/
theorem Memory.read_below {m : Memory} {lo a : Nat} (hm : Memory.wfFrom lo m = true) (h : a < lo) :
    m.read a = Config.unlistedByte := by
  induction m generalizing lo with
  | nil => rfl
  | cons c rest ih =>
    obtain ⟨b, v⟩ := c
    rw [Memory.wfFrom_cons] at hm
    have hb : b ≠ a := by omega
    simp only [Memory.read, hb, if_false]
    exact ih hm.2.2 (by omega)

theorem Memory.wfFrom_write {m : Memory} {lo a : Nat} (v : Byte) (ha : lo ≤ a) (hm : Memory.wfFrom lo m = true) :
    Memory.wfFrom lo (m.write a v) = true := by
  induction m generalizing lo with
  | nil =>
    unfold Memory.write
    split
    · rfl
    · rename_i hv; rw [Memory.wfFrom_cons]; exact ⟨ha, hv, rfl⟩
  | cons c rest ih =>
    obtain ⟨b, w⟩ := c
    have hm' := Memory.wfFrom_cons.mp hm
    unfold Memory.write
    split
    · rename_i hab
      split
      · exact hm
      · rename_i hv
        rw [Memory.wfFrom_cons]
        exact ⟨ha, hv, Memory.wfFrom_cons.mpr ⟨by omega, hm'.2⟩⟩
    · split
      · rename_i hab
        split
        · exact Memory.wfFrom_mono (by omega) hm'.2.2
        · rename_i hv
          subst hab
          exact Memory.wfFrom_cons.mpr ⟨ha, hv, hm'.2.2⟩
      · exact Memory.wfFrom_cons.mpr ⟨hm'.1, hm'.2.1, ih (by omega) hm'.2.2⟩

/-- A write keeps the canonical form. -/
theorem Memory.wf_write {m : Memory} (a : Nat) (v : Byte) (hm : m.wf = true) : (m.write a v).wf = true :=
  Memory.wfFrom_write v (Nat.zero_le a) hm

/-- A store of any width keeps the canonical form. -/
theorem Memory.wf_store {m : Memory} (a : Nat) (v : Word) (w : Width) (hm : m.wf = true) :
    (m.store a v w).wf = true := by
  cases w with
  | byte => exact Memory.wf_write _ _ hm
  | half => exact Memory.wf_write _ _ (Memory.wf_write _ _ hm)
  | word => exact Memory.wf_write _ _ (Memory.wf_write _ _ (Memory.wf_write _ _ (Memory.wf_write _ _ hm)))

/-- A write leaves every other byte. -/
theorem Memory.read_write_ne {m : Memory} {a b : Nat} (v : Byte) (h : b ≠ a) : (m.write a v).read b = m.read b := by
  induction m with
  | nil =>
    unfold Memory.write
    split
    · rfl
    · simp [Memory.read, Ne.symm h]
  | cons c rest ih =>
    obtain ⟨d, w⟩ := c
    unfold Memory.write
    split
    · split
      · rfl
      · simp [Memory.read, Ne.symm h]
    · split
      · rename_i had
        subst had
        split <;> simp [Memory.read, Ne.symm h]
      · simp only [Memory.read, ih]

theorem Memory.read_write_self_from {m : Memory} {lo a : Nat} (v : Byte) (ha : lo ≤ a)
    (hm : Memory.wfFrom lo m = true) : (m.write a v).read a = v := by
  induction m generalizing lo with
  | nil =>
    unfold Memory.write
    split
    · rename_i hv; simp [Memory.read, hv]
    · simp [Memory.read]
  | cons c rest ih =>
    obtain ⟨b, w⟩ := c
    have hm' := Memory.wfFrom_cons.mp hm
    unfold Memory.write
    split
    · rename_i hab
      split
      · rename_i hv
        rw [hv]
        exact Memory.read_below (lo := b) (Memory.wfFrom_cons.mpr ⟨Nat.le_refl b, hm'.2⟩) hab
      · simp [Memory.read]
    · split
      · rename_i hab
        subst hab
        split
        · rename_i hv
          rw [hv]
          exact Memory.read_below hm'.2.2 (Nat.lt_succ_self a)
        · simp [Memory.read]
      · rename_i h1 h2
        have : b ≠ a := fun e => h2 e.symm
        simp only [Memory.read, this, if_false]
        exact ih (by omega) hm'.2.2

/-- A read after a write to the same byte gives the value written. -/
theorem Memory.read_write_self {m : Memory} (a : Nat) (v : Byte) (hm : m.wf = true) : (m.write a v).read a = v :=
  Memory.read_write_self_from v (Nat.zero_le a) hm

/-- A store leaves every byte outside its width. -/
theorem Memory.read_store_outside {m : Memory} {a b : Nat} (v : Word) (w : Width)
    (h : b < a ∨ a + w.bytes ≤ b) : (m.store a v w).read b = m.read b := by
  cases w <;> simp only [Width.bytes] at h <;> simp only [Memory.store]
  · rw [Memory.read_write_ne _ (by omega)]
  · rw [Memory.read_write_ne _ (by omega), Memory.read_write_ne _ (by omega)]
  · rw [Memory.read_write_ne _ (by omega), Memory.read_write_ne _ (by omega), Memory.read_write_ne _ (by omega),
      Memory.read_write_ne _ (by omega)]

/-- A store puts byte k of the value at the k-th byte of its width. -/
theorem Memory.read_store_inside {m : Memory} {a k : Nat} (v : Word) (w : Width) (hm : m.wf = true)
    (h : k < w.bytes) : (m.store a v w).read (a + k) = byteOf v k := by
  cases w <;> simp only [Width.bytes] at h <;> simp only [Memory.store]
  · obtain rfl : k = 0 := by omega
    exact Memory.read_write_self _ _ hm
  · rcases (by omega : k = 0 ∨ k = 1) with rfl | rfl
    · rw [Memory.read_write_ne _ (by omega)]; exact Memory.read_write_self _ _ hm
    · exact Memory.read_write_self _ _ (Memory.wf_write _ _ hm)
  · have h1 := Memory.wf_write a (byteOf v 0) hm
    have h2 := Memory.wf_write (a + 1) (byteOf v 1) h1
    have h3 := Memory.wf_write (a + 2) (byteOf v 2) h2
    rcases (by omega : k = 0 ∨ k = 1 ∨ k = 2 ∨ k = 3) with rfl | rfl | rfl | rfl
    · rw [Memory.read_write_ne _ (by omega), Memory.read_write_ne _ (by omega), Memory.read_write_ne _ (by omega)]
      exact Memory.read_write_self _ _ hm
    · rw [Memory.read_write_ne _ (by omega), Memory.read_write_ne _ (by omega)]
      exact Memory.read_write_self _ _ h1
    · rw [Memory.read_write_ne _ (by omega)]; exact Memory.read_write_self _ _ h2
    · exact Memory.read_write_self _ _ h3

end Sys2Proof.Machine
end

