-- ==== Sys2Proof/Laws/Access.lean ====
section
/-!
SUPPORT. What an access to the bus is: the alignment of its address, and the value a read finds.
-/
namespace Sys2Proof.Machine

theorem and_fffffffc (a : Word) : a &&& 0xFFFFFFFC#32 = (a >>> 2) <<< 2 := by
  apply BitVec.eq_of_getLsbD_eq
  intro i hi
  rw [BitVec.getLsbD_and, BitVec.getLsbD_shiftLeft, BitVec.getLsbD_ushiftRight]
  have : i = 0 ∨ i = 1 ∨ 2 ≤ i := by omega
  rcases this with rfl | rfl | h
  · simp
  · simp
  · have h1 : (0xFFFFFFFC#32).getLsbD i = true := by
      interval_cases i <;> rfl
    rw [h1, show 2 + (i - 2) = i by omega]
    simp [hi]; omega

theorem and_fffffffe (a : Word) : a &&& 0xFFFFFFFE#32 = (a >>> 1) <<< 1 := by
  apply BitVec.eq_of_getLsbD_eq
  intro i hi
  rw [BitVec.getLsbD_and, BitVec.getLsbD_shiftLeft, BitVec.getLsbD_ushiftRight]
  rcases Nat.eq_zero_or_pos i with rfl | h
  · simp
  · have h1 : (0xFFFFFFFE#32).getLsbD i = true := by
      interval_cases i <;> rfl
    rw [h1, show 1 + (i - 1) = i by omega]
    simp [hi]; omega

/-- Forcing an alignment rounds down to a multiple of the width (20_memory.md R107). -/
theorem alignAddr_toNat (a : Word) (w : Width) : (alignAddr a w).toNat = a.toNat / w.bytes * w.bytes := by
  have := a.isLt
  cases w
  · simp [alignAddr, Width.bytes]
  · show (a &&& 0xFFFFFFFE#32).toNat = _
    rw [and_fffffffe, BitVec.toNat_shiftLeft, BitVec.toNat_ushiftRight, Nat.shiftLeft_eq,
      Nat.shiftRight_eq_div_pow]
    simp only [Width.bytes]; omega
  · show (a &&& 0xFFFFFFFC#32).toNat = _
    rw [and_fffffffc, BitVec.toNat_shiftLeft, BitVec.toNat_ushiftRight, Nat.shiftLeft_eq,
      Nat.shiftRight_eq_div_pow]
    simp only [Width.bytes]; omega

/-- An aligned address stays. -/
theorem alignAddr_of_mod {a : Word} {w : Width} (h : a.toNat % w.bytes = 0) : alignAddr a w = a := by
  apply BitVec.eq_of_toNat_eq
  rw [alignAddr_toNat]
  cases w <;> simp only [Width.bytes] at * <;> omega

theorem alignAddr_mod (a : Word) (w : Width) : (alignAddr a w).toNat % w.bytes = 0 := by
  rw [alignAddr_toNat]; exact Nat.mul_mod_left _ _

@[simp] theorem alignAddr_idem (a : Word) (w : Width) : alignAddr (alignAddr a w) w = alignAddr a w :=
  alignAddr_of_mod (alignAddr_mod a w)

theorem State.memRead_served {s : State} {k : AccessKind} {a : Word} {w : Width} {acc : AccessClass} {b : Nat}
    (h : Served (alignAddr a w) b) : (s.memRead k a w acc).1 = s.mem.load b w := by
  unfold State.memRead State.peek
  rcases h with h | h <;> rw [h] <;> rfl

theorem State.memRead_io {s : State} {k : AccessKind} {a : Word} {w : Width} {acc : AccessClass} {off : Nat}
    (h : targetOf (alignAddr a w).toNat = .io off) : (s.memRead k a w acc).1 =
      ((s.dev.passAccess k (alignAddr a w).toNat w acc).ioLoad s.draws off w).1 := by
  unfold State.memRead State.peek
  rw [h]; rfl

/-- The regions whose bytes are memory that holds what is written, and where they are (20_memory.md R102). -/
theorem targetOf_ram {a b : Nat} (h : targetOf a = .ram b) :
    (a / 2 ^ 24 = 2 ∧ b = 0x02000000 + a % 0x40000) ∨ (a / 2 ^ 24 = 3 ∧ b = 0x03000000 + a % 0x8000) ∨
    (a / 2 ^ 24 = 5 ∧ b = 0x05000000 + a % 0x400) ∨
    (a / 2 ^ 24 = 6 ∧ a % 0x20000 < 0x18000 ∧ b = 0x06000000 + a % 0x20000) ∨
    (a / 2 ^ 24 = 6 ∧ 0x18000 ≤ a % 0x20000 ∧ b = 0x06000000 + (a % 0x20000 - 0x8000)) ∨
    (a / 2 ^ 24 = 7 ∧ b = 0x07000000 + a % 0x400) ∨
    ((a / 2 ^ 24 = 14 ∨ a / 2 ^ 24 = 15) ∧ b = 0x0E000000 + a % 0x10000) := by
  unfold targetOf at h
  split at h <;> rename_i he
  case h_4 => split at h <;> simp at h
  all_goals first
    | (split at h <;> simp at h; done)
    | skip
  all_goals simp only [reduceCtorEq, Target.ram.injEq] at h
  all_goals try split at h
  all_goals omega

/-- The aligned words of one stretch of 64 bytes have places of their own (42_arm_loadstore.md R305). -/
theorem targetOf_ram_apart {a a' b b' : Nat} (h : targetOf a = .ram b) (h' : targetOf a' = .ram b')
    (ha : a % 4 = 0) (ha' : a' % 4 = 0) (hlt : a < a') (hnear : a' < a + 64) : b + 4 ≤ b' ∨ b' + 4 ≤ b := by
  rcases targetOf_ram h with h | h | h | h | h | h | h <;> rcases targetOf_ram h' with h' | h' | h' | h' | h' | h' | h' <;>
    omega

/-- A word is its four bytes (20_memory.md R103). -/
theorem Memory.load_word_eq {m : Memory} {b : Nat} {v : Word} (h : ∀ k, k < 4 → m.read (b + k) = byteOf v k) :
    m.load b .word = v := by
  have h0 := h 0 (by decide); have h1 := h 1 (by decide); have h2 := h 2 (by decide); have h3 := h 3 (by decide)
  simp only [Memory.load, Nat.add_zero] at *
  rw [h0, h1, h2, h3]
  apply BitVec.eq_of_getLsbD_eq
  intro i hi
  simp only [byteOf, BitVec.getLsbD_append, BitVec.getLsbD_extractLsb']
  by_cases c0 : i < 8
  · simp [c0]
  · by_cases c1 : i - 8 < 8
    · simp [c0, c1, show 8 + (i - 8) = i by omega]
    · by_cases c2 : i - 8 - 8 < 8
      · simp [c0, c1, c2, show 16 + (i - 8 - 8) = i by omega]
      · have c3 : i - 8 - 8 - 8 < 8 := by omega
        simp [c0, c1, c2, c3, show 24 + (i - 8 - 8 - 8) = i by omega]

theorem Memory.load_store_word {m : Memory} {b : Nat} {v : Word} (h : m.wf = true) :
    (m.store b v .word).load b .word = v :=
  Memory.load_word_eq fun _ hk => Memory.read_store_inside v .word h hk

theorem Memory.load_word_congr {m n : Memory} {b : Nat} (h : ∀ k, k < 4 → m.read (b + k) = n.read (b + k)) :
    m.load b .word = n.load b .word := by
  have h0 := h 0 (by decide); have h1 := h 1 (by decide); have h2 := h 2 (by decide); have h3 := h 3 (by decide)
  simp only [Memory.load, Nat.add_zero] at *
  rw [h0, h1, h2, h3]

/-- What a write that goes on does to the CPU and to memory. -/
theorem State.memWrite_next {s t : State} {a v : Word} {w : Width} {acc : AccessClass}
    (h : s.memWrite a w v acc = .next t) : t.cpu = s.cpu ∧
      (∀ b, targetOf (alignAddr a w).toNat = .ram b → t.mem = s.mem.store b v w) ∧
      ((∀ b, targetOf (alignAddr a w).toNat ≠ .ram b) → t.mem = s.mem) := by
  unfold State.memWrite State.poke at h
  cases ht : targetOf (alignAddr a w).toNat with
  | io off =>
    rw [ht] at h
    dsimp only [State.passAccess] at h
    cases hd : (s.dev.passAccess .data (alignAddr a w).toNat w acc).ioStore off v w with
    | next d => rw [hd] at h; cases h; exact ⟨rfl, (fun _ h => by cases h), fun _ => rfl⟩
    | fault e => rw [hd] at h; cases h
    | refused e => rw [hd] at h; cases h
  | ram b =>
    rw [ht] at h; cases h
    exact ⟨rfl, (fun b' hb => by cases hb; rfl), fun hn => absurd rfl (hn b)⟩
  | rom b => rw [ht] at h; cases h; exact ⟨rfl, (fun _ h => by cases h), fun _ => rfl⟩
  | openBus => rw [ht] at h; cases h; exact ⟨rfl, (fun _ h => by cases h), fun _ => rfl⟩

/-- A write that no register of the block takes always goes on. -/
theorem State.memWrite_plain (s : State) {a : Word} {w : Width} (v : Word) (acc : AccessClass)
    (h : ∀ off, targetOf (alignAddr a w).toNat ≠ .io off) : ∃ t, s.memWrite a w v acc = .next t := by
  unfold State.memWrite State.poke
  cases ht : targetOf (alignAddr a w).toNat with
  | io off => exact absurd ht (h off)
  | ram b => exact ⟨_, rfl⟩
  | rom b => exact ⟨_, rfl⟩
  | openBus => exact ⟨_, rfl⟩

end Sys2Proof.Machine
end

