-- ==== Sys2Proof/Laws/Arith.lean ====
section
/-!
SUPPORT. `add_with_carry` (40_arm_dataproc.md R211) against the integers: its result, its carry and its overflow.
-/
namespace Sys2Proof.Machine
open Sys2Proof

/-- The carry in as a number. -/
theorem toNat_bit (c : Bool) : ((bit c).zeroExtend 33).toNat = c.toNat := by cases c <;> rfl

/-- The result of the primitive is the sum modulo 2^32. -/
theorem addWithCarry_r (a b : Word) (c : Bool) : (addWithCarry a b c).r = a + b + (if c then 1 else 0) := by
  apply BitVec.eq_of_toNat_eq
  have := a.isLt; have := b.isLt
  simp only [addWithCarry, BitVec.extractLsb'_toNat, BitVec.toNat_add, toNat_bit]
  cases c <;> simp

/-- Its carry says that the unsigned sum does not fit. -/
theorem addWithCarry_c (a b : Word) (c : Bool) :
    (addWithCarry a b c).c = decide (2 ^ 32 ≤ a.toNat + b.toNat + c.toNat) := by
  have := a.isLt; have := b.isLt
  have hc : c.toNat ≤ 1 := by cases c <;> decide
  simp only [addWithCarry]
  rw [BitVec.getLsbD, BitVec.toNat_add, BitVec.toNat_add, toNat_bit]
  simp only [BitVec.zeroExtend, BitVec.toNat_setWidth, Nat.testBit, Nat.shiftRight_eq_div_pow]
  have h1 : (((a.toNat % 2 ^ 33 + b.toNat % 2 ^ 33) % 2 ^ 33 + c.toNat) % 2 ^ 33) = a.toNat + b.toNat + c.toNat := by
    omega
  rw [h1]
  have : (a.toNat + b.toNat + c.toNat) / 2^32 = if 2^32 ≤ a.toNat + b.toNat + c.toNat then 1 else 0 := by
    split <;> omega
  rw [this]
  split <;> simp [*] <;> omega

/-- Its overflow says that the signed sum does not fit. -/
theorem addWithCarry_v (a b : Word) (c : Bool) :
    (addWithCarry a b c).v = outOfRange (a.toInt + b.toInt + c.toNat) := by
  have hr := addWithCarry_r a b c
  have e : (addWithCarry a b c).v = (~~~(a ^^^ b) &&& (b ^^^ (addWithCarry a b c).r)).getLsbD 31 := rfl
  rw [e, hr]
  have ha : a.getLsbD 31 = decide (a.toInt < 0) := by rw [← BitVec.msb_eq_toInt]; rfl
  have hb : b.getLsbD 31 = decide (b.toInt < 0) := by rw [← BitVec.msb_eq_toInt]; rfl
  have hq : ∀ q : Word, q.getLsbD 31 = decide (q.toInt < 0) := by intro q; rw [← BitVec.msb_eq_toInt]; rfl
  have hrr : (a + b + (if c then 1 else 0)).toInt = (a.toInt + b.toInt + c.toNat).bmod (2^32) := by
    cases c <;> simp [BitVec.toInt_add]
  simp only [BitVec.getLsbD_and, BitVec.getLsbD_not, BitVec.getLsbD_xor, ha, hb]
  rw [hq (a + b + _), hrr]
  have l1 := a.toInt_lt; have l2 := b.toInt_lt; have l3 := a.le_toInt; have l4 := b.le_toInt
  have hc : c.toNat ≤ 1 := by cases c <;> decide
  simp only [outOfRange]
  generalize a.toInt = x at *
  generalize b.toInt = y at *
  rw [Int.bmod_def]
  rw [Bool.eq_iff_iff]
  by_cases hx : x < 0 <;> by_cases hy : y < 0 <;> simp [hx, hy] <;> (try split) <;> omega

end Sys2Proof.Machine
end

