-- ==== Sys2Proof/Laws/State.lean ====
section
/-!
SUPPORT. One lemma for each field of the state and each named update, so that no proof unfolds a record update.
-/
namespace Sys2Proof.Machine

/-! ## Vectors -/

theorem vector_get_set_self {α : Type} {n : Nat} (v : Vector α n) (i : Fin n) (x : α) : (v.set i x).get i = x := by
  simp [Vector.get_eq_getElem]

theorem vector_get_set_ne {α : Type} {n : Nat} (v : Vector α n) {i j : Fin n} (x : α) (h : i ≠ j) :
    (v.set i x).get j = v.get j := by
  have : i.val ≠ j.val := fun e => h (Fin.ext e)
  simp [Vector.get_eq_getElem, this]

/-! ## Writing a register -/

@[simp] theorem Cpu.setX_pc (c : Cpu) (i : Reg) (v : Word) : (c.setX i v).pc = c.pc := by
  unfold Cpu.setX; split <;> rfl
@[simp] theorem Cpu.setX_cpsr (c : Cpu) (i : Reg) (v : Word) : (c.setX i v).cpsr = c.cpsr := by
  unfold Cpu.setX; split <;> rfl
@[simp] theorem Cpu.setX_spsrFiq (c : Cpu) (i : Reg) (v : Word) : (c.setX i v).spsrFiq = c.spsrFiq := by
  unfold Cpu.setX; split <;> rfl
@[simp] theorem Cpu.setX_spsrIrq (c : Cpu) (i : Reg) (v : Word) : (c.setX i v).spsrIrq = c.spsrIrq := by
  unfold Cpu.setX; split <;> rfl
@[simp] theorem Cpu.setX_spsrSvc (c : Cpu) (i : Reg) (v : Word) : (c.setX i v).spsrSvc = c.spsrSvc := by
  unfold Cpu.setX; split <;> rfl
@[simp] theorem Cpu.setX_spsrAbt (c : Cpu) (i : Reg) (v : Word) : (c.setX i v).spsrAbt = c.spsrAbt := by
  unfold Cpu.setX; split <;> rfl
@[simp] theorem Cpu.setX_spsrUnd (c : Cpu) (i : Reg) (v : Word) : (c.setX i v).spsrUnd = c.spsrUnd := by
  unfold Cpu.setX; split <;> rfl
@[simp] theorem Cpu.setX_fetchType (c : Cpu) (i : Reg) (v : Word) : (c.setX i v).fetchType = c.fetchType := by
  unfold Cpu.setX; split <;> rfl
@[simp] theorem Cpu.setX_executing (c : Cpu) (i : Reg) (v : Word) : (c.setX i v).executing = c.executing := by
  unfold Cpu.setX; split <;> rfl
@[simp] theorem Cpu.setX_decoding (c : Cpu) (i : Reg) (v : Word) : (c.setX i v).decoding = c.decoding := by
  unfold Cpu.setX; split <;> rfl
@[simp] theorem Cpu.setX_ubankHazard (c : Cpu) (i : Reg) (v : Word) : (c.setX i v).ubankHazard = c.ubankHazard := by
  unfold Cpu.setX; split <;> rfl
@[simp] theorem State.setX_dev (s : State) (i : Reg) (v : Word) : (s.setX i v).dev = s.dev := rfl
@[simp] theorem State.setX_mem (s : State) (i : Reg) (v : Word) : (s.setX i v).mem = s.mem := rfl
@[simp] theorem State.setX_draws (s : State) (i : Reg) (v : Word) : (s.setX i v).draws = s.draws := rfl
@[simp] theorem State.setX_pc (s : State) (i : Reg) (v : Word) : (s.setX i v).cpu.pc = s.cpu.pc := Cpu.setX_pc _ _ _
@[simp] theorem State.setX_cpsr (s : State) (i : Reg) (v : Word) : (s.setX i v).cpu.cpsr = s.cpu.cpsr := Cpu.setX_cpsr _ _ _
@[simp] theorem State.setX_spsrFiq (s : State) (i : Reg) (v : Word) : (s.setX i v).cpu.spsrFiq = s.cpu.spsrFiq := Cpu.setX_spsrFiq _ _ _
@[simp] theorem State.setX_spsrIrq (s : State) (i : Reg) (v : Word) : (s.setX i v).cpu.spsrIrq = s.cpu.spsrIrq := Cpu.setX_spsrIrq _ _ _
@[simp] theorem State.setX_spsrSvc (s : State) (i : Reg) (v : Word) : (s.setX i v).cpu.spsrSvc = s.cpu.spsrSvc := Cpu.setX_spsrSvc _ _ _
@[simp] theorem State.setX_spsrAbt (s : State) (i : Reg) (v : Word) : (s.setX i v).cpu.spsrAbt = s.cpu.spsrAbt := Cpu.setX_spsrAbt _ _ _
@[simp] theorem State.setX_spsrUnd (s : State) (i : Reg) (v : Word) : (s.setX i v).cpu.spsrUnd = s.cpu.spsrUnd := Cpu.setX_spsrUnd _ _ _
@[simp] theorem State.setX_fetchType (s : State) (i : Reg) (v : Word) : (s.setX i v).cpu.fetchType = s.cpu.fetchType := Cpu.setX_fetchType _ _ _
@[simp] theorem State.setX_executing (s : State) (i : Reg) (v : Word) : (s.setX i v).cpu.executing = s.cpu.executing := Cpu.setX_executing _ _ _
@[simp] theorem State.setX_decoding (s : State) (i : Reg) (v : Word) : (s.setX i v).cpu.decoding = s.cpu.decoding := Cpu.setX_decoding _ _ _
@[simp] theorem State.setX_ubankHazard (s : State) (i : Reg) (v : Word) : (s.setX i v).cpu.ubankHazard = s.cpu.ubankHazard := Cpu.setX_ubankHazard _ _ _
@[simp] theorem State.setXUsr_dev (s : State) (i : Reg) (v : Word) : (s.setXUsr i v).dev = s.dev := rfl
@[simp] theorem State.setXUsr_mem (s : State) (i : Reg) (v : Word) : (s.setXUsr i v).mem = s.mem := rfl
@[simp] theorem State.setXUsr_draws (s : State) (i : Reg) (v : Word) : (s.setXUsr i v).draws = s.draws := rfl
@[simp] theorem State.setXUsr_pc (s : State) (i : Reg) (v : Word) : (s.setXUsr i v).cpu.pc = s.cpu.pc := by
  unfold State.setXUsr; dsimp only; split <;> rfl
@[simp] theorem State.setXUsr_cpsr (s : State) (i : Reg) (v : Word) : (s.setXUsr i v).cpu.cpsr = s.cpu.cpsr := by
  unfold State.setXUsr; dsimp only; split <;> rfl
@[simp] theorem State.setXUsr_spsrFiq (s : State) (i : Reg) (v : Word) : (s.setXUsr i v).cpu.spsrFiq = s.cpu.spsrFiq := by
  unfold State.setXUsr; dsimp only; split <;> rfl
@[simp] theorem State.setXUsr_spsrIrq (s : State) (i : Reg) (v : Word) : (s.setXUsr i v).cpu.spsrIrq = s.cpu.spsrIrq := by
  unfold State.setXUsr; dsimp only; split <;> rfl
@[simp] theorem State.setXUsr_spsrSvc (s : State) (i : Reg) (v : Word) : (s.setXUsr i v).cpu.spsrSvc = s.cpu.spsrSvc := by
  unfold State.setXUsr; dsimp only; split <;> rfl
@[simp] theorem State.setXUsr_spsrAbt (s : State) (i : Reg) (v : Word) : (s.setXUsr i v).cpu.spsrAbt = s.cpu.spsrAbt := by
  unfold State.setXUsr; dsimp only; split <;> rfl
@[simp] theorem State.setXUsr_spsrUnd (s : State) (i : Reg) (v : Word) : (s.setXUsr i v).cpu.spsrUnd = s.cpu.spsrUnd := by
  unfold State.setXUsr; dsimp only; split <;> rfl
@[simp] theorem State.setXUsr_fetchType (s : State) (i : Reg) (v : Word) : (s.setXUsr i v).cpu.fetchType = s.cpu.fetchType := by
  unfold State.setXUsr; dsimp only; split <;> rfl
@[simp] theorem State.setXUsr_executing (s : State) (i : Reg) (v : Word) : (s.setXUsr i v).cpu.executing = s.cpu.executing := by
  unfold State.setXUsr; dsimp only; split <;> rfl
@[simp] theorem State.setXUsr_decoding (s : State) (i : Reg) (v : Word) : (s.setXUsr i v).cpu.decoding = s.cpu.decoding := by
  unfold State.setXUsr; dsimp only; split <;> rfl
@[simp] theorem State.setXUsr_ubankHazard (s : State) (i : Reg) (v : Word) : (s.setXUsr i v).cpu.ubankHazard = s.cpu.ubankHazard := by
  unfold State.setXUsr; dsimp only; split <;> rfl

/-! ## setCpsr -/

@[simp] theorem State.setCpsr_dev (s : State) (p : Cpsr) : (s.setCpsr p).dev = s.dev := rfl
@[simp] theorem State.setCpsr_mem (s : State) (p : Cpsr) : (s.setCpsr p).mem = s.mem := rfl
@[simp] theorem State.setCpsr_draws (s : State) (p : Cpsr) : (s.setCpsr p).draws = s.draws := rfl
@[simp] theorem State.setCpsr_regs (s : State) (p : Cpsr) : (s.setCpsr p).cpu.regs = s.cpu.regs := rfl
@[simp] theorem State.setCpsr_pc (s : State) (p : Cpsr) : (s.setCpsr p).cpu.pc = s.cpu.pc := rfl
@[simp] theorem State.setCpsr_spsrFiq (s : State) (p : Cpsr) : (s.setCpsr p).cpu.spsrFiq = s.cpu.spsrFiq := rfl
@[simp] theorem State.setCpsr_spsrIrq (s : State) (p : Cpsr) : (s.setCpsr p).cpu.spsrIrq = s.cpu.spsrIrq := rfl
@[simp] theorem State.setCpsr_spsrSvc (s : State) (p : Cpsr) : (s.setCpsr p).cpu.spsrSvc = s.cpu.spsrSvc := rfl
@[simp] theorem State.setCpsr_spsrAbt (s : State) (p : Cpsr) : (s.setCpsr p).cpu.spsrAbt = s.cpu.spsrAbt := rfl
@[simp] theorem State.setCpsr_spsrUnd (s : State) (p : Cpsr) : (s.setCpsr p).cpu.spsrUnd = s.cpu.spsrUnd := rfl
@[simp] theorem State.setCpsr_fetchType (s : State) (p : Cpsr) : (s.setCpsr p).cpu.fetchType = s.cpu.fetchType := rfl
@[simp] theorem State.setCpsr_executing (s : State) (p : Cpsr) : (s.setCpsr p).cpu.executing = s.cpu.executing := rfl
@[simp] theorem State.setCpsr_decoding (s : State) (p : Cpsr) : (s.setCpsr p).cpu.decoding = s.cpu.decoding := rfl
@[simp] theorem State.setCpsr_ubankHazard (s : State) (p : Cpsr) : (s.setCpsr p).cpu.ubankHazard = s.cpu.ubankHazard := rfl
@[simp] theorem State.setCpsr_cpsr (s : State) (p : Cpsr) : (s.setCpsr p).cpu.cpsr = p := rfl

/-! ## setFlags -/

@[simp] theorem State.setFlags_dev (s : State) (n z c v : Bool) : (s.setFlags n z c v).dev = s.dev := rfl
@[simp] theorem State.setFlags_mem (s : State) (n z c v : Bool) : (s.setFlags n z c v).mem = s.mem := rfl
@[simp] theorem State.setFlags_draws (s : State) (n z c v : Bool) : (s.setFlags n z c v).draws = s.draws := rfl
@[simp] theorem State.setFlags_regs (s : State) (n z c v : Bool) : (s.setFlags n z c v).cpu.regs = s.cpu.regs := rfl
@[simp] theorem State.setFlags_pc (s : State) (n z c v : Bool) : (s.setFlags n z c v).cpu.pc = s.cpu.pc := rfl
@[simp] theorem State.setFlags_spsrFiq (s : State) (n z c v : Bool) : (s.setFlags n z c v).cpu.spsrFiq = s.cpu.spsrFiq := rfl
@[simp] theorem State.setFlags_spsrIrq (s : State) (n z c v : Bool) : (s.setFlags n z c v).cpu.spsrIrq = s.cpu.spsrIrq := rfl
@[simp] theorem State.setFlags_spsrSvc (s : State) (n z c v : Bool) : (s.setFlags n z c v).cpu.spsrSvc = s.cpu.spsrSvc := rfl
@[simp] theorem State.setFlags_spsrAbt (s : State) (n z c v : Bool) : (s.setFlags n z c v).cpu.spsrAbt = s.cpu.spsrAbt := rfl
@[simp] theorem State.setFlags_spsrUnd (s : State) (n z c v : Bool) : (s.setFlags n z c v).cpu.spsrUnd = s.cpu.spsrUnd := rfl
@[simp] theorem State.setFlags_fetchType (s : State) (n z c v : Bool) : (s.setFlags n z c v).cpu.fetchType = s.cpu.fetchType := rfl
@[simp] theorem State.setFlags_executing (s : State) (n z c v : Bool) : (s.setFlags n z c v).cpu.executing = s.cpu.executing := rfl
@[simp] theorem State.setFlags_decoding (s : State) (n z c v : Bool) : (s.setFlags n z c v).cpu.decoding = s.cpu.decoding := rfl
@[simp] theorem State.setFlags_ubankHazard (s : State) (n z c v : Bool) : (s.setFlags n z c v).cpu.ubankHazard = s.cpu.ubankHazard := rfl
@[simp] theorem State.setFlags_cpsr (s : State) (n z c v : Bool) :
    (s.setFlags n z c v).cpu.cpsr = { s.cpu.cpsr with n := n, z := z, c := c, v := v } := rfl

/-! ## setFetch -/

@[simp] theorem State.setFetch_dev (s : State) (acc : AccessClass) : (s.setFetch acc).dev = s.dev := rfl
@[simp] theorem State.setFetch_mem (s : State) (acc : AccessClass) : (s.setFetch acc).mem = s.mem := rfl
@[simp] theorem State.setFetch_draws (s : State) (acc : AccessClass) : (s.setFetch acc).draws = s.draws := rfl
@[simp] theorem State.setFetch_regs (s : State) (acc : AccessClass) : (s.setFetch acc).cpu.regs = s.cpu.regs := rfl
@[simp] theorem State.setFetch_pc (s : State) (acc : AccessClass) : (s.setFetch acc).cpu.pc = s.cpu.pc := rfl
@[simp] theorem State.setFetch_cpsr (s : State) (acc : AccessClass) : (s.setFetch acc).cpu.cpsr = s.cpu.cpsr := rfl
@[simp] theorem State.setFetch_spsrFiq (s : State) (acc : AccessClass) : (s.setFetch acc).cpu.spsrFiq = s.cpu.spsrFiq := rfl
@[simp] theorem State.setFetch_spsrIrq (s : State) (acc : AccessClass) : (s.setFetch acc).cpu.spsrIrq = s.cpu.spsrIrq := rfl
@[simp] theorem State.setFetch_spsrSvc (s : State) (acc : AccessClass) : (s.setFetch acc).cpu.spsrSvc = s.cpu.spsrSvc := rfl
@[simp] theorem State.setFetch_spsrAbt (s : State) (acc : AccessClass) : (s.setFetch acc).cpu.spsrAbt = s.cpu.spsrAbt := rfl
@[simp] theorem State.setFetch_spsrUnd (s : State) (acc : AccessClass) : (s.setFetch acc).cpu.spsrUnd = s.cpu.spsrUnd := rfl
@[simp] theorem State.setFetch_executing (s : State) (acc : AccessClass) : (s.setFetch acc).cpu.executing = s.cpu.executing := rfl
@[simp] theorem State.setFetch_decoding (s : State) (acc : AccessClass) : (s.setFetch acc).cpu.decoding = s.cpu.decoding := rfl
@[simp] theorem State.setFetch_ubankHazard (s : State) (acc : AccessClass) : (s.setFetch acc).cpu.ubankHazard = s.cpu.ubankHazard := rfl
@[simp] theorem State.setFetch_fetchType (s : State) (acc : AccessClass) : (s.setFetch acc).cpu.fetchType = acc := rfl

/-! ## advancePc -/

@[simp] theorem State.advancePc_dev (s : State) : (s.advancePc).dev = s.dev := rfl
@[simp] theorem State.advancePc_mem (s : State) : (s.advancePc).mem = s.mem := rfl
@[simp] theorem State.advancePc_draws (s : State) : (s.advancePc).draws = s.draws := rfl
@[simp] theorem State.advancePc_regs (s : State) : (s.advancePc).cpu.regs = s.cpu.regs := rfl
@[simp] theorem State.advancePc_cpsr (s : State) : (s.advancePc).cpu.cpsr = s.cpu.cpsr := rfl
@[simp] theorem State.advancePc_spsrFiq (s : State) : (s.advancePc).cpu.spsrFiq = s.cpu.spsrFiq := rfl
@[simp] theorem State.advancePc_spsrIrq (s : State) : (s.advancePc).cpu.spsrIrq = s.cpu.spsrIrq := rfl
@[simp] theorem State.advancePc_spsrSvc (s : State) : (s.advancePc).cpu.spsrSvc = s.cpu.spsrSvc := rfl
@[simp] theorem State.advancePc_spsrAbt (s : State) : (s.advancePc).cpu.spsrAbt = s.cpu.spsrAbt := rfl
@[simp] theorem State.advancePc_spsrUnd (s : State) : (s.advancePc).cpu.spsrUnd = s.cpu.spsrUnd := rfl
@[simp] theorem State.advancePc_fetchType (s : State) : (s.advancePc).cpu.fetchType = s.cpu.fetchType := rfl
@[simp] theorem State.advancePc_executing (s : State) : (s.advancePc).cpu.executing = s.cpu.executing := rfl
@[simp] theorem State.advancePc_decoding (s : State) : (s.advancePc).cpu.decoding = s.cpu.decoding := rfl
@[simp] theorem State.advancePc_ubankHazard (s : State) : (s.advancePc).cpu.ubankHazard = s.cpu.ubankHazard := rfl
@[simp] theorem State.advancePc_pc (s : State) : s.advancePc.cpu.pc = s.cpu.pc + s.cpu.w := rfl

/-! ## setHazard -/

@[simp] theorem State.setHazard_dev (s : State) (b : Bool) : (s.setHazard b).dev = s.dev := rfl
@[simp] theorem State.setHazard_mem (s : State) (b : Bool) : (s.setHazard b).mem = s.mem := rfl
@[simp] theorem State.setHazard_draws (s : State) (b : Bool) : (s.setHazard b).draws = s.draws := rfl
@[simp] theorem State.setHazard_regs (s : State) (b : Bool) : (s.setHazard b).cpu.regs = s.cpu.regs := rfl
@[simp] theorem State.setHazard_pc (s : State) (b : Bool) : (s.setHazard b).cpu.pc = s.cpu.pc := rfl
@[simp] theorem State.setHazard_cpsr (s : State) (b : Bool) : (s.setHazard b).cpu.cpsr = s.cpu.cpsr := rfl
@[simp] theorem State.setHazard_spsrFiq (s : State) (b : Bool) : (s.setHazard b).cpu.spsrFiq = s.cpu.spsrFiq := rfl
@[simp] theorem State.setHazard_spsrIrq (s : State) (b : Bool) : (s.setHazard b).cpu.spsrIrq = s.cpu.spsrIrq := rfl
@[simp] theorem State.setHazard_spsrSvc (s : State) (b : Bool) : (s.setHazard b).cpu.spsrSvc = s.cpu.spsrSvc := rfl
@[simp] theorem State.setHazard_spsrAbt (s : State) (b : Bool) : (s.setHazard b).cpu.spsrAbt = s.cpu.spsrAbt := rfl
@[simp] theorem State.setHazard_spsrUnd (s : State) (b : Bool) : (s.setHazard b).cpu.spsrUnd = s.cpu.spsrUnd := rfl
@[simp] theorem State.setHazard_fetchType (s : State) (b : Bool) : (s.setHazard b).cpu.fetchType = s.cpu.fetchType := rfl
@[simp] theorem State.setHazard_executing (s : State) (b : Bool) : (s.setHazard b).cpu.executing = s.cpu.executing := rfl
@[simp] theorem State.setHazard_decoding (s : State) (b : Bool) : (s.setHazard b).cpu.decoding = s.cpu.decoding := rfl
@[simp] theorem State.setHazard_ubankHazard (s : State) (b : Bool) : (s.setHazard b).cpu.ubankHazard = b := rfl

/-! ## skip -/

@[simp] theorem State.skip_dev (s : State) : (s.skip).dev = s.dev := rfl
@[simp] theorem State.skip_mem (s : State) : (s.skip).mem = s.mem := rfl
@[simp] theorem State.skip_draws (s : State) : (s.skip).draws = s.draws := rfl
@[simp] theorem State.skip_regs (s : State) : (s.skip).cpu.regs = s.cpu.regs := rfl
@[simp] theorem State.skip_cpsr (s : State) : (s.skip).cpu.cpsr = s.cpu.cpsr := rfl
@[simp] theorem State.skip_spsrFiq (s : State) : (s.skip).cpu.spsrFiq = s.cpu.spsrFiq := rfl
@[simp] theorem State.skip_spsrIrq (s : State) : (s.skip).cpu.spsrIrq = s.cpu.spsrIrq := rfl
@[simp] theorem State.skip_spsrSvc (s : State) : (s.skip).cpu.spsrSvc = s.cpu.spsrSvc := rfl
@[simp] theorem State.skip_spsrAbt (s : State) : (s.skip).cpu.spsrAbt = s.cpu.spsrAbt := rfl
@[simp] theorem State.skip_spsrUnd (s : State) : (s.skip).cpu.spsrUnd = s.cpu.spsrUnd := rfl
@[simp] theorem State.skip_executing (s : State) : (s.skip).cpu.executing = s.cpu.executing := rfl
@[simp] theorem State.skip_decoding (s : State) : (s.skip).cpu.decoding = s.cpu.decoding := rfl
@[simp] theorem State.skip_pc (s : State) : s.skip.cpu.pc = s.cpu.pc + 4 := rfl
@[simp] theorem State.skip_fetchType (s : State) : s.skip.cpu.fetchType = .nonseq := rfl
@[simp] theorem State.skip_ubankHazard (s : State) : s.skip.cpu.ubankHazard = false := rfl

/-! ## endData -/

@[simp] theorem State.endData_dev (s : State) : (s.endData).dev = s.dev := rfl
@[simp] theorem State.endData_mem (s : State) : (s.endData).mem = s.mem := rfl
@[simp] theorem State.endData_draws (s : State) : (s.endData).draws = s.draws := rfl
@[simp] theorem State.endData_regs (s : State) : (s.endData).cpu.regs = s.cpu.regs := rfl
@[simp] theorem State.endData_cpsr (s : State) : (s.endData).cpu.cpsr = s.cpu.cpsr := rfl
@[simp] theorem State.endData_spsrFiq (s : State) : (s.endData).cpu.spsrFiq = s.cpu.spsrFiq := rfl
@[simp] theorem State.endData_spsrIrq (s : State) : (s.endData).cpu.spsrIrq = s.cpu.spsrIrq := rfl
@[simp] theorem State.endData_spsrSvc (s : State) : (s.endData).cpu.spsrSvc = s.cpu.spsrSvc := rfl
@[simp] theorem State.endData_spsrAbt (s : State) : (s.endData).cpu.spsrAbt = s.cpu.spsrAbt := rfl
@[simp] theorem State.endData_spsrUnd (s : State) : (s.endData).cpu.spsrUnd = s.cpu.spsrUnd := rfl
@[simp] theorem State.endData_executing (s : State) : (s.endData).cpu.executing = s.cpu.executing := rfl
@[simp] theorem State.endData_decoding (s : State) : (s.endData).cpu.decoding = s.cpu.decoding := rfl
@[simp] theorem State.endData_ubankHazard (s : State) : (s.endData).cpu.ubankHazard = s.cpu.ubankHazard := rfl
@[simp] theorem State.endData_pc (s : State) : s.endData.cpu.pc = s.cpu.pc + s.cpu.w := rfl
@[simp] theorem State.endData_fetchType (s : State) : s.endData.cpu.fetchType = .nonseq := rfl

/-! ## setAluFlags -/

@[simp] theorem State.setAluFlags_dev (s : State) (o : AluOut) : (s.setAluFlags o).dev = s.dev := rfl
@[simp] theorem State.setAluFlags_mem (s : State) (o : AluOut) : (s.setAluFlags o).mem = s.mem := rfl
@[simp] theorem State.setAluFlags_draws (s : State) (o : AluOut) : (s.setAluFlags o).draws = s.draws := rfl
@[simp] theorem State.setAluFlags_regs (s : State) (o : AluOut) : (s.setAluFlags o).cpu.regs = s.cpu.regs := rfl
@[simp] theorem State.setAluFlags_pc (s : State) (o : AluOut) : (s.setAluFlags o).cpu.pc = s.cpu.pc := rfl
@[simp] theorem State.setAluFlags_spsrFiq (s : State) (o : AluOut) : (s.setAluFlags o).cpu.spsrFiq = s.cpu.spsrFiq := rfl
@[simp] theorem State.setAluFlags_spsrIrq (s : State) (o : AluOut) : (s.setAluFlags o).cpu.spsrIrq = s.cpu.spsrIrq := rfl
@[simp] theorem State.setAluFlags_spsrSvc (s : State) (o : AluOut) : (s.setAluFlags o).cpu.spsrSvc = s.cpu.spsrSvc := rfl
@[simp] theorem State.setAluFlags_spsrAbt (s : State) (o : AluOut) : (s.setAluFlags o).cpu.spsrAbt = s.cpu.spsrAbt := rfl
@[simp] theorem State.setAluFlags_spsrUnd (s : State) (o : AluOut) : (s.setAluFlags o).cpu.spsrUnd = s.cpu.spsrUnd := rfl
@[simp] theorem State.setAluFlags_fetchType (s : State) (o : AluOut) : (s.setAluFlags o).cpu.fetchType = s.cpu.fetchType := rfl
@[simp] theorem State.setAluFlags_executing (s : State) (o : AluOut) : (s.setAluFlags o).cpu.executing = s.cpu.executing := rfl
@[simp] theorem State.setAluFlags_decoding (s : State) (o : AluOut) : (s.setAluFlags o).cpu.decoding = s.cpu.decoding := rfl
@[simp] theorem State.setAluFlags_ubankHazard (s : State) (o : AluOut) : (s.setAluFlags o).cpu.ubankHazard = s.cpu.ubankHazard := rfl
@[simp] theorem State.setAluFlags_cpsr (s : State) (o : AluOut) : (s.setAluFlags o).cpu.cpsr =
    { s.cpu.cpsr with n := o.r.getLsbD 31, z := o.r == 0, c := o.c, v := o.v } := rfl

/-! ## Idle cycles: only the devices change -/

@[simp] theorem State.idle_cpu (s : State) : s.idle.cpu = s.cpu := rfl
@[simp] theorem State.idle_mem (s : State) : s.idle.mem = s.mem := rfl
@[simp] theorem State.idle_draws (s : State) : s.idle.draws = s.draws := rfl
@[simp] theorem State.idles_cpu (n : Nat) (s : State) : (s.idles n).cpu = s.cpu := by
  induction n generalizing s with
  | zero => rfl
  | succ n ih => exact ih s.idle
@[simp] theorem State.idles_mem (n : Nat) (s : State) : (s.idles n).mem = s.mem := by
  induction n generalizing s with
  | zero => rfl
  | succ n ih => exact ih s.idle
@[simp] theorem State.idles_draws (n : Nat) (s : State) : (s.idles n).draws = s.draws := by
  induction n generalizing s with
  | zero => rfl
  | succ n ih => exact ih s.idle

/-! ## Reading registers after an update -/

@[simp] theorem Cpu.x_pc (c : Cpu) : c.x pcReg = c.pc := if_pos rfl

theorem Cpu.x_of_ne (c : Cpu) {i : Reg} (h : i ≠ pcReg) : c.x i = c.regs.get (physIndex i c.cpsr.mode) := if_neg h

/-- The register map of one mode sends different registers to different places (10_state.md R34). -/
theorem physIndex_inj : ∀ m : Mode, ∀ i j : Reg, i ≠ pcReg → j ≠ pcReg → physIndex i m = physIndex j m → i = j := by
  intro m; cases m <;> decide

@[simp] theorem State.setX_x_same (s : State) {i : Reg} (v : Word) (h : i ≠ pcReg) : (s.setX i v).x i = v := by
  unfold State.x
  rw [Cpu.x_of_ne _ h]
  simp only [State.setX, Cpu.setX, h, if_false]
  exact vector_get_set_self _ _ _

theorem State.setX_x_ne (s : State) {i j : Reg} (v : Word) (h : j ≠ i) : (s.setX i v).x j = s.x j := by
  unfold State.x State.setX Cpu.setX
  by_cases hi : i = pcReg
  · simp [hi]
  by_cases hj : j = pcReg
  · subst hj; simp [hi, Cpu.x]
  · simp only [hi, if_false]
    rw [Cpu.x_of_ne _ hj, Cpu.x_of_ne _ hj]
    have : (physIndex i s.cpu.cpsr.mode) ≠ (physIndex j s.cpu.cpsr.mode) :=
      fun e => h (physIndex_inj _ _ _ hi hj e).symm
    exact vector_get_set_ne _ _ this

/-- A register write reaches the place the register map names, and no other (R34). -/
theorem State.setX_regs_get_ne (s : State) (i : Reg) (v : Word) (k : Fin 30)
    (h : k ≠ physIndex i s.cpu.cpsr.mode) : (s.setX i v).cpu.regs.get k = s.cpu.regs.get k := by
  unfold State.setX Cpu.setX
  split
  · rfl
  · exact vector_get_set_ne _ _ (Ne.symm h)

@[simp] theorem Cpu.w_setX (c : Cpu) (i : Reg) (v : Word) : (c.setX i v).w = c.w := by simp [Cpu.w]
@[simp] theorem State.setX_w (s : State) (i : Reg) (v : Word) : (s.setX i v).cpu.w = s.cpu.w := by simp [Cpu.w]

/-! ## The bus leaves the CPU alone -/

@[simp] theorem State.memRead_cpu (s : State) (k : AccessKind) (a : Word) (w : Width) (acc : AccessClass) :
    (s.memRead k a w acc).2.cpu = s.cpu := rfl
@[simp] theorem State.memRead_mem (s : State) (k : AccessKind) (a : Word) (w : Width) (acc : AccessClass) :
    (s.memRead k a w acc).2.mem = s.mem := rfl
@[simp] theorem State.memRead_dev (s : State) (k : AccessKind) (a : Word) (w : Width) (acc : AccessClass) :
    (s.memRead k a w acc).2.dev = s.dev.passAccess k (alignAddr a w).toNat w acc := rfl

theorem State.poke_cpu {s t : State} {a : Nat} {w : Width} {v : Word} (h : s.poke a w v = .next t) :
    t.cpu = s.cpu ∧ t.draws = s.draws := by
  unfold State.poke at h
  split at h
  · unfold andThen at h
    split at h <;> simp at h
    subst h; exact ⟨rfl, rfl⟩
  · simp at h; subst h; exact ⟨rfl, rfl⟩
  · simp at h; subst h; exact ⟨rfl, rfl⟩
  · simp at h; subst h; exact ⟨rfl, rfl⟩

theorem State.memWrite_cpu {s t : State} {a v : Word} {w : Width} {acc : AccessClass}
    (h : s.memWrite a w v acc = .next t) : t.cpu = s.cpu ∧ t.draws = s.draws :=
  State.poke_cpu (s := s.passAccess .data a w acc) h

/-! ## The flush -/

@[simp] theorem State.refill_pc (s : State) (a : Word) (w : Width) (d : Word) :
    (s.refill a w d).cpu.pc = a + d + d := rfl
@[simp] theorem State.refill_mem (s : State) (a : Word) (w : Width) (d : Word) : (s.refill a w d).mem = s.mem := rfl
@[simp] theorem State.refill_regs (s : State) (a : Word) (w : Width) (d : Word) :
    (s.refill a w d).cpu.regs = s.cpu.regs := rfl
@[simp] theorem State.refill_cpsr (s : State) (a : Word) (w : Width) (d : Word) :
    (s.refill a w d).cpu.cpsr = s.cpu.cpsr := rfl

@[simp] theorem State.branchTo_regs (s : State) (a : Word) : (s.branchTo a).cpu.regs = s.cpu.regs := by
  unfold State.branchTo; split <;> rfl
@[simp] theorem State.branchTo_cpsr (s : State) (a : Word) : (s.branchTo a).cpu.cpsr = s.cpu.cpsr := by
  unfold State.branchTo; split <;> rfl
@[simp] theorem State.branchTo_spsrFiq (s : State) (a : Word) : (s.branchTo a).cpu.spsrFiq = s.cpu.spsrFiq := by
  unfold State.branchTo; split <;> rfl
@[simp] theorem State.branchTo_spsrIrq (s : State) (a : Word) : (s.branchTo a).cpu.spsrIrq = s.cpu.spsrIrq := by
  unfold State.branchTo; split <;> rfl
@[simp] theorem State.branchTo_spsrSvc (s : State) (a : Word) : (s.branchTo a).cpu.spsrSvc = s.cpu.spsrSvc := by
  unfold State.branchTo; split <;> rfl
@[simp] theorem State.branchTo_spsrAbt (s : State) (a : Word) : (s.branchTo a).cpu.spsrAbt = s.cpu.spsrAbt := by
  unfold State.branchTo; split <;> rfl
@[simp] theorem State.branchTo_spsrUnd (s : State) (a : Word) : (s.branchTo a).cpu.spsrUnd = s.cpu.spsrUnd := by
  unfold State.branchTo; split <;> rfl
@[simp] theorem State.branchTo_ubankHazard (s : State) (a : Word) : (s.branchTo a).cpu.ubankHazard = s.cpu.ubankHazard := by
  unfold State.branchTo; split <;> rfl
@[simp] theorem State.branchTo_mem (s : State) (a : Word) : (s.branchTo a).mem = s.mem := by
  unfold State.branchTo; split <;> rfl
@[simp] theorem State.branchTo_fetchType (s : State) (a : Word) : (s.branchTo a).cpu.fetchType = .seq := by
  unfold State.branchTo; split <;> rfl
theorem State.branchTo_pc (s : State) (a : Word) : (s.branchTo a).cpu.pc =
    if s.cpu.cpsr.t then alignAddr a .half + 2 + 2 else alignAddr a .word + 4 + 4 := by
  unfold State.branchTo; split <;> rfl

end Sys2Proof.Machine
end

