-- ==== Sys2Proof/Laws/Flow.lean ====
section
/-!
SUPPORT. What a flush does (10_state.md R45) and what taking an exception does (60_exceptions.md R503), in the words
of Sys2Proof/Safety.lean.
-/
namespace Sys2Proof.Machine
open Sys2Proof

@[simp] theorem Cpu.opcodeWidth_setX (c : Cpu) (i : Reg) (v : Word) : (c.setX i v).opcodeWidth = c.opcodeWidth := by
  simp [Cpu.opcodeWidth]

theorem State.refill_flushed {s : State} (target : Word) {w : Width} {d : Word}
    (hw : s.cpu.opcodeWidth = w) (hd : s.cpu.w = d) (hb : d.toNat = w.bytes)
    (hz : s.cpu.ubankHazard = false) : Flushed s.dev s.mem target (s.refill (alignAddr target w) w d) := by
  have h1 : (s.refill (alignAddr target w) w d).cpu.opcodeWidth = w := hw
  have h2 : (s.refill (alignAddr target w) w d).cpu.w = d := hd
  have h3 : alignAddr (alignAddr target w + d) w = alignAddr target w + d := by
    apply alignAddr_of_mod
    have := alignAddr_mod target w
    rw [BitVec.toNat_add, hb]
    have hl := (alignAddr target w).isLt
    cases w <;> simp only [Width.bytes] at * <;> omega
  refine ⟨?_, rfl, fun b hs => ?_, fun b hs => ?_, ?_, rfl, hz⟩
  · rw [h1, h2]; rfl
  · rw [h1] at hs ⊢
    exact State.memRead_served (by rwa [alignAddr_idem])
  · rw [h1, h2] at hs
    rw [h1]
    exact (State.memRead_served (s := (s.memRead .opcode (alignAddr target w) w .nonseq).2) (by rwa [h3])).trans rfl
  · rw [h1, h2]
    show (s.dev.passAccess .opcode (alignAddr (alignAddr target w) w).toNat w .nonseq).passAccess .opcode
      (alignAddr (alignAddr target w + d) w).toNat w .seq = _
    rw [alignAddr_idem, h3]

/-- A branch is a flush at its target (10_state.md R45). -/
theorem State.branchTo_flushed {s : State} (target : Word) (hz : s.cpu.ubankHazard = false) :
    Flushed s.dev s.mem target (s.branchTo target) := by
  unfold State.branchTo
  split
  · rename_i ht
    exact State.refill_flushed target (by simp [Cpu.opcodeWidth, ht]) (by simp [Cpu.w, ht]) rfl hz
  · rename_i ht
    exact State.refill_flushed target (by simp [Cpu.opcodeWidth, ht]) (by simp [Cpu.w, ht]) rfl hz

theorem Cpu.setSpsr_spsr {c : Cpu} {m : Mode} (p : Spsr) (hm : m ≠ .usr ∧ m ≠ .sys) :
    (c.setSpsr m p).spsr m = some p := by
  cases m <;> simp_all [Cpu.setSpsr, Cpu.spsr]

theorem Cpu.setSpsr_spsr_ne {c : Cpu} {m k : Mode} (p : Spsr) (h : k ≠ m) :
    (c.setSpsr m p).spsr k = c.spsr k := by
  cases m <;> cases k <;> simp_all [Cpu.setSpsr, Cpu.spsr]

@[simp] theorem Cpu.setX_spsr (c : Cpu) (i : Reg) (v : Word) (m : Mode) : (c.setX i v).spsr m = c.spsr m := by
  cases m <;> simp [Cpu.spsr]

@[simp] theorem State.setX_spsr (s : State) (i : Reg) (v : Word) (m : Mode) :
    (s.setX i v).cpu.spsr m = s.cpu.spsr m := Cpu.setX_spsr _ _ _ _

@[simp] theorem State.branchTo_spsr (s : State) (a : Word) (m : Mode) :
    (s.branchTo a).cpu.spsr m = s.cpu.spsr m := by
  cases m <;> simp [Cpu.spsr]

theorem Cpu.setSpsr_same (c : Cpu) (m : Mode) (p : Spsr) : (c.setSpsr m p).regs = c.regs ∧
    (c.setSpsr m p).cpsr = c.cpsr ∧ (c.setSpsr m p).pc = c.pc ∧ (c.setSpsr m p).ubankHazard = c.ubankHazard ∧
    (c.setSpsr m p).fetchType = c.fetchType ∧ (c.setSpsr m p).executing = c.executing ∧
    (c.setSpsr m p).decoding = c.decoding := by
  cases m <;> exact ⟨rfl, rfl, rfl, rfl, rfl, rfl, rfl⟩

/-- Taking an exception has the effect R503 gives it. -/
theorem State.enterException_entered {s : State} {m : Mode} (vector lr : Word) (hm : m ≠ .usr ∧ m ≠ .sys)
    (hz : s.cpu.ubankHazard = false) : Entered s s.dev m vector lr (s.enterException m vector lr) := by
  have hne : lrReg ≠ pcReg := by decide
  have e := Cpu.setSpsr_same (s.setCpsr { s.cpu.cpsr with mode := m }).cpu m s.cpu.cpsr.save
  constructor
  · simp only [State.enterException, State.branchTo_cpsr, State.setCpsr_cpsr, State.setX_cpsr]
    rw [e.2.1]; rfl
  · simp only [State.enterException, State.branchTo_spsr]
    show ((State.setX _ lrReg lr).cpu).spsr m = _
    rw [State.setX_spsr]
    exact Cpu.setSpsr_spsr _ hm
  · unfold State.x Cpu.x
    simp only [hne, if_false, State.enterException, State.branchTo_regs, State.branchTo_cpsr, State.setCpsr_cpsr,
      State.setX_cpsr]
    rw [e.2.1]
    simp [State.setX, Cpu.setX, hne, State.setCpsr]
    exact vector_get_set_self _ _ _
  · obtain ⟨t, ht, hd, hm, hh⟩ : ∃ t : State, s.enterException m vector lr = t.branchTo vector ∧ t.dev = s.dev ∧
        t.mem = s.mem ∧ t.cpu.ubankHazard = false := by
      refine ⟨_, rfl, rfl, rfl, ?_⟩
      simp only [State.setCpsr_ubankHazard, State.setX_ubankHazard]
      exact e.2.2.2.1.trans hz
    rw [ht, ← hd, ← hm]
    exact State.branchTo_flushed vector hh
  · intro j hj
    simp only [State.enterException, State.branchTo_regs, State.setCpsr_regs]
    rw [State.setX_regs_get_ne]
    · exact congrArg (fun r => Vector.get r j) e.1
    · simp only [State.setCpsr_cpsr]; rw [e.2.1]; exact hj
  · intro k hk
    simp only [State.enterException, State.branchTo_spsr]
    show ((State.setX _ lrReg lr).cpu).spsr k = _
    rw [State.setX_spsr]
    exact Cpu.setSpsr_spsr_ne _ hk

end Sys2Proof.Machine
end

