-- ==== Sys2Proof/Laws/Block.lean ====
section
/-!
SUPPORT. What the shared block accesses do (42_arm_loadstore.md R305 to R307).
-/
namespace Sys2Proof.Machine

/-- The address after an aligned word is aligned. -/
theorem alignAddr_add_four {a : Word} (h : alignAddr a .word = a) : alignAddr (a + 4) .word = a + 4 := by
  apply alignAddr_of_mod
  have h1 := alignAddr_mod a .word
  rw [h] at h1
  have := a.isLt
  rw [BitVec.toNat_add]
  simp only [Width.bytes] at *
  show (a.toNat + 4) % 2 ^ 32 % 4 = 0
  omega

theorem addr_succ (a : Word) (k : Nat) : a + 4 + BitVec.ofNat 32 (4 * k) = a + BitVec.ofNat 32 (4 * (k + 1)) := by
  rw [BitVec.add_assoc]
  congr 1
  apply BitVec.eq_of_toNat_eq
  simp [BitVec.toNat_add]
  omega

@[simp] theorem blockAddr_zero (mode : BlockMode) (base : Word) (list : BitVec 16) :
    blockAddr mode base list 0 = alignAddr (blockStart mode base list) .word := by simp [blockAddr]

theorem blockAddr_succ (mode : BlockMode) (base : Word) (list : BitVec 16) (k : Nat) :
    blockAddr mode base list (k + 1) = blockAddr mode base list k + 4 := by
  unfold blockAddr
  rw [← addr_succ, BitVec.add_assoc, BitVec.add_assoc, BitVec.add_comm 4]

/-- The addresses of a block transfer are aligned. -/
theorem blockAddr_aligned (mode : BlockMode) (base : Word) (list : BitVec 16) (k : Nat) :
    alignAddr (blockAddr mode base list k) .word = blockAddr mode base list k := by
  induction k with
  | zero => simp [blockAddr]
  | succ k ih => rw [blockAddr_succ]; exact alignAddr_add_four ih

@[simp] theorem State.afterReads_cpu (s : State) (addr : Nat → Word) (k : Nat) : (s.afterReads addr k).cpu = s.cpu := by
  induction k with
  | zero => rfl
  | succ k ih => exact ih

@[simp] theorem State.afterReads_mem (s : State) (addr : Nat → Word) (k : Nat) : (s.afterReads addr k).mem = s.mem := by
  induction k with
  | zero => rfl
  | succ k ih => exact ih

/-- What a read of a block load finds is what the statements say it finds. -/
theorem State.blockRead_memRead (s : State) {addr : Nat → Word} {k : Nat} (ha : alignAddr (addr k) .word = addr k) :
    s.BlockRead addr k ((s.afterReads addr k).memRead .data (addr k) .word (runClass k)).1 := by
  refine ⟨fun b hb => ?_, fun off ho => ?_⟩
  · rw [State.memRead_served (by rwa [ha]), State.afterReads_mem]
  · rw [State.memRead_io (by rwa [ha])]; rfl

/-- A block read is the reads of its addresses one after the other, with the value each finds (42_arm_loadstore.md R305,
R313). -/
theorem State.readBlock_spec (s : State) {addr : Nat → Word} (ha : ∀ k, alignAddr (addr k) .word = addr k)
    (hs : ∀ k, addr (k + 1) = addr k + 4) (regs : List Reg) (j : Nat) :
    (State.readBlock regs (addr j) (runClass j) (s.afterReads addr j)).2 = s.afterReads addr (j + regs.length) ∧
    (State.readBlock regs (addr j) (runClass j) (s.afterReads addr j)).1.map Prod.fst = regs ∧
    ∀ k r, regs[k]? = some r → ∃ v,
      (State.readBlock regs (addr j) (runClass j) (s.afterReads addr j)).1[k]? = some (r, v) ∧
        s.BlockRead addr (j + k) v := by
  induction regs generalizing j with
  | nil => exact ⟨rfl, rfl, fun k r h => by simp at h⟩
  | cons i rest ih =>
    obtain ⟨h1, h2, h3⟩ := ih (j + 1)
    rw [hs] at h1 h2 h3
    refine ⟨?_, ?_, ?_⟩
    · rw [List.length_cons, ← Nat.add_assoc, Nat.add_right_comm, ← h1]; rfl
    · exact congrArg (i :: ·) h2
    · intro k r hk
      cases k with
      | zero =>
        obtain rfl : i = r := by simpa using hk
        exact ⟨_, rfl, s.blockRead_memRead (ha j)⟩
      | succ k =>
        obtain ⟨v, hv, hr⟩ := h3 k r (by simpa using hk)
        exact ⟨v, hv, by rwa [show j + (k + 1) = j + 1 + k by omega]⟩

/-- Writing loaded values into the visible registers: each of its registers takes its value, no other register
changes, and r15 is left to the flush. -/
theorem State.writeRegs_spec (vs : List (Reg × Word)) (s : State) (hd : (vs.map Prod.fst).Nodup) :
    (∀ p ∈ vs, p.1 ≠ pcReg → (s.writeRegs State.setX vs).x p.1 = p.2) ∧
    (∀ j, (∀ p ∈ vs, p.1 ≠ pcReg → j ≠ s.place p.1) →
      (s.writeRegs State.setX vs).cpu.regs.get j = s.cpu.regs.get j) ∧
    (s.writeRegs State.setX vs).cpu = { s.cpu with regs := (s.writeRegs State.setX vs).cpu.regs } ∧
    (s.writeRegs State.setX vs).dev = s.dev ∧ (s.writeRegs State.setX vs).mem = s.mem := by
  induction vs generalizing s with
  | nil => exact ⟨by simp, fun _ _ => rfl, rfl, rfl, rfl⟩
  | cons p rest ih =>
    obtain ⟨i, v⟩ := p
    simp only [List.map_cons, List.nodup_cons] at hd
    have hset : ∀ t : State, (t.setX i v).cpu = { t.cpu with regs := (t.setX i v).cpu.regs } := by
      intro t; simp only [State.setX, Cpu.setX]; split <;> rfl
    by_cases hi : i = pcReg
    · have e : s.writeRegs State.setX ((i, v) :: rest) = s.writeRegs State.setX rest := by
        simp [State.writeRegs, hi]
      obtain ⟨h1, h2, h3⟩ := ih s hd.2
      rw [e]
      refine ⟨?_, ?_, h3⟩
      · intro p hp hne
        rcases List.mem_cons.mp hp with rfl | hp
        · exact absurd hi hne
        · exact h1 p hp hne
      · exact fun j hj => h2 j fun p hp hne => hj p (List.mem_cons_of_mem _ hp) hne
    · have e : s.writeRegs State.setX ((i, v) :: rest) = (s.setX i v).writeRegs State.setX rest := by
        simp [State.writeRegs, hi]
      obtain ⟨h1, h2, h3, h4, h5⟩ := ih (s.setX i v) hd.2
      have hplace : ∀ r, (s.setX i v).place r = s.place r := by
        intro r; simp [State.place]
      rw [e]
      refine ⟨?_, ?_, ?_, h4, h5⟩
      · intro p hp hne
        rcases List.mem_cons.mp hp with rfl | hp
        · have : ((s.setX i v).writeRegs State.setX rest).x i = (s.setX i v).x i := by
            unfold State.x
            rw [Cpu.x_of_ne _ hi, Cpu.x_of_ne _ hi, h3]
            refine h2 _ fun q hq hqn heq => ?_
            have := physIndex_inj _ _ _ hi hqn heq
            exact hd.1 (this ▸ List.mem_map_of_mem hq)
          rw [this]; exact State.setX_x_same s v hi
        · exact h1 p hp hne
      · intro j hj
        rw [h2 j fun p hp hne => by rw [hplace]; exact hj p (List.mem_cons_of_mem _ hp) hne]
        exact State.setX_regs_get_ne s i v j (hj (i, v) List.mem_cons_self hi)
      · rw [h3, hset]

theorem regsOf_nodup (list : BitVec 16) : (regsOf list).Nodup := (List.nodup_finRange 16).filter _

theorem blockRegs_nodup (list : BitVec 16) : (blockRegs list).Nodup := by
  unfold blockRegs; split
  · simp
  · exact regsOf_nodup list

theorem mem_regsOf {list : BitVec 16} {r : Reg} : r ∈ regsOf list ↔ list.getLsbD r.val = true := by
  simp [regsOf, List.mem_filter]

/-- A register other than r15 is transferred exactly when its bit is set. -/
theorem mem_blockRegs {list : BitVec 16} {r : Reg} (hr : r ≠ pcReg) :
    r ∈ blockRegs list ↔ list.getLsbD r.val = true := by
  unfold blockRegs; split
  · rename_i h; subst h; simp [hr]
  · exact mem_regsOf

/-! ## Block writes -/

@[simp] theorem andThen_next {α β : Type} (a : α) (f : α → Res β) : andThen (.next a) f = f a := rfl

theorem andThen_assoc {α β γ : Type} (r : Res α) (f : α → Res β) (g : β → Res γ) :
    andThen (andThen r f) g = andThen r fun a => andThen (f a) g := by cases r <;> rfl

theorem andThen_congr {α β : Type} {r : Res α} {f g : α → Res β} (h : ∀ a, r = .next a → f a = g a) :
    andThen r f = andThen r g := by
  cases r with
  | next a => exact h a rfl
  | fault e => rfl
  | refused e => rfl

/-- A write takes no part of the CPU. -/
theorem State.memWrite_withCpu (s : State) (c : Cpu) (a : Word) (w : Width) (v : Word) (acc : AccessClass) :
    ({ s with cpu := c } : State).memWrite a w v acc =
      andThen (s.memWrite a w v acc) fun t => .next { t with cpu := c } := by
  unfold State.memWrite State.poke
  dsimp only [State.passAccess]
  split
  · rw [andThen_assoc]; rfl
  all_goals rfl

section
variable {addr value : Nat → Word}

/-- The rest of a block write, over any CPU, is the rest of its writes. -/
theorem State.writeBlock_rest (s : State) {stored : State → Reg → Word} (c : Cpu)
    (hs : ∀ k, addr (k + 1) = addr k + 4) (rest : List Reg) (j : Nat)
    (hval : ∀ k r (t : State), rest[k]? = some r → stored ({ t with cpu := c } : State) r = value (j + k)) :
    (andThen (s.afterWrites addr value j) fun t =>
        State.writeBlock stored id rest (addr j) (runClass j) { t with cpu := c }) =
      andThen (s.afterWrites addr value (j + rest.length)) fun t => .next { t with cpu := c } := by
  induction rest generalizing j with
  | nil => rfl
  | cons i rest ih =>
    have := ih (j + 1) fun k r t hk => by
      rw [hval (k + 1) r t (by simpa using hk)]; congr 1; omega
    rw [List.length_cons, ← Nat.add_assoc, Nat.add_right_comm, ← this]
    show _ = andThen (andThen (s.afterWrites addr value j) _) _
    rw [andThen_assoc]
    refine andThen_congr fun t _ => ?_
    show andThen (State.memWrite _ _ _ _ _) _ = _
    rw [State.memWrite_withCpu, andThen_assoc, hval 0 i t rfl, hs]
    rfl

/-- A block write is the writes of its addresses one after the other, the first over the CPU as it is and the rest after
`after` (42_arm_loadstore.md R307, R308, R313). -/
theorem State.writeBlock_spec (s : State) {stored : State → Reg → Word} {after : State → State} (g : Cpu → Cpu)
    (hs : ∀ k, addr (k + 1) = addr k + 4) (hv : ∀ s t : State, s.cpu = t.cpu → stored s = stored t)
    (hg : ∀ t, after t = { t with cpu := g t.cpu }) {regs : List Reg} (hne : regs ≠ [])
    (hval : ∀ k r, regs[k]? = some r →
      stored ({ s with cpu := if k = 0 then s.cpu else g s.cpu } : State) r = value k) :
    State.writeBlock stored after regs (addr 0) .nonseq s =
      andThen (s.afterWrites addr value regs.length) fun t => .next { t with cpu := g s.cpu } := by
  cases regs with
  | nil => exact absurd rfl hne
  | cons i rest =>
    have := State.writeBlock_rest s (addr := addr) (value := value) (g s.cpu) hs rest 1 fun k r t hk => by
      rw [Nat.add_comm, ← hval (k + 1) r (by simpa using hk)]; exact congrFun (hv _ _ (by simp)) r
    rw [List.length_cons, Nat.add_comm, ← this]
    show andThen (s.memWrite _ _ _ _) _ = andThen (s.memWrite _ _ _ _) _
    have h0 : stored s i = value 0 := hval 0 i rfl
    rw [h0]
    refine andThen_congr fun t ht => ?_
    rw [hg, (State.memWrite_next ht).1, ← hs]
    rfl

/-- What the writes of a block store do to memory, if they go on: each word is at its address, and no other byte
changes. -/
theorem State.afterWrites_next (s : State) (ha : ∀ k, alignAddr (addr k) .word = addr k)
    (hs : ∀ k, addr k = addr 0 + BitVec.ofNat 32 (4 * k)) (hwf : s.mem.wf = true) (n : Nat) (hn : n ≤ 16) {t : State}
    (h : s.afterWrites addr value n = .next t) : t.cpu = s.cpu ∧ t.mem.wf = true ∧
      (∀ k b, k < n → targetOf (addr k).toNat = .ram b → t.mem.load b .word = value k) ∧
      ∀ x, (∀ k b, k < n → targetOf (addr k).toNat = .ram b → ¬ bytesFrom b .word x) → t.mem.read x = s.mem.read x := by
  induction n generalizing t with
  | zero => cases h; exact ⟨rfl, hwf, (fun k b hk => by omega), fun _ _ => rfl⟩
  | succ n ih =>
    cases hm : s.afterWrites addr value n with
    | fault e => simp [State.afterWrites, hm, andThen] at h
    | refused e => simp [State.afterWrites, hm, andThen] at h
    | next m =>
      obtain ⟨mc, mw, ml, mk⟩ := ih (by omega) hm
      have hw : m.memWrite (addr n) .word (value n) (runClass n) = .next t := by
        simpa [State.afterWrites, hm] using h
      obtain ⟨tc, tram, tkeep⟩ := State.memWrite_next hw
      rw [ha] at tram tkeep
      by_cases hr : ∃ b, targetOf (addr n).toNat = .ram b
      · obtain ⟨b, hb⟩ := hr
        have tm := tram b hb
        refine ⟨tc.trans mc, tm ▸ Memory.wf_store _ _ _ mw, fun k b' hk hb' => ?_, fun x hx => ?_⟩
        · rcases Nat.lt_succ_iff_lt_or_eq.mp hk with hk | rfl
          · rw [← ml k b' hk hb', tm]
            refine Memory.load_word_congr fun i hi => Memory.read_store_outside _ _ ?_
            have e : ∀ i, i < 16 → (addr i).toNat = ((addr 0).toNat + 4 * i) % 2 ^ 32 := by
              intro i hi; rw [hs, BitVec.toNat_add, BitVec.toNat_ofNat]; omega
            have h4 : ∀ i, (addr i).toNat % 4 = 0 := fun i => by have := alignAddr_mod (addr i) .word; rwa [ha] at this
            have l1 : (addr n).toNat < 2 ^ 28 := by have := targetOf_ram hb; omega
            have l2 : (addr k).toNat < 2 ^ 28 := by have := targetOf_ram hb'; omega
            have := targetOf_ram_apart hb' hb (h4 k) (h4 n) (by rw [e k (by omega), e n (by omega)] at *; omega)
              (by rw [e k (by omega), e n (by omega)] at *; omega)
            simp only [Width.bytes]; omega
          · rw [hb] at hb'; cases hb'
            rw [tm, Memory.load_store_word mw]
        · rw [tm, Memory.read_store_outside _ _ (by have := hx n b (by omega) hb; unfold bytesFrom at this; omega)]
          exact mk x fun k b' hk => hx k b' (by omega)
      · have tm := tkeep fun b hb => hr ⟨b, hb⟩
        refine ⟨tc.trans mc, tm ▸ mw, fun k b' hk hb' => ?_, fun x hx => ?_⟩
        · rcases Nat.lt_succ_iff_lt_or_eq.mp hk with hk | rfl
          · rw [tm]; exact ml k b' hk hb'
          · exact absurd ⟨b', hb'⟩ hr
        · rw [tm]; exact mk x fun k b' hk => hx k b' (by omega)

/-- Writes none of which goes to a register of the block all go on. -/
theorem State.afterWrites_plain (s : State) (ha : ∀ k, alignAddr (addr k) .word = addr k) (n : Nat)
    (hio : ∀ k off, k < n → targetOf (addr k).toNat ≠ .io off) : ∃ t, s.afterWrites addr value n = .next t := by
  induction n with
  | zero => exact ⟨s, rfl⟩
  | succ n ih =>
    obtain ⟨m, hm⟩ := ih fun k off hk => hio k off (by omega)
    have hn : ∀ off, targetOf (alignAddr (addr n) .word).toNat ≠ .io off := by
      intro off; rw [ha]; exact hio n off (by omega)
    simpa only [State.afterWrites, hm, andThen_next] using State.memWrite_plain m _ _ hn

end

end Sys2Proof.Machine
end

