-- ==== Sys2Proof/Laws/Effects.lean ====
section
/-!
SUPPORT. What an instruction and a step can do to the machine outside the CPU, said once: whatever relation holds of
every access to the bus holds of every instruction (`exec_ends`) and, with the DMA engine's own updates and the
passing of time, of every step (`step_ends`).
-/
namespace Sys2Proof.Machine

/-- A relation that every access to the bus keeps, whatever happens to the CPU. -/
structure BusClosed (R : State → State → Prop) : Prop where
  refl : ∀ s, R s s
  trans : ∀ {s t u}, R s t → R t u → R s u
  cpu : ∀ (s : State) (c : Cpu), R s { s with cpu := c }
  draws : ∀ (s : State) (n : Nat), R s { s with draws := n }
  advance : ∀ (s : State) (c : Nat), R s { s with dev := s.dev.advance c }
  prefetch : ∀ (s : State) (a : Nat), R s { s with dev := s.dev.touchPrefetch a }
  poke : ∀ {s t : State} {a : Nat} {w : Width} {v : Word}, s.poke a w v = .next t → R s t

/-- Every next state a result can be is related to `s`. -/
def Ends (R : State → State → Prop) (s : State) (r : Res State) : Prop := ∀ t, r = .next t → R s t

variable {R : State → State → Prop}

theorem ends_next {s t : State} (h : R s t) : Ends R s (.next t) := by
  rintro u hu; cases hu; exact h

theorem ends_refused {s : State} (e : Refusal) : Ends R s (.refused e) := by rintro u hu; cases hu

theorem ends_fault {s : State} (e : Fault) : Ends R s (.fault e) := by rintro u hu; cases hu

theorem ends_refuseIf {s : State} (c : Bool) (e : Refusal) {r : Res State} (h : Ends R s r) :
    Ends R s (refuseIf c e r) := by
  unfold refuseIf; split
  · exact ends_refused e
  · exact h

theorem ends_refuseQuirk {s : State} (c : Bool) (e : Refusal) {r : Res State} (h : Ends R s r) :
    Ends R s (refuseQuirk c e r) := ends_refuseIf _ e h

theorem ends_andThen {s : State} {r : Res State} {f : State → Res State} (h : Ends R s r)
    (hf : ∀ u, R s u → Ends R s (f u)) : Ends R s (andThen r f) := by
  unfold andThen
  split
  · rename_i u; exact hf u (h u rfl)
  · exact ends_fault _
  · exact ends_refused _

theorem ends_trans (hR : BusClosed R) {s u : State} {r : Res State} (h : R s u) (h' : Ends R u r) : Ends R s r :=
  fun t ht => hR.trans h (h' t ht)

/-! ## The primitives -/

theorem BusClosed.setX (hR : BusClosed R) (s : State) (i : Reg) (v : Word) : R s (s.setX i v) := hR.cpu s _

theorem BusClosed.setXUsr (hR : BusClosed R) (s : State) (i : Reg) (v : Word) : R s (s.setXUsr i v) := hR.cpu s _

theorem BusClosed.pass (hR : BusClosed R) (s : State) (k : AccessKind) (a : Word) (w : Width) (acc : AccessClass) :
    R s (s.passAccess k a w acc) :=
  hR.trans (hR.prefetch s _) (hR.advance { s with dev := s.dev.touchPrefetch _ } _)

theorem BusClosed.memRead (hR : BusClosed R) (s : State) (k : AccessKind) (a : Word) (w : Width) (acc : AccessClass) :
    R s (s.memRead k a w acc).2 :=
  hR.trans (hR.pass s k a w acc) (hR.draws _ _)

theorem BusClosed.memWrite (hR : BusClosed R) (s : State) (a : Word) (w : Width) (v : Word) (acc : AccessClass) :
    Ends R s (s.memWrite a w v acc) :=
  ends_trans hR (hR.pass s .data a w acc) fun _ h => hR.poke h

theorem BusClosed.idle (hR : BusClosed R) (s : State) : R s s.idle := hR.advance s 1

theorem BusClosed.idles (hR : BusClosed R) (n : Nat) (s : State) : R s (s.idles n) := by
  induction n generalizing s with
  | zero => exact hR.refl s
  | succ n ih => exact hR.trans (hR.idle s) (ih s.idle)

theorem BusClosed.refill (hR : BusClosed R) (s : State) (a : Word) (w : Width) (d : Word) : R s (s.refill a w d) :=
  hR.trans (hR.memRead s .opcode a w .nonseq)
    (hR.trans (hR.memRead (s.memRead .opcode a w .nonseq).2 .opcode (a + d) w .seq) (hR.cpu _ _))

theorem BusClosed.branchTo (hR : BusClosed R) (s : State) (a : Word) : R s (s.branchTo a) := by
  unfold State.branchTo; split
  · exact hR.refill _ _ _ _
  · exact hR.refill _ _ _ _

theorem BusClosed.enterException (hR : BusClosed R) (s : State) (m : Mode) (v lr : Word) :
    R s (s.enterException m v lr) :=
  hR.trans (hR.cpu s _) (hR.branchTo { s with cpu := _ } v)

theorem BusClosed.raiseSwi (hR : BusClosed R) (s : State) : R s s.raiseSwi := hR.enterException _ _ _ _

theorem BusClosed.raiseUndefined (hR : BusClosed R) (s : State) : R s s.raiseUndefined := hR.enterException _ _ _ _

theorem BusClosed.restoreCpsr (hR : BusClosed R) (s : State) : Ends R s s.restoreCpsr := by
  unfold State.restoreCpsr
  split
  · exact ends_refused _
  · split
    · exact ends_refused _
    · exact ends_next (hR.cpu s _)

theorem BusClosed.exceptionReturn (hR : BusClosed R) (s : State) (a : Word) : Ends R s (s.exceptionReturn a) :=
  ends_andThen (hR.restoreCpsr s) fun u h => ends_next (hR.trans h (hR.branchTo u a))

theorem BusClosed.writeOrBranch (hR : BusClosed R) (s : State) (rd : Reg) (v : Word) : R s (s.writeOrBranch rd v) := by
  unfold State.writeOrBranch; split
  · exact hR.branchTo _ _
  · exact hR.cpu s _

/-! ## The frame of an instruction -/

theorem ends_runInstr (hR : BusClosed R) (uses : List Reg) {body : State → Res State} (s : State)
    (h : ∀ s, Ends R s (body s)) : Ends R s (runInstr uses body s) := by
  unfold runInstr; split
  · exact ends_refused _
  · exact ends_trans hR (hR.cpu s _) (h _)

theorem ends_armInstr (hR : BusClosed R) (cond : Cond) (uses : List Reg) {body : State → Res State} (s : State)
    (h : ∀ s, Ends R s (body s)) : Ends R s (armInstr cond uses body s) := by
  unfold armInstr; split
  · exact ends_runInstr hR uses s h
  · exact ends_next (hR.cpu s _)

theorem ends_thumbInstr (hR : BusClosed R) (uses : List Reg) {body : State → Res State} (s : State)
    (h : ∀ s, Ends R s (body s)) : Ends R s (thumbInstr uses body s) := ends_runInstr hR uses s h

/-! ## The shared operations -/

theorem BusClosed.time (hR : BusClosed R) (o : Operand2) (s : State) : R s (o.time s) := by
  unfold Operand2.time; split
  · exact hR.idle s
  · exact hR.refl s

theorem BusClosed.setAluFlagsIf (hR : BusClosed R) (s : State) (sf : Bool) (o : AluOut) :
    R s (s.setAluFlagsIf sf o) := by
  unfold State.setAluFlagsIf; split
  · exact hR.cpu s _
  · exact hR.refl s

theorem ends_dataProc (hR : BusClosed R) (op : AluOp) (cond : Cond) (sf : Bool) (rn rd : Reg) (o : Operand2)
    (s : State) : Ends R s (dataProc op cond sf rn rd o s) := by
  refine ends_armInstr hR _ _ s fun s => ends_refuseIf _ _ (ends_refuseQuirk _ _ (ends_trans hR (hR.time o s) ?_))
  unfold dpFinish
  split
  · exact ends_next (hR.cpu _ _)
  · split
    · split
      · exact hR.exceptionReturn _ _
      · exact ends_next (hR.branchTo _ _)
    · exact ends_next (hR.trans (hR.cpu _ _) (hR.trans (hR.setAluFlagsIf _ _ _) (hR.cpu _ _)))

theorem BusClosed.setMulFlags (hR : BusClosed R) (s : State) (r : Word) : R s (s.setMulFlags r) :=
  hR.trans (hR.cpu s _) (hR.draws { s with cpu := _ } _)

theorem BusClosed.setMulLongFlags (hR : BusClosed R) (s : State) (p : BitVec 64) : R s (s.setMulLongFlags p) :=
  hR.trans (hR.cpu s _) (hR.draws { s with cpu := _ } _)

theorem BusClosed.mulFinish (hR : BusClosed R) (n : Nat) (sf : Bool) (rd : Reg) (r : Word) (s : State) :
    R s (mulFinish n sf rd r s) := by
  unfold Machine.mulFinish
  refine hR.trans (hR.trans (hR.idles n s) (hR.setX (s.idles n) rd r)) ?_
  cases sf
  · exact hR.cpu _ _
  · exact hR.trans (hR.setMulFlags _ r) (hR.cpu _ _)

theorem ends_mulCore (hR : BusClosed R) (cond : Cond) (sf : Bool) (rd rs rm : Reg) (uses : List Reg)
    (acc : State → Word) (extra : Nat) (s : State) : Ends R s (mulCore cond sf rd rs rm uses acc extra s) :=
  ends_armInstr hR _ _ s fun s => ends_refuseIf _ _ (ends_refuseQuirk _ _ (ends_next (hR.mulFinish _ _ _ _ s)))

theorem BusClosed.mulLongFinish (hR : BusClosed R) (n : Nat) (sf : Bool) (rdHi rdLo : Reg) (p : BitVec 64)
    (s : State) : R s (mulLongFinish n sf rdHi rdLo p s) := by
  unfold Machine.mulLongFinish
  refine hR.trans (hR.trans (hR.trans (hR.idles n s) (hR.setX (s.idles n) rdLo (p.extractLsb' 0 32)))
    (hR.setX ((s.idles n).setX rdLo (p.extractLsb' 0 32)) rdHi (p.extractLsb' 32 32))) ?_
  cases sf
  · exact hR.cpu _ _
  · exact hR.trans (hR.setMulLongFlags _ p) (hR.cpu _ _)

theorem ends_mulLongCore (hR : BusClosed R) (signed : Bool) (cond : Cond) (sf : Bool) (rdHi rdLo rs rm : Reg)
    (acc : State → BitVec 64) (extra : Nat) (s : State) :
    Ends R s (mulLongCore signed cond sf rdHi rdLo rs rm acc extra s) :=
  ends_armInstr hR _ _ s fun s => ends_refuseIf _ _ (ends_refuseQuirk _ _ (ends_next (hR.mulLongFinish _ _ _ _ _ s)))

theorem BusClosed.writeBack (hR : BusClosed R) (s : State) (wb : Bool) (rn : Reg) (v : Word) :
    R s (s.writeBack wb rn v) := by
  unfold State.writeBack; split
  · exact hR.cpu s _
  · exact hR.refl s

theorem BusClosed.finishLoad (hR : BusClosed R) (s : State) (rd : Reg) (v : Word) : R s (s.finishLoad rd v) := by
  unfold State.finishLoad; split
  · exact hR.branchTo _ _
  · exact hR.cpu s _

theorem ends_loadAt (hR : BusClosed R) (k : LoadKind) (a : Word) (wb : Bool) (rn rd : Reg) (moved : Word)
    (s : State) : Ends R s (loadAt k a wb rn rd moved s) :=
  ends_refuseQuirk _ _ (ends_next (hR.trans (hR.memRead s _ _ _ _)
    (hR.trans (hR.idle _) (hR.trans (hR.writeBack _ wb rn moved) (hR.finishLoad _ rd _)))))

theorem ends_storeAt (hR : BusClosed R) (k : StoreKind) (a v : Word) (wb : Bool) (rn : Reg) (moved : Word)
    (s : State) : Ends R s (storeAt k a v wb rn moved s) :=
  ends_refuseQuirk _ _ (ends_andThen (hR.memWrite s _ _ _ _) fun u h =>
    ends_next (hR.trans h (hR.trans (hR.writeBack u wb rn moved) (hR.cpu _ _))))

theorem ends_loadInstr (hR : BusClosed R) (k : LoadKind) (cond : Cond) (ix : Indexing) (up : Bool) (rn rd : Reg)
    (o : Offset) (s : State) : Ends R s (loadInstr k cond ix up rn rd o s) :=
  ends_armInstr hR _ _ s fun s => ends_refuseIf _ _ (ends_refuseQuirk _ _ (ends_loadAt hR _ _ _ _ _ _ s))

theorem ends_storeInstr (hR : BusClosed R) (k : StoreKind) (cond : Cond) (ix : Indexing) (up : Bool) (rn rd : Reg)
    (o : Offset) (s : State) : Ends R s (storeInstr k cond ix up rn rd o s) :=
  ends_armInstr hR _ _ s fun s =>
    ends_refuseIf _ _ (ends_refuseQuirk _ _ (ends_refuseQuirk _ _ (ends_storeAt hR _ _ _ _ _ _ s)))

theorem ends_swapInstr (hR : BusClosed R) (lk : LoadKind) (sk : StoreKind) (cond : Cond) (rn rd rm : Reg)
    (s : State) : Ends R s (swapInstr lk sk cond rn rd rm s) :=
  ends_armInstr hR _ _ s fun s => ends_refuseIf _ _ (ends_refuseQuirk _ _ (ends_refuseQuirk _ _
    (ends_trans hR (hR.memRead s _ _ _ _) (ends_andThen (hR.memWrite _ _ _ _ _) fun u h =>
      ends_next (hR.trans h (hR.trans (hR.idle u) (hR.cpu _ _)))))))

theorem BusClosed.readBlock (hR : BusClosed R) (regs : List Reg) (a : Word) (acc : AccessClass) (s : State) :
    R s (State.readBlock regs a acc s).2 := by
  induction regs generalizing a acc s with
  | nil => exact hR.refl s
  | cons i rest ih => exact hR.trans (hR.memRead s .data a .word acc) (ih (a + 4) .seq _)

theorem BusClosed.writeRegs (hR : BusClosed R) {write : State → Reg → Word → State}
    (hw : ∀ s i v, R s (write s i v)) (vs : List (Reg × Word)) (s : State) : R s (s.writeRegs write vs) := by
  unfold State.writeRegs
  induction vs generalizing s with
  | nil => exact hR.refl s
  | cons p rest ih =>
    rw [List.foldl_cons]
    refine hR.trans ?_ (ih _)
    split
    · exact hR.refl s
    · exact hw s _ _

theorem ends_writeBlock (hR : BusClosed R) (value : State → Reg → Word) {after : State → State}
    (ha : ∀ s, R s (after s)) (regs : List Reg) (a : Word) (acc : AccessClass) (s : State) :
    Ends R s (State.writeBlock value after regs a acc s) := by
  induction regs generalizing after a acc s with
  | nil => exact ends_next (hR.refl s)
  | cons i rest ih =>
    exact ends_andThen (hR.memWrite s _ _ _ _) fun u h =>
      ends_trans hR (hR.trans h (ha u)) (ih (fun s => hR.refl s) _ _ _)

theorem BusClosed.ldmLoads (hR : BusClosed R) (s : State) (wb : Bool) (rn : Reg) (list : BitVec 16) (a b : Word) :
    R s (ldmLoads s wb rn list a b).2 :=
  hR.trans (hR.readBlock _ _ _ s) (hR.trans (hR.writeBack _ _ rn b) (hR.idle _))

theorem BusClosed.finishLdm (hR : BusClosed R) (s : State) (vs : List (Reg × Word)) : R s (s.finishLdm vs) := by
  unfold State.finishLdm
  refine hR.trans (hR.writeRegs hR.setX vs s) ?_
  dsimp only
  split
  · exact hR.branchTo _ _
  · exact hR.cpu _ _

theorem ends_ldmCore (hR : BusClosed R) (mode : BlockMode) (wb : Bool) (rn : Reg) (list : BitVec 16) (s : State) :
    Ends R s (ldmCore mode wb rn list s) :=
  ends_refuseIf _ _ (ends_refuseQuirk _ _ (ends_refuseQuirk _ _ (ends_next
    (hR.trans (hR.ldmLoads s _ _ _ _ _) (hR.finishLdm _ _)))))

theorem ends_stmCore (hR : BusClosed R) (mode : BlockMode) (wb : Bool) (rn : Reg) (list : BitVec 16) (s : State) :
    Ends R s (stmCore mode wb rn list s) :=
  ends_refuseIf _ _ (ends_refuseQuirk _ _ (ends_refuseQuirk _ _ (ends_andThen
    (ends_writeBlock hR _ (fun t => hR.writeBack t _ _ _) _ _ _ s) fun u h => ends_next (hR.trans h (hR.cpu u _)))))

theorem ends_ldmInstr (hR : BusClosed R) (mode : BlockMode) (cond : Cond) (wb : Bool) (rn : Reg)
    (list : BitVec 16) (s : State) : Ends R s (ldmInstr mode cond wb rn list s) :=
  ends_armInstr hR _ _ s fun s => ends_refuseIf _ _ (ends_ldmCore hR _ _ _ _ s)

theorem ends_stmInstr (hR : BusClosed R) (mode : BlockMode) (cond : Cond) (wb : Bool) (rn : Reg)
    (list : BitVec 16) (s : State) : Ends R s (stmInstr mode cond wb rn list s) :=
  ends_armInstr hR _ _ s fun s => ends_refuseIf _ _ (ends_refuseQuirk _ _ (ends_stmCore hR _ _ _ _ s))

theorem ends_ldmSInstr (hR : BusClosed R) (mode : BlockMode) (cond : Cond) (wb : Bool) (rn : Reg)
    (list : BitVec 16) (s : State) : Ends R s (ldmSInstr mode cond wb rn list s) := by
  refine ends_armInstr hR _ _ s fun s => ends_refuseIf _ _ ?_
  split
  · exact ends_refuseQuirk _ _ (ends_refuseQuirk _ _ (ends_trans hR (hR.trans (hR.ldmLoads s _ _ _ _ _)
      (hR.writeRegs hR.setX _ _)) (hR.exceptionReturn _ _)))
  · exact ends_refuseIf _ _ (ends_refuseQuirk _ _ (ends_next (hR.trans (hR.ldmLoads s _ _ _ _ _)
      (hR.trans (hR.writeRegs hR.setXUsr _ _) (hR.cpu _ _)))))

theorem ends_stmSInstr (hR : BusClosed R) (mode : BlockMode) (cond : Cond) (wb : Bool) (rn : Reg)
    (list : BitVec 16) (s : State) : Ends R s (stmSInstr mode cond wb rn list s) :=
  ends_armInstr hR _ _ s fun s => ends_refuseIf _ _ (ends_refuseQuirk _ _ (ends_refuseQuirk _ _ (ends_andThen
    (ends_writeBlock hR _ (fun t => hR.refl t) _ _ _ s) fun u h => ends_next (hR.trans h (hR.cpu u _)))))

theorem ends_bxTo (hR : BusClosed R) (t : Word) (s : State) : Ends R s (bxTo t s) :=
  ends_refuseQuirk _ _ (ends_next (hR.trans (hR.cpu s _) (hR.branchTo { s with cpu := _ } t)))

theorem ends_mrsBody (hR : BusClosed R) (spsr : Bool) (rd : Reg) (s : State) : Ends R s (mrsBody spsr rd s) := by
  unfold mrsBody; split
  · split
    · exact ends_refused _
    · exact ends_next (hR.cpu s _)
  · exact ends_next (hR.cpu s _)

theorem ends_msrBody (hR : BusClosed R) (spsr : Bool) (mask : BitVec 4) (v : Word) (s : State) :
    Ends R s (msrBody spsr mask v s) := by
  refine ends_andThen ?_ fun u h => ends_next (hR.trans h (hR.cpu u _))
  unfold psrWrite; split
  · split
    · exact ends_refused _
    · exact ends_next (hR.cpu s _)
  · intro t ht
    unfold andThen at ht
    split at ht
    · cases ht; exact hR.cpu s _
    · cases ht
    · cases ht

theorem ends_thumbShift (hR : BusClosed R) (sh : ShiftType) (n : BitVec 5) (rs rd : LowReg) (s : State) :
    Ends R s (thumbShift sh n rs rd s) := ends_thumbInstr hR _ s fun s => ends_next (hR.cpu s _)

theorem ends_thumbAlu (hR : BusClosed R) (op : AluOp) (a b : State → Word) (rd : LowReg) (s : State) :
    Ends R s (thumbAlu op a b rd s) := by
  refine ends_thumbInstr hR _ s fun s => ends_next ?_
  unfold thumbFinish
  split <;> exact hR.cpu s _

theorem ends_thumbShiftReg (hR : BusClosed R) (sh : ShiftType) (rs rd : LowReg) (s : State) :
    Ends R s (thumbShiftReg sh rs rd s) :=
  ends_thumbInstr hR _ s fun s => ends_next (hR.trans (hR.idle s) (hR.cpu _ _))

theorem ends_thumbLoad (hR : BusClosed R) (k : LoadKind) (uses : List Reg) (rd : LowReg) (addr : State → Word)
    (s : State) : Ends R s (thumbLoad k uses rd addr s) :=
  ends_thumbInstr hR _ s fun s => ends_loadAt hR _ _ _ _ _ _ s

theorem ends_thumbStore (hR : BusClosed R) (k : StoreKind) (uses : List Reg) (rd : LowReg) (addr : State → Word)
    (s : State) : Ends R s (thumbStore k uses rd addr s) :=
  ends_thumbInstr hR _ s fun s => ends_storeAt hR _ _ _ _ _ _ s

/-! ## Every instruction -/

theorem ends_tBcond (hR : BusClosed R) (cond : Cond) (off : BitVec 8) (s : State) : Ends R s (execTBcond cond off s) := by
  refine ends_thumbInstr hR _ s fun s => ends_next ?_
  split
  · exact hR.branchTo s _
  · exact hR.cpu s _

/-- Whatever every access to the bus keeps, every instruction keeps. -/
theorem exec_ends (hR : BusClosed R) (i : Instr) (s : State) : Ends R s (exec i s) := by
  cases i with
  | bx =>
    dsimp only [exec, execBx]
    exact ends_armInstr hR _ _ s fun s => ends_bxTo hR _ s
  | mul | mla =>
    dsimp only [exec, execMul, execMla]
    exact ends_mulCore hR _ _ _ _ _ _ _ _ s
  | umull | umlal | smull | smlal =>
    dsimp only [exec, execUmull, execUmlal, execSmull, execSmlal]
    exact ends_mulLongCore hR _ _ _ _ _ _ _ _ _ s
  | swp | swpb =>
    dsimp only [exec, execSwp, execSwpb]
    exact ends_swapInstr hR _ _ _ _ _ _ s
  | armUnallocMul | hwUnalloc | hwUnpred | armUnallocCtrl =>
    dsimp only [exec, execArmUnallocMul, execHwUnalloc, execHwUnpred, execArmUnallocCtrl]
    exact ends_armInstr hR _ _ s fun _ => ends_refused _
  | strhImm | strhReg | strImm | strReg | strtImm | strtReg | strbImm | strbReg
  | strbtImm | strbtReg =>
    dsimp only [exec, execStrhImm, execStrhReg, execStrImm, execStrReg, execStrtImm, execStrtReg, execStrbImm, execStrbReg, execStrbtImm, execStrbtReg]
    exact ends_storeInstr hR _ _ _ _ _ _ _ s
  | ldrhImm | ldrhReg | ldrsbImm | ldrsbReg | ldrshImm | ldrshReg | ldrImm | ldrReg
  | ldrtImm | ldrtReg | ldrbImm | ldrbReg | ldrbtImm | ldrbtReg =>
    dsimp only [exec, execLdrhImm, execLdrhReg, execLdrsbImm, execLdrsbReg, execLdrshImm, execLdrshReg, execLdrImm, execLdrReg, execLdrtImm, execLdrtReg, execLdrbImm, execLdrbReg, execLdrbtImm, execLdrbtReg]
    exact ends_loadInstr hR _ _ _ _ _ _ _ s
  | mrs =>
    dsimp only [exec, execMrs]
    exact ends_armInstr hR _ _ s fun s => ends_refuseIf _ _ (ends_mrsBody hR _ _ s)
  | msrReg =>
    dsimp only [exec, execMsrReg]
    exact ends_armInstr hR _ _ s fun s => ends_refuseIf _ _ (ends_msrBody hR _ _ _ s)
  | msrImm =>
    dsimp only [exec, execMsrImm]
    exact ends_armInstr hR _ _ s fun s => ends_msrBody hR _ _ _ s
  | andShImm | andShReg | andImm | eorShImm | eorShReg | eorImm | subShImm | subShReg
  | subImm | rsbShImm | rsbShReg | rsbImm | addShImm | addShReg | addImm | adcShImm
  | adcShReg | adcImm | sbcShImm | sbcShReg | sbcImm | rscShImm | rscShReg | rscImm
  | tstShImm | tstShReg | tstImm | teqShImm | teqShReg | teqImm | cmpShImm | cmpShReg
  | cmpImm | cmnShImm | cmnShReg | cmnImm | orrShImm | orrShReg | orrImm | movShImm
  | movShReg | movImm | bicShImm | bicShReg | bicImm | mvnShImm | mvnShReg | mvnImm =>
    dsimp only [exec, execAndShImm, execAndShReg, execAndImm, execEorShImm, execEorShReg, execEorImm, execSubShImm, execSubShReg, execSubImm, execRsbShImm, execRsbShReg, execRsbImm, execAddShImm, execAddShReg, execAddImm, execAdcShImm, execAdcShReg, execAdcImm, execSbcShImm, execSbcShReg, execSbcImm, execRscShImm, execRscShReg, execRscImm, execTstShImm, execTstShReg, execTstImm, execTeqShImm, execTeqShReg, execTeqImm, execCmpShImm, execCmpShReg, execCmpImm, execCmnShImm, execCmnShReg, execCmnImm, execOrrShImm, execOrrShReg, execOrrImm, execMovShImm, execMovShReg, execMovImm, execBicShImm, execBicShReg, execBicImm, execMvnShImm, execMvnShReg, execMvnImm]
    exact ends_dataProc hR _ _ _ _ _ _ s
  | und | ldcStc | cdp | mrcMcr =>
    dsimp only [exec, execUnd, execLdcStc, execCdp, execMrcMcr]
    exact ends_armInstr hR _ _ s fun s => ends_next (hR.raiseUndefined s)
  | stmIa | stmIb | stmDa | stmDb =>
    dsimp only [exec, execStmIa, execStmIb, execStmDa, execStmDb]
    exact ends_stmInstr hR _ _ _ _ _ s
  | stmSIa | stmSIb | stmSDa | stmSDb =>
    dsimp only [exec, execStmSIa, execStmSIb, execStmSDa, execStmSDb]
    exact ends_stmSInstr hR _ _ _ _ _ s
  | ldmIa | ldmIb | ldmDa | ldmDb =>
    dsimp only [exec, execLdmIa, execLdmIb, execLdmDa, execLdmDb]
    exact ends_ldmInstr hR _ _ _ _ _ s
  | ldmSIa | ldmSIb | ldmSDa | ldmSDb =>
    dsimp only [exec, execLdmSIa, execLdmSIb, execLdmSDa, execLdmSDb]
    exact ends_ldmSInstr hR _ _ _ _ _ s
  | b =>
    dsimp only [exec, execB]
    exact ends_armInstr hR _ _ s fun s => ends_next (hR.branchTo s _)
  | bl =>
    dsimp only [exec, execBl]
    exact ends_armInstr hR _ _ s fun s => ends_next (hR.trans (hR.setX s _ _) (hR.branchTo _ _))
  | swi =>
    dsimp only [exec, execSwi]
    exact ends_armInstr hR _ _ s fun s => ends_next (hR.raiseSwi s)
  | tLslImm | tLsrImm | tAsrImm =>
    dsimp only [exec, execTLslImm, execTLsrImm, execTAsrImm]
    exact ends_thumbShift hR _ _ _ _ s
  | tAddReg | tSubReg | tAddImm3 | tSubImm3 | tMovImm8 | tCmpImm8 | tAddImm8 | tSubImm8
  | tAnd | tEor | tAdc | tSbc | tTst | tNeg | tCmpReg | tCmn
  | tOrr | tBic | tMvn =>
    dsimp only [exec, execTAddReg, execTSubReg, execTAddImm3, execTSubImm3, execTMovImm8, execTCmpImm8, execTAddImm8, execTSubImm8, execTAnd, execTEor, execTAdc, execTSbc, execTTst, execTNeg, execTCmpReg, execTCmn, execTOrr, execTBic, execTMvn]
    exact ends_thumbAlu hR _ _ _ _ s
  | tLslReg | tLsrReg | tAsrReg | tRorReg =>
    dsimp only [exec, execTLslReg, execTLsrReg, execTAsrReg, execTRorReg]
    exact ends_thumbShiftReg hR _ _ _ s
  | tMul =>
    dsimp only [exec, execTMul]
    exact ends_thumbInstr hR _ s fun s => ends_refuseQuirk _ _ (ends_next (hR.mulFinish _ _ _ _ s))
  | tAddHi | tMovHi =>
    dsimp only [exec, execTAddHi, execTMovHi]
    exact ends_thumbInstr hR _ s fun s => ends_refuseQuirk _ _ (ends_next (hR.writeOrBranch s _ _))
  | tCmpHi =>
    dsimp only [exec, execTCmpHi]
    exact ends_thumbInstr hR _ s fun s => ends_refuseQuirk _ _ (ends_next (hR.cpu s _))
  | tBx =>
    dsimp only [exec, execTBx]
    exact ends_thumbInstr hR _ s fun s => ends_refuseQuirk _ _ (ends_bxTo hR _ s)
  | tLdrPc | tLdrReg | tLdrbReg | tLdrhReg | tLdsbReg | tLdshReg | tLdrImm | tLdrbImm
  | tLdrhImm | tLdrSp =>
    dsimp only [exec, execTLdrPc, execTLdrReg, execTLdrbReg, execTLdrhReg, execTLdsbReg, execTLdshReg, execTLdrImm, execTLdrbImm, execTLdrhImm, execTLdrSp]
    exact ends_thumbLoad hR _ _ _ _ s
  | tStrReg | tStrbReg | tStrhReg | tStrImm | tStrbImm | tStrhImm | tStrSp =>
    dsimp only [exec, execTStrReg, execTStrbReg, execTStrhReg, execTStrImm, execTStrbImm, execTStrhImm, execTStrSp]
    exact ends_thumbStore hR _ _ _ _ s
  | tAddPc | tAddSp | tAddSpImm | tBlPrefix =>
    dsimp only [exec, execTAddPc, execTAddSp, execTAddSpImm, execTBlPrefix]
    exact ends_thumbInstr hR _ s fun s => ends_next (hR.cpu s _)
  | tPush | tStmia =>
    dsimp only [exec, execTPush, execTStmia]
    exact ends_thumbInstr hR _ s fun s => ends_stmCore hR _ _ _ _ s
  | tPop | tLdmia =>
    dsimp only [exec, execTPop, execTLdmia]
    exact ends_thumbInstr hR _ s fun s => ends_ldmCore hR _ _ _ _ s
  | tUnalloc =>
    dsimp only [exec, execTUnalloc]
    exact ends_thumbInstr hR _ s fun _ => ends_refused _
  | tSwi =>
    dsimp only [exec, execTSwi]
    exact ends_thumbInstr hR _ s fun s => ends_next (hR.raiseSwi s)
  | tBcond =>
    dsimp only [exec, execTBcond]
    exact ends_tBcond hR _ _ s
  | tB =>
    dsimp only [exec, execTB]
    exact ends_thumbInstr hR _ s fun s => ends_next (hR.branchTo s _)
  | tBlSuffix =>
    dsimp only [exec, execTBlSuffix]
    exact ends_thumbInstr hR _ s fun s => ends_next (hR.trans (hR.setX s _ _) (hR.branchTo _ _))

/-! ## Every step -/

/-- A relation that also the DMA engine's own updates keep. -/
structure StepClosed (R : State → State → Prop) : Prop extends BusClosed R where
  latch : ∀ (s : State) (v : Word), R s { s with dev := { s.dev with dmaLatch := v } }
  stepped : ∀ (s : State) (n : Fin 4) (word : Bool),
    R s { s with dev := s.dev.setChannel n ((s.dev.channel n).stepped n word) }
  complete : ∀ (s : State) (n : Fin 4), R s { s with dev := s.dev.dmaComplete n }
  wake : ∀ s : State, R s s.wake

theorem ends_dmaUnit (hR : StepClosed R) (n : Fin 4) (word : Bool) (acc : AccessClass) (s : State) :
    Ends R s (s.dmaUnit n word acc) := by
  have hr : R s (s.dmaRead word (s.dev.channel n).src acc) := by
    unfold State.dmaRead; split
    · exact hR.trans (hR.toBusClosed.memRead s _ _ _ _) (hR.latch _ _)
    · exact hR.toBusClosed.pass s _ _ _ _
  exact ends_trans hR.toBusClosed hr (ends_andThen (hR.toBusClosed.memWrite _ _ _ _ _) fun u h =>
    ends_next (hR.trans h (hR.stepped u n word)))

theorem ends_dmaUnits (hR : StepClosed R) (n : Fin 4) (word : Bool) (k : Nat) (acc : AccessClass) (s : State) :
    Ends R s (s.dmaUnits n word k acc) := by
  induction k generalizing acc s with
  | zero => exact ends_next (hR.refl s)
  | succ k ih => exact ends_andThen (ends_dmaUnit hR n word acc s) fun u h => ends_trans hR.toBusClosed h (ih .seq u)

theorem ends_dmaStep (hR : StepClosed R) (s : State) (n : Fin 4) : Ends R s (s.dmaStep n) :=
  ends_andThen (ends_dmaUnits hR n _ _ _ s) fun u h => ends_next (hR.trans h (hR.complete u n))

theorem BusClosed.fetchStage (hR : BusClosed R) (s : State) : R s s.fetchStage :=
  hR.trans (hR.memRead s _ _ _ _) (hR.cpu _ _)

theorem BusClosed.takeIrq (hR : BusClosed R) (s : State) : R s s.takeIrq :=
  hR.trans (hR.memRead s _ _ _ _) (hR.trans (hR.cpu _ _) (hR.enterException _ _ _ _))

theorem ends_cpuStep (hR : BusClosed R) (s : State) : Ends R s (cpuStep s) := by
  unfold cpuStep; split
  · exact ends_next (hR.takeIrq s)
  · exact ends_trans hR (hR.fetchStage s) (exec_ends hR _ _)

/-- Whatever every access to the bus and every update of the DMA engine keep, every step keeps. -/
theorem step_ends (hR : StepClosed R) (s : State) : Ends R s (step s) := by
  unfold step
  split
  · exact ends_dmaStep hR s _
  · refine ends_trans hR.toBusClosed (hR.wake s) ?_
    split
    · unfold State.sleep
      split
      · exact ends_fault _
      · exact ends_next (hR.advance _ _)
    · exact ends_cpuStep hR.toBusClosed _

end Sys2Proof.Machine
end

