-- ==== Sys2Proof/Laws/Time.lean ====
section
/-!
SUPPORT. What the passing of time does: how a device operation changes the clock and the work that is due, and that
every firing lowers that work (61_scheduler.md R565).
-/
namespace Sys2Proof.Machine

/-- How late an event is, plus one; 0 if it is not due. -/
def lateness (now : Nat) (e : Event) : Nat := if e.timestamp ≤ now then now - e.timestamp + 1 else 0

/-- The work that is due among some events. -/
def workOf (now : Nat) (es : List Event) : Nat := (es.map (lateness now)).sum

theorem dueWork_eq (d : Dev) : d.dueWork = workOf d.now d.events := rfl

theorem workOf_append (now : Nat) (es fs : List Event) : workOf now (es ++ fs) = workOf now es + workOf now fs := by
  simp [workOf]

theorem workOf_filter_le (now : Nat) (p : Event → Bool) (es : List Event) :
    workOf now (es.filter p) ≤ workOf now es := by
  induction es with
  | nil => exact Nat.le_refl _
  | cons e rest ih =>
    rw [List.filter_cons]
    split
    · simp only [workOf, List.map_cons, List.sum_cons] at *; omega
    · simp only [workOf, List.map_cons, List.sum_cons] at *; omega

theorem workOf_filter_lt {now : Nat} {p : Event → Bool} {es : List Event} {e : Event} (he : e ∈ es)
    (hp : p e = false) : workOf now (es.filter p) + lateness now e ≤ workOf now es := by
  induction es with
  | nil => cases he
  | cons f rest ih =>
    rw [List.filter_cons]
    rcases List.mem_cons.mp he with rfl | h
    · simp only [hp, Bool.false_eq_true, if_false]
      have := workOf_filter_le now p rest
      simp only [workOf, List.map_cons, List.sum_cons] at *; omega
    · have := ih h
      split <;> simp only [workOf, List.map_cons, List.sum_cons] at * <;> omega

theorem lateness_future {now : Nat} {e : Event} (h : now < e.timestamp) : lateness now e = 0 := by
  simp [lateness]; omega

/-- An operation that does not move the clock and adds no due work. -/
structure Quiet (d u : Dev) : Prop where
  now : u.now = d.now
  work : workOf d.now u.events ≤ workOf d.now d.events

theorem Quiet.refl (d : Dev) : Quiet d d := ⟨rfl, Nat.le_refl _⟩

theorem Quiet.trans {d u v : Dev} (h : Quiet d u) (h' : Quiet u v) : Quiet d v :=
  ⟨h'.now.trans h.now, by have := h'.work; rw [h.now] at this; exact Nat.le_trans this h.work⟩

theorem Quiet.of_eq {d u : Dev} (hn : u.now = d.now) (he : u.events = d.events) : Quiet d u := ⟨hn, by rw [he]⟩

theorem Quiet.after {d u v : Dev} (h : Quiet u v) (hn : u.now = d.now) (he : u.events = d.events) : Quiet d v :=
  (Quiet.of_eq hn he).trans h

theorem quiet_addEvent (d : Dev) {delay : Nat} (k : EventKind) (h : 0 < delay) : Quiet d (d.addEvent delay k) := by
  refine ⟨rfl, ?_⟩
  show workOf d.now (d.events ++ [_]) ≤ _
  rw [workOf_append]
  have : lateness d.now ⟨d.now + delay, d.nextHandle, k⟩ = 0 := lateness_future (by simp only; omega)
  simp [workOf, this]

theorem quiet_removeEvent (d : Dev) (h : Nat) : Quiet d (d.removeEvent h) := ⟨rfl, workOf_filter_le _ _ _⟩

theorem quiet_irqChanged (d : Dev) : Quiet d d.irqChanged :=
  Quiet.trans (u := { d with events := d.events.filter fun e => !e.isIrqUpdateAt (d.now + Config.irqDelay) })
    ⟨rfl, workOf_filter_le _ _ _⟩ (quiet_addEvent _ _ (by decide))

theorem quiet_requestInterrupt (d : Dev) (k : Fin 14) : Quiet d (d.requestInterrupt k) :=
  (quiet_irqChanged { d with iflag := d.iflag ||| (1 : Half) <<< k.val }).after rfl rfl

theorem quiet_trigger (d : Dev) (n : Fin 4) : Quiet d (d.trigger n) :=
  (quiet_addEvent (d.setChannel n { d.channel n with status := .scheduled d.nextHandle }) (.dmaStart n)
    (show 0 < Config.dmaStartDelay by decide)).after rfl rfl

theorem quiet_answer (occ : Occasion) (d : Dev) (n : Fin 4) : Quiet d (d.answer occ n) := by
  unfold Dev.answer; split
  · exact quiet_trigger d n
  · exact Quiet.refl d

theorem quiet_requestDma (d : Dev) (occ : Occasion) : Quiet d (d.requestDma occ) :=
  (((quiet_answer occ d 0).trans (quiet_answer occ _ 1)).trans (quiet_answer occ _ 2)).trans (quiet_answer occ _ 3)

theorem quiet_envCall (d : Dev) (c : EnvCall) : Quiet d (d.envCall c) := by
  cases c
  · exact quiet_requestInterrupt d _
  · exact quiet_requestDma d _

theorem quiet_envCalls (d : Dev) (cs : List EnvCall) : Quiet d (cs.foldl Dev.envCall d) := by
  induction cs generalizing d with
  | nil => exact Quiet.refl d
  | cons c rest ih => exact (quiet_envCall d c).trans (ih _)

theorem quiet_overflowIrq (d : Dev) (i : Fin 4) : Quiet d (d.overflowIrq i) := by
  unfold Dev.overflowIrq; split
  · exact quiet_requestInterrupt d _
  · exact Quiet.refl d

theorem quiet_notifyApu (d : Dev) (i : Fin 4) : Quiet d (d.notifyApu i) := Quiet.of_eq rfl rfl

theorem quiet_setTimer (d : Dev) (i : Fin 4) (t : Timer) : Quiet d (d.setTimer i t) := Quiet.of_eq rfl rfl

theorem quiet_overflow (is : List (Fin 4)) (d : Dev) : Quiet d (Dev.overflow is d) := by
  induction is generalizing d with
  | nil => exact Quiet.refl d
  | cons i rest ih =>
    cases rest with
    | nil => exact (quiet_overflowIrq d i).trans (quiet_notifyApu _ i)
    | cons j above =>
      refine (quiet_overflowIrq d i).trans ?_
      unfold Dev.overflow
      dsimp only
      split
      · split
        · exact ((quiet_setTimer _ j _).trans (ih _)).trans (quiet_notifyApu _ i)
        · exact (quiet_setTimer _ j _).trans (quiet_notifyApu _ i)
      · exact quiet_notifyApu _ i

/-- A tick is at least one cycle. -/
theorem timerPeriod_pos (c : Half) : 0 < timerPeriod c := Nat.two_pow_pos _

/-- An overflow that fell due at `ts` posts the next one later than `ts`, and no other due work. -/
theorem fireOverflow_work (d : Dev) (i : Fin 4) (e : Event)
    (he : e.timestamp ≤ d.now) : (d.fireOverflow i e.timestamp).now = d.now ∧
      workOf d.now (d.fireOverflow i e.timestamp).events < workOf d.now d.events + lateness d.now e := by
  have q := quiet_overflow (timersFrom i) ((d.setTimer i { d.timer i with
    base := (d.timer i).reload, lastTs := e.timestamp, handle := none }).scheduleOverflow i)
  refine ⟨q.now, Nat.lt_of_le_of_lt q.work ?_⟩
  show workOf d.now (d.events ++ [_]) < _
  rw [workOf_append]
  apply Nat.add_lt_add_left
  have ht : ((d.setTimer i { d.timer i with base := (d.timer i).reload, lastTs := e.timestamp, handle := none }).timer
      i) = { d.timer i with base := (d.timer i).reload, lastTs := e.timestamp, handle := none } :=
    vector_get_set_self _ _ _
  have hpos : 0 < (0x10000 - (d.timer i).reload.toNat) * timerPeriod (d.timer i).control :=
    Nat.mul_pos (by have := (d.timer i).reload.isLt; omega) (timerPeriod_pos _)
  simp only [workOf, List.map_cons, List.map_nil, List.sum_cons, List.sum_nil, ht, Timer.overflowAt, lateness]
  generalize (0x10000 - (d.timer i).reload.toNat) * timerPeriod (d.timer i).control = p at *
  rw [if_pos he]
  split <;> omega

/-- Firing an event that has been taken from the set moves no clock and adds less work than the event was. -/
theorem fire_work (d : Dev) (e : Event) (he : e.timestamp ≤ d.now) : (d.fire e).now = d.now ∧
    workOf d.now (d.fire e).events < workOf d.now d.events + lateness d.now e := by
  have hl : 0 < lateness d.now e := by simp [lateness, he]
  have quiet : ∀ u, Quiet d u → u.now = d.now ∧ workOf d.now u.events < workOf d.now d.events + lateness d.now e :=
    fun u q => ⟨q.now, by have := q.work; omega⟩
  unfold Dev.fire
  split
  · exact fireOverflow_work d _ e he
  · exact quiet _ (Quiet.of_eq rfl rfl)
  · exact quiet _ (Quiet.of_eq rfl rfl)
  · exact quiet _ (quiet_envCalls d _)

theorem mem_earliestDue {d : Dev} {e : Event} : e ∈ d.earliestDue ↔
    e ∈ d.events ∧ e.timestamp ≤ d.now ∧ ∀ f ∈ d.events, e.timestamp ≤ f.timestamp := by
  simp [Dev.earliestDue]

/-- With nothing picked, nothing is due (R565). -/
theorem pickDue_none {d : Dev} (h : d.pickDue = none) : d.settled := by
  unfold Dev.pickDue at h
  split at h <;> try cases h
  rename_i hnil
  intro e he
  apply Nat.lt_of_not_le
  intro hle
  -- the event of the least timestamp is due
  obtain ⟨m, hm, hmin⟩ : ∃ m ∈ d.events, ∀ f ∈ d.events, m.timestamp ≤ f.timestamp := by
    clear hnil hle
    generalize d.events = es at *
    induction es generalizing e with
    | nil => cases he
    | cons x xs ih =>
      cases xs with
      | nil => exact ⟨x, List.mem_cons_self, by simp⟩
      | cons y ys =>
        obtain ⟨m, hm, hmin⟩ := ih y List.mem_cons_self
        by_cases hx : x.timestamp ≤ m.timestamp
        · exact ⟨x, List.mem_cons_self, fun f hf => by
            rcases List.mem_cons.mp hf with rfl | hf
            · exact Nat.le_refl _
            · exact Nat.le_trans hx (hmin f hf)⟩
        · exact ⟨m, List.mem_cons_of_mem _ hm, fun f hf => by
            rcases List.mem_cons.mp hf with rfl | hf
            · omega
            · exact hmin f hf⟩
  have : m ∈ d.earliestDue := mem_earliestDue.mpr ⟨hm, Nat.le_trans (hmin e he) hle, hmin⟩
  rw [hnil] at this
  cases this

/-- What is picked is pending, due, and of the least timestamp; only the count of choices changes (R565, R568). -/
theorem pickDue_some {d u : Dev} {e : Event} (h : d.pickDue = some (e, u)) :
    e ∈ d.earliestDue ∧ ∃ n, u = { d with orderDraws := n } := by
  unfold Dev.pickDue at h
  split at h
  · cases h
  · rename_i f hf
    cases h
    exact ⟨by rw [hf]; exact List.mem_cons_self, d.orderDraws, rfl⟩
  · rename_i a b rest hl
    rw [hl]
    simp only [Option.some.injEq, Prod.mk.injEq] at h
    obtain ⟨rfl, rfl⟩ := h
    refine ⟨?_, _, rfl⟩
    rw [List.getD_eq_getElem?_getD]
    have hlt : Config.eventOrder d.orderDraws % (rest.length + 2) < (a :: b :: rest).length := by
      exact Nat.mod_lt _ (by simp)
    rw [List.getElem?_eq_getElem hlt]
    exact List.getElem_mem hlt

/-- Whatever holds of the devices and is kept by the firing of a due event of the least timestamp holds after
draining. -/
theorem drain_induct {P : Dev → Prop}
    (order : ∀ d n, P d → P { d with orderDraws := n })
    (fire : ∀ d e, P d → e ∈ d.earliestDue → P ((d.removeEvent e.handle).fire e))
    (fuel : Nat) (d : Dev) (h : P d) : P (Dev.drain fuel d) := by
  induction fuel generalizing d with
  | zero => exact h
  | succ fuel ih =>
    unfold Dev.drain
    split
    · exact h
    · rename_i e u hp
      obtain ⟨he, n, rfl⟩ := pickDue_some hp
      exact ih _ (fire _ e (order d n h) he)

/-- With as much fuel as there is work, draining leaves nothing due. -/
theorem drain_settled (fuel : Nat) (d : Dev) (h : d.dueWork ≤ fuel) :
    (Dev.drain fuel d).now = d.now ∧ (Dev.drain fuel d).settled := by
  induction fuel generalizing d with
  | zero =>
    refine ⟨rfl, fun e he => Nat.lt_of_not_le fun hle => ?_⟩
    have he' : e ∈ d.events := he
    have hle' : e.timestamp ≤ d.now := hle
    have := workOf_filter_lt (now := d.now) (p := fun _ => false) he' rfl
    rw [dueWork_eq] at h
    have hl : 0 < lateness d.now e := by simp [lateness, hle']
    omega
  | succ fuel ih =>
    unfold Dev.drain
    split
    · rename_i hp; exact ⟨rfl, pickDue_none hp⟩
    · rename_i e u hp
      obtain ⟨he, n, rfl⟩ := pickDue_some hp
      obtain ⟨hm, hle, -⟩ := mem_earliestDue.mp he
      obtain ⟨hn, hw⟩ := fire_work (({ d with orderDraws := n } : Dev).removeEvent e.handle) e hle
      have hf := workOf_filter_lt (now := d.now) (p := fun f => f.handle != e.handle) hm (by simp)
      have := ih ((({ d with orderDraws := n } : Dev).removeEvent e.handle).fire e) (by
        rw [dueWork_eq, hn]
        rw [dueWork_eq] at h
        have hw' : workOf d.now ((({ d with orderDraws := n } : Dev).removeEvent e.handle).fire e).events <
          workOf d.now (d.events.filter fun f => f.handle != e.handle) + lateness d.now e := hw
        have : (({ d with orderDraws := n } : Dev).removeEvent e.handle).now = d.now := rfl
        rw [this]
        omega)
      exact ⟨this.1.trans hn, this.2⟩

/-! ## The parameter ACCESS_CYCLES is never changed (00_scope.md R11) -/

@[simp] theorem Dev.requestInterrupt_costs (d : Dev) (k : Fin 14) : (d.requestInterrupt k).costs = d.costs := rfl

@[simp] theorem Dev.answer_costs (occ : Occasion) (d : Dev) (n : Fin 4) : (d.answer occ n).costs = d.costs := by
  unfold Dev.answer; split <;> rfl

@[simp] theorem Dev.envCall_costs (d : Dev) (c : EnvCall) : (d.envCall c).costs = d.costs := by
  cases c with
  | requestInterrupt k => rfl
  | requestDma occ => simp [Dev.envCall, Dev.requestDma]

@[simp] theorem Dev.envCalls_costs (d : Dev) (cs : List EnvCall) : (cs.foldl Dev.envCall d).costs = d.costs := by
  induction cs generalizing d with
  | nil => rfl
  | cons c rest ih => exact (ih _).trans (d.envCall_costs c)

@[simp] theorem Dev.overflowIrq_costs (d : Dev) (i : Fin 4) : (d.overflowIrq i).costs = d.costs := by
  unfold Dev.overflowIrq; split <;> rfl

@[simp] theorem Dev.overflow_costs (is : List (Fin 4)) (d : Dev) : (Dev.overflow is d).costs = d.costs := by
  induction is generalizing d with
  | nil => rfl
  | cons i rest ih =>
    cases rest with
    | nil => exact d.overflowIrq_costs i
    | cons j above =>
      unfold Dev.overflow
      dsimp only
      split
      · split
        · exact (ih _).trans (d.overflowIrq_costs i)
        · exact d.overflowIrq_costs i
      · exact d.overflowIrq_costs i

@[simp] theorem Dev.fire_costs (d : Dev) (e : Event) : (d.fire e).costs = d.costs := by
  unfold Dev.fire; split
  · exact Dev.overflow_costs _ _
  · rfl
  · rfl
  · exact d.envCalls_costs _

@[simp] theorem Dev.advance_costs (d : Dev) (c : Nat) : (d.advance c).costs = d.costs :=
  drain_induct (P := fun u => u.costs = d.costs) (fun _ _ h => h) (fun _ _ h _ => (Dev.fire_costs _ _).trans h) _ _ rfl

@[simp] theorem Dev.passAccess_costs (d : Dev) (k : AccessKind) (a : Nat) (w : Width) (acc : AccessClass) :
    (d.passAccess k a w acc).costs = d.costs := by
  unfold Dev.passAccess Dev.touchPrefetch; split <;> simp

@[simp] theorem Dev.timerControlWrite_costs (d : Dev) (i : Fin 4) (v : Half) :
    (d.timerControlWrite i v).costs = d.costs := by
  have settle : (d.settle i).costs = d.costs := by
    unfold Dev.settle Dev.removeHandle; split <;> rfl
  have start : (if (d.timer i).isFreeRunning i then d.settle i else d).costs = d.costs := by
    split
    · exact settle
    · rfl
  unfold Dev.timerControlWrite
  generalize (if (d.timer i).isFreeRunning i then d.settle i else d) = u at start ⊢
  dsimp only
  split <;> split <;> exact start

@[simp] theorem Dev.dmaControlStore_costs (d : Dev) (n : Fin 4) (v : Half) :
    (d.dmaControlStore n v).costs = d.costs := by
  unfold Dev.dmaControlStore
  dsimp only
  split
  · split <;> rfl
  · split
    · unfold Dev.cancelStart; split <;> rfl
    · rfl

end Sys2Proof.Machine
end

