-- ==== Sys2Proof/Laws/Views.lean ====
section
/-!
SUPPORT. What an instruction that executes runs: one lemma for each shape of Sys2Proof/Safety.lean, in the parts
the shape names.
-/
namespace Sys2Proof.Machine
open Sys2Proof

@[simp] theorem State.setHazard_x (s : State) (b : Bool) (i : Reg) : (s.setHazard b).x i = s.x i := rfl

/-- Under the setting `arm7tdmi` of QUIRKS nothing is refused for it (00_scope.md R12). -/
theorem refuseQuirk_arm7tdmi (b : Bool) (e : Refusal) (r : Res State) : refuseQuirk b e r = r := rfl

theorem armInstr_runs {i : Instr} {s : State} {c : Cond} {uses : List Reg} (body : State → Res State)
    (h : i.Executes s) (hc : i.armCond = some c) (hn : i.names = uses) :
    armInstr c uses body s = body (s.setHazard false) := by
  subst hn
  simp only [armInstr, runInstr, h.cond c hc, h.hazard, if_true, Bool.false_eq_true, if_false]

theorem thumbInstr_runs {i : Instr} {s : State} {uses : List Reg} (body : State → Res State)
    (h : i.Executes s) (hn : i.names = uses) : thumbInstr uses body s = body (s.setHazard false) := by
  subst hn
  simp only [thumbInstr, runInstr, h.hazard, Bool.false_eq_true, if_false]

/-- A data-processing instruction that executes is `dpExecute` on its parts. -/
theorem exec_asDp {i : Instr} {p : DpParts} {s : State} (h : i.asDp = some p) (he : i.Executes s) :
    exec i s = dpExecute p.op p.sf p.rn p.rd p.o (s.setHazard false) := by
  cases i <;> simp only [Instr.asDp, reduceCtorEq, Option.some.injEq] at h
  all_goals (subst h; exact armInstr_runs _ he rfl rfl)

theorem exec_asLoad {i : Instr} {p : LoadParts} {s : State} (h : i.asLoad = some p) (he : i.Executes s) :
    exec i s =
      (fun s => refuseIf (addressRefused p.ix p.rn p.o || (p.rd == pcReg && !p.kind.allowsPc)) .unpredictable <|
        refuseQuirk (writesBack p.ix && p.rn == p.rd) .unpredictable <|
        loadAt p.kind (s.transferAddr p.ix p.rn p.up p.o) (writesBack p.ix) p.rn p.rd (s.movedBase p.rn p.up p.o) s)
      (s.setHazard false) := by
  cases i <;> simp only [Instr.asLoad, reduceCtorEq, Option.some.injEq] at h
  all_goals (subst h; exact armInstr_runs _ he rfl rfl)

theorem exec_asStore {i : Instr} {p : StoreParts} {s : State} (h : i.asStore = some p) (he : i.Executes s) :
    exec i s =
      (fun s => refuseIf (addressRefused p.ix p.rn p.o || (p.rd == pcReg && !p.kind.allowsPc)) .unpredictable <|
        refuseQuirk (writesBack p.ix && p.rn == p.rd) .unpredictable <|
        refuseQuirk (p.rd == pcReg) .implementationDefined <|
        storeAt p.kind (s.transferAddr p.ix p.rn p.up p.o) (s.storedReg p.rd) (writesBack p.ix) p.rn
          (s.movedBase p.rn p.up p.o) s) (s.setHazard false) := by
  cases i <;> simp only [Instr.asStore, reduceCtorEq, Option.some.injEq] at h
  all_goals (subst h; exact armInstr_runs _ he rfl rfl)

theorem exec_asLong {i : Instr} {p : LongParts} {s : State} (h : i.asLong = some p) (he : i.Executes s) :
    exec i s =
      (fun s => refuseIf ([p.rdHi, p.rdLo, p.rs, p.rm].contains pcReg || p.rdHi == p.rdLo) .unpredictable <|
        refuseQuirk (p.rdHi == p.rm || p.rdLo == p.rm) .unpredictable <|
        .next (mulLongFinish (mulCycles (s.x p.rs) p.signed + if p.acc then 2 else 1) p.sf p.rdHi p.rdLo
          (product64 p.signed (s.x p.rm) (s.x p.rs) + if p.acc then s.x p.rdHi ++ s.x p.rdLo else 0) s))
      (s.setHazard false) := by
  cases i <;> simp only [Instr.asLong, reduceCtorEq, Option.some.injEq] at h
  all_goals (subst h; exact armInstr_runs _ he rfl rfl)

theorem exec_asMul {i : Instr} {p : MulParts} {s : State} (h : i.asMul = some p) (he : i.Executes s) :
    exec i s =
      (fun s => refuseIf ((p.rd :: (p.acc.toList ++ [p.rs, p.rm])).contains pcReg) .unpredictable <|
        refuseQuirk (p.rd == p.rm) .unpredictable <|
        .next (mulFinish (mulCycles (s.x p.rs) true + if p.acc.isSome then 1 else 0) p.sf p.rd
          (s.x p.rm * s.x p.rs + match p.acc with | some rn => s.x rn | none => 0) s))
      (s.setHazard false) := by
  cases i <;> simp only [Instr.asMul, reduceCtorEq, Option.some.injEq] at h
  · subst h; exact armInstr_runs _ he rfl rfl
  · subst h; exact armInstr_runs _ he rfl rfl
  · rename_i rs rd
    subst h
    have e := thumbInstr_runs (i := .tMul rs rd) (fun s => refuseQuirk (rd == rs) .unpredictable <|
      .next (mulFinish (mulCycles (s.x rd.toReg) true) true rd.toReg (s.x rs.toReg * s.x rd.toReg) s)) he rfl
    have : ∀ r : LowReg, r.toReg ≠ pcReg := by decide
    have h15 : ([rd.toReg, rd.toReg, rs.toReg].contains pcReg) = false := by
      simp [Ne.symm (this rd), Ne.symm (this rs)]
    refine e.trans ?_
    dsimp only
    simp only [Option.toList, List.nil_append, h15, refuseIf, refuseQuirk, Config.quirks, Bool.false_eq_true, if_false,
      Option.isSome]
    simp

theorem thumbAlu_runs {i : Instr} {s : State} (op : AluOp) (a b : State → Word) (rd : LowReg) (he : i.Executes s)
    (hn : i.names = []) : thumbAlu op a b rd s = .next (thumbFinish op.isTest rd
      (op.apply (a (s.setHazard false)) (b (s.setHazard false)) s.cpu.cpsr.c s.cpu.cpsr) (s.setHazard false)) :=
  thumbInstr_runs _ he hn

theorem exec_asThumbAlu {i : Instr} {s : State} {p : ThumbAluParts} (h : i.asThumbAlu s = some p)
    (he : i.Executes s) : exec i s = .next (thumbFinish p.op.isTest p.rd
      (p.op.apply p.a p.b s.cpu.cpsr.c s.cpu.cpsr) (s.setHazard false)) := by
  cases i <;> simp only [Instr.asThumbAlu, reduceCtorEq, Option.some.injEq] at h
  all_goals subst h
  all_goals dsimp only [exec, execTAddReg, execTSubReg, execTAddImm3, execTSubImm3, execTMovImm8, execTCmpImm8,
    execTAddImm8, execTSubImm8, execTAnd, execTEor, execTAdc, execTSbc, execTTst, execTNeg, execTCmpReg, execTCmn,
    execTOrr, execTBic, execTMvn]
  all_goals rw [thumbAlu_runs _ _ _ _ he rfl]
  all_goals simp only [lowX, State.setHazard_x]

theorem shiftByImm_thumb (n : BitVec 5) (v : Word) (c : Bool) :
    shiftByImm .lsl v n c = shiftBy .lsl v n.toNat c ∧
    shiftByImm .lsr v n c = shiftBy .lsr v (if n = 0 then 32 else n.toNat) c ∧
    shiftByImm .asr v n c = shiftBy .asr v (if n = 0 then 32 else n.toNat) c := ⟨rfl, rfl, rfl⟩

theorem thumbShift_runs {i : Instr} {s : State} (sh : ShiftType) (n : BitVec 5) (rs rd : LowReg) (he : i.Executes s)
    (hn : i.names = []) : thumbShift sh n rs rd s = .next (thumbFinish false rd
      ⟨(shiftByImm sh (s.x rs.toReg) n s.cpu.cpsr.c).1, (shiftByImm sh (s.x rs.toReg) n s.cpu.cpsr.c).2,
        s.cpu.cpsr.v⟩ (s.setHazard false)) :=
  (thumbInstr_runs _ he hn).trans rfl

theorem thumbShiftReg_runs {i : Instr} {s : State} (sh : ShiftType) (rs rd : LowReg) (he : i.Executes s)
    (hn : i.names = []) : thumbShiftReg sh rs rd s = .next (thumbFinish false rd
      ⟨(shiftBy sh (s.x rd.toReg) ((s.x rs.toReg).toNat % 256) s.cpu.cpsr.c).1,
        (shiftBy sh (s.x rd.toReg) ((s.x rs.toReg).toNat % 256) s.cpu.cpsr.c).2, s.cpu.cpsr.v⟩
      (s.setHazard false).idle) :=
  (thumbInstr_runs _ he hn).trans rfl

theorem exec_asThumbShift {i : Instr} {s : State} {p : ThumbShiftParts} (h : i.asThumbShift s = some p)
    (he : i.Executes s) : exec i s = .next (thumbFinish false p.rd
      ⟨(shiftBy p.sh p.value p.amount s.cpu.cpsr.c).1, (shiftBy p.sh p.value p.amount s.cpu.cpsr.c).2, s.cpu.cpsr.v⟩
      (if p.reg then (s.setHazard false).idle else s.setHazard false)) := by
  cases i <;> simp only [Instr.asThumbShift, reduceCtorEq, Option.some.injEq] at h
  all_goals subst h
  all_goals dsimp only [exec, execTLslImm, execTLsrImm, execTAsrImm, execTLslReg, execTLsrReg, execTAsrReg, execTRorReg]
  all_goals first
    | rw [thumbShiftReg_runs _ _ _ he rfl]; rfl
    | rw [thumbShift_runs _ _ _ _ he rfl]; rfl

theorem thumbLoad_runs {i : Instr} {s : State} (k : LoadKind) (uses : List Reg) (rd : LowReg) (addr : State → Word)
    (he : i.Executes s) (hn : i.names = uses) : thumbLoad k uses rd addr s =
      loadAt k (addr (s.setHazard false)) false rd.toReg rd.toReg 0 (s.setHazard false) :=
  thumbInstr_runs _ he hn

theorem thumbStore_runs {i : Instr} {s : State} (k : StoreKind) (uses : List Reg) (rd : LowReg)
    (addr : State → Word) (he : i.Executes s) (hn : i.names = uses) : thumbStore k uses rd addr s =
      storeAt k (addr (s.setHazard false)) (s.x rd.toReg) false rd.toReg 0 (s.setHazard false) :=
  thumbInstr_runs _ he hn

theorem exec_asThumbLoad {i : Instr} {s : State} {p : ThumbLoadParts} (h : i.asThumbLoad s = some p)
    (he : i.Executes s) : exec i s = loadAt p.kind p.addr false p.rd.toReg p.rd.toReg 0 (s.setHazard false) := by
  cases i <;> simp only [Instr.asThumbLoad, reduceCtorEq, Option.some.injEq] at h
  all_goals subst h
  all_goals dsimp only [exec, execTLdrPc, execTLdrReg, execTLdrbReg, execTLdrhReg, execTLdsbReg, execTLdshReg,
    execTLdrImm, execTLdrbImm, execTLdrhImm, execTLdrSp]
  all_goals exact Eq.trans (thumbLoad_runs _ _ _ _ he (by rfl)) rfl

theorem exec_asThumbStore {i : Instr} {s : State} {p : ThumbStoreParts} (h : i.asThumbStore s = some p)
    (he : i.Executes s) : exec i s =
      storeAt p.kind p.addr (s.x p.rd.toReg) false p.rd.toReg 0 (s.setHazard false) := by
  cases i <;> simp only [Instr.asThumbStore, reduceCtorEq, Option.some.injEq] at h
  all_goals subst h
  all_goals dsimp only [exec, execTStrReg, execTStrbReg, execTStrhReg, execTStrImm, execTStrbImm, execTStrhImm,
    execTStrSp]
  all_goals exact Eq.trans (thumbStore_runs _ _ _ _ he (by rfl)) rfl

theorem exec_asMsr {i : Instr} {s : State} {p : MsrParts} (h : i.asMsr s = some p) (he : i.Executes s) :
    exec i s = msrBody p.spsr p.mask p.value (s.setHazard false) := by
  cases i <;> simp only [Instr.asMsr, reduceCtorEq, Option.some.injEq] at h
  · split at h
    · cases h
    · rename_i hr
      cases h
      refine (armInstr_runs _ he rfl rfl).trans ?_
      simp only [refuseIf, beq_iff_eq, hr, if_false]
      rfl
  · subst h; exact armInstr_runs _ he rfl rfl


/-- What a block transfer runs, once its base is not r15. -/
def blockBody (p : BlockParts) (s : State) : Res State :=
  if p.user then
    if p.load then
      refuseIf (s.cpu.noSpsr || emptyRefused p.list) .unpredictable <|
      if loadsPc p.list then ldmReturn p.mode p.wb p.rn p.list s
      else refuseIf p.wb .unpredictable (ldmUser p.mode p.rn p.list s)
    else
      refuseIf (p.wb || s.cpu.noSpsr || emptyRefused p.list) .unpredictable <|
      andThen (s.writeBlock storedXUsr id (blockRegs p.list)
        (alignAddr (blockStart p.mode (s.x p.rn) p.list) .word) .nonseq) fun t => .next t.endData
  else if p.load then ldmCore p.mode p.wb p.rn p.list s
  else stmCore p.mode p.wb p.rn p.list s

section
variable {i : Instr} {s : State} {mode : BlockMode} {c : Cond} {wb : Bool} {rn : Reg} {list : BitVec 16}

theorem ldmInstr_runs (he : i.Executes s) (hc : i.armCond = some c) (hn : i.names = rn :: blockRegs list)
    (hp : rn ≠ pcReg) : ldmInstr mode c wb rn list s =
      blockBody ⟨true, false, mode, wb, rn, list⟩ (s.setHazard false) := by
  rw [ldmInstr, armInstr_runs _ he hc hn]
  simp [refuseIf, hp, blockBody]

theorem stmInstr_runs (he : i.Executes s) (hc : i.armCond = some c) (hn : i.names = rn :: blockRegs list)
    (hp : rn ≠ pcReg) : stmInstr mode c wb rn list s =
      blockBody ⟨false, false, mode, wb, rn, list⟩ (s.setHazard false) := by
  rw [stmInstr, armInstr_runs _ he hc hn]
  simp [refuseIf, refuseQuirk, Config.quirks, hp, blockBody]

theorem ldmSInstr_runs (he : i.Executes s) (hc : i.armCond = some c)
    (hn : i.names = userBlockUses (loadsPc list) rn list) (hp : rn ≠ pcReg) : ldmSInstr mode c wb rn list s =
      blockBody ⟨true, true, mode, wb, rn, list⟩ (s.setHazard false) := by
  rw [ldmSInstr, armInstr_runs _ he hc hn]
  simp [beq_false_of_ne hp, blockBody, refuseQuirk_arm7tdmi]

theorem stmSInstr_runs (he : i.Executes s) (hc : i.armCond = some c) (hn : i.names = [rn])
    (hp : rn ≠ pcReg) : stmSInstr mode c wb rn list s =
      blockBody ⟨false, true, mode, wb, rn, list⟩ (s.setHazard false) := by
  rw [stmSInstr, armInstr_runs _ he hc hn]
  simp [refuseIf, refuseQuirk, Config.quirks, hp, blockBody]

end

/-- A block transfer that executes is its body. -/
theorem exec_asBlock {i : Instr} {s : State} {p : BlockParts} (h : i.asBlock = some p) (he : i.Executes s)
    (hp : p.rn ≠ pcReg) : exec i s = blockBody p (s.setHazard false) := by
  cases i <;> simp only [Instr.asBlock, reduceCtorEq, Option.some.injEq] at h
  all_goals subst h
  all_goals dsimp only at hp
  all_goals first
    | exact ldmInstr_runs he rfl rfl hp
    | exact stmInstr_runs he rfl rfl hp
    | exact ldmSInstr_runs he rfl rfl hp
    | exact stmSInstr_runs he rfl rfl hp
    | exact Eq.trans (thumbInstr_runs _ he (by rfl)) rfl

end Sys2Proof.Machine
end

