-- ==== Sys2Proof/Tests/Slice0.lean ====
section
/-!
SUPPORT. The model's own tests: a word of the spec's encoding for every constructor, one step for each instruction with
the result the spec's vectors or rules give (95_test_vectors.md; the rule of a test is that of the instruction), terms
that are not well formed, and for each statement a witness that meets its hypotheses.
-/
open Sys2Proof Sys2Proof.Machine
namespace Sys2Proof.Tests

/-- The start of the spec's single-instruction vectors (95_test_vectors.md, section 0): sys mode, nothing masked, the
instruction at 0x08000000 (0x08000100 in THUMB state) and a flush behind it. The flags are N, Z, C, V as bits 3 to 0. -/
def start (thumb : Bool) (regs : List (Reg × Word)) (flags : Nat) : State where
  cpu := regs.foldl (fun c p => c.setX p.1 p.2)
    { State.reset.cpu with
      pc := if thumb then 0x08000104 else 0x08000008
      cpsr := ⟨flags.testBit 3, flags.testBit 2, flags.testBit 1, flags.testBit 0, false, false, thumb, .sys⟩ }
  dev := Dev.resetAt 0
  mem := ([(0x03000000, 0x44332211), (0x03000004, 0x88776655), (0x03000008, 0x017FFF80)] : List (Nat × Word)).foldl
    (fun m p => m.store p.1 p.2 .word) []
  draws := 0

/-- One step on a word. -/
def run (thumb : Bool) (w : Nat) (regs : List (Reg × Word)) (flags : Nat) : Res State :=
  step ((start thumb regs flags).withFetchWord (if thumb then 16 else 32) w)

/-- Some registers and the flags of a next state. -/
def see (r : Res State) (rs : List Reg) : Option (List Word × Nat) :=
  match r with
  | .next u =>
    some (rs.map u.x, 8 * u.cpu.cpsr.n.toNat + 4 * u.cpu.cpsr.z.toNat + 2 * u.cpu.cpsr.c.toNat + u.cpu.cpsr.v.toNat)
  | .fault _ | .refused _ => none

/-- A word of memory of a next state. -/
def wordAt (r : Res State) (a : Nat) : Option Word :=
  match r with
  | .next u => some (u.mem.load a .word)
  | .fault _ | .refused _ => none

/-! ## Every constructor from a word written out of its encoding (30_encoding.md R155 to R182) -/

theorem test_decode_multiply_swap_and_refused : (([
    (0x112FFF14, .bx .ne 4),
    (0x8005089B, .mul .hi false 5 8 11),
    (0xD0369C92, .mla .le true 6 9 12 2),
    (0x2087A093, .umull .cs false 7 10 0 3),
    (0xE0B8B194, .umlal .al true 8 11 1 4),
    (0x10C9C295, .smull .ne false 9 12 2 5),
    (0x80FA0396, .smlal .hi true 10 0 3 6),
    (0xD10B1094, .swp .le 11 1 4),
    (0x214C2095, .swpb .cs 12 2 5),
    (0xE0400090, .armUnallocMul .al 0x400090),
    (0x100000D0, .hwUnalloc .ne 0xD0),
    (0x802000B0, .hwUnpred .hi 0x2000B0),
    (0x21200070, .armUnallocCtrl .cs 0x1200070),
    (0x27F000F0, .und .cs 0x7F000F0)] : List (Word × Instr)).all fun p => decodeArm p.1 == p.2) = true := by
  decide

theorem test_decode_halfword : (([
    (0xD1636AB7, .strhImm .le .pre false 3 6 0xA7),
    (0x208470BA, .strhReg .cs .post true 4 7 10),
    (0xE1558AB7, .ldrhImm .al .offset false 5 8 0xA7),
    (0x11B690BC, .ldrhReg .ne .pre true 6 9 12),
    (0x8057AAD7, .ldrsbImm .hi .post false 7 10 0xA7),
    (0xD198B0D1, .ldrsbReg .le .offset true 8 11 1),
    (0x2179CAF7, .ldrshImm .cs .pre false 9 12 0xA7),
    (0xE09A00F3, .ldrshReg .al .post true 10 0 3)] : List (Word × Instr)).all fun p => decodeArm p.1 == p.2) = true := by
  decide

theorem test_decode_branch_status_coprocessor : (([
    (0x114FB000, .mrs .ne true 11),
    (0x812BF00C, .msrReg .hi false 0xB 12),
    (0xD36BFBA7, .msrImm .le true 0xB 0xB 0xA7),
    (0x1AA5C3E1, .b .ne 0xA5C3E1),
    (0x8BA5C3E1, .bl .hi 0xA5C3E1),
    (0xDCA7ABA7, .ldcStc .le false true false true false 7 10 0xB 0xA7),
    (0x2EB8BBA1, .cdp .cs 0xB 8 11 0xB 5 1),
    (0xEEB9CBB2, .mrcMcr .al 5 true 9 12 0xB 5 2),
    (0x1FA5C3E1, .swi .ne 0xA5C3E1)] : List (Word × Instr)).all fun p => decodeArm p.1 == p.2) = true := by
  decide

theorem test_decode_dp_immediate_shift : (([
    (0xE0125B28, .andShImm .al true 2 5 0x16 .lsr 8),
    (0xD0258B0B, .eorShImm .le false 5 8 0x16 .lsl 11),
    (0x1058BB61, .subShImm .ne true 8 11 0x16 .ror 1),
    (0x206B1B44, .rsbShImm .cs false 11 1 0x16 .asr 4),
    (0x80914B27, .addShImm .hi true 1 4 0x16 .lsr 7),
    (0xE0A47B0A, .adcShImm .al false 4 7 0x16 .lsl 10),
    (0xD0D7AB60, .sbcShImm .le true 7 10 0x16 .ror 0),
    (0x10EA0B43, .rscShImm .ne false 10 0 0x16 .asr 3),
    (0x21103B26, .tstShImm .cs 0 3 0x16 .lsr 6),
    (0x81336B09, .teqShImm .hi 3 6 0x16 .lsl 9),
    (0xE1569B6C, .cmpShImm .al 6 9 0x16 .ror 12),
    (0xD179CB42, .cmnShImm .le 9 12 0x16 .asr 2),
    (0x119C2B25, .orrShImm .ne true 12 2 0x16 .lsr 5),
    (0x21A02B05, .movShImm .cs false 2 0x16 .lsl 5),
    (0x81D58B6B, .bicShImm .hi true 5 8 0x16 .ror 11),
    (0xE1E08B4B, .mvnShImm .al false 8 0x16 .asr 11)] : List (Word × Instr)).all fun p => decodeArm p.1 == p.2) = true := by
  decide

theorem test_decode_dp_register_shift : (([
    (0x1003695C, .andShReg .ne false 3 6 9 .asr 12),
    (0x20369C32, .eorShReg .cs true 6 9 12 .lsr 2),
    (0x8049C215, .subShReg .hi false 9 12 2 .lsl 5),
    (0xE07C2578, .rsbShReg .al true 12 2 5 .ror 8),
    (0xD082585B, .addShReg .le false 2 5 8 .asr 11),
    (0x10B58B31, .adcShReg .ne true 5 8 11 .lsr 1),
    (0x20C8B114, .sbcShReg .cs false 8 11 1 .lsl 4),
    (0x80FB1477, .rscShReg .hi true 11 1 4 .ror 7),
    (0xE111475A, .tstShReg .al 1 4 7 .asr 10),
    (0xD1347A30, .teqShReg .le 4 7 10 .lsr 0),
    (0x1157A013, .cmpShReg .ne 7 10 0 .lsl 3),
    (0x217A0376, .cmnShReg .cs 10 0 3 .ror 6),
    (0x81803659, .orrShReg .hi false 0 3 6 .asr 9),
    (0xE1B03639, .movShReg .al true 3 6 .lsr 9),
    (0xD1C69C12, .bicShReg .le false 6 9 12 .lsl 2),
    (0x11F09C72, .mvnShReg .ne true 9 12 .ror 2)] : List (Word × Instr)).all fun p => decodeArm p.1 == p.2) = true := by
  decide

theorem test_decode_dp_immediate : (([
    (0x82147BA7, .andImm .hi true 4 7 0xB 0xA7),
    (0xE227ABA7, .eorImm .al false 7 10 0xB 0xA7),
    (0xD25A0BA7, .subImm .le true 10 0 0xB 0xA7),
    (0x12603BA7, .rsbImm .ne false 0 3 0xB 0xA7),
    (0x22936BA7, .addImm .cs true 3 6 0xB 0xA7),
    (0x82A69BA7, .adcImm .hi false 6 9 0xB 0xA7),
    (0xE2D9CBA7, .sbcImm .al true 9 12 0xB 0xA7),
    (0xD2EC2BA7, .rscImm .le false 12 2 0xB 0xA7),
    (0x13125BA7, .tstImm .ne 2 5 0xB 0xA7),
    (0x23358BA7, .teqImm .cs 5 8 0xB 0xA7),
    (0x8358BBA7, .cmpImm .hi 8 11 0xB 0xA7),
    (0xE37B1BA7, .cmnImm .al 11 1 0xB 0xA7),
    (0xD3914BA7, .orrImm .le true 1 4 0xB 0xA7),
    (0x13A04BA7, .movImm .ne false 4 0xB 0xA7),
    (0x23D7ABA7, .bicImm .cs true 7 10 0xB 0xA7),
    (0x83E0ABA7, .mvnImm .hi false 10 0xB 0xA7)] : List (Word × Instr)).all fun p => decodeArm p.1 == p.2) = true := by
  decide

theorem test_decode_word_and_byte : (([
    (0xD52B1C35, .strImm .le .pre false 11 1 0xC35),
    (0x268C2B45, .strReg .cs .post true 12 2 0x16 .asr 5),
    (0xE4A03C35, .strtImm .al true 0 3 0xC35),
    (0x16214B07, .strtReg .ne false 1 4 0x16 .lsl 7),
    (0x84425C35, .strbImm .hi .post false 2 5 0xC35),
    (0xD7C36B49, .strbReg .le .offset true 3 6 0x16 .asr 9),
    (0x24E47C35, .strbtImm .cs true 4 7 0xC35),
    (0xE6658B0B, .strbtReg .al false 5 8 0x16 .lsl 11),
    (0x15169C35, .ldrImm .ne .offset false 6 9 0xC35),
    (0x87B7AB40, .ldrReg .hi .pre true 7 10 0x16 .asr 0),
    (0xD4B8BC35, .ldrtImm .le true 8 11 0xC35),
    (0x2639CB02, .ldrtReg .cs false 9 12 0x16 .lsl 2),
    (0xE57A0C35, .ldrbImm .al .pre false 10 0 0xC35),
    (0x16DB1B44, .ldrbReg .ne .post true 11 1 0x16 .asr 4),
    (0x84FC2C35, .ldrbtImm .hi true 12 2 0xC35),
    (0xD6703B06, .ldrbtReg .le false 0 3 0x16 .lsl 6)] : List (Word × Instr)).all fun p => decodeArm p.1 == p.2) = true := by
  decide

theorem test_decode_block : (([
    (0xE8829A65, .stmIa .al false 2 0x9A65),
    (0x18E39A65, .stmSIa .ne true 3 0x9A65),
    (0x88949A65, .ldmIa .hi false 4 0x9A65),
    (0xD8F59A65, .ldmSIa .le true 5 0x9A65),
    (0x29869A65, .stmIb .cs false 6 0x9A65),
    (0xE9E79A65, .stmSIb .al true 7 0x9A65),
    (0x19989A65, .ldmIb .ne false 8 0x9A65),
    (0x89F99A65, .ldmSIb .hi true 9 0x9A65),
    (0xD80A9A65, .stmDa .le false 10 0x9A65),
    (0x286B9A65, .stmSDa .cs true 11 0x9A65),
    (0xE81C9A65, .ldmDa .al false 12 0x9A65),
    (0x18709A65, .ldmSDa .ne true 0 0x9A65),
    (0x89019A65, .stmDb .hi false 1 0x9A65),
    (0xD9629A65, .stmSDb .le true 2 0x9A65),
    (0x29139A65, .ldmDb .cs false 3 0x9A65),
    (0xE9749A65, .ldmSDb .al true 4 0x9A65)] : List (Word × Instr)).all fun p => decodeArm p.1 == p.2) = true := by
  decide

theorem test_decode_thumb_1 : (([
    (0x58C, .tLslImm 0x16 1 4),
    (0xD95, .tLsrImm 0x16 2 5),
    (0x159E, .tAsrImm 0x16 3 6),
    (0x1939, .tAddReg 4 7 1),
    (0x1B42, .tSubReg 5 0 2),
    (0x1D71, .tAddImm3 5 6 1),
    (0x1F7A, .tSubImm3 5 7 2),
    (0x20A7, .tMovImm8 0 0xA7),
    (0x29A7, .tCmpImm8 1 0xA7),
    (0x32A7, .tAddImm8 2 0xA7),
    (0x3BA7, .tSubImm8 3 0xA7),
    (0x4027, .tAnd 4 7),
    (0x4068, .tEor 5 0),
    (0x40B1, .tLslReg 6 1),
    (0x40FA, .tLsrReg 7 2),
    (0x4103, .tAsrReg 0 3),
    (0x414C, .tAdc 1 4),
    (0x4195, .tSbc 2 5),
    (0x41DE, .tRorReg 3 6),
    (0x4227, .tTst 4 7)] : List (Half × Instr)).all fun p => decodeThumb p.1 == p.2) = true := by
  decide

theorem test_decode_thumb_2 : (([
    (0x4268, .tNeg 5 0),
    (0x42B1, .tCmpReg 6 1),
    (0x42FA, .tCmn 7 2),
    (0x4303, .tOrr 0 3),
    (0x434C, .tMul 1 4),
    (0x4395, .tBic 2 5),
    (0x43DE, .tMvn 3 6),
    (0x4462, .tAddHi 12 2),
    (0x4503, .tCmpHi 0 3),
    (0x460C, .tMovHi 1 4),
    (0x4715, .tBx 2 5),
    (0x48A7, .tLdrPc 0 0xA7),
    (0x5066, .tStrReg 1 4 6),
    (0x54AF, .tStrbReg 2 5 7),
    (0x58F0, .tLdrReg 3 6 0),
    (0x5D39, .tLdrbReg 4 7 1),
    (0x5342, .tStrhReg 5 0 2),
    (0x5B8B, .tLdrhReg 6 1 3),
    (0x57D4, .tLdsbReg 7 2 4),
    (0x5E1D, .tLdshReg 0 3 5)] : List (Half × Instr)).all fun p => decodeThumb p.1 == p.2) = true := by
  decide

theorem test_decode_thumb_3 : (([
    (0x658C, .tStrImm 0x16 1 4),
    (0x6D95, .tLdrImm 0x16 2 5),
    (0x759E, .tStrbImm 0x16 3 6),
    (0x7DA7, .tLdrbImm 0x16 4 7),
    (0x85A8, .tStrhImm 0x16 5 0),
    (0x8DB1, .tLdrhImm 0x16 6 1),
    (0x97A7, .tStrSp 7 0xA7),
    (0x98A7, .tLdrSp 0 0xA7),
    (0xA1A7, .tAddPc 1 0xA7),
    (0xAAA7, .tAddSp 2 0xA7),
    (0xB0D3, .tAddSpImm true 0x53),
    (0xB4A7, .tPush false 0xA7),
    (0xBDA7, .tPop true 0xA7),
    (0xDE2A, .tUnalloc 0xDE2A),
    (0xC7A7, .tStmia 7 0xA7),
    (0xC8A7, .tLdmia 0 0xA7),
    (0xDFA7, .tSwi 0xA7),
    (0xDBA7, .tBcond .lt 0xA7),
    (0xE5B6, .tB 0x5B6),
    (0xF5B6, .tBlPrefix 0x5B6)] : List (Half × Instr)).all fun p => decodeThumb p.1 == p.2) = true := by
  decide

theorem test_decode_thumb_4 : (([
    (0xFDB6, .tBlSuffix 0x5B6)] : List (Half × Instr)).all fun p => decodeThumb p.1 == p.2) = true := by
  decide

/-! ## One step: registers and flags -/

theorem test_movs_lsl_1_takes_bit_31_as_carry : see (run false 0xE1B00081 [(1, 0x80000001)] 1) [0] = some ([2], 3) := by
  decide
theorem test_movs_lsl_register_32 : see (run false 0xE1B00312 [(2, 1), (3, 0x20)] 0) [0] = some ([0], 6) := by
  decide
theorem test_movs_lsr_0_is_32 : see (run false 0xE1B00021 [(1, 0x80000001)] 0) [0] = some ([0], 6) := by
  decide
theorem test_movs_asr_0_is_32 : see (run false 0xE1B00041 [(1, 0x80000000)] 0) [0] = some ([0xFFFFFFFF], 10) := by
  decide
theorem test_movs_rrx : see (run false 0xE1B00061 [(1, 1)] 2) [0] = some ([0x80000000], 10) := by
  decide
theorem test_mov_rotated_immediate : see (run false 0xE3A004FF [] 0) [0] = some ([0xFF000000], 0) := by
  decide
theorem test_mvns_keeps_c_and_v : see (run false 0xE3F00000 [] 3) [0] = some ([0xFFFFFFFF], 11) := by
  decide
theorem test_ands_keeps_c : see (run false 0xE21100FF [(1, 0x12345600)] 2) [0] = some ([0], 6) := by
  decide
theorem test_eor : see (run false 0xE0210002 [(1, 0xFF00FF00), (2, 0xFF00FF0)] 0) [0] = some ([0xF0F0F0F0], 0) := by
  decide
theorem test_subs_overflow : see (run false 0xE0510002 [(1, 0x80000000), (2, 1)] 0) [0] = some ([0x7FFFFFFF], 3) := by
  decide
theorem test_rsbs : see (run false 0xE2710000 [(1, 1)] 0) [0] = some ([0xFFFFFFFF], 8) := by
  decide
theorem test_adds_wraps : see (run false 0xE0910002 [(1, 0xFFFFFFFF), (2, 1)] 0) [0] = some ([0], 6) := by
  decide
theorem test_add_pc_reads_a_plus_12_beside_a_register_shift : see (run false 0xE08F0211 [] 0) [0] = some ([0x800000C], 0) := by
  decide
theorem test_adcs : see (run false 0xE0B10002 [(1, 0x7FFFFFFF)] 2) [0] = some ([0x80000000], 9) := by
  decide
theorem test_sbcs_borrows : see (run false 0xE0D10002 [] 0) [0] = some ([0xFFFFFFFF], 8) := by
  decide
theorem test_rscs_borrows : see (run false 0xE0F10002 [] 0) [0] = some ([0xFFFFFFFF], 8) := by
  decide
theorem test_tst_rotated_immediate : see (run false 0xE3110102 [(1, 0x80000000)] 0) [0] = some ([0], 10) := by
  decide
theorem test_teq_keeps_c : see (run false 0xE1310001 [(1, 0x1234)] 10) [1] = some ([0x1234], 6) := by
  decide
theorem test_cmp_below : see (run false 0xE1510002 [(1, 4), (2, 5)] 0) [1] = some ([4], 8) := by
  decide
theorem test_cmn : see (run false 0xE1710002 [(1, 0xFFFFFFFF), (2, 1)] 0) [1] = some ([0xFFFFFFFF], 6) := by
  decide
theorem test_orr : see (run false 0xE1810202 [(1, 1), (2, 0x10)] 0) [0] = some ([0x101], 0) := by
  decide
theorem test_bic : see (run false 0xE3C100FF [(1, 0x12345678)] 0) [0] = some ([0x12345600], 0) := by
  decide
theorem test_nv_never_passes : see (run false 0xF3A00001 [(0, 9)] 0) [0, 15] = some ([9, 0x800000C], 0) := by
  decide
theorem test_mov_pc_flushes_and_stays_in_arm : see (run false 0xE1A0F000 [(0, 0x8000103)] 0) [15] = some ([0x8000108], 0) := by
  decide
theorem test_mul_wraps : see (run false 0xE0000291 [(1, 0x10000), (2, 0x10000)] 0) [0] = some ([0], 0) := by
  decide
theorem test_mla : see (run false 0xE0203291 [(1, 0xFFFFFFFF), (2, 1), (3, 1)] 0) [0] = some ([0], 0) := by
  decide
theorem test_umull : see (run false 0xE0810392 [(2, 0xFFFFFFFF), (3, 0xFFFFFFFF)] 0) [0, 1] = some ([1, 0xFFFFFFFE], 0) := by
  decide
theorem test_umlal_wraps : see (run false 0xE0A10392 [(0, 0xFFFFFFFF), (1, 0xFFFFFFFF), (2, 1), (3, 1)] 0) [0, 1] = some ([0, 0], 0) := by
  decide
theorem test_smull : see (run false 0xE0C10392 [(2, 0x80000000), (3, 0x80000000)] 0) [0, 1] = some ([0, 0x40000000], 0) := by
  decide
theorem test_smlal : see (run false 0xE0E10392 [(0, 2), (2, 0xFFFFFFFF), (3, 2)] 0) [0, 1] = some ([0, 0], 0) := by
  decide
theorem test_ldr_rotates : see (run false 0xE5910003 [(1, 0x3000000)] 0) [0] = some ([0x33221144], 0) := by
  decide
theorem test_ldr_post_index : see (run false 0xE4910004 [(1, 0x3000000)] 0) [0, 1] = some ([0x44332211, 0x3000004], 0) := by
  decide
theorem test_ldr_pre_index : see (run false 0xE5B10004 [(1, 0x3000000)] 0) [0, 1] = some ([0x88776655, 0x3000004], 0) := by
  decide
theorem test_ldrb : see (run false 0xE5D10003 [(1, 0x3000000)] 0) [0] = some ([0x44], 0) := by
  decide
theorem test_ldrh_odd : see (run false 0xE1D100B1 [(1, 0x3000000)] 0) [0] = some ([0x11000022], 0) := by
  decide
theorem test_ldrsb : see (run false 0xE1D100D8 [(1, 0x3000000)] 0) [0] = some ([0xFFFFFF80], 0) := by
  decide
theorem test_ldrsh_odd_is_ldrsb : see (run false 0xE1D100F9 [(1, 0x3000000)] 0) [0] = some ([0xFFFFFFFF], 0) := by
  decide
theorem test_ldmia_base_in_list_takes_the_load : see (run false 0xE8B00003 [(0, 0x3000000)] 0) [0, 1] = some ([0x44332211, 0x88776655], 0) := by
  decide
theorem test_b_to_itself : see (run false 0xEAFFFFFE [] 0) [15] = some ([0x8000008], 0) := by
  decide
theorem test_bl : see (run false 0xEB00003E [] 0) [14, 15] = some ([0x8000004, 0x8000108], 0) := by
  decide
theorem test_bx_to_thumb : see (run false 0xE12FFF10 [(0, 0x8000101)] 0) [15] = some ([0x8000104], 0) := by
  decide
theorem test_mrs_cpsr : see (run false 0xE10F0000 [] 6) [0] = some ([0x6000001F], 6) := by
  decide
theorem test_msr_immediate_flags : see (run false 0xE328F20F [] 0) [] = some ([], 15) := by
  decide
theorem test_swi : see (run false 0xEF000005 [] 0) [14, 15] = some ([0x8000004, 0x10], 0) := by
  decide
theorem test_undefined : see (run false 0xE7F000F0 [] 0) [14, 15] = some ([0x8000004, 0xC], 0) := by
  decide
theorem test_cdp : see (run false 0xEE000100 [] 0) [14, 15] = some ([0x8000004, 0xC], 0) := by
  decide
theorem test_t_lsl_0_keeps_c : see (run true 8 [(1, 0x80000000)] 2) [0] = some ([0x80000000], 10) := by
  decide
theorem test_t_lsr_0_is_32 : see (run true 0x808 [(1, 0x80000000)] 0) [0] = some ([0], 6) := by
  decide
theorem test_t_asr_0_is_32 : see (run true 0x1008 [(1, 0x80000000)] 0) [0] = some ([0xFFFFFFFF], 10) := by
  decide
theorem test_t_add_register : see (run true 0x1888 [(1, 0xFFFFFFFF), (2, 1)] 0) [0] = some ([0], 6) := by
  decide
theorem test_t_sub_register : see (run true 0x1A88 [(1, 0x80000000), (2, 1)] 0) [0] = some ([0x7FFFFFFF], 3) := by
  decide
theorem test_t_add_imm3_zero : see (run true 0x1C18 [(3, 7)] 15) [0] = some ([7], 0) := by
  decide
theorem test_t_sub_imm3 : see (run true 0x1E48 [] 0) [0] = some ([0xFFFFFFFF], 8) := by
  decide
theorem test_t_mov_zero_keeps_c_and_v : see (run true 0x2000 [(0, 5)] 3) [0] = some ([0], 7) := by
  decide
theorem test_t_cmp_imm8 : see (run true 0x28FF [(0, 0xFF)] 0) [0] = some ([0xFF], 6) := by
  decide
theorem test_t_add_imm8 : see (run true 0x30FF [(0, 1)] 0) [0] = some ([0x100], 0) := by
  decide
theorem test_t_sub_imm8 : see (run true 0x3801 [(0, 1)] 0) [0] = some ([0], 6) := by
  decide
theorem test_t_and : see (run true 0x4008 [(0, 0xF0F0F0F0), (1, 0xFF00FF0)] 0) [0] = some ([0xF000F0], 0) := by
  decide
theorem test_t_eor : see (run true 0x4048 [(0, 0x12345678), (1, 0x12345678)] 0) [0] = some ([0], 4) := by
  decide
theorem test_t_lsl_register : see (run true 0x4088 [(0, 1), (1, 0x20)] 0) [0] = some ([0], 6) := by
  decide
theorem test_t_lsr_register : see (run true 0x40C8 [(0, 0x80000000), (1, 0x1F)] 0) [0] = some ([1], 0) := by
  decide
theorem test_t_asr_register : see (run true 0x4108 [(0, 0x80000000), (1, 0xC8)] 0) [0] = some ([0xFFFFFFFF], 10) := by
  decide
theorem test_t_adc : see (run true 0x4148 [(0, 0x7FFFFFFF)] 2) [0] = some ([0x80000000], 9) := by
  decide
theorem test_t_sbc : see (run true 0x4188 [(0, 5), (1, 5)] 0) [0] = some ([0xFFFFFFFF], 8) := by
  decide
theorem test_t_ror_32 : see (run true 0x41C8 [(0, 0x80000001), (1, 0x20)] 0) [0] = some ([0x80000001], 10) := by
  decide
theorem test_t_tst : see (run true 0x4208 [(0, 1), (1, 2)] 3) [0] = some ([1], 7) := by
  decide
theorem test_t_neg : see (run true 0x4248 [(1, 1)] 0) [0] = some ([0xFFFFFFFF], 8) := by
  decide
theorem test_t_cmp_register : see (run true 0x4288 [(0, 0x80000000), (1, 1)] 0) [] = some ([], 3) := by
  decide
theorem test_t_cmn : see (run true 0x42C8 [(0, 1), (1, 0xFFFFFFFF)] 0) [] = some ([], 6) := by
  decide
theorem test_t_orr : see (run true 0x4308 [(0, 0x80000000), (1, 1)] 0) [0] = some ([0x80000001], 8) := by
  decide
theorem test_t_bic : see (run true 0x4388 [(0, 0xFF), (1, 0xF)] 0) [0] = some ([0xF0], 0) := by
  decide
theorem test_t_mvn : see (run true 0x43C8 [] 0) [0] = some ([0xFFFFFFFF], 8) := by
  decide
theorem test_t_add_hi : see (run true 0x4440 [(0, 1), (8, 0xFFFFFFFF)] 0) [0] = some ([0], 0) := by
  decide
theorem test_t_cmp_hi : see (run true 0x4580 [(0, 7), (8, 7)] 0) [] = some ([], 6) := by
  decide
theorem test_t_mov_hi_to_itself : see (run true 0x46C0 [(8, 5)] 0) [8, 15] = some ([5, 0x8000106], 0) := by
  decide
theorem test_t_bx_to_arm : see (run true 0x4700 [(0, 0x8000200)] 0) [15] = some ([0x8000208], 0) := by
  decide
theorem test_t_ldr_register : see (run true 0x5888 [(1, 0x3000000), (2, 2)] 0) [0] = some ([0x22114433], 0) := by
  decide
theorem test_t_ldrb_register : see (run true 0x5C88 [(1, 0x3000000)] 0) [0] = some ([0x11], 0) := by
  decide
theorem test_t_ldrh_register : see (run true 0x5A88 [(1, 0x3000002)] 0) [0] = some ([0x4433], 0) := by
  decide
theorem test_t_ldsb : see (run true 0x5688 [(1, 0x3000008)] 0) [0] = some ([0xFFFFFF80], 0) := by
  decide
theorem test_t_ldsh : see (run true 0x5E88 [(1, 0x3000008)] 0) [0] = some ([0xFFFFFF80], 0) := by
  decide
theorem test_t_ldr_immediate : see (run true 0x6848 [(1, 0x3000000)] 0) [0] = some ([0x88776655], 0) := by
  decide
theorem test_t_ldrb_immediate : see (run true 0x7848 [(1, 0x3000000)] 0) [0] = some ([0x22], 0) := by
  decide
theorem test_t_ldrh_immediate_odd : see (run true 0x8808 [(1, 0x3000001)] 0) [0] = some ([0x11000022], 0) := by
  decide
theorem test_t_add_pc : see (run true 0xA001 [] 0) [0] = some ([0x8000108], 0) := by
  decide
theorem test_t_add_sp : see (run true 0xA902 [(13, 0x3007F00)] 0) [1] = some ([0x3007F08], 0) := by
  decide
theorem test_t_sub_from_sp : see (run true 0xB0FF [(13, 0x3007F00)] 0) [13] = some ([0x3007D04], 0) := by
  decide
theorem test_t_ldmia : see (run true 0xC806 [(0, 0x3000000)] 0) [0, 1, 2] = some ([0x3000008, 0x44332211, 0x88776655], 0) := by
  decide
theorem test_t_bcond_not_taken : see (run true 0xD000 [] 0) [15] = some ([0x8000106], 0) := by
  decide
theorem test_t_bcond_taken : see (run true 0xD000 [] 4) [15] = some ([0x8000108], 4) := by
  decide
theorem test_t_b_to_itself : see (run true 0xE7FE [] 0) [15] = some ([0x8000104], 0) := by
  decide
theorem test_t_swi : see (run true 0xDF00 [] 0) [14, 15] = some ([0x8000102, 0x10], 0) := by
  decide
theorem test_t_bl_first_half : see (run true 0xF7FE [] 0) [14] = some ([0x7FFE104], 0) := by
  decide
theorem test_t_bl_second_half : see (run true 0xFFFE [(14, 0x8000004)] 0) [14, 15] = some ([0x8000103, 0x8001004], 0) := by
  decide

/-! ## Stores: a word of memory after the step -/

theorem test_str : wordAt (run false 0xE5810001 [(1, 0x3000000), (0, 0xDEADBEEF)] 0) 0x3000000 = some 0xDEADBEEF := by
  decide
theorem test_strb : wordAt (run false 0xE5C10005 [(1, 0x3000000), (0, 0x1FF)] 0) 0x3000004 = some 0x8877FF55 := by
  decide
theorem test_strh : wordAt (run false 0xE1C100B3 [(1, 0x3000000), (0, 0xABCD)] 0) 0x3000000 = some 0xABCD2211 := by
  decide
theorem test_stmda_lowest_first : wordAt (run false 0xE820000E [(0, 0x3000100), (1, 1), (2, 2), (3, 3)] 0) 0x30000F8 = some 1 := by
  decide
theorem test_stm_base_not_lowest : wordAt (run false 0xE8A10003 [(1, 0x3000100), (0, 7)] 0) 0x3000104 = some 0x3000108 := by
  decide
theorem test_swp : wordAt (run false 0xE1020091 [(2, 0x3000001), (1, 0x99)] 0) 0x3000000 = some 0x99 := by
  decide
theorem test_swpb : wordAt (run false 0xE1420091 [(2, 0x3000001), (1, 0x1AB)] 0) 0x3000000 = some 0x4433AB11 := by
  decide
theorem test_t_str_register : wordAt (run true 0x5088 [(0, 7), (1, 0x3000000), (2, 8)] 0) 0x3000008 = some 7 := by
  decide
theorem test_t_strb_register : wordAt (run true 0x5488 [(0, 0x1234), (1, 0x3000000), (2, 3)] 0) 0x3000000 = some 0x34332211 := by
  decide
theorem test_t_strh_register : wordAt (run true 0x5288 [(0, 0x12345678), (1, 0x3000002)] 0) 0x3000000 = some 0x56782211 := by
  decide
theorem test_t_str_immediate : wordAt (run true 0x6048 [(0, 9), (1, 0x3000000)] 0) 0x3000004 = some 9 := by
  decide
theorem test_t_strb_immediate : wordAt (run true 0x77C8 [(0, 0xAB), (1, 0x3000000)] 0) 0x300001C = some 0xAB000000 := by
  decide
theorem test_t_strh_immediate : wordAt (run true 0x8048 [(0, 0xBEEF), (1, 0x3000000)] 0) 0x3000000 = some 0xBEEF2211 := by
  decide
theorem test_t_str_sp : wordAt (run true 0x9001 [(0, 9), (13, 0x3007F00)] 0) 0x3007F04 = some 9 := by
  decide
theorem test_t_push : wordAt (run true 0xB510 [(13, 0x3007F00), (4, 0x2C), (14, 0x63)] 0) 0x3007EFC = some 0x63 := by
  decide
theorem test_t_stmia : wordAt (run true 0xC006 [(0, 0x3000000), (1, 1), (2, 2)] 0) 0x3000004 = some 2 := by
  decide

/-! ## Refusals, time, interrupts, timers and DMA -/

/-- Why a result is a refusal. -/
def why (r : Res State) : Option Refusal :=
  match r with
  | .refused e => some e
  | .next _ | .fault _ => none

/-- The time a step from time 0 took. -/
def cost (r : Res State) : Option Nat :=
  match r with
  | .next u => some u.dev.now
  | .fault _ | .refused _ => none

/-- R170: the index of BKPT on later cores. -/
theorem test_unallocated_arm : why (run false 0xE1200070 [] 0) = some .unallocated := by decide
/-- R182. -/
theorem test_unallocated_thumb : why (run true 0xE800 [] 0) = some .unallocated := by decide
/-- R354. -/
theorem test_msr_refuses_t_change : why (run false 0xE121F000 [(0, 0x3F)] 0) = some .tChange := by decide
/-- 10_state.md R33. -/
theorem test_msr_refuses_invalid_mode : why (run false 0xE121F000 [(0, 0x15)] 0) = some .invalidMode := by decide
/-- R350: sys has no SPSR. -/
theorem test_mrs_refuses_spsr_in_sys : why (run false 0xE14F0000 [] 0) = some .noSpsr := by decide
/-- R263: Rd = 15. -/
theorem test_mul_refuses_pc : why (run false 0xE00F0291 [] 0) = some .unpredictable := by decide
/-- R260, 70_reset_and_hazards.md R731: 1S + 4I in game pak ROM, and one more for the long form. -/
theorem test_umull_time : cost (run false 0xE0810392 [(2, 0xFFFFFFFF), (3, 0xFFFFFFFF)] 0) = some 11 := by decide
/-- R291, R733: 1S, an IWRAM access of one cycle and 1I. -/
theorem test_ldr_time : cost (run false 0xE5910000 [(1, 0x03000000)] 0) = some 8 := by decide
/-- R45, R733: a branch in game pak ROM costs its fetch, then 8 and 6 cycles. -/
theorem test_b_time : cost (run false 0xEAFFFFFE [] 0) = some 20 := by decide

/-- 61_scheduler.md R565, 95_test_vectors.md 1.1: only the events due fire, the earliest first. -/
theorem test_advance_fires_due_events :
    (((Dev.resetAt 0).addEvent 10 (.irqUpdate true)).addEvent 5 (.external [.requestInterrupt 3])).advance 6 =
      { ((((Dev.resetAt 0).addEvent 10 (.irqUpdate true)).addEvent 5
          (.external [.requestInterrupt 3])).advance 6) with
        iflag := 8, irqSignal := false, now := 6 } := by
  decide

/-- 63_timers.md R653, 95_test_vectors.md 1.7: TM0 with reload 0xFFF0 and TM1 cascaded with reload 0xFFFE. -/
def cascade : Dev :=
  ((((Dev.resetAt 0).timerReloadWrite 0 0xFFF0).timerReloadWrite 1 0xFFFE).timerControlWrite 1 0x84).timerControlWrite 0
    0x80

theorem test_cascade_before_overflow :
    ((cascade.advance 17).timer 0).counter 0 17 = 0xFFFF ∧ ((cascade.advance 17).timer 1).base = 0xFFFE := by
  decide
theorem test_cascade_at_second_overflow :
    ((cascade.advance 34).timer 0).counter 0 34 = 0xFFF0 ∧ ((cascade.advance 34).timer 1).base = 0xFFFE := by
  decide

/-- 95_test_vectors.md 1.6: two words moved by DMA0 in IWRAM take 4 cycles. -/
def dmaStart : State :=
  let d := ((Dev.resetAt 100).setChannel 0 { DmaChannel.reset with sad := 0x03000000, dad := 0x03001000, cntL := 2 })
  { start false [] 0 with dev := ((d.dmaControlStore 0 0x8400).advance 2) }

theorem test_dma_moves_words :
    wordAt (step dmaStart) 0x03001004 = some 0x88776655 ∧ cost (step dmaStart) = some 106 := by
  decide

/-- 60_exceptions.md R508: an IRQ at a boundary in THUMB state saves PC itself. -/
theorem test_irq_entry_from_thumb :
    (let s := start true [] 0
     see (step { s with dev := { s.dev with irqSignal := true } }) [14, 15]) = some ([0x08000104, 0x20], 0) := by
  decide

/-! ## Ill-formed terms are refused, one for each check -/

theorem test_ill_formed_armUnallocMul : (Instr.armUnallocMul .al 0x00000091).wellFormed = false := by decide
theorem test_ill_formed_hwUnalloc : (Instr.hwUnalloc .al 0x01000D0F).wellFormed = false := by decide
theorem test_ill_formed_hwUnpred : (Instr.hwUnpred .al 0x00000B0).wellFormed = false := by decide
theorem test_ill_formed_armUnallocCtrl : (Instr.armUnallocCtrl .al 0x12FFF11).wellFormed = false := by decide
theorem test_ill_formed_und : (Instr.und .al 0x6000000).wellFormed = false := by decide
theorem test_ill_formed_tUnalloc : (Instr.tUnalloc 0xDF00).wellFormed = false := by decide
theorem test_ill_formed_tBcond_al : (Instr.tBcond .al 0).wellFormed = false := by decide
theorem test_ill_formed_tBcond_nv : (Instr.tBcond .nv 0).wellFormed = false := by decide

/-! ## Witnesses: a state and operands that meet every hypothesis of each statement, clause by clause -/

theorem executes_arm {i : Instr} {s : State} (hc : i.armCond = some .al) (ht : s.cpu.cpsr.t = false)
    (hh : s.hazardStops i.names = false) : i.Executes s :=
  ⟨by rw [hc, ht]; rfl, (fun c h => by rw [hc] at h; cases h; rfl), hh⟩

theorem executes_thumb {i : Instr} {s : State} (hc : i.armCond = none) (ht : s.cpu.cpsr.t = true)
    (hh : s.hazardStops i.names = false) : i.Executes s :=
  ⟨by rw [hc, ht]; rfl, (fun c h => by rw [hc] at h; cases h), hh⟩

/-- ARM state, sys mode, r1 at the top of IWRAM's first mirror and r2 at IE. -/
def sA : State := start false [(1, 0x03007FFC), (2, 0x04000200), (3, 0x04000300)] 0

/-- THUMB state, the same. -/
def sT : State := start true [(1, 0x03007FFC), (2, 0x04000200), (13, 0x03007F00)] 0

/-- The same ARM state in another mode, with an SPSR of every bank that returns to usr in THUMB state. -/
def sIn (m : Mode) : State :=
  let p : Spsr := ⟨true, false, true, false, false, true, true, 0x10⟩
  { sA with
    cpu := { sA.cpu with
      cpsr := { sA.cpu.cpsr with mode := m }
      spsrFiq := p
      spsrIrq := p
      spsrSvc := p
      spsrAbt := p
      spsrUnd := p } }

/-- Bases in game pak ROM, at another device, at an odd byte of VRAM, at IE, at HALTCNT and at DMA0CNT_L; r0 holds a
refused DMA control value in its high half and HALTCNT's bit 7. -/
def baseRegs : List (Reg × Word) :=
  [(0, 0x81800080), (1, 0x08000000), (2, 0x04000000), (3, 0x06000001), (4, 0x04000200), (5, 0x04000301), (6, 0x040000B8)]

/-- ARM state over those bases. -/
def sB : State := start false baseRegs 0

/-- THUMB state over those bases. -/
def sBT : State := start true baseRegs 0

/-- Is this a register of the block? -/
def inBlock : Target → Bool
  | .io _ => true
  | .ram _ | .rom _ | .openBus => false

theorem witness_DecodeEncode : (Instr.mul .nv true 15 0 15).wellFormed = true ∧
    (Instr.mul .nv true 15 0 15).width = 32 ∧ (Instr.tBcond .le 0xFF).wellFormed = true ∧
      (Instr.tBcond .le 0xFF).width = 16 := by decide

theorem witness_WholeSpaces :
    ((0x0AFFFFFF : Word).extractLsb' 25 3 = 5 ∧ (0x0AFFFFFF : Word).getLsbD 24 = false) ∧
    ((0x0B000000 : Word).extractLsb' 25 3 = 5 ∧ (0x0B000000 : Word).getLsbD 24 = true) ∧
    (0xFF000000 : Word).extractLsb' 24 4 = 15 ∧
    (0x06000010 : Word).extractLsb' 25 3 = 3 ∧ (0x06000010 : Word).getLsbD 4 = true := by decide

theorem witness_StepRunsInstruction : ∀ s ∈ [sA, sT],
    (∀ n, (s.dev.channel n).status ≠ .running) ∧ (s.dev.halted = false ∨ s.dev.ie &&& s.dev.iflag ≠ 0) ∧
    (s.dev.irqSignal = true → s.cpu.cpsr.i = true) ∧
    (s.cpu.cpsr.t = false ∧ decodeArm s.cpu.executing = .andShImm .eq false 0 0 0 .lsl 0 ∨
      s.cpu.cpsr.t = true ∧ decodeThumb (s.cpu.executing.extractLsb' 0 16) = .tLslImm 0 0 0) := by decide

/-- An interrupt that a halted CPU takes. -/
def sIrq : State := { sA with dev := { sA.dev with halted := true, ie := 1, iflag := 1, irqSignal := true } }

theorem witness_StepTakesIrq : (∀ n, (sIrq.dev.channel n).status ≠ .running) ∧
    (sIrq.dev.halted = false ∨ sIrq.dev.ie &&& sIrq.dev.iflag ≠ 0) ∧ sIrq.dev.irqSignal = true ∧
      sIrq.cpu.cpsr.i = false := by decide

/-- A halted CPU, with no event and with two. -/
def sHalted (es : List Event) : State := { sA with dev := { sA.dev with halted := true, ie := 1, events := es } }

theorem witness_HaltedSleeps : ∀ es ∈ [[], [⟨9, 0, .irqUpdate true⟩, ⟨7, 1, .irqUpdate false⟩]],
    (∀ n, ((sHalted es).dev.channel n).status ≠ .running) ∧ (sHalted es).dev.halted = true ∧
      (sHalted es).dev.ie &&& (sHalted es).dev.iflag = 0 ∧
      (es = [] ∨ ∃ e ∈ (sHalted es).dev.events, ∀ f ∈ (sHalted es).dev.events, e.timestamp ≤ f.timestamp) := by
  decide

/-- Channel 1 running for one unit, with a control value. -/
def sDma (cntH : Half) (src : Word) : State :=
  { sA with dev := sA.dev.setChannel 1 ⟨src, 0x03007FFC, 1, cntH, src, 0x03007FFC, 1, .running⟩ }

/-- Whether a result is a next state. -/
def goesOn (r : Res State) : Bool :=
  match r with
  | .next _ => true
  | .fault _ | .refused _ => false

/-- Repeating and timed, its destination going on, reloaded, or a FIFO; repeating and immediate; timed and not
repeating; no interrupt; a count of two. -/
theorem witness_DmaRunsFirst :
    (∀ k, k < 1 → ((sDma 0xD600 0x02000000).dev.channel k).status ≠ .running) ∧
    (((sDma 0xD600 0x02000000).dev.channel 1).status = .running ∧ goesOn (step (sDma 0xD600 0x02000000)) = true) ∧
    (((sDma 0xD660 0x02000000).dev.channel 1).status = .running ∧ goesOn (step (sDma 0xD660 0x02000000)) = true) ∧
    (((sDma 0xC600 0x02000000).dev.channel 1).status = .running ∧ goesOn (step (sDma 0xC600 0x02000000)) = true) ∧
    (((sDma 0xD400 0x02000000).dev.channel 1).status = .running ∧ goesOn (step (sDma 0xD400 0x02000000)) = true) ∧
    (((sDma 0x8400 0x02000000).dev.channel 1).status = .running ∧ goesOn (step (sDma 0x8400 0x02000000)) = true) ∧
    (let s : State := { sA with dev := sA.dev.setChannel 2 ⟨0, 0x040000A4, 0, 0xB660, 0x02000000, 0x040000A4, 2, .running⟩ }
     (∀ k, k < 2 → (s.dev.channel k).status ≠ .running) ∧ (s.dev.channel 2).status = .running ∧
      goesOn (step s) = true) := by
  decide

theorem witness_BankedRegisters : ∀ i ∈ [(0 : Reg), 7, 8, 12, 13, 14], i ≠ pcReg := by decide

theorem witness_ShifterBits : (31 < 32) ∧ (30 < 31) := by decide

theorem witness_ImmediateOperands : (31 < 32) ∧ (1 : BitVec 5) ≠ 0 ∧ (31 : BitVec 5) ≠ 0 := by decide

theorem witness_DpWritesRegister :
    ((Instr.andImm .al true 1 0 0 0xFF).asDp = some ⟨.and, true, 1, 0, .imm 0 0xFF⟩ ∧
      (Instr.andImm .al true 1 0 0 0xFF).Executes sA) ∧
    ((Instr.movShReg .al false 14 14 .ror 15).asDp = some ⟨.mov, false, 0, 14, .shReg 14 .ror 15⟩ ∧
      (Instr.movShReg .al false 14 14 .ror 15).Executes sA) ∧
    AluOp.and.isTest = false ∧ AluOp.mov.isTest = false ∧ (14 : Reg) ≠ pcReg :=
  ⟨⟨rfl, executes_arm rfl rfl rfl⟩, ⟨rfl, executes_arm rfl rfl rfl⟩, rfl, rfl, by decide⟩

theorem witness_DpTestsSetFlags :
    (Instr.teqShReg .al 15 0 1 .asr 15).asDp = some ⟨.teq, true, 15, 0, .shReg 1 .asr 15⟩ ∧
      (Instr.teqShReg .al 15 0 1 .asr 15).Executes sA ∧ AluOp.teq.isTest = true ∧ (0 : Reg) ≠ pcReg ∧
      ∀ rs sh rm, Operand2.shReg 1 .asr 15 = .shReg rs sh rm → rs ≠ pcReg :=
  ⟨rfl, executes_arm rfl rfl rfl, rfl, by decide, by rintro _ _ _ ⟨⟩; decide⟩

theorem witness_DpBranches :
    (Instr.addShImm .al false 15 15 31 .lsl 15).asDp = some ⟨.add, false, 15, 15, .shImm 31 .lsl 15⟩ ∧
      (Instr.addShImm .al false 15 15 31 .lsl 15).Executes sA ∧ AluOp.add.isTest = false :=
  ⟨rfl, executes_arm rfl rfl rfl, rfl⟩

/-- In usr and sys; with an SPSR of a legal mode; with an SPSR that names no mode. -/
theorem witness_DpReturns :
    (Instr.subImm .al true 14 15 0 4).asDp = some ⟨.sub, true, 14, 15, .imm 0 4⟩ ∧
    (∀ m ∈ [Mode.usr, .sys], (Instr.subImm .al true 14 15 0 4).Executes (sIn m)) ∧
    (∀ m ∈ [Mode.fiq, .irq, .svc, .abt, .und], (Instr.subImm .al true 14 15 0 4).Executes (sIn m) ∧
      ∃ q, (sIn m).cpu.spsr (sIn m).cpu.cpsr.mode = some q ∧ Mode.ofCode q.m = some .usr) ∧
    (State.reset.cpu.spsr State.reset.cpu.cpsr.mode = some Spsr.zero ∧ Mode.ofCode Spsr.zero.m = none ∧
      (Instr.subImm .al true 14 15 0 4).Executes State.reset) := by
  refine ⟨rfl, ?_, ?_, rfl, by decide, executes_arm rfl rfl rfl⟩
  · intro m _; exact executes_arm rfl rfl rfl
  · intro m hm
    refine ⟨executes_arm rfl rfl rfl, ⟨true, false, true, false, false, true, true, 0x10⟩, ?_, ?_⟩
    · simp only [List.mem_cons, List.not_mem_nil, or_false] at hm
      rcases hm with rfl | rfl | rfl | rfl | rfl <;> rfl
    · decide

theorem witness_ConditionFailed : (Instr.swi .eq 0).armCond = some .eq ∧ condPassed sA.cpu.cpsr .eq = false ∧
    (Instr.swi .nv 0).armCond = some .nv := by decide

/-- The hazard in svc mode, over a banked register. -/
theorem witness_HazardRefuses : let s : State := { sIn .svc with cpu := { (sIn .svc).cpu with ubankHazard := true } }
    (∀ c, (Instr.bl .al 0).armCond = some c → condPassed s.cpu.cpsr c = true) ∧ s.cpu.ubankHazard = true ∧
      ∃ r ∈ (Instr.bl .al 0).names, r ≠ pcReg ∧ physIndex r s.cpu.cpsr.mode ≠ physIndex r .usr :=
  ⟨fun c h => by cases h; rfl, rfl, 14, by decide, by decide, by decide⟩

theorem witness_MultiplyWrites :
    ((Instr.mul .al true 1 2 1).asMul = some ⟨true, 1, 2, 1, none⟩ ∧ (Instr.mul .al true 1 2 1).Executes sA) ∧
    ((Instr.mla .al false 14 1 2 3).asMul = some ⟨false, 14, 2, 3, some 1⟩ ∧
      (Instr.mla .al false 14 1 2 3).Executes sA) ∧
    ((Instr.tMul 7 7).asMul = some ⟨true, 7, 7, 7, none⟩ ∧ (Instr.tMul 7 7).Executes sT) ∧
    (14 : Reg) ≠ pcReg ∧ some (1 : Reg) ≠ some pcReg :=
  ⟨⟨rfl, executes_arm rfl rfl rfl⟩, ⟨rfl, executes_arm rfl rfl rfl⟩, ⟨rfl, executes_thumb rfl rfl rfl⟩, by decide,
    by decide⟩

theorem witness_LongMultiplyWrites : ((Instr.smlal .al true 14 0 1 0).asLong = some ⟨true, true, true, 14, 0, 1, 0⟩ ∧
    (Instr.smlal .al true 14 0 1 0).Executes sA) ∧ (14 : Reg) ≠ pcReg ∧ (14 : Reg) ≠ 0 :=
  ⟨⟨rfl, executes_arm rfl rfl rfl⟩, by decide, by decide⟩

/-- From the last word of IWRAM, with the base as destination; from IE; and a T form. -/
theorem witness_LoadWrites :
    ((Instr.ldrImm .al .pre true 1 1 0).asLoad = some ⟨.word, .pre, true, 1, 1, imm12 0⟩ ∧
      (Instr.ldrImm .al .pre true 1 1 0).Executes sA ∧ addressRefused .pre 1 (imm12 0) = false ∧
      Served (alignAddr (sA.transferAddr .pre 1 true (imm12 0)) .word) 0x03007FFC) ∧
    ((Instr.ldrhImm .al .offset true 2 0 0).asLoad = some ⟨.half, .offset, true, 2, 0, imm8 0⟩ ∧
      (Instr.ldrhImm .al .offset true 2 0 0).Executes sA ∧ addressRefused .offset 2 (imm8 0) = false ∧
      targetOf (alignAddr (sA.transferAddr .offset 2 true (imm8 0)) .half).toNat = .io 0x200) ∧
    (Instr.ldrtReg .al false 1 0 0 .ror 14).asLoad = some ⟨.word, .post, false, 1, 0, .shReg 0 .ror 14⟩ ∧
      (Instr.ldrtReg .al false 1 0 0 .ror 14).Executes sA ∧ addressRefused .post 1 (.shReg 0 .ror 14) = false :=
  ⟨⟨rfl, executes_arm rfl rfl rfl, by decide, .inl (by decide)⟩,
    ⟨rfl, executes_arm rfl rfl rfl, by decide, by decide⟩, rfl, executes_arm rfl rfl rfl, by decide⟩

theorem witness_LoadBranches :
    (Instr.ldrReg .al .post true 1 15 0 .lsl 2).asLoad = some ⟨.word, .post, true, 1, 15, .shReg 0 .lsl 2⟩ ∧
      (Instr.ldrReg .al .post true 1 15 0 .lsl 2).Executes sA ∧
      addressRefused .post 1 (.shReg 0 .lsl 2) = false ∧
      Served (alignAddr (sA.transferAddr .post 1 true (.shReg 0 .lsl 2)) .word) 0x03007FFC :=
  ⟨rfl, executes_arm rfl rfl rfl, by decide, .inl (by decide)⟩

theorem witness_LoadedValues : (3 < 4) ∧ (0xFFFFFFFF : Word).getLsbD 0 = true ∧
    (0xFFFFFFFE : Word).getLsbD 0 = false := by decide

theorem storeAllowed_plain {d : Dev} {a v : Word} {w : Width}
    (h : inBlock (targetOf (alignAddr a w).toNat) = false) : StoreAllowed d a w v := fun off ho => by
  rw [ho] at h; cases h

/-- To the last word of IWRAM; to IE, which takes it; to HALTCNT with bit 7 set, which is refused; to game pak ROM, to
another device, and a byte to VRAM. -/
theorem witness_StoreWrites :
    ((Instr.strImm .al .post true 1 15 4).asStore = some ⟨.word, .post, true, 1, 15, imm12 4⟩ ∧
      (Instr.strImm .al .post true 1 15 4).Executes sA ∧ sA.mem.wf = true ∧
      addressRefused .post 1 (imm12 4) = false ∧
      StoreAllowed (sA.timeOf (sA.transferAddr .post 1 true (imm12 4)) .word)
        (sA.transferAddr .post 1 true (imm12 4)) .word (sA.cpu.pc + 4)) ∧
    ((Instr.strhImm .al .offset true 2 0 0).asStore = some ⟨.half, .offset, true, 2, 0, imm8 0⟩ ∧
      (Instr.strhImm .al .offset true 2 0 0).Executes sA ∧
      targetOf (alignAddr (sA.transferAddr .offset 2 true (imm8 0)) .half).toNat = .io 0x200 ∧
      StoreAllowed (sA.timeOf (sA.transferAddr .offset 2 true (imm8 0)) .half)
        (sA.transferAddr .offset 2 true (imm8 0)) .half (sA.x 0)) ∧
    ((Instr.strbImm .al .offset true 3 1 1).asStore = some ⟨.byte, .offset, true, 3, 1, imm12 1⟩ ∧
      (Instr.strbImm .al .offset true 3 1 1).Executes sA ∧
      targetOf (alignAddr (sA.transferAddr .offset 3 true (imm12 1)) .byte).toNat = .io 0x301 ∧
      (sA.timeOf (sA.transferAddr .offset 3 true (imm12 1)) .byte).ioStore 0x301 (sA.x 1) .byte =
        .refused .stopMode) ∧
    ((Instr.strImm .al .offset true 1 0 0).Executes sB ∧
      targetOf (alignAddr (sB.transferAddr .offset 1 true (imm12 0)) .word).toNat = .rom 0x08000000 ∧
      StoreAllowed (sB.timeOf (sB.transferAddr .offset 1 true (imm12 0)) .word)
        (sB.transferAddr .offset 1 true (imm12 0)) .word (sB.x 0)) ∧
    ((Instr.strImm .al .offset true 2 0 0).Executes sB ∧
      targetOf (alignAddr (sB.transferAddr .offset 2 true (imm12 0)) .word).toNat = .openBus ∧
      StoreAllowed (sB.timeOf (sB.transferAddr .offset 2 true (imm12 0)) .word)
        (sB.transferAddr .offset 2 true (imm12 0)) .word (sB.x 0)) ∧
    ((Instr.strbImm .al .offset true 3 0 0).Executes sB ∧ sB.mem.wf = true ∧
      targetOf (alignAddr (sB.transferAddr .offset 3 true (imm12 0)) .byte).toNat = .ram 0x06000001 ∧
      StoreAllowed (sB.timeOf (sB.transferAddr .offset 3 true (imm12 0)) .byte)
        (sB.transferAddr .offset 3 true (imm12 0)) .byte (sB.x 0)) := by
  refine ⟨⟨rfl, executes_arm rfl rfl rfl, by decide, by decide, storeAllowed_plain (by decide)⟩,
    ⟨rfl, executes_arm rfl rfl rfl, by decide, ?_⟩, ⟨rfl, executes_arm rfl rfl rfl, by decide, rfl⟩,
    ⟨executes_arm rfl rfl rfl, by decide, storeAllowed_plain (by decide)⟩,
    ⟨executes_arm rfl rfl rfl, by decide, storeAllowed_plain (by decide)⟩,
    executes_arm rfl rfl rfl, by decide, by decide, storeAllowed_plain (by decide)⟩
  intro off h
  rw [show targetOf (alignAddr (sA.transferAddr .offset 2 true (imm8 0)) .half).toNat = .io 0x200 by decide] at h
  cases h
  exact ⟨_, rfl⟩

/-- With memory, a word and a byte; with ROM and with another device; with IE and IF, which take it; with HALTCNT, which
refuses it. -/
theorem witness_SwapExchanges : (Instr.swp .al 1 1 1).Executes sA ∧ (Instr.swpb .al 1 0 2).Executes sA ∧
    sA.mem.wf = true ∧ (1 : Reg) ≠ pcReg ∧ (2 : Reg) ≠ pcReg ∧
    (∀ d v, StoreAllowed d (sA.x 1) .word v) ∧ (∀ d v, StoreAllowed d (sA.x 1) .byte v) ∧
    ((Instr.swp .al 1 0 0).Executes sB ∧ targetOf (alignAddr (sB.x 1) .word).toNat = .rom 0x08000000 ∧
      ∀ d v, StoreAllowed d (sB.x 1) .word v) ∧
    ((Instr.swp .al 2 0 0).Executes sB ∧ targetOf (alignAddr (sB.x 2) .word).toNat = .openBus ∧
      ∀ d v, StoreAllowed d (sB.x 2) .word v) ∧
    ((Instr.swp .al 4 0 0).Executes sB ∧ targetOf (alignAddr (sB.x 4) .word).toNat = .io 0x200 ∧
      ∀ d, StoreAllowed d (sB.x 4) .word (sB.x 0)) ∧
    (Instr.swpb .al 5 1 0).Executes sB ∧ targetOf (alignAddr (sB.x 5) .byte).toNat = .io 0x301 ∧
      ∀ d : Dev, d.ioStore 0x301 (sB.x 0) .byte = .refused .stopMode := by
  refine ⟨executes_arm rfl rfl rfl, executes_arm rfl rfl rfl, by decide, by decide, by decide,
    fun _ _ => storeAllowed_plain (by decide), fun _ _ => storeAllowed_plain (by decide),
    ⟨executes_arm rfl rfl rfl, by decide, fun _ _ => storeAllowed_plain (by decide)⟩,
    ⟨executes_arm rfl rfl rfl, by decide, fun _ _ => storeAllowed_plain (by decide)⟩,
    ⟨executes_arm rfl rfl rfl, by decide, fun d off h => ?_⟩, executes_arm rfl rfl rfl, by decide, fun _ => rfl⟩
  rw [show targetOf (alignAddr (sB.x 4) .word).toNat = .io 0x200 by decide] at h
  cases h
  exact ⟨_, rfl⟩

/-- r0 and r15 from the last two words below 0x03008000, with write-back; POP; and r0 from IE and IF. -/
theorem witness_BlockLoads :
    ((Instr.ldmDb .al true 1 0x8001).asBlock = some ⟨true, false, .db, true, 1, 0x8001⟩ ∧
      (Instr.ldmDb .al true 1 0x8001).Executes sA ∧ (1 : Reg) ≠ pcReg ∧ 1 ∉ blockRegs 0x8001 ∧
      (blockRegs 0x8001)[0]? = some 0 ∧ (blockRegs 0x8001)[1]? = some pcReg ∧
      Served (blockAddr .db (sA.x 1) 0x8001 0) 0x03007FF4 ∧ Served (blockAddr .db (sA.x 1) 0x8001 1) 0x03007FF8) ∧
    ((Instr.tPop false 0x80).asBlock = some ⟨true, false, .ia, true, spReg, popList false 0x80⟩ ∧
      (Instr.tPop false 0x80).Executes sT ∧ pcReg ∉ blockRegs (popList false 0x80)) ∧
    (Instr.ldmIa .al false 4 1).asBlock = some ⟨true, false, .ia, false, 4, 1⟩ ∧
      (Instr.ldmIa .al false 4 1).Executes sB ∧ (blockRegs 1)[0]? = some 0 ∧
      targetOf (blockAddr .ia (sB.x 4) 1 0).toNat = .io 0x200 :=
  ⟨⟨rfl, executes_arm rfl rfl rfl, by decide, by decide, by decide, by decide, .inl (by decide), .inl (by decide)⟩,
    ⟨rfl, executes_thumb rfl rfl rfl, by decide⟩, rfl, executes_arm rfl rfl rfl, by decide, by decide⟩

theorem witness_BlockLoadsUser :
    (Instr.ldmSIa .al false 1 0x6001).asBlock = some ⟨true, true, .ia, false, 1, 0x6001⟩ ∧ (1 : Reg) ≠ pcReg ∧
    pcReg ∉ blockRegs 0x6001 ∧ (blockRegs 0x6001)[0]? = some 0 ∧
    (∀ m ∈ [Mode.fiq, .irq], (Instr.ldmSIa .al false 1 0x6001).Executes (sIn m)) ∧
    (∀ m ∈ [Mode.usr, .sys], (Instr.ldmSIa .al false 1 0x6001).Executes (sIn m)) ∧
    (Instr.ldmSIa .al true 1 0x6001).Executes (sIn .svc) ∧
    Served (blockAddr .ia ((sIn .irq).x 1) 0x6001 0) 0x03007FFC :=
  ⟨rfl, by decide, by decide, by decide, fun _ _ => executes_arm rfl rfl rfl, fun _ _ => executes_arm rfl rfl rfl,
    executes_arm rfl rfl rfl, .inl (by decide)⟩

/-- In every mode; from irq mode to usr; with an SPSR that names no mode; and an empty list. -/
theorem witness_BlockLoadsReturn :
    (Instr.ldmSIb .al true 1 0x8001).asBlock = some ⟨true, true, .ib, true, 1, 0x8001⟩ ∧ (1 : Reg) ≠ pcReg ∧
    pcReg ∈ blockRegs 0x8001 ∧ (∀ m, (Instr.ldmSIb .al true 1 0x8001).Executes (sIn m)) ∧
    (∃ q, (sIn .irq).cpu.spsr (sIn .irq).cpu.cpsr.mode = some q ∧ Mode.ofCode q.m = some .usr) ∧
    Served (blockAddr .ib ((sIn .irq).x 1) 0x8001 0) 0x03000000 ∧
    ((Instr.ldmSIb .al true 1 0x8001).Executes State.reset ∧
      State.reset.cpu.spsr State.reset.cpu.cpsr.mode = some Spsr.zero ∧ Mode.ofCode Spsr.zero.m = none) ∧
    (Instr.ldmSIa .al true 1 0).asBlock = some ⟨true, true, .ia, true, 1, 0⟩ ∧
      (Instr.ldmSIa .al true 1 0).Executes (sIn .irq) ∧ (blockRegs 0)[0]? = some pcReg ∧ 1 ∉ blockRegs 0 :=
  ⟨rfl, by decide, by decide, fun _ => executes_arm rfl rfl rfl,
    ⟨⟨true, false, true, false, false, true, true, 0x10⟩, by decide, by decide⟩, .inl (by decide),
    ⟨executes_arm rfl rfl rfl, rfl, by decide⟩, rfl, executes_arm rfl rfl rfl, by decide, by decide⟩

/-- Running an answer shows that it is a next state without writing that state out. -/
theorem answers_next {o : Res State} (h : (match o with | .next _ => true | _ => false) = true) :
    ∃ t, o = .next t := by
  cases o <;> first | exact ⟨_, rfl⟩ | cases h

theorem answers_refused {o : Res State} {e : Refusal}
    (h : (match o with | .refused r => r == e | _ => false) = true) : o = .refused e := by
  cases o <;> first | exact congrArg _ (beq_iff_eq.mp h) | cases h

/-- The base not the lowest and r15, across the end of a mirror of IWRAM; the User registers from irq mode; r0 to IE
and IF, which take it, and to DMA0CNT_L and CNT_H, which refuses it; to ROM; and an empty list. -/
theorem witness_BlockStores :
    ((Instr.stmIa .al true 1 0x8003).asBlock = some ⟨false, false, .ia, true, 1, 0x8003⟩ ∧
      (Instr.stmIa .al true 1 0x8003).Executes sA ∧ sA.mem.wf = true ∧ (1 : Reg) ≠ pcReg ∧
      (∀ k, k < (blockRegs 0x8003).length → inBlock (targetOf (blockAddr .ia (sA.x 1) 0x8003 k).toNat) = false) ∧
      targetOf (blockAddr .ia (sA.x 1) 0x8003 0).toNat = .ram 0x03007FFC ∧
      targetOf (blockAddr .ia (sA.x 1) 0x8003 1).toNat = .ram 0x03000000) ∧
    ((Instr.stmSDb .al false 1 0x6000).asBlock = some ⟨false, true, .db, false, 1, 0x6000⟩ ∧
      (Instr.stmSDb .al false 1 0x6000).Executes (sIn .irq) ∧ (sIn .irq).cpu.cpsr.mode ≠ .usr ∧
      (sIn .irq).cpu.cpsr.mode ≠ .sys) ∧
    ((Instr.stmIa .al false 4 1).asBlock = some ⟨false, false, .ia, false, 4, 1⟩ ∧
      (Instr.stmIa .al false 4 1).Executes sB ∧ sB.mem.wf = true ∧
      ∃ t, sB.afterWrites (blockAddr .ia (sB.x 4) 1) (fun _ => sB.x 0) 1 = .next t) ∧
    ((Instr.stmIa .al false 6 1).Executes sB ∧
      sB.afterWrites (blockAddr .ia (sB.x 6) 1) (fun _ => sB.x 0) 1 = .refused .implementationDefined) ∧
    ((Instr.stmIa .al false 1 1).Executes sB ∧ targetOf (blockAddr .ia (sB.x 1) 1 0).toNat = .rom 0x08000000) ∧
    (Instr.stmDb .al true 1 0).asBlock = some ⟨false, false, .db, true, 1, 0⟩ ∧
      (Instr.stmDb .al true 1 0).Executes sA ∧ blockRegs 0 = [pcReg] := by
  refine ⟨⟨rfl, executes_arm rfl rfl rfl, by decide, by decide, by decide, by decide, by decide⟩,
    ⟨rfl, executes_arm rfl rfl rfl, by decide, by decide⟩,
    ⟨rfl, executes_arm rfl rfl rfl, by decide, answers_next rfl⟩,
    ⟨executes_arm rfl rfl rfl, answers_refused rfl⟩,
    ⟨executes_arm rfl rfl rfl, by decide⟩, rfl, executes_arm rfl rfl rfl, by decide⟩

theorem witness_ArmBranches : (Instr.b .al 0x7FFFFF).Executes sA ∧ (Instr.bl .al 0x800000).Executes sA :=
  ⟨executes_arm rfl rfl rfl, executes_arm rfl rfl rfl⟩

theorem witness_BranchExchange : (Instr.bx .al 15).Executes sA ∧ (Instr.tBx 15 7).Executes sT :=
  ⟨executes_arm rfl rfl rfl, executes_thumb rfl rfl rfl⟩

/-- Each instruction, and SWI and the undefined instruction while the hazard holds. -/
theorem witness_InstructionsTakeExceptions : (Instr.swi .al 0xFFFFFF).Executes sA ∧ (Instr.tSwi 0).Executes sT ∧
    (Instr.und .al 0x6000010).Executes sA ∧
    (Instr.ldcStc .al true true true true true 15 15 15 255).Executes sA ∧
    (Instr.cdp .al 15 15 15 15 7 15).Executes sA ∧ (Instr.mrcMcr .al 7 true 15 15 15 7 15).Executes sA ∧
    let s : State := { sIn .svc with cpu := { (sIn .svc).cpu with ubankHazard := true } }
    s.cpu.ubankHazard = true ∧ (Instr.swi .al 0).Executes s ∧ (Instr.und .al 0x6000010).Executes s :=
  ⟨executes_arm rfl rfl rfl, executes_thumb rfl rfl rfl, executes_arm rfl rfl rfl, executes_arm rfl rfl rfl,
    executes_arm rfl rfl rfl, executes_arm rfl rfl rfl, rfl, executes_arm rfl rfl rfl, executes_arm rfl rfl rfl⟩

theorem witness_MrsReads : (Instr.mrs .al false 14).Executes sA ∧ (Instr.mrs .al true 14).Executes sA ∧
    sA.cpu.spsr sA.cpu.cpsr.mode = none ∧ (Instr.mrs .al true 14).Executes (sIn .abt) ∧
    (sIn .abt).cpu.spsr (sIn .abt).cpu.cpsr.mode = some ⟨true, false, true, false, false, true, true, 0x10⟩ ∧
    (14 : Reg) ≠ pcReg :=
  ⟨executes_arm rfl rfl rfl, executes_arm rfl rfl rfl, rfl, executes_arm rfl rfl rfl, rfl, by decide⟩

/-- In usr mode; and with a control value of a legal mode, of no mode, and with T. -/
theorem witness_MsrWritesCpsr :
    ((Instr.msrReg .al false 15 1).asMsr (sIn .usr) = some ⟨false, 15, (sIn .usr).x 1⟩ ∧
      (Instr.msrReg .al false 15 1).Executes (sIn .usr)) ∧
    (∀ v ∈ [(0x1F : BitVec 8), 0x15, 0x3F], (Instr.msrImm .al false 1 0 v).asMsr (sIn .svc) =
        some ⟨false, 1, rotatedImm 0 v⟩ ∧ (Instr.msrImm .al false 1 0 v).Executes (sIn .svc)) ∧
    (1 : BitVec 4).getLsbD 0 = true ∧ (sIn .svc).cpu.cpsr.mode ≠ .usr ∧
    (Mode.ofCode ((rotatedImm 0 0x1F).extractLsb' 0 5) = some .sys ∧
      (rotatedImm 0 0x1F).getLsbD 5 = (sIn .svc).cpu.cpsr.t) ∧
    Mode.ofCode ((rotatedImm 0 0x15).extractLsb' 0 5) = none ∧
    (Mode.ofCode ((rotatedImm 0 0x3F).extractLsb' 0 5) = some .sys ∧
      (rotatedImm 0 0x3F).getLsbD 5 ≠ (sIn .svc).cpu.cpsr.t) :=
  ⟨⟨rfl, executes_arm rfl rfl rfl⟩, fun _ _ => ⟨rfl, executes_arm rfl rfl rfl⟩, by decide, by decide, by decide,
    by decide, by decide⟩

theorem witness_MsrWritesSpsr :
    ((Instr.msrReg .al true 9 1).asMsr sA = some ⟨true, 9, sA.x 1⟩ ∧ (Instr.msrReg .al true 9 1).Executes sA ∧
      sA.cpu.spsr sA.cpu.cpsr.mode = none) ∧
    (Instr.msrReg .al true 9 1).asMsr (sIn .und) = some ⟨true, 9, (sIn .und).x 1⟩ ∧
      (Instr.msrReg .al true 9 1).Executes (sIn .und) ∧
      ∃ q, (sIn .und).cpu.spsr (sIn .und).cpu.cpsr.mode = some q :=
  ⟨⟨rfl, executes_arm rfl rfl rfl, rfl⟩, rfl, executes_arm rfl rfl rfl, _, rfl⟩

theorem witness_UnallocatedRefused : (Instr.armUnallocMul .al 0x400090).Executes sA ∧
    (Instr.armUnallocCtrl .al 0x1200070).Executes sA ∧ (Instr.hwUnalloc .al 0xD0).Executes sA ∧
    (Instr.tUnalloc 0xE800).Executes sT ∧ (Instr.hwUnpred .al 0x2000B0).Executes sA :=
  ⟨executes_arm rfl rfl rfl, executes_arm rfl rfl rfl, executes_arm rfl rfl rfl, executes_thumb rfl rfl rfl,
    executes_arm rfl rfl rfl⟩

/-- One instruction for each case, in the order of the statement. -/
theorem witness_UnpredictableRefused :
    ((Instr.cmpImm .al 0 15 0 0).Executes sA ∧ (Instr.cmpImm .al 0 15 0 0).asDp = some ⟨.cmp, true, 0, 15, .imm 0 0⟩) ∧
    ((Instr.movShReg .al false 0 15 .lsl 1).Executes sA ∧
      (Instr.movShReg .al false 0 15 .lsl 1).asDp = some ⟨.mov, false, 0, 0, .shReg pcReg .lsl 1⟩) ∧
    ((Instr.mla .al false 0 15 1 2).Executes sA ∧
      (Instr.mla .al false 0 15 1 2).asMul = some ⟨false, 0, 1, 2, some pcReg⟩) ∧
    ((Instr.umull .al false 0 0 1 2).Executes sA ∧
      (Instr.umull .al false 0 0 1 2).asLong = some ⟨false, false, false, 0, 0, 1, 2⟩) ∧
    ((Instr.ldrbImm .al .offset true 0 15 0).Executes sA ∧
      (Instr.ldrbImm .al .offset true 0 15 0).asLoad = some ⟨.byte, .offset, true, 0, 15, imm12 0⟩) ∧
    ((Instr.strImm .al .pre true 15 0 0).Executes sA ∧
      (Instr.strImm .al .pre true 15 0 0).asStore = some ⟨.word, .pre, true, 15, 0, imm12 0⟩ ∧
      addressRefused .pre 15 (imm12 0) = true) ∧
    (Instr.swpb .al 15 0 0).Executes sA ∧
    ((Instr.ldmIa .al false 15 1).Executes sA ∧
      (Instr.ldmIa .al false 15 1).asBlock = some ⟨true, false, .ia, false, 15, 1⟩) ∧
    ((Instr.stmSIa .al false 0 1).Executes sA ∧
      (Instr.stmSIa .al false 0 1).asBlock = some ⟨false, true, .ia, false, 0, 1⟩ ∧ sA.cpu.cpsr.mode = .sys) ∧
    (Instr.mrs .al false pcReg).Executes sA ∧ (Instr.msrReg .al false 0 pcReg).Executes sA :=
  ⟨⟨executes_arm rfl rfl rfl, rfl⟩, ⟨executes_arm rfl rfl rfl, rfl⟩, ⟨executes_arm rfl rfl rfl, rfl⟩,
    ⟨executes_arm rfl rfl rfl, rfl⟩, ⟨executes_arm rfl rfl rfl, rfl⟩, ⟨executes_arm rfl rfl rfl, rfl, by decide⟩,
    executes_arm rfl rfl rfl, ⟨executes_arm rfl rfl rfl, rfl⟩, ⟨executes_arm rfl rfl rfl, rfl, rfl⟩,
    executes_arm rfl rfl rfl, executes_arm rfl rfl rfl⟩

theorem witness_ThumbShifts :
    ((Instr.tAsrImm 0 7 7).asThumbShift sT = some ⟨.asr, sT.x 7, 32, false, 7⟩ ∧ (Instr.tAsrImm 0 7 7).Executes sT) ∧
    (Instr.tRorReg 1 1).asThumbShift sT = some ⟨.ror, sT.x 1, 0xFC, true, 1⟩ ∧ (Instr.tRorReg 1 1).Executes sT :=
  ⟨⟨rfl, executes_thumb rfl rfl rfl⟩, rfl, executes_thumb rfl rfl rfl⟩

theorem witness_ThumbAluWrites :
    ((Instr.tCmn 1 1).asThumbAlu sT = some ⟨.cmn, sT.x 1, sT.x 1, 1⟩ ∧ (Instr.tCmn 1 1).Executes sT ∧
      AluOp.cmn.isTest = true) ∧
    (Instr.tNeg 1 1).asThumbAlu sT = some ⟨.sub, 0, sT.x 1, 1⟩ ∧ (Instr.tNeg 1 1).Executes sT ∧
      AluOp.sub.isTest = false :=
  ⟨⟨rfl, executes_thumb rfl rfl rfl, rfl⟩, rfl, executes_thumb rfl rfl rfl, rfl⟩

theorem witness_ThumbHiRegisters : (Instr.tAddHi 15 14).Executes sT ∧ (14 : Reg) ≠ pcReg ∧
    (Instr.tMovHi 1 15).Executes sT ∧ (Instr.tCmpHi 15 15).Executes sT :=
  ⟨executes_thumb rfl rfl rfl, by decide, executes_thumb rfl rfl rfl, executes_thumb rfl rfl rfl⟩

theorem witness_ThumbLoadWrites :
    ((Instr.tLdshReg 0 1 1).asThumbLoad sT = some ⟨.shalf, regAddr 0 1 sT, 1⟩ ∧
      (Instr.tLdshReg 0 1 1).Executes sT ∧
      Served (alignAddr (regAddr 0 1 sT) (LoadKind.widthAt .shalf (regAddr 0 1 sT))) 0x03007FFC) ∧
    (Instr.tLdrImm 0 2 0).asThumbLoad sT = some ⟨.word, immAddr 2 0 2 sT, 0⟩ ∧ (Instr.tLdrImm 0 2 0).Executes sT ∧
      targetOf (alignAddr (immAddr 2 0 2 sT) .word).toNat = .io 0x200 :=
  ⟨⟨rfl, executes_thumb rfl rfl rfl, .inl (by decide)⟩, rfl, executes_thumb rfl rfl rfl, by decide⟩

/-- To memory, to ROM, to another device, a byte to VRAM, to IE and IF, which take it, and to HALTCNT, which refuses
it. -/
theorem witness_ThumbStoreWrites :
    ((Instr.tStrImm 0 1 1).asThumbStore sT = some ⟨.word, immAddr 2 0 1 sT, 1⟩ ∧
      (Instr.tStrImm 0 1 1).Executes sT ∧ sT.mem.wf = true ∧
      StoreAllowed (sT.timeOf (immAddr 2 0 1 sT) .word) (immAddr 2 0 1 sT) .word (sT.x 1)) ∧
    ((Instr.tStrImm 0 1 0).Executes sBT ∧ targetOf (alignAddr (immAddr 2 0 1 sBT) .word).toNat = .rom 0x08000000 ∧
      ∀ d v, StoreAllowed d (immAddr 2 0 1 sBT) .word v) ∧
    ((Instr.tStrImm 0 2 0).Executes sBT ∧ targetOf (alignAddr (immAddr 2 0 2 sBT) .word).toNat = .openBus ∧
      ∀ d v, StoreAllowed d (immAddr 2 0 2 sBT) .word v) ∧
    ((Instr.tStrbImm 0 3 0).asThumbStore sBT = some ⟨.byte, immAddr 0 0 3 sBT, 0⟩ ∧
      (Instr.tStrbImm 0 3 0).Executes sBT ∧
      targetOf (alignAddr (immAddr 0 0 3 sBT) .byte).toNat = .ram 0x06000001 ∧
      ∀ d v, StoreAllowed d (immAddr 0 0 3 sBT) .byte v) ∧
    ((Instr.tStrImm 0 4 0).Executes sBT ∧ targetOf (alignAddr (immAddr 2 0 4 sBT) .word).toNat = .io 0x200 ∧
      ∀ d, StoreAllowed d (immAddr 2 0 4 sBT) .word (sBT.x 0)) ∧
    (Instr.tStrbImm 0 5 0).Executes sBT ∧ targetOf (alignAddr (immAddr 0 0 5 sBT) .byte).toNat = .io 0x301 ∧
      ∀ d : Dev, d.ioStore 0x301 (sBT.x 0) .byte = .refused .stopMode := by
  refine ⟨⟨rfl, executes_thumb rfl rfl rfl, by decide, storeAllowed_plain (by decide)⟩,
    ⟨executes_thumb rfl rfl rfl, by decide, fun _ _ => storeAllowed_plain (by decide)⟩,
    ⟨executes_thumb rfl rfl rfl, by decide, fun _ _ => storeAllowed_plain (by decide)⟩,
    ⟨rfl, executes_thumb rfl rfl rfl, by decide, fun _ _ => storeAllowed_plain (by decide)⟩,
    ⟨executes_thumb rfl rfl rfl, by decide, fun d off h => ?_⟩, executes_thumb rfl rfl rfl, by decide, fun _ => rfl⟩
  rw [show targetOf (alignAddr (immAddr 2 0 4 sBT) .word).toNat = .io 0x200 by decide] at h
  cases h
  exact ⟨_, rfl⟩

/-- The greatest offset of each form. -/
theorem witness_ThumbAddresses :
    ((Instr.tAddPc 7 255).Executes sT ∧ (0x08000500 : Word).toNat = (sT.cpu.pc.toNat / 4 * 4 + 4 * 255) % 2 ^ 32) ∧
    ((Instr.tAddSp 7 255).Executes sT ∧ (0x030082FC : Word).toNat = ((sT.x spReg).toNat + 4 * 255) % 2 ^ 32) ∧
    ((Instr.tAddSpImm false 127).Executes sT ∧
      (0x030080FC : Word).toNat = ((sT.x spReg).toNat + 4 * 127) % 2 ^ 32) ∧
    (Instr.tAddSpImm true 127).Executes sT ∧ (0x03007D04 : Word) = BitVec.ofInt 32 ((sT.x spReg).toNat - 4 * 127) :=
  ⟨⟨executes_thumb rfl rfl rfl, by decide⟩, ⟨executes_thumb rfl rfl rfl, by decide⟩,
    ⟨executes_thumb rfl rfl rfl, by decide⟩, executes_thumb rfl rfl rfl, by decide⟩

theorem witness_ThumbBranches : ((Instr.tBcond .ne 0x80).Executes sT ∧ condPassed sT.cpu.cpsr .ne = true) ∧
    ((Instr.tBcond .eq 0x7F).Executes sT ∧ condPassed sT.cpu.cpsr .eq = false) ∧ (Instr.tB 0x400).Executes sT ∧
    (Instr.tBlPrefix 0x3FF).Executes sT ∧ (Instr.tBlSuffix 0x7FF).Executes sT :=
  ⟨⟨executes_thumb rfl rfl rfl, rfl⟩, ⟨executes_thumb rfl rfl rfl, rfl⟩, executes_thumb rfl rfl rfl,
    executes_thumb rfl rfl rfl, executes_thumb rfl rfl rfl⟩

/-- An SWI in usr mode: the step answers a state in another mode. -/
theorem witness_UserModeLeavesByException : let s := (sIn .usr).withFetchWord 32 0xEF000000
    s.cpu.cpsr.mode = .usr ∧
      (match step s with | .next u => u.cpu.cpsr.mode != .usr | .fault _ | .refused _ => false) = true := by decide

/-- Both states meet what the invariants ask and step to a next state. -/
theorem witness_steps : ∀ s ∈ [sA, sT], s.mem.wf = true ∧
    (if s.cpu.cpsr.t then s.cpu.pc.toNat % 2 = 0 else s.cpu.pc.toNat % 4 = 0) ∧
      (match step s with | .next _ => true | .fault _ | .refused _ => false) = true := by decide

theorem witness_OnlyStoresWriteMemory : (Instr.tMovImm8 0 1).storing = false ∧
    (match exec (.tMovImm8 0 1) sT with | .next _ => true | .fault _ | .refused _ => false) = true := by decide

/-- Timer 1 free-running from 4, its overflow pending, and a DMA channel whose start is scheduled. -/
def devices : Dev where
  halted := false
  ie := 0x3FFF
  iflag := 0x3FFF
  ime := true
  irqSignal := true
  waitcnt := 0x7FFF
  timers := ((Vector.replicate 4 Timer.reset).set 1 ⟨0xFFF0, 0xFFF0, 0xC1, 64, some 5⟩)
  dma := ((Vector.replicate 4 DmaChannel.reset).set 3
    ⟨0x0FFFFFFF, 0x0FFFFFFF, 0xFFFF, 0x8400, 0x0FFFFFFC, 0x0FFFFFFC, 0xFFFF, .scheduled 6⟩)
  dmaLatch := 0
  now := 70
  events := [⟨1088, 5, .timerOverflow 1⟩, ⟨72, 6, .dmaStart 3⟩]
  nextHandle := 7
  apuNotices := Vector.replicate 4 0
  orderDraws := 0
  prefetchSeq := 0
  costs := []

theorem devices_scheduled (n : Fin 4) (h : Nat) : (devices.channel n).status = .scheduled h ↔
    ∃ e ∈ devices.events, e.handle = h ∧ e.kind = .dmaStart n := by
  have he : devices.events = [⟨1088, 5, .timerOverflow 1⟩, ⟨72, 6, .dmaStart 3⟩] := rfl
  rw [he]
  constructor
  · intro hs
    obtain ⟨rfl, rfl⟩ : n = 3 ∧ h = 6 := by
      have : ∀ k : Fin 4, (devices.channel k).status = if k = 3 then .scheduled 6 else .disabled := by decide
      rw [this n] at hs
      split at hs
      · cases hs; exact ⟨by assumption, rfl⟩
      · cases hs
    exact ⟨_, List.mem_cons_of_mem _ List.mem_cons_self, rfl, rfl⟩
  · rintro ⟨e, hm, rfl, hk⟩
    simp only [List.mem_cons, List.not_mem_nil, or_false] at hm
    rcases hm with rfl | rfl
    · cases hk
    · cases hk; rfl

/-- For `StepKeepsDevices`, `IrqDelayIsOneCycle` and the second half of `TimersCount`. -/
theorem witness_StepKeepsDevices : devices.Reserved ∧ devices.Coherent ∧ devices.settled ∧
    (devices.timer 1).isFreeRunning 1 = true ∧
    (match step { sA with dev := devices } with | .next _ => true | .fault _ | .refused _ => false) = true :=
  ⟨⟨by decide, by decide, by decide, by decide, by decide, by decide, by decide⟩,
    ⟨by decide, by decide, by decide, devices_scheduled, by decide, by decide, by decide⟩, by unfold Dev.settled; decide,
    by decide, by decide⟩

/-- The first write-only halfword and an unused half; a byte of TM1CNT_L; a refused and an allowed halfword; HALTCNT. -/
theorem witness_RegisterWrites : (0x7F : Word).getLsbD 7 = false ∧ (0x80 : Word).getLsbD 7 = true ∧
    (∃ n, n < 4 ∧ 0xB0 ∈ [0xB0 + 12 * n, 0xB2 + 12 * n, 0xB4 + 12 * n, 0xB6 + 12 * n, 0xB8 + 12 * n]) ∧
    (∀ p ∈ devices.storedHalves, p.1 ≠ 0x206) ∧ (0x104, (0xFFF0 : Half)) ∈ devices.storedHalves ∧
    devices.ioStore 0xDE 0x8180 .half = .refused .implementationDefined ∧
    ∃ u, devices.ioStore 0x200 0 .half = .next u :=
  ⟨by decide, by decide, ⟨0, by decide, by decide⟩, by decide, by decide, rfl, _, rfl⟩

/-- A machine with two rows of its own, the second for halfwords of ROM read in sequence. -/
def ownCosts : Dev := { devices with waitcnt := 0, costs := [⟨.rom 0, .word, .seq, 0, 9⟩, ⟨.rom 0, .half, .seq, 0, 7⟩] }

theorem witness_ResetState : State.reset.dev.costs = [] := rfl

/-- Its second row; the default table; and ROM with the prefetch buffer on, at the start of a block and after it. -/
theorem witness_TimeNeverDecreases :
    ((∀ x ∈ [(⟨.rom 0, .word, .seq, 0, 9⟩ : CostRow)], ¬ (x.region = .rom 0 ∧ x.width = .half ∧ x.acc = .seq ∧
        x.waitcnt = ownCosts.waitcnt)) ∧ ownCosts.regionCycles (.rom 0) .half .seq = 7) ∧
    (∀ row ∈ ownCosts.costs, ¬ (row.region = .rom 0 ∧ row.width = .half ∧ row.acc = .nonseq ∧
        row.waitcnt = ownCosts.waitcnt)) ∧
    devices.waitcnt.getLsbD 14 = true ∧ regionOf 0x0803FFFE = .rom 0 ∧ regionOf 0x08040000 = .rom 0 ∧
    0x08040000 % 0x20000 = 0 ∧ 0x0803FFFE % 0x20000 ≠ 0 ∧ 1 ≤ devices.regionCycles (.rom 0) .half .seq := by decide

/-- A stopped timer that a write starts; and one that runs, made to run on, to cascade and to stop; and a write that
leaves a stopped one so. -/
theorem witness_TimersCount : (∀ i, ((Dev.resetAt 0).timer i).enabled = false) ∧
    ((0x84 : Half).getLsbD 7 = true ∧ (0x84 : Half).getLsbD 2 = true) ∧
    ((0x80 : Half).getLsbD 7 = true ∧ (0x80 : Half).getLsbD 2 = false) ∧
    ((devices.timer 1).enabled = true ∧ (devices.timer 1).isFreeRunning 1 = true) ∧
    ((devices.timer 0).enabled = false ∧ (0x00 : Half).getLsbD 7 = false) := by decide

/-- Timer 1 alone; timer 1 about to overflow over timer 0 and timers 2 and 3 above it cascaded; one that is not. -/
theorem witness_TimersOverflow :
    let chain : Dev := { devices with timers :=
      #v[⟨0, 0, 0x80, 0, none⟩, ⟨0xFFFF, 1, 0x84, 0, none⟩, ⟨0xFFFF, 2, 0xC4, 0, none⟩, ⟨0xFFFE, 3, 0x84, 0, none⟩] }
    (devices.timer 1).irqEnabled = true ∧ (0 : Fin 4) < 1 ∧
    (∀ j, j ≠ 0 → (chain.timer j).isCascaded j = true) ∧ (chain.timer 1).base = 0xFFFF ∧
    (chain.timer 2).base = 0xFFFF ∧ (chain.timer 2).irqEnabled = true ∧ (chain.timer 3).base ≠ 0xFFFF ∧
    (devices.timer 2).isCascaded 2 = false := by decide

/-- A running channel and each refused configuration; the rising edge, immediate and waiting, plain and FIFO; the
falling edge with a start pending; no edge. -/
theorem witness_DmaControl :
    ((sDma 0x8400 0).dev.channel 1).status = .running ∧
    ((0x8180 : Half).extractLsb' 7 2 = 3 ∧ (0x8180 : Half).getLsbD 15 = true) ∧
    ((0xB000 : Half).extractLsb' 12 2 = 3 ∧ (0x8800 : Half).getLsbD 11 = true) ∧
    (((Dev.resetAt 0).channel 0).cntH.getLsbD 15 = false ∧ (0x8000 : Half).extractLsb' 12 2 = 0) ∧
    (0x9000 : Half).extractLsb' 12 2 ≠ 0 ∧
    (((Dev.resetAt 0).setChannel 2 { DmaChannel.reset with dad := 0x040000A4 }).channel 2).dad = 0x040000A4 ∧
    ((devices.channel 3).cntH.getLsbD 15 = true ∧ (0x0400 : Half).getLsbD 15 = false ∧
      (devices.channel 3).status = .scheduled 6) ∧
    (devices.channel 3).cntH.getLsbD 15 = (0x8000 : Half).getLsbD 15 := by decide

/-- From the first byte above the BIOS's reach and from the last below it. -/
theorem witness_DmaMovesUnits :
    (((sDma 0x8400 0x02000000).dev.channel 1).status = .running ∧ (sDma 0x8400 0x02000000).mem.wf = true ∧
      targetOf (alignAddr ((sDma 0x8400 0x02000000).dev.channel 1).dst .word).toNat = .ram 0x03007FFC ∧
      targetOf (alignAddr ((sDma 0x8400 0x02000000).dev.channel 1).src .word).toNat = .ram 0x02000000) ∧
    ((sDma 0x8400 0x01FFFFFC).dev.channel 1).status = .running ∧ (sDma 0x8400 0x01FFFFFC).mem.wf = true ∧
      targetOf (alignAddr ((sDma 0x8400 0x01FFFFFC).dev.channel 1).dst .word).toNat = .ram 0x03007FFC ∧
      ((sDma 0x8400 0x01FFFFFC).dev.channel 1).src.toNat < 0x02000000 := by decide

end Sys2Proof.Tests
end

namespace Sys2Proof.Machine
open Sys2Proof

/-! ## The devices: each timer and channel against the event set -/

/-- Timer `i` agrees with the pending events (63_timers.md R640, R641, R647) and its reserved bits are clear
(10_state.md R64). -/
structure Timer.Fits (i : Fin 4) (es : List Event) (t : Timer) : Prop where
  reserved : t.control &&& 0xFF38 = 0
  running : t.isFreeRunning i = true → t.lastTs % timerPeriod t.control = 0 ∧
    ∃ e ∈ es, t.handle = some e.handle ∧ e.kind = .timerOverflow i ∧ e.timestamp = t.overflowAt
  idle : t.isFreeRunning i = false → t.handle = none
  overflow : ∀ e ∈ es, e.kind = .timerOverflow i → t.handle = some e.handle

/-- The reserved bits of channel `n` are clear (10_state.md R58, R59). -/
structure DmaChannel.Masked (n : Fin 4) (c : DmaChannel) : Prop where
  sad : c.sad &&& ~~~(srcMask n) = 0
  dad : c.dad &&& ~~~(dstMask n) = 0
  cntL : c.cntL &&& ~~~(cntMask n) = 0
  cntH : c.cntH &&& 0x001F = 0

/-- Channel `n` agrees with the pending events (10_state.md R61) and its reserved bits are clear. -/
structure DmaChannel.Fits (n : Fin 4) (es : List Event) (c : DmaChannel) : Prop extends DmaChannel.Masked n c where
  enabled : dmaEnabled c.cntH = true ↔ c.status ≠ .disabled
  scheduled : ∀ h, c.status = .scheduled h ↔ ∃ e ∈ es, e.handle = h ∧ e.kind = .dmaStart n

/-- A timer depends on its own overflow events alone. -/
theorem Timer.Fits.congr {i : Fin 4} {es es' : List Event} {t : Timer}
    (he : ∀ e : Event, e.kind = .timerOverflow i → (e ∈ es' ↔ e ∈ es)) (h : t.Fits i es) : t.Fits i es' where
  reserved := h.reserved
  running hr := by
    obtain ⟨hal, e, hm, hh, hk, ht⟩ := h.running hr
    exact ⟨hal, e, (he e hk).mpr hm, hh, hk, ht⟩
  idle := h.idle
  overflow e hm hk := h.overflow e ((he e hk).mp hm) hk

/-- A channel depends on its own start events alone. -/
theorem DmaChannel.Fits.congr {n : Fin 4} {es es' : List Event} {c : DmaChannel}
    (he : ∀ e : Event, e.kind = .dmaStart n → (e ∈ es' ↔ e ∈ es)) (h : c.Fits n es) : c.Fits n es' where
  toMasked := h.toMasked
  enabled := h.enabled
  scheduled st := by
    rw [h.scheduled]
    exact ⟨fun ⟨e, hm, hh, hk⟩ => ⟨e, (he e hk).mpr hm, hh, hk⟩, fun ⟨e, hm, hh, hk⟩ => ⟨e, (he e hk).mp hm, hh, hk⟩⟩

/-- The devices are in order, but for the timer or the channel whose events are of the kind `k`: an operation opens its
own device, works on it, and closes it (`SoundBut.closeTimer`, `SoundBut.closeChannel`). -/
structure Dev.SoundBut (d : Dev) (k : EventKind) : Prop where
  iflag : d.iflag &&& 0xC000 = 0
  waitcnt : d.waitcnt &&& 0x8000 = 0
  order : (d.events.map Event.handle).Pairwise (· < ·)
  fresh : ∀ e ∈ d.events, e.handle < d.nextHandle
  timers : ∀ i, .timerOverflow i ≠ k → (d.timer i).Fits i d.events
  channels : ∀ n, .dmaStart n ≠ k → (d.channel n).Fits n d.events

/-- All the devices are in order: what a step keeps of them, the settled clock aside. -/
def Dev.Sound (d : Dev) : Prop := d.Reserved ∧ d.Coherent

namespace Dev.SoundBut
variable {d : Dev} {k : EventKind}

theorem of_sound (h : d.Sound) (k : EventKind) : d.SoundBut k where
  iflag := h.1.iflag
  waitcnt := h.1.waitcnt
  order := h.2.order
  fresh := h.2.fresh
  timers i _ := ⟨h.1.timer i, h.2.running i, h.2.idle i, h.2.overflow i⟩
  channels n _ := ⟨⟨h.1.sad n, h.1.dad n, h.1.cntL n, h.1.cntH n⟩, h.2.enabled n, h.2.scheduled n⟩

theorem sound (h : d.SoundBut k) (ht : ∀ i, (d.timer i).Fits i d.events) (hc : ∀ n, (d.channel n).Fits n d.events) :
    d.Sound :=
  ⟨⟨h.iflag, h.waitcnt, fun i => (ht i).reserved, fun n => (hc n).sad, fun n => (hc n).dad, fun n => (hc n).cntL,
      fun n => (hc n).cntH⟩,
    ⟨h.order, h.fresh, fun n => (hc n).enabled, fun n => (hc n).scheduled, fun i => (ht i).running,
      fun i => (ht i).idle, fun i => (ht i).overflow⟩⟩

theorem closeTimer {i : Fin 4} (h : d.SoundBut (.timerOverflow i)) (hi : (d.timer i).Fits i d.events) : d.Sound :=
  h.sound (fun j => if hj : j = i then hj ▸ hi else h.timers j (by simpa using hj))
    (fun n => h.channels n (by simp))

theorem closeChannel {n : Fin 4} (h : d.SoundBut (.dmaStart n)) (hn : (d.channel n).Fits n d.events) : d.Sound :=
  h.sound (fun i => h.timers i (by simp))
    (fun m => if hm : m = n then hm ▸ hn else h.channels m (by simpa using hm))

/-- Events of no timer and no channel open nothing. -/
theorem close (h : d.SoundBut k) (ht : ∀ i, .timerOverflow i ≠ k) (hc : ∀ n, .dmaStart n ≠ k) : d.Sound :=
  h.sound (fun i => h.timers i (ht i)) (fun n => h.channels n (hc n))

/-- A change of the events that no other device sees. -/
theorem withEvents (h : d.SoundBut k) {es : List Event} {next : Nat} (order : (es.map Event.handle).Pairwise (· < ·))
    (fresh : ∀ e ∈ es, e.handle < next)
    (same : ∀ e : Event, e.kind ≠ k → (∀ ts, e.isIrqUpdateAt ts = false) → (e ∈ es ↔ e ∈ d.events)) :
    ({ d with events := es, nextHandle := next } : Dev).SoundBut k where
  iflag := h.iflag
  waitcnt := h.waitcnt
  order := order
  fresh := fresh
  timers i hi := (h.timers i hi).congr fun e he => same e (he ▸ hi) fun ts => by simp [Event.isIrqUpdateAt, he]
  channels n hn := (h.channels n hn).congr fun e he => same e (he ▸ hn) fun ts => by simp [Event.isIrqUpdateAt, he]

theorem addEventAt (h : d.SoundBut k) (ts : Nat) : (d.addEventAt ts k).SoundBut k := by
  refine h.withEvents ?_ ?_ ?_
  · rw [List.map_append, List.pairwise_append]
    refine ⟨h.order, by simp, fun a ha b hb => ?_⟩
    obtain ⟨e, he, rfl⟩ := List.mem_map.mp ha
    obtain rfl : b = d.nextHandle := by simpa using hb
    exact h.fresh e he
  · intro e he
    rcases List.mem_append.mp he with he | he
    · exact Nat.lt_succ_of_lt (h.fresh e he)
    · obtain rfl : e = _ := by simpa using he
      exact Nat.lt_succ_self _
  · intro e he _
    rw [List.mem_append, List.mem_singleton, or_iff_left]
    rintro rfl
    exact he rfl

/-- Events are kept apart by their handles (61_scheduler.md R562). -/
theorem eq_of_handle (h : d.SoundBut k) {e f : Event} (he : e ∈ d.events) (hf : f ∈ d.events)
    (hh : e.handle = f.handle) : e = f :=
  List.inj_on_of_nodup_map (h.order.imp Nat.ne_of_lt) he hf hh

theorem filterEvents (h : d.SoundBut k) {p : Event → Bool}
    (hp : ∀ e ∈ d.events, e.kind ≠ k → (∀ ts, e.isIrqUpdateAt ts = false) → p e = true) :
    ({ d with events := d.events.filter p } : Dev).SoundBut k :=
  h.withEvents (h.order.sublist (List.filter_sublist.map _)) (fun e he => h.fresh e (List.mem_of_mem_filter he))
    fun e hk hi => by
      rw [List.mem_filter]
      exact and_iff_left_of_imp fun he => hp e he hk hi

theorem removeEvent {e : Event} (h : d.SoundBut k) (he : e ∈ d.events) (hk : e.kind = k) :
    (d.removeEvent e.handle).SoundBut k :=
  h.filterEvents fun f hf hfk _ => by
    rw [bne_iff_ne]
    exact fun hh => hfk (by rw [h.eq_of_handle hf he hh, hk])

/-- While its timer is open anything may be written to it. -/
theorem setTimer {i : Fin 4} (h : d.SoundBut (.timerOverflow i)) (t : Timer) :
    (d.setTimer i t).SoundBut (.timerOverflow i) where
  iflag := h.iflag
  waitcnt := h.waitcnt
  order := h.order
  fresh := h.fresh
  timers j hj := by
    have : (d.setTimer i t).timer j = d.timer j := vector_get_set_ne _ _ (by rintro rfl; exact hj rfl)
    exact this ▸ h.timers j hj
  channels := h.channels

theorem setChannel {n : Fin 4} (h : d.SoundBut (.dmaStart n)) (c : DmaChannel) :
    (d.setChannel n c).SoundBut (.dmaStart n) where
  iflag := h.iflag
  waitcnt := h.waitcnt
  order := h.order
  fresh := h.fresh
  timers := h.timers
  channels m hm := by
    have : (d.setChannel n c).channel m = d.channel m := vector_get_set_ne _ _ (by rintro rfl; exact hm rfl)
    exact this ▸ h.channels m hm

end Dev.SoundBut

/-! ## Reading a device back -/

@[simp] theorem Dev.setTimer_timer_same (d : Dev) (i : Fin 4) (t : Timer) : (d.setTimer i t).timer i = t :=
  vector_get_set_self _ _ _

@[simp] theorem Dev.setChannel_channel_same (d : Dev) (n : Fin 4) (c : DmaChannel) : (d.setChannel n c).channel n = c :=
  vector_get_set_self _ _ _

namespace Dev.Sound
variable {d : Dev}

theorem timer (h : d.Sound) (i : Fin 4) : (d.timer i).Fits i d.events :=
  (SoundBut.of_sound h (.irqUpdate false)).timers i (by simp)

theorem channel (h : d.Sound) (n : Fin 4) : (d.channel n).Fits n d.events :=
  (SoundBut.of_sound h (.irqUpdate false)).channels n (by simp)

theorem setTimer (h : d.Sound) {i : Fin 4} {t : Timer} (ht : t.Fits i d.events) : (d.setTimer i t).Sound :=
  ((SoundBut.of_sound h _).setTimer t).closeTimer (by rw [Dev.setTimer_timer_same]; exact ht)

theorem setChannel (h : d.Sound) {n : Fin 4} {c : DmaChannel} (hc : c.Fits n d.events) : (d.setChannel n c).Sound :=
  ((SoundBut.of_sound h _).setChannel c).closeChannel (by rw [Dev.setChannel_channel_same]; exact hc)

/-- The parts of the devices that no timer, channel or event is about are free. -/
theorem of_same {u : Dev} (h : d.Sound) (iflag : u.iflag &&& 0xC000 = 0) (waitcnt : u.waitcnt &&& 0x8000 = 0)
    (timers : u.timers = d.timers) (dma : u.dma = d.dma) (events : u.events = d.events)
    (next : u.nextHandle = d.nextHandle) : u.Sound := by
  have ht : ∀ i, u.timer i = d.timer i := fun i => by rw [Dev.timer, timers, Dev.timer]
  have hc : ∀ n, u.channel n = d.channel n := fun n => by rw [Dev.channel, dma, Dev.channel]
  refine SoundBut.sound (k := .irqUpdate false) ⟨iflag, waitcnt, events ▸ h.2.order, ?_, ?_, ?_⟩ ?_ ?_
  · rw [events, next]; exact h.2.fresh
  · intro i _; rw [ht, events]; exact h.timer i
  · intro n _; rw [hc, events]; exact h.channel n
  · intro i; rw [ht, events]; exact h.timer i
  · intro n; rw [hc, events]; exact h.channel n

/-! ## Interrupts -/

/-- The arbiter's updates touch no timer and no channel (60_exceptions.md R522). -/
theorem irqChanged (h : d.Sound) : d.irqChanged.Sound := by
  have hf := (SoundBut.of_sound h (.irqUpdate d.irqLevel)).filterEvents
    (p := fun e => !e.isIrqUpdateAt (d.now + Config.irqDelay)) fun e _ _ hi => by simp [hi]
  exact (hf.addEventAt (d.now + Config.irqDelay)).close (by simp) (by simp)

theorem requestInterrupt (h : d.Sound) (k : Fin 14) : (d.requestInterrupt k).Sound := by
  have hk : ∀ k : Fin 14, (1 : Half) <<< k.val &&& 0xC000 = 0 := by decide
  have hflag : (d.iflag ||| (1 : Half) <<< k.val) &&& 0xC000 = 0 := by
    rw [BitVec.and_or_distrib_right, h.1.iflag, hk]; rfl
  exact (of_same (u := { d with iflag := d.iflag ||| (1 : Half) <<< k.val }) h hflag h.1.waitcnt rfl rfl rfl rfl).irqChanged

end Dev.Sound


/-! ## Timers -/

/-- A timer that does not count cycles and has no event pending fits (63_timers.md R640, R647). -/
theorem Timer.fits_of_idle {i : Fin 4} {es : List Event} {t : Timer} (hr : t.control &&& 0xFF38 = 0)
    (hf : t.isFreeRunning i = false) (hh : t.handle = none) (he : ∀ e ∈ es, e.kind ≠ .timerOverflow i) :
    t.Fits i es where
  reserved := hr
  running h := absurd h (by simp [hf])
  idle _ := hh
  overflow e hm hk := absurd hk (he e hm)

/-- A timer without a handle has no overflow pending. -/
theorem Timer.Fits.no_overflow {i : Fin 4} {es : List Event} {t : Timer} (h : t.Fits i es) (hh : t.handle = none) :
    ∀ e ∈ es, e.kind ≠ .timerOverflow i := fun e he hk => by
  have := h.overflow e he hk
  simp [hh] at this

/-- A cascaded timer may count: its count is no part of what the event set says (63_timers.md R653). -/
theorem Timer.Fits.setBase {i : Fin 4} {es : List Event} {t : Timer} (h : t.Fits i es) (hc : t.isCascaded i = true)
    (b : Half) : ({ t with base := b } : Timer).Fits i es := by
  have hf : t.isFreeRunning i = false := by simp [Timer.isFreeRunning, hc]
  exact fits_of_idle h.reserved hf (h.idle hf) (h.no_overflow (h.idle hf))

/-- Posting the overflow of a free-running timer closes it (63_timers.md R647). -/
theorem Dev.SoundBut.scheduleOverflow {d : Dev} {i : Fin 4} (h : d.SoundBut (.timerOverflow i))
    (hr : (d.timer i).control &&& 0xFF38 = 0) (hf : (d.timer i).isFreeRunning i = true)
    (hal : (d.timer i).lastTs % timerPeriod (d.timer i).control = 0)
    (he : ∀ e ∈ d.events, e.kind ≠ .timerOverflow i) : (d.scheduleOverflow i).Sound := by
  have ht : (d.scheduleOverflow i).timer i = { d.timer i with handle := some d.nextHandle } :=
    d.setTimer_timer_same i _
  have hev : (d.scheduleOverflow i).events =
      d.events ++ [⟨(d.timer i).overflowAt, d.nextHandle, .timerOverflow i⟩] := rfl
  refine ((h.setTimer { d.timer i with handle := some d.nextHandle }).addEventAt (d.timer i).overflowAt).closeTimer ?_
  show ((d.scheduleOverflow i).timer i).Fits i (d.scheduleOverflow i).events
  rw [ht, hev]
  refine ⟨hr, fun _ => ⟨hal, _, List.mem_append_right _ (List.mem_singleton_self _), rfl, rfl, rfl⟩, fun hf' => ?_, ?_⟩
  · exact absurd (hf.symm.trans hf') (by simp)
  · intro e hm hk
    rcases List.mem_append.mp hm with hm | hm
    · exact absurd hk (he e hm)
    · rw [List.mem_singleton.mp hm]

namespace Dev.Sound
variable {d : Dev}

theorem overflowIrq (h : d.Sound) (i : Fin 4) : (d.overflowIrq i).Sound := by
  unfold Dev.overflowIrq; split
  · exact h.requestInterrupt _
  · exact h

theorem notifyApu (h : d.Sound) (i : Fin 4) : (d.notifyApu i).Sound :=
  h.of_same h.1.iflag h.1.waitcnt rfl rfl rfl rfl

/-- The chain of an overflow: interrupts, cascade ticks and notices (63_timers.md R652 to R654). -/
theorem overflow (is : List (Fin 4)) (h : d.Sound) : (Dev.overflow is d).Sound := by
  induction is generalizing d with
  | nil => exact h
  | cons i rest ih =>
    cases rest with
    | nil => exact (h.overflowIrq i).notifyApu i
    | cons j above =>
      have hi := h.overflowIrq i
      unfold Dev.overflow
      dsimp only
      split
      next hc =>
        have tick (b : Half) := hi.setTimer ((hi.timer j).setBase hc b)
        split
        · exact (ih (tick _)).notifyApu i
        · exact (tick _).notifyApu i
      next => exact hi.notifyApu i

/-- The overflow event of a timer, taken from the set and fired (63_timers.md R650). -/
theorem fireOverflow (h : d.Sound) {e : Event} (he : e ∈ d.events) {i : Fin 4} (hk : e.kind = .timerOverflow i) :
    ((d.removeEvent e.handle).fireOverflow i e.timestamp).Sound := by
  have hfit := h.timer i
  have hh : (d.timer i).handle = some e.handle := hfit.overflow e he hk
  have hfree : (d.timer i).isFreeRunning i = true := by
    cases hf : (d.timer i).isFreeRunning i with
    | true => rfl
    | false => simp [hfit.idle hf] at hh
  have hopen := SoundBut.of_sound h (.timerOverflow i)
  obtain ⟨hal, f, hfm, hfh, -, hft⟩ := hfit.running hfree
  obtain rfl : e = f := hopen.eq_of_handle he hfm (Option.some.inj (hh.symm.trans hfh))
  have hnone : ∀ f ∈ (d.removeEvent e.handle).events, f.kind ≠ .timerOverflow i := fun f hf hfk => by
    obtain ⟨hfm, hne⟩ := List.mem_filter.mp hf
    have : f.handle = e.handle := Option.some.inj ((hfit.overflow f hfm hfk).symm.trans hh)
    simp [this] at hne
  have hrem : (d.removeEvent e.handle).SoundBut (.timerOverflow i) := hopen.removeEvent he hk
  refine overflow _ ((hrem.setTimer _).scheduleOverflow ?_ ?_ ?_ hnone) <;> rw [Dev.setTimer_timer_same]
  · exact hfit.reserved
  · exact hfree
  · show e.timestamp % timerPeriod (d.timer i).control = 0
    rw [hft, Timer.overflowAt, Nat.add_mul_mod_self_right, hal]

/-- What a control write works on: the timer settled, open, with nothing pending (63_timers.md R648). -/
theorem settled_timer (h : d.Sound) (i : Fin 4) {u : Dev}
    (hu : u = if (d.timer i).isFreeRunning i then d.settle i else d) : u.SoundBut (.timerOverflow i) ∧
      (u.timer i).handle = none ∧ ∀ e ∈ u.events, e.kind ≠ .timerOverflow i := by
  have hfit := h.timer i
  have hopen := SoundBut.of_sound h (.timerOverflow i)
  split at hu
  next hfree =>
    obtain ⟨-, e, he, hh, hk, -⟩ := hfit.running hfree
    have hset := hopen.setTimer { d.timer i with base := (d.timer i).counter i d.now, lastTs := d.now, handle := none }
    have hsettle : d.settle i = (d.setTimer i { d.timer i with
        base := (d.timer i).counter i d.now, lastTs := d.now, handle := none }).removeEvent e.handle := by
      simp only [Dev.settle, hh, Dev.removeHandle]
    rw [hu, hsettle]
    refine ⟨hset.removeEvent he hk, ?_, fun f hf hfk => ?_⟩
    · exact congrArg Timer.handle (d.setTimer_timer_same i _)
    · obtain ⟨hfm, hne⟩ := List.mem_filter.mp hf
      have : f.handle = e.handle := Option.some.inj ((hfit.overflow f hfm hfk).symm.trans hh)
      simp [this] at hne
  next hfree =>
    subst hu
    have hh := hfit.idle (by simpa using hfree)
    exact ⟨hopen, hh, hfit.no_overflow hh⟩

theorem timerControlWrite (h : d.Sound) (i : Fin 4) (v : Half) : (d.timerControlWrite i v).Sound := by
  have hmask : v &&& 0x00C7 &&& 0xFF38 = 0 := by rw [BitVec.and_assoc]; exact BitVec.and_zero
  have halign (t p : Nat) : alignDown t p % p = 0 := Nat.mod_eq_zero_of_dvd (Nat.dvd_sub_mod t)
  unfold Dev.timerControlWrite
  generalize hu : (if (d.timer i).isFreeRunning i then d.settle i else d) = u
  obtain ⟨hopen, hh, hnone⟩ := h.settled_timer i hu.symm
  -- the timer written starts to count cycles, or does not
  have start (b : Half) (x : Nat) (hf : ({ u.timer i with control := v &&& 0x00C7 } : Timer).isFreeRunning i = true) :=
    (hopen.setTimer { u.timer i with
      base := b, control := v &&& 0x00C7, lastTs := alignDown x (timerPeriod (v &&& 0x00C7)) }).scheduleOverflow
      (by rw [Dev.setTimer_timer_same]; exact hmask) (by rw [Dev.setTimer_timer_same]; exact hf)
      (by rw [Dev.setTimer_timer_same]; exact halign _ _) hnone
  have stop (b : Half) (hf : ¬ ({ u.timer i with control := v &&& 0x00C7 } : Timer).isFreeRunning i = true) :=
    (hopen.setTimer { u.timer i with base := b, control := v &&& 0x00C7 }).closeTimer (by
      rw [Dev.setTimer_timer_same]
      exact Timer.fits_of_idle hmask (Bool.eq_false_of_not_eq_true hf) hh hnone)
  dsimp only
  split <;> split
  next hf => exact start _ _ hf
  next hf => exact stop _ hf
  next hf => exact start _ _ hf
  next hf => exact stop _ hf

end Dev.Sound


/-! ## DMA channels -/

/-- A channel that is not scheduled has no start event pending (10_state.md R61). -/
theorem DmaChannel.Fits.no_start {n : Fin 4} {es : List Event} {c : DmaChannel} (h : c.Fits n es)
    (hs : ∀ k, c.status ≠ .scheduled k) : ∀ e ∈ es, e.kind ≠ .dmaStart n :=
  fun e he hk => hs e.handle ((h.scheduled _).mpr ⟨e, he, rfl, hk⟩)

/-- A channel that is not scheduled fits where no start event is pending. -/
theorem DmaChannel.Masked.fits {n : Fin 4} {es : List Event} {c : DmaChannel} (hm : c.Masked n)
    (hen : dmaEnabled c.cntH = true ↔ c.status ≠ .disabled) (hs : ∀ k, c.status ≠ .scheduled k)
    (he : ∀ e ∈ es, e.kind ≠ .dmaStart n) : c.Fits n es where
  toMasked := hm
  enabled := hen
  scheduled k := ⟨fun h => absurd h (hs k), fun ⟨e, hem, _, hk⟩ => absurd hk (he e hem)⟩

/-- The bits a control write stores (62_dma.md R600). -/
theorem DmaChannel.Masked.storeCntH {n : Fin 4} {c : DmaChannel} (hm : c.Masked n) (v : Half) :
    ({ c with cntH := v &&& 0xFFE0 } : DmaChannel).Masked n where
  sad := hm.sad
  dad := hm.dad
  cntL := hm.cntL
  cntH := by
    show v &&& 0xFFE0 &&& 0x001F = 0
    rw [BitVec.and_assoc]; exact BitVec.and_zero

@[simp] theorem dmaEnabled_stored (v : Half) : dmaEnabled (v &&& 0xFFE0) = dmaEnabled v := by
  simp [dmaEnabled]

/-- Scheduling its start closes a channel (62_dma.md R607). -/
theorem Dev.SoundBut.trigger {d : Dev} {n : Fin 4} (h : d.SoundBut (.dmaStart n)) (hm : (d.channel n).Masked n)
    (hen : dmaEnabled (d.channel n).cntH = true) (he : ∀ e ∈ d.events, e.kind ≠ .dmaStart n) :
    (d.trigger n).Sound := by
  have hc : (d.trigger n).channel n = { d.channel n with status := .scheduled d.nextHandle } :=
    d.setChannel_channel_same n _
  have hev : (d.trigger n).events = d.events ++ [⟨d.now + Config.dmaStartDelay, d.nextHandle, .dmaStart n⟩] := rfl
  refine ((h.setChannel { d.channel n with status := .scheduled d.nextHandle }).addEventAt
    (d.now + Config.dmaStartDelay)).closeChannel ?_
  show ((d.trigger n).channel n).Fits n (d.trigger n).events
  rw [hc, hev]
  refine ⟨⟨hm.sad, hm.dad, hm.cntL, hm.cntH⟩, by simp [hen], fun k => ⟨?_, ?_⟩⟩
  · intro hk
    exact ⟨_, List.mem_append_right _ (List.mem_singleton_self _), DmaStatus.scheduled.inj hk, rfl⟩
  · rintro ⟨e, hem, rfl, hk⟩
    rcases List.mem_append.mp hem with hem | hem
    · exact absurd hk (he e hem)
    · rw [List.mem_singleton.mp hem]

namespace Dev.Sound
variable {d : Dev}

theorem answer (h : d.Sound) (occ : Occasion) (n : Fin 4) : (d.answer occ n).Sound := by
  unfold Dev.answer
  split
  next hw =>
    have hfit := h.channel n
    exact (SoundBut.of_sound h _).trigger hfit.toMasked (hfit.enabled.mpr (by simp [hw.1]))
      (hfit.no_start (by simp [hw.1]))
  next => exact h

theorem envCall (h : d.Sound) (c : EnvCall) : (d.envCall c).Sound := by
  cases c with
  | requestInterrupt k => exact h.requestInterrupt k
  | requestDma occ => exact (((h.answer occ 0).answer occ 1).answer occ 2).answer occ 3

theorem envCalls (h : d.Sound) (cs : List EnvCall) : (cs.foldl Dev.envCall d).Sound := by
  induction cs generalizing d with
  | nil => exact h
  | cons c rest ih => exact ih (h.envCall c)

/-- With the start event of a channel taken from the set, none of its start events is left. -/
theorem no_start_of_removed (h : d.Sound) {n : Fin 4} {k : Nat} (hs : (d.channel n).status = .scheduled k) :
    ∀ e ∈ (d.removeEvent k).events, e.kind ≠ .dmaStart n := fun e he hk => by
  obtain ⟨hem, hne⟩ := List.mem_filter.mp he
  have := ((h.channel n).scheduled e.handle).mpr ⟨e, hem, rfl, hk⟩
  rw [hs] at this
  simp [DmaStatus.scheduled.inj this] at hne

/-- The start event of a channel, taken from the set and fired (62_dma.md R608). -/
theorem fireDmaStart (h : d.Sound) {e : Event} (he : e ∈ d.events) {n : Fin 4} (hk : e.kind = .dmaStart n) :
    ((d.removeEvent e.handle).fireDmaStart n).Sound := by
  have hfit := h.channel n
  have hs : (d.channel n).status = .scheduled e.handle := (hfit.scheduled _).mpr ⟨e, he, rfl, hk⟩
  have hrem : (d.removeEvent e.handle).SoundBut (.dmaStart n) :=
    (SoundBut.of_sound h _).removeEvent he hk
  refine (hrem.setChannel _).closeChannel ?_
  rw [Dev.setChannel_channel_same]
  exact DmaChannel.Masked.fits ⟨hfit.sad, hfit.dad, hfit.cntL, hfit.cntH⟩
    (iff_of_true (hfit.enabled.mpr (by simp [hs])) (by simp)) (by simp) (h.no_start_of_removed hs)

/-- A disabled channel that is enabled is scheduled or waits (62_dma.md R600). -/
theorem enable (h : d.Sound) {n : Fin 4} (hold : dmaEnabled (d.channel n).cntH = false) {c : DmaChannel}
    (hm : c.Masked n) (hen : dmaEnabled c.cntH = true) :
    ((d.setChannel n c).trigger n).Sound ∧ (d.setChannel n { c with status := .waiting }).Sound := by
  have hfit := h.channel n
  have hdis : (d.channel n).status = .disabled := by
    by_contra hne
    simp [hfit.enabled.mpr hne] at hold
  have hnone := hfit.no_start (by simp [hdis])
  constructor
  · refine ((SoundBut.of_sound h _).setChannel c).trigger ?_ ?_ hnone <;> rw [Dev.setChannel_channel_same]
    · exact hm
    · exact hen
  · exact h.setChannel (DmaChannel.Masked.fits ⟨hm.sad, hm.dad, hm.cntL, hm.cntH⟩ (iff_of_true hen (by simp)) (by simp)
      hnone)

/-- A channel is disabled and its pending start cancelled (62_dma.md R600). -/
theorem disable (h : d.Sound) {n : Fin 4} {c : DmaChannel} (hm : c.Masked n) (hen : dmaEnabled c.cntH = false)
    (hs : c.status = .disabled) : ((d.setChannel n c).cancelStart (d.channel n).status).Sound := by
  have hfit := h.channel n
  have fits {es : List Event} (he : ∀ e ∈ es, e.kind ≠ .dmaStart n) : c.Fits n es :=
    hm.fits (iff_of_false (by simp [hen]) (by simp [hs])) (by simp [hs]) he
  cases hold : (d.channel n).status with
  | scheduled k =>
    obtain ⟨e, he, rfl, hk⟩ := (hfit.scheduled k).mp hold
    refine (((SoundBut.of_sound h _).setChannel c).removeEvent he hk).closeChannel ?_
    show ((d.setChannel n c).channel n).Fits n (d.removeEvent e.handle).events
    rw [Dev.setChannel_channel_same]
    exact fits (h.no_start_of_removed hold)
  | disabled | waiting | running => exact h.setChannel (fits (hfit.no_start (by simp [hold])))

theorem dmaControlStore (h : d.Sound) (n : Fin 4) (v : Half) : (d.dmaControlStore n v).Sound := by
  have hfit := h.channel n
  have hm := hfit.toMasked.storeCntH v
  unfold Dev.dmaControlStore
  dsimp only
  split
  next hedge =>
    obtain ⟨hold, hv⟩ : dmaEnabled (d.channel n).cntH = false ∧ dmaEnabled v = true := by simpa using hedge
    have hen := h.enable (c := DmaChannel.latch n { d.channel n with cntH := v &&& 0xFFE0 }) hold
      ⟨hm.sad, hm.dad, hm.cntL, hm.cntH⟩ ((dmaEnabled_stored v).trans hv)
    split
    · exact hen.1
    · exact hen.2
  next hrise =>
    split
    next hedge =>
      obtain ⟨-, hv⟩ : dmaEnabled (d.channel n).cntH = true ∧ dmaEnabled v = false := by simpa using hedge
      exact h.disable ⟨hm.sad, hm.dad, hm.cntL, hm.cntH⟩ ((dmaEnabled_stored v).trans hv) rfl
    next hfall =>
      have hsame : dmaEnabled v = dmaEnabled (d.channel n).cntH := by
        cases hv : dmaEnabled v <;> cases ho : dmaEnabled (d.channel n).cntH <;> simp_all
      exact h.setChannel ⟨hm, by rw [dmaEnabled_stored, hsame]; exact hfit.enabled, hfit.scheduled⟩

/-- A running channel completes: it waits again, or is disabled (62_dma.md R619, R620). -/
theorem dmaComplete (h : d.Sound) {n : Fin 4} (hrun : (d.channel n).status = .running) : (d.dmaComplete n).Sound := by
  have hirq : (d.completionIrq n).Sound ∧ (d.completionIrq n).dma = d.dma := by
    unfold Dev.completionIrq; split
    · exact ⟨h.requestInterrupt _, rfl⟩
    · exact ⟨h, rfl⟩
  unfold Dev.dmaComplete
  generalize d.completionIrq n = u at hirq
  have hc : u.channel n = d.channel n := congrArg (Vector.get · n) hirq.2
  rw [← hc] at hrun
  have hfit := hirq.1.channel n
  have hnone := hfit.no_start (by simp [hrun])
  refine hirq.1.setChannel ?_
  unfold DmaChannel.completed
  split
  · exact DmaChannel.Masked.fits ⟨hfit.sad, hfit.dad, hfit.cntL, hfit.cntH⟩
      (iff_of_true (hfit.enabled.mpr (by simp [hrun])) (by simp)) (by simp) hnone
  · have hcntH : (u.channel n).cntH &&& 0x7FFF &&& 0x001F = 0 := by
      rw [BitVec.and_assoc, BitVec.and_comm 0x7FFF, ← BitVec.and_assoc, hfit.cntH]; exact BitVec.zero_and
    exact DmaChannel.Masked.fits ⟨hfit.sad, hfit.dad, hfit.cntL, hcntH⟩ (by simp [dmaEnabled]) (by simp) hnone

/-! ## Events -/

/-- A pending event, taken from the set and fired (61_scheduler.md R565). -/
theorem fire (h : d.Sound) {e : Event} (he : e ∈ d.events) : ((d.removeEvent e.handle).fire e).Sound := by
  have hrem := (SoundBut.of_sound h e.kind).removeEvent he rfl
  unfold Dev.fire
  split
  next i hk => exact h.fireOverflow he hk
  next n hk => exact h.fireDmaStart he hk
  next v hk =>
    have hs := hrem.close (by simp [hk]) (by simp [hk])
    exact hs.of_same hs.1.iflag hs.1.waitcnt rfl rfl rfl rfl
  next calls hk => exact (hrem.close (by simp [hk]) (by simp [hk])).envCalls calls

theorem advance (h : d.Sound) (c : Nat) : (d.advance c).Sound :=
  drain_induct (P := Dev.Sound) (fun _ _ hd => hd.of_same hd.1.iflag hd.1.waitcnt rfl rfl rfl rfl)
    (fun _ _ hd he => hd.fire (mem_earliestDue.mp he).1) _ _ (h.of_same h.1.iflag h.1.waitcnt rfl rfl rfl rfl)

end Dev.Sound

end Sys2Proof.Machine

namespace Sys2Proof.Machine
open Sys2Proof

/-! ## What each operation of the devices keeps -/

/-- A running channel goes on running: nothing but its completion ends it (62_dma.md R608, R620, R622). -/
def Dev.KeepsRunning (d u : Dev) : Prop := ∀ n, (d.channel n).status = .running → (u.channel n).status = .running

theorem Dev.KeepsRunning.of_dma {d u : Dev} (h : u.dma = d.dma) : d.KeepsRunning u := fun n hn => by
  rwa [Dev.channel, h]

theorem Dev.KeepsRunning.trans {d u v : Dev} (h : d.KeepsRunning u) (h' : u.KeepsRunning v) : d.KeepsRunning v :=
  fun n hn => h' n (h n hn)

theorem Dev.keepsRunning_setChannel (d : Dev) {n : Fin 4} {c : DmaChannel}
    (h : (d.channel n).status = .running → c.status = .running) : d.KeepsRunning (d.setChannel n c) := fun m hm => by
  by_cases hmn : m = n
  · subst hmn
    rw [Dev.setChannel_channel_same]
    exact h hm
  · rwa [show (d.setChannel n c).channel m = d.channel m from vector_get_set_ne _ _ (Ne.symm hmn)]

theorem Dev.keepsRunning_answer (d : Dev) (occ : Occasion) (n : Fin 4) : d.KeepsRunning (d.answer occ n) := by
  unfold Dev.answer
  split
  next hw => exact d.keepsRunning_setChannel (by simp [hw.1])
  next => exact .of_dma rfl

theorem Dev.keepsRunning_envCalls (d : Dev) (cs : List EnvCall) : d.KeepsRunning (cs.foldl Dev.envCall d) := by
  induction cs generalizing d with
  | nil => exact .of_dma rfl
  | cons c rest ih =>
    refine KeepsRunning.trans ?_ (ih _)
    cases c with
    | requestInterrupt k => exact .of_dma rfl
    | requestDma occ =>
      exact (((d.keepsRunning_answer occ 0).trans (keepsRunning_answer _ occ 1)).trans
        (keepsRunning_answer _ occ 2)).trans (keepsRunning_answer _ occ 3)

@[simp] theorem Dev.overflowIrq_dma (d : Dev) (i : Fin 4) : (d.overflowIrq i).dma = d.dma := by
  unfold Dev.overflowIrq; split <;> rfl

@[simp] theorem Dev.overflow_dma (is : List (Fin 4)) (d : Dev) : (Dev.overflow is d).dma = d.dma := by
  induction is generalizing d with
  | nil => rfl
  | cons i rest ih =>
    cases rest with
    | nil => exact d.overflowIrq_dma i
    | cons j above =>
      unfold Dev.overflow
      dsimp only
      split
      · split
        · exact (ih _).trans (d.overflowIrq_dma i)
        · exact d.overflowIrq_dma i
      · exact d.overflowIrq_dma i

theorem Dev.keepsRunning_fire (d : Dev) (e : Event) : d.KeepsRunning (d.fire e) := by
  unfold Dev.fire
  split
  · exact .of_dma (Dev.overflow_dma _ _)
  · exact d.keepsRunning_setChannel fun _ => rfl
  · exact .of_dma rfl
  · exact d.keepsRunning_envCalls _

theorem Dev.keepsRunning_advance (d : Dev) (c : Nat) : d.KeepsRunning (d.advance c) :=
  drain_induct (P := d.KeepsRunning) (fun _ _ h => h) (fun u _ h _ => h.trans (keepsRunning_fire (u.removeEvent _) _))
    _ _ (.of_dma rfl)

/-- Nothing is due exactly when there is no due work. -/
theorem Dev.settled_iff_workOf (d : Dev) : d.settled ↔ workOf d.now d.events = 0 := by
  simp [Dev.settled, workOf, lateness, List.sum_eq_zero_iff]

theorem Quiet.settled {d u : Dev} (q : Quiet d u) (h : d.settled) : u.settled := by
  rw [Dev.settled_iff_workOf] at h ⊢
  have := q.work
  rw [q.now]
  omega

/-- What an operation keeps of devices that are in order. -/
structure Dev.Evolves (d u : Dev) : Prop where
  sound : d.Sound → u.Sound
  running : d.KeepsRunning u
  settled : d.settled → u.settled

namespace Dev.Evolves
variable {d u v : Dev}

theorem refl (d : Dev) : d.Evolves d := ⟨id, .of_dma rfl, id⟩

theorem trans (h : d.Evolves u) (h' : u.Evolves v) : d.Evolves v :=
  ⟨fun hd => h'.sound (h.sound hd), h.running.trans h'.running, fun hd => h'.settled (h.settled hd)⟩

/-- A change of the registers that no timer, channel or event is about. -/
theorem of_same (iflag : d.iflag &&& 0xC000 = 0 → u.iflag &&& 0xC000 = 0)
    (waitcnt : d.waitcnt &&& 0x8000 = 0 → u.waitcnt &&& 0x8000 = 0) (timers : u.timers = d.timers)
    (dma : u.dma = d.dma) (events : u.events = d.events) (next : u.nextHandle = d.nextHandle) (now : u.now = d.now) :
    d.Evolves u :=
  ⟨fun h => h.of_same (iflag h.1.iflag) (waitcnt h.1.waitcnt) timers dma events next, .of_dma dma,
    (Quiet.of_eq now events).settled⟩

theorem irqChanged (h : d.Evolves u) : d.Evolves u.irqChanged :=
  h.trans ⟨Sound.irqChanged, .of_dma rfl, (quiet_irqChanged u).settled⟩

theorem advance (d : Dev) (c : Nat) : d.Evolves (d.advance c) :=
  ⟨fun h => h.advance c, d.keepsRunning_advance c, fun _ => (drain_settled _ _ (Nat.le_refl _)).2⟩

theorem touchPrefetch (d : Dev) (a : Nat) : d.Evolves (d.touchPrefetch a) := by
  unfold Dev.touchPrefetch; split
  · exact of_same id id rfl rfl rfl rfl rfl
  · exact refl d

/-- A change of a channel's registers that keeps its mode bits. -/
theorem setChannel {n : Fin 4} {c : DmaChannel} (hm : (d.channel n).Masked n → c.Masked n)
    (hs : c.status = (d.channel n).status) (hen : c.cntH = (d.channel n).cntH) : d.Evolves (d.setChannel n c) where
  sound h := h.setChannel ⟨hm (h.channel n).toMasked, by rw [hs, hen]; exact (h.channel n).enabled,
    by rw [hs]; exact (h.channel n).scheduled⟩
  running := d.keepsRunning_setChannel hs.trans
  settled := id

end Dev.Evolves

/-- A chain of two parts goes on exactly when both do. -/
theorem andThen_eq_next {α β : Type} {r : Res α} {f : α → Res β} {b : β} :
    andThen r f = .next b ↔ ∃ a, r = .next a ∧ f a = .next b := by
  cases r <;> simp [andThen]

/-! ## The registers of the block -/

/-- A free-running timer started on a tick by `t` overflows after `t` (63_timers.md R647). -/
theorem Timer.lt_overflowAt (tm : Timer) {t : Nat} (h : tm.lastTs = alignDown t (timerPeriod tm.control)) :
    t < tm.overflowAt := by
  have hpos := timerPeriod_pos tm.control
  have hb := tm.base.isLt
  have hmul : timerPeriod tm.control ≤ (0x10000 - tm.base.toNat) * timerPeriod tm.control :=
    Nat.le_mul_of_pos_left _ (by omega)
  have hmod := Nat.mod_lt t hpos
  have hle := Nat.mod_le t (timerPeriod tm.control)
  rw [Timer.overflowAt, h, alignDown]
  omega

theorem quiet_scheduleOverflow {d : Dev} {i : Fin 4} (h : d.now < (d.timer i).overflowAt) :
    Quiet d (d.scheduleOverflow i) := by
  refine ⟨rfl, ?_⟩
  show workOf d.now (d.events ++ [_]) ≤ _
  rw [workOf_append]
  simp [workOf, lateness, h]

theorem quiet_timerControlWrite (d : Dev) (i : Fin 4) (v : Half) : Quiet d (d.timerControlWrite i v) := by
  have hsettle : Quiet d (if (d.timer i).isFreeRunning i then d.settle i else d) := by
    split
    · unfold Dev.settle
      cases (d.timer i).handle with
      | none => exact Quiet.of_eq rfl rfl
      | some h => exact (quiet_setTimer d i _).trans (quiet_removeEvent _ h)
    · exact Quiet.refl d
  unfold Dev.timerControlWrite
  generalize (if (d.timer i).isFreeRunning i then d.settle i else d) = u at hsettle
  -- a start on a tick by `x`, the clock's time or later
  have start (b : Half) {x : Nat} (hx : u.now ≤ x) : Quiet u ((u.setTimer i { u.timer i with
      base := b, control := v &&& 0x00C7, lastTs := alignDown x (timerPeriod (v &&& 0x00C7)) }).scheduleOverflow i) := by
    refine (quiet_setTimer u i _).trans (quiet_scheduleOverflow (Nat.lt_of_le_of_lt hx ?_))
    rw [Dev.setTimer_timer_same]
    exact Timer.lt_overflowAt _ rfl
  dsimp only
  refine hsettle.trans ?_
  split <;> split
  · exact start _ (Nat.le_add_right _ _)
  · exact quiet_setTimer u i _
  · exact start _ (Nat.le_refl _)
  · exact quiet_setTimer u i _

theorem Dev.timerControlWrite_dma (d : Dev) (i : Fin 4) (v : Half) : (d.timerControlWrite i v).dma = d.dma := by
  have hsettle : (if (d.timer i).isFreeRunning i then d.settle i else d).dma = d.dma := by
    split
    · unfold Dev.settle Dev.removeHandle; split <;> rfl
    · rfl
  unfold Dev.timerControlWrite
  generalize (if (d.timer i).isFreeRunning i then d.settle i else d) = u at hsettle
  dsimp only
  split <;> split <;> exact hsettle

theorem quiet_cancelStart (d : Dev) (st : DmaStatus) : Quiet d (d.cancelStart st) := by
  cases st with
  | scheduled h => exact quiet_removeEvent d h
  | disabled | waiting | running => exact Quiet.refl d

theorem quiet_dmaControlStore (d : Dev) (n : Fin 4) (v : Half) : Quiet d (d.dmaControlStore n v) := by
  have set (c : DmaChannel) : Quiet d (d.setChannel n c) := Quiet.of_eq rfl rfl
  unfold Dev.dmaControlStore
  dsimp only
  split
  · split
    · exact (set _).trans (quiet_trigger _ n)
    · exact set _
  · split
    · exact (set _).trans (quiet_cancelStart _ _)
    · exact set _

theorem Dev.keepsRunning_dmaControlStore (d : Dev) {n : Fin 4} (v : Half) (h : (d.channel n).status ≠ .running) :
    d.KeepsRunning (d.dmaControlStore n v) := by
  have set (c : DmaChannel) : d.KeepsRunning (d.setChannel n c) := d.keepsRunning_setChannel fun hr => absurd hr h
  unfold Dev.dmaControlStore
  dsimp only
  split
  · split
    · refine (set _).trans (keepsRunning_setChannel _ fun hr => absurd ?_ h)
      rwa [Dev.setChannel_channel_same] at hr
    · exact set _
  · split
    · unfold Dev.cancelStart; split <;> exact set _
    · exact set _


namespace Dev.Evolves
variable {d u : Dev}

theorem timerControlWrite (d : Dev) (i : Fin 4) (v : Half) : d.Evolves (d.timerControlWrite i v) :=
  ⟨fun h => h.timerControlWrite i v, .of_dma (d.timerControlWrite_dma i v), (quiet_timerControlWrite d i v).settled⟩

theorem timerReloadWrite (d : Dev) (i : Fin 4) (v : Half) : d.Evolves (d.timerReloadWrite i v) where
  sound h := h.setTimer ⟨(h.timer i).reserved, (h.timer i).running, (h.timer i).idle, (h.timer i).overflow⟩
  running := .of_dma rfl
  settled := id

theorem dmaControlWrite {n : Fin 4} {v : Half} (h : d.dmaControlWrite n v = .next u) : d.Evolves u := by
  unfold Dev.dmaControlWrite at h
  split at h
  next => cases h
  next hrun =>
    split at h
    next => cases h
    next =>
      cases h
      exact ⟨fun hd => hd.dmaControlStore n v, d.keepsRunning_dmaControlStore v hrun, (quiet_dmaControlStore d n v).settled⟩

/-- A value under a mask has no bit outside it. -/
theorem and_mask_clear {w : Nat} (v m : BitVec w) : v &&& m &&& ~~~m = 0 := by
  rw [BitVec.and_assoc, BitVec.and_not_self]; exact BitVec.and_zero

/-- Every write action of a register of the block (20_memory.md R111). -/
theorem ioWrite {r : IoReg} {v : Half} (h : d.ioWrite r v = .next u) : d.Evolves u := by
  cases r with
  | dmaSadLo n | dmaSadHi n =>
    cases h; exact setChannel (fun hm => ⟨and_mask_clear _ _, hm.dad, hm.cntL, hm.cntH⟩) rfl rfl
  | dmaDadLo n | dmaDadHi n =>
    cases h; exact setChannel (fun hm => ⟨hm.sad, and_mask_clear _ _, hm.cntL, hm.cntH⟩) rfl rfl
  | dmaCntL n => cases h; exact setChannel (fun hm => ⟨hm.sad, hm.dad, and_mask_clear _ _, hm.cntH⟩) rfl rfl
  | dmaCntH n => exact dmaControlWrite h
  | timerCntL i => cases h; exact timerReloadWrite d i v
  | timerCntH i => cases h; exact timerControlWrite d i v
  | ie => cases h; exact irqChanged (of_same id id rfl rfl rfl rfl rfl)
  | iflag =>
    cases h
    refine irqChanged (of_same (fun hf => ?_) id rfl rfl rfl rfl rfl)
    show d.iflag &&& ~~~v &&& 0xC000 = 0
    rw [BitVec.and_assoc, BitVec.and_comm (~~~v), ← BitVec.and_assoc, hf]; exact BitVec.zero_and
  | waitcnt => cases h; exact of_same id (fun _ => and_mask_clear v 0x7FFF) rfl rfl rfl rfl rfl
  | ime => cases h; exact irqChanged (of_same id id rfl rfl rfl rfl rfl)

theorem ioWriteHalf {off : Nat} {v : Half} (h : d.ioWriteHalf off v = .next u) : d.Evolves u := by
  unfold Dev.ioWriteHalf at h
  split at h
  · exact ioWrite h
  · cases h; exact refl d

theorem ioWriteByte {off : Nat} {v : Byte} (h : d.ioWriteByte off v = .next u) : d.Evolves u := by
  unfold Dev.ioWriteByte at h
  split at h
  · unfold Dev.haltcntWrite at h
    split at h
    · cases h
    · cases h; exact of_same id id rfl rfl rfl rfl rfl
  · split at h
    · exact ioWrite h
    · cases h; exact refl d

theorem ioStore {off : Nat} {v : Word} {w : Width} (h : d.ioStore off v w = .next u) : d.Evolves u := by
  cases w with
  | byte => exact ioWriteByte h
  | half => exact ioWriteHalf h
  | word =>
    obtain ⟨m, hm, hu⟩ := andThen_eq_next.mp h
    exact (ioWriteHalf hm).trans (ioWriteHalf hu)

end Dev.Evolves

/-! ## The machine -/

/-- The devices of a machine evolve. -/
def State.DevEvolves (s u : State) : Prop := s.dev.Evolves u.dev

/-- Every access to the bus lets the devices evolve. -/
theorem busClosed_devEvolves : BusClosed State.DevEvolves where
  refl s := .refl s.dev
  trans h h' := Dev.Evolves.trans h h'
  cpu s _ := .refl s.dev
  draws s _ := .refl s.dev
  advance s c := .advance s.dev c
  prefetch s a := .touchPrefetch s.dev a
  poke {s t a w v} h := by
    unfold State.poke at h
    split at h
    next off _ =>
      obtain ⟨d, hd, ht⟩ := andThen_eq_next.mp h
      cases ht
      exact Dev.Evolves.ioStore hd
    next => cases h; exact .refl s.dev
    next => cases h; exact .refl s.dev
    next => cases h; exact .refl s.dev

theorem devEvolves_latch (s : State) (v : Word) :
    s.DevEvolves { s with dev := { s.dev with dmaLatch := v } } := .of_same id id rfl rfl rfl rfl rfl

theorem devEvolves_wake (s : State) : s.DevEvolves s.wake := by
  unfold State.wake; split
  · exact .of_same id id rfl rfl rfl rfl rfl
  · exact .refl s.dev

theorem ends_dmaRead_devEvolves (s : State) (word : Bool) (src : Word) (acc : AccessClass) :
    s.DevEvolves (s.dmaRead word src acc) := by
  unfold State.dmaRead; split
  · exact (busClosed_devEvolves.memRead s _ _ _ _).trans (devEvolves_latch _ _)
  · exact busClosed_devEvolves.pass s _ _ _ _

/-- One unit of a transfer: its accesses, and the step of the working copy (62_dma.md R612). -/
theorem ends_dmaUnit_devEvolves (s : State) (n : Fin 4) (word : Bool) (acc : AccessClass) :
    Ends State.DevEvolves s (s.dmaUnit n word acc) :=
  ends_trans busClosed_devEvolves (ends_dmaRead_devEvolves s _ _ _)
    (ends_andThen (busClosed_devEvolves.memWrite _ _ _ _ _) fun _ h =>
      ends_next (h.trans (.setChannel (fun hm => ⟨hm.sad, hm.dad, hm.cntL, hm.cntH⟩) rfl rfl)))

theorem ends_dmaUnits_devEvolves (s : State) (n : Fin 4) (word : Bool) (k : Nat) (acc : AccessClass) :
    Ends State.DevEvolves s (s.dmaUnits n word k acc) := by
  induction k generalizing acc s with
  | zero => exact ends_next (.refl s.dev)
  | succ k ih =>
    exact ends_andThen (ends_dmaUnit_devEvolves s n word acc) fun u h =>
      ends_trans busClosed_devEvolves h (ih u .seq)

theorem quiet_dmaComplete (d : Dev) (n : Fin 4) : Quiet d (d.dmaComplete n) := by
  have hirq : Quiet d (d.completionIrq n) := by
    unfold Dev.completionIrq; split
    · exact quiet_requestInterrupt d _
    · exact Quiet.refl d
  exact hirq.trans (Quiet.of_eq rfl rfl)

/-- What every step keeps of the devices. -/
def Dev.InOrder (d : Dev) : Prop := d.Sound ∧ d.settled

theorem Dev.Evolves.inOrder {d u : Dev} (h : d.Evolves u) (hd : d.InOrder) : u.InOrder :=
  ⟨h.sound hd.1, h.settled hd.2⟩

/-- A DMA step: the channel runs to its completion, which is where it may stop running (62_dma.md R611, R620). -/
theorem dmaStep_inOrder {s u : State} {n : Fin 4} (hrun : (s.dev.channel n).status = .running) (hd : s.dev.InOrder)
    (h : s.dmaStep n = .next u) : u.dev.InOrder := by
  obtain ⟨t, ht, hu⟩ := andThen_eq_next.mp h
  cases hu
  have hev : s.dev.Evolves t.dev := ends_dmaUnits_devEvolves s n _ _ _ t ht
  obtain ⟨hs, hset⟩ := hev.inOrder hd
  exact ⟨hs.dmaComplete (hev.running n hrun), (quiet_dmaComplete t.dev n).settled hset⟩

theorem ends_sleep_devEvolves (s : State) : Ends State.DevEvolves s s.sleep := by
  unfold State.sleep; split
  · exact ends_fault _
  · exact ends_next (.advance s.dev _)

theorem step_inOrder {s u : State} (hd : s.dev.InOrder) (h : step s = .next u) : u.dev.InOrder := by
  unfold step at h
  split at h
  next n hn => exact dmaStep_inOrder (by simpa using List.find?_some hn) hd h
  next =>
    have hw := (devEvolves_wake s).inOrder hd
    split at h
    · exact (ends_sleep_devEvolves _ u h).inOrder hw
    · exact (ends_cpuStep busClosed_devEvolves _ u h).inOrder hw

/-- Settles O53: each operation of the devices opens one timer or channel, works on it and closes it
(`Dev.SoundBut`), and so do the events that time fires. -/
theorem stepKeepsDevices : Obligations.StepKeepsDevices := by
  unfold Obligations.StepKeepsDevices
  intro s u hr hc hs h
  obtain ⟨⟨hr', hc'⟩, hs'⟩ := step_inOrder ⟨⟨hr, hc⟩, hs⟩ h
  exact ⟨hr', hc', hs'⟩

end Sys2Proof.Machine

namespace Sys2Proof.Machine
open Sys2Proof

/-! ## The alignment of PC (10_state.md R39) -/

/-- An aligned PC stays aligned. -/
def State.Aligning (s u : State) : Prop := s.pcAligned → u.pcAligned

/-- PC and the instruction set are the same. -/
def State.SameFlow (s u : State) : Prop := u.cpu.pc = s.cpu.pc ∧ u.cpu.cpsr.t = s.cpu.cpsr.t

theorem State.SameFlow.of_cpu {s u : State} (h : u.cpu = s.cpu) : s.SameFlow u := ⟨by rw [h], by rw [h]⟩

theorem State.SameFlow.refl (s : State) : s.SameFlow s := ⟨rfl, rfl⟩

theorem State.SameFlow.trans {s t u : State} (h : s.SameFlow t) (h' : t.SameFlow u) : s.SameFlow u :=
  ⟨h'.1.trans h.1, h'.2.trans h.2⟩

theorem State.SameFlow.aligning {s u : State} (h : s.SameFlow u) : s.Aligning u := by
  intro hs
  rwa [State.pcAligned, h.1, h.2]

theorem toNat_add_two (a : Word) : (a + 2).toNat = (a.toNat + 2) % 2 ^ 32 := BitVec.toNat_add a 2

theorem toNat_add_four (a : Word) : (a + 4).toNat = (a.toNat + 4) % 2 ^ 32 := BitVec.toNat_add a 4

/-- Moving PC past an instruction keeps it aligned (10_state.md R40). -/
theorem State.SameFlow.advancePc {s u : State} (h : s.SameFlow u) : s.Aligning u.advancePc := by
  intro hs
  have hu := h.aligning hs
  have := u.cpu.pc.isLt
  unfold State.pcAligned at hu ⊢
  rw [State.advancePc_cpsr, State.advancePc_pc, Cpu.w]
  split at hu
  next ht => simp only [ht, if_true, toNat_add_two]; omega
  next ht => simp only [ht, if_false, toNat_add_four, Bool.false_eq_true]; omega

theorem State.SameFlow.endData {s u : State} (h : s.SameFlow u) : s.Aligning u.endData :=
  State.SameFlow.advancePc (u := u.setFetch .nonseq) h

theorem State.Aligning.setHazard {s u : State} (h : s.Aligning u) (b : Bool) : s.Aligning (u.setHazard b) := h

/-- A condition-failed instruction is an ARM instruction; 4 is a multiple of both widths. -/
theorem State.aligning_skip (s : State) : s.Aligning s.skip := by
  intro hs
  have := s.cpu.pc.isLt
  unfold State.pcAligned at hs ⊢
  rw [State.skip_cpsr, State.skip_pc, toNat_add_four]
  split at hs <;> rename_i ht <;> simp only [ht, if_true, if_false, Bool.false_eq_true] <;> omega

/-- A flush leaves PC aligned, wherever it comes from (10_state.md R45). -/
theorem State.branchTo_pcAligned (s : State) (a : Word) : (s.branchTo a).pcAligned := by
  have hh := alignAddr_mod a .half
  have hw := alignAddr_mod a .word
  have := (alignAddr a .half).isLt
  have := (alignAddr a .word).isLt
  unfold State.pcAligned
  rw [State.branchTo_cpsr, State.branchTo_pc]
  simp only [Width.bytes] at hh hw
  split
  · rw [toNat_add_two, toNat_add_two]; omega
  · rw [toNat_add_four, toNat_add_four]; omega

theorem State.aligning_branchTo (s t : State) (a : Word) : s.Aligning (t.branchTo a) :=
  fun _ => t.branchTo_pcAligned a

theorem State.aligning_enterException (s t : State) (m : Mode) (v lr : Word) :
    s.Aligning (t.enterException m v lr) := s.aligning_branchTo _ v

/-! ## What leaves PC and the instruction set -/

theorem State.SameFlow.setX {s u : State} (h : s.SameFlow u) (i : Reg) (v : Word) : s.SameFlow (u.setX i v) :=
  h.trans ⟨State.setX_pc _ _ _, by rw [State.setX_cpsr]⟩

theorem State.SameFlow.setXUsr {s u : State} (h : s.SameFlow u) (i : Reg) (v : Word) : s.SameFlow (u.setXUsr i v) :=
  h.trans ⟨State.setXUsr_pc _ _ _, by rw [State.setXUsr_cpsr]⟩

theorem State.SameFlow.writeBack {s u : State} (h : s.SameFlow u) (wb : Bool) (rn : Reg) (v : Word) :
    s.SameFlow (u.writeBack wb rn v) := by
  unfold State.writeBack; split
  · exact h.setX rn v
  · exact h

theorem State.sameFlow_idles (s : State) (n : Nat) : s.SameFlow (s.idles n) := .of_cpu (s.idles_cpu n)

theorem State.sameFlow_time (s : State) (o : Operand2) : s.SameFlow (o.time s) := by
  unfold Operand2.time; split <;> exact ⟨rfl, rfl⟩

theorem State.SameFlow.setAluFlagsIf {s u : State} (h : s.SameFlow u) (sf : Bool) (o : AluOut) :
    s.SameFlow (u.setAluFlagsIf sf o) := by
  unfold State.setAluFlagsIf; split <;> exact h

theorem State.SameFlow.writeRegs {s u : State} (h : s.SameFlow u) {write : State → Reg → Word → State}
    (hw : ∀ t i v, State.SameFlow t (write t i v)) (vs : List (Reg × Word)) : s.SameFlow (u.writeRegs write vs) := by
  unfold State.writeRegs
  induction vs generalizing u with
  | nil => exact h
  | cons p rest ih =>
    rw [List.foldl_cons]
    refine ih ?_
    split
    · exact h
    · exact h.trans (hw _ _ _)

theorem State.readBlock_cpu (regs : List Reg) (a : Word) (acc : AccessClass) (s : State) :
    (State.readBlock regs a acc s).2.cpu = s.cpu := by
  induction regs generalizing a acc s with
  | nil => rfl
  | cons i rest ih => exact ih (a + 4) .seq _

theorem sameFlow_ldmLoads (s : State) (wb : Bool) (rn : Reg) (list : BitVec 16) (a back : Word) :
    s.SameFlow (ldmLoads s wb rn list a back).2 :=
  State.SameFlow.writeBack (.of_cpu (State.readBlock_cpu _ _ _ s)) _ rn back

/-! ## The shared operations -/

theorem ends_aligning_of_sameFlow {s t : State} {r : Res State} (h : s.SameFlow t) (hr : Ends State.Aligning t r) :
    Ends State.Aligning s r := fun u hu hs => hr u hu (h.aligning hs)

/-- A return from an exception flushes in the restored state (60_exceptions.md R512). -/
theorem ends_aligning_exceptionReturn (s t : State) (a : Word) :
    Ends State.Aligning s (t.exceptionReturn a) := fun u hu => by
  obtain ⟨v, -, hv⟩ := andThen_eq_next.mp hu
  cases hv
  exact s.aligning_branchTo v a

/-- A write to the bus, and what follows it. -/
theorem ends_aligning_memWrite {s t : State} (h : s.SameFlow t) (a : Word) (w : Width) (v : Word) (acc : AccessClass)
    {f : State → Res State} (hf : ∀ u, s.SameFlow u → Ends State.Aligning s (f u)) :
    Ends State.Aligning s (andThen (t.memWrite a w v acc) f) := fun u hu => by
  obtain ⟨m, hm, hu⟩ := andThen_eq_next.mp hu
  exact hf m (h.trans (.of_cpu (State.memWrite_cpu hm).1)) u hu

theorem ends_aligning_runInstr (uses : List Reg) {body : State → Res State} (s : State)
    (h : ∀ t, Ends State.Aligning t (body t)) : Ends State.Aligning s (runInstr uses body s) := by
  unfold runInstr; split
  · exact ends_refused _
  · exact h (s.setHazard false)

theorem ends_aligning_armInstr (cond : Cond) (uses : List Reg) {body : State → Res State} (s : State)
    (h : ∀ t, Ends State.Aligning t (body t)) : Ends State.Aligning s (armInstr cond uses body s) := by
  unfold armInstr; split
  · exact ends_aligning_runInstr uses s h
  · exact ends_next s.aligning_skip

theorem ends_aligning_thumbInstr (uses : List Reg) {body : State → Res State} (s : State)
    (h : ∀ t, Ends State.Aligning t (body t)) : Ends State.Aligning s (thumbInstr uses body s) :=
  ends_aligning_runInstr uses s h

theorem State.SameFlow.writeOrBranch {s u : State} (h : s.SameFlow u) (rd : Reg) (v : Word) :
    s.Aligning (u.writeOrBranch rd v) := by
  unfold State.writeOrBranch; split
  · exact s.aligning_branchTo u v
  · exact (h.setX rd v).advancePc

theorem ends_aligning_dataProc (op : AluOp) (cond : Cond) (sf : Bool) (rn rd : Reg) (o : Operand2) (s : State) :
    Ends State.Aligning s (dataProc op cond sf rn rd o s) := by
  refine ends_aligning_armInstr _ _ s fun t => ends_refuseIf _ _ (ends_refuseQuirk _ _ ?_)
  have ht := t.sameFlow_time o
  unfold dpFinish
  split
  · exact ends_next (State.SameFlow.advancePc (u := (o.time t).setAluFlags _) ht)
  · split
    · split
      · exact ends_aligning_exceptionReturn t _ _
      · exact ends_next (t.aligning_branchTo _ _)
    · exact ends_next ((ht.setX rd _).setAluFlagsIf sf _).advancePc

theorem aligning_mulFinish (n : Nat) (sf : Bool) (rd : Reg) (r : Word) (s : State) :
    s.Aligning (mulFinish n sf rd r s) := by
  have h := (s.sameFlow_idles n).setX rd r
  cases sf
  · exact h.advancePc
  · exact State.SameFlow.advancePc (u := ((s.idles n).setX rd r).setMulFlags r) h

theorem aligning_mulLongFinish (n : Nat) (sf : Bool) (rdHi rdLo : Reg) (p : BitVec 64) (s : State) :
    s.Aligning (mulLongFinish n sf rdHi rdLo p s) := by
  have h := ((s.sameFlow_idles n).setX rdLo (p.extractLsb' 0 32)).setX rdHi (p.extractLsb' 32 32)
  cases sf
  · exact h.advancePc
  · exact State.SameFlow.advancePc
      (u := (((s.idles n).setX rdLo (p.extractLsb' 0 32)).setX rdHi (p.extractLsb' 32 32)).setMulLongFlags p) h

theorem ends_aligning_mulCore (cond : Cond) (sf : Bool) (rd rs rm : Reg) (uses : List Reg) (acc : State → Word)
    (extra : Nat) (s : State) : Ends State.Aligning s (mulCore cond sf rd rs rm uses acc extra s) :=
  ends_aligning_armInstr _ _ s fun t =>
    ends_refuseIf _ _ (ends_refuseQuirk _ _ (ends_next (aligning_mulFinish _ _ _ _ t)))

theorem ends_aligning_mulLongCore (signed : Bool) (cond : Cond) (sf : Bool) (rdHi rdLo rs rm : Reg)
    (acc : State → BitVec 64) (extra : Nat) (s : State) :
    Ends State.Aligning s (mulLongCore signed cond sf rdHi rdLo rs rm acc extra s) :=
  ends_aligning_armInstr _ _ s fun t =>
    ends_refuseIf _ _ (ends_refuseQuirk _ _ (ends_next (aligning_mulLongFinish _ _ _ _ _ t)))

theorem ends_aligning_loadAt (k : LoadKind) (a : Word) (wb : Bool) (rn rd : Reg) (moved : Word) (s : State) :
    Ends State.Aligning s (loadAt k a wb rn rd moved s) := by
  refine ends_refuseQuirk _ _ (ends_next ?_)
  have h : s.SameFlow ((s.loadValue k a).2.idle.writeBack wb rn moved) := State.SameFlow.writeBack ⟨rfl, rfl⟩ wb rn moved
  unfold State.finishLoad
  split
  · exact s.aligning_branchTo _ _
  · exact (h.setX rd _).endData

theorem ends_aligning_storeAt (k : StoreKind) (a v : Word) (wb : Bool) (rn : Reg) (moved : Word) (s : State) :
    Ends State.Aligning s (storeAt k a v wb rn moved s) :=
  ends_refuseQuirk _ _ (ends_aligning_memWrite (.refl s) _ _ _ _ fun _ h => ends_next (h.writeBack wb rn moved).endData)

theorem ends_aligning_loadInstr (k : LoadKind) (cond : Cond) (ix : Indexing) (up : Bool) (rn rd : Reg) (o : Offset)
    (s : State) : Ends State.Aligning s (loadInstr k cond ix up rn rd o s) :=
  ends_aligning_armInstr _ _ s fun t =>
    ends_refuseIf _ _ (ends_refuseQuirk _ _ (ends_aligning_loadAt _ _ _ _ _ _ t))

theorem ends_aligning_storeInstr (k : StoreKind) (cond : Cond) (ix : Indexing) (up : Bool) (rn rd : Reg) (o : Offset)
    (s : State) : Ends State.Aligning s (storeInstr k cond ix up rn rd o s) :=
  ends_aligning_armInstr _ _ s fun t =>
    ends_refuseIf _ _ (ends_refuseQuirk _ _ (ends_refuseQuirk _ _ (ends_aligning_storeAt _ _ _ _ _ _ t)))

theorem ends_aligning_swapInstr (lk : LoadKind) (sk : StoreKind) (cond : Cond) (rn rd rm : Reg) (s : State) :
    Ends State.Aligning s (swapInstr lk sk cond rn rd rm s) :=
  ends_aligning_armInstr _ _ s fun t => ends_refuseIf _ _ (ends_refuseQuirk _ _ (ends_refuseQuirk _ _
    (ends_aligning_memWrite (t := (t.loadValue lk (t.x rn)).2) ⟨rfl, rfl⟩ _ _ _ _ fun u h =>
      ends_next (State.SameFlow.setX (u := u.idle) h rd _).endData)))

/-! ## Block transfers -/

theorem ends_aligning_writeBlock {s : State} (value : State → Reg → Word) {after : State → State}
    (ha : ∀ t, State.SameFlow t (after t)) {f : State → Res State}
    (hf : ∀ u, s.SameFlow u → Ends State.Aligning s (f u)) (regs : List Reg) (a : Word) (acc : AccessClass) (t : State)
    (h : s.SameFlow t) : Ends State.Aligning s (andThen (State.writeBlock value after regs a acc t) f) := by
  induction regs generalizing after a acc t with
  | nil => exact hf t h
  | cons i rest ih =>
    unfold State.writeBlock
    rw [andThen_assoc]
    exact ends_aligning_memWrite h _ _ _ _ fun u hu => ih .refl _ _ _ (hu.trans (ha u))

theorem ends_aligning_ldmCore (mode : BlockMode) (wb : Bool) (rn : Reg) (list : BitVec 16) (s : State) :
    Ends State.Aligning s (ldmCore mode wb rn list s) := by
  refine ends_refuseIf _ _ (ends_refuseQuirk _ _ (ends_refuseQuirk _ _ (ends_next ?_)))
  unfold State.finishLdm
  dsimp only
  split
  · exact s.aligning_branchTo _ _
  · exact ((sameFlow_ldmLoads s _ _ _ _ _).writeRegs (fun t => (State.SameFlow.refl t).setX) _).endData

theorem ends_aligning_stmCore (mode : BlockMode) (wb : Bool) (rn : Reg) (list : BitVec 16) (s : State) :
    Ends State.Aligning s (stmCore mode wb rn list s) :=
  ends_refuseIf _ _ (ends_refuseQuirk _ _ (ends_refuseQuirk _ _ (ends_aligning_writeBlock _
    (fun t => (State.SameFlow.refl t).writeBack _ _ _) (fun _ h => ends_next h.endData) _ _ _ s (.refl s))))

theorem ends_aligning_ldmInstr (mode : BlockMode) (cond : Cond) (wb : Bool) (rn : Reg) (list : BitVec 16) (s : State) :
    Ends State.Aligning s (ldmInstr mode cond wb rn list s) :=
  ends_aligning_armInstr _ _ s fun t => ends_refuseIf _ _ (ends_aligning_ldmCore _ _ _ _ t)

theorem ends_aligning_stmInstr (mode : BlockMode) (cond : Cond) (wb : Bool) (rn : Reg) (list : BitVec 16) (s : State) :
    Ends State.Aligning s (stmInstr mode cond wb rn list s) :=
  ends_aligning_armInstr _ _ s fun t => ends_refuseIf _ _ (ends_refuseQuirk _ _ (ends_aligning_stmCore _ _ _ _ t))

theorem ends_aligning_ldmSInstr (mode : BlockMode) (cond : Cond) (wb : Bool) (rn : Reg) (list : BitVec 16)
    (s : State) : Ends State.Aligning s (ldmSInstr mode cond wb rn list s) := by
  refine ends_aligning_armInstr _ _ s fun t => ends_refuseIf _ _ ?_
  split
  · exact ends_refuseQuirk _ _ (ends_refuseQuirk _ _ (ends_aligning_exceptionReturn t _ _))
  · refine ends_refuseIf _ _ (ends_refuseQuirk _ _ (ends_next ?_))
    have h := (sameFlow_ldmLoads t false rn list (blockStart mode (t.x rn) list) 0).writeRegs
      (write := State.setXUsr) (fun t => (State.SameFlow.refl t).setXUsr)
    exact (h _).endData.setHazard true

theorem ends_aligning_stmSInstr (mode : BlockMode) (cond : Cond) (wb : Bool) (rn : Reg) (list : BitVec 16)
    (s : State) : Ends State.Aligning s (stmSInstr mode cond wb rn list s) :=
  ends_aligning_armInstr _ _ s fun t => ends_refuseIf _ _ (ends_refuseQuirk _ _ (ends_refuseQuirk _ _
    (ends_aligning_writeBlock _ .refl (fun _ h => ends_next h.endData) _ _ _ t (.refl t))))

/-! ## The status registers and the THUMB forms -/

theorem ends_aligning_bxTo (a : Word) (s : State) : Ends State.Aligning s (bxTo a s) :=
  ends_refuseQuirk _ _ (ends_next (s.aligning_branchTo _ a))

theorem ends_aligning_mrsBody (spsr : Bool) (rd : Reg) (s : State) : Ends State.Aligning s (mrsBody spsr rd s) := by
  unfold mrsBody; split
  · split
    · exact ends_refused _
    · exact ends_next ((State.SameFlow.refl s).setX rd _).advancePc
  · exact ends_next ((State.SameFlow.refl s).setX rd _).advancePc

/-- No control field of an MSR changes T (43_arm_branch_system.md R354). -/
theorem Cpsr.writeControl_t {p q : Cpsr} {c : Bool} {v : Word} (h : p.writeControl c v = .next q) : q.t = p.t := by
  unfold Cpsr.writeControl at h
  split at h
  · split at h
    · cases h
    · split at h
      · cases h
      · cases h; rfl
  · cases h; rfl

theorem Cpsr.writeFlags_t (p : Cpsr) (f : Bool) (v : Word) : (p.writeFlags f v).t = p.t := by
  unfold Cpsr.writeFlags; split <;> rfl

theorem sameFlow_psrWrite {spsr : Bool} {mask : BitVec 4} {v : Word} {s u : State}
    (h : psrWrite spsr mask v s = .next u) : s.SameFlow u := by
  unfold psrWrite at h
  split at h
  · split at h
    · cases h
    · cases h
      obtain ⟨-, hcpsr, hpc, -⟩ := Cpu.setSpsr_same s.cpu s.cpu.cpsr.mode
        ((Spsr.writeFlags _ (mask.getLsbD 3) v).writeControl (mask.getLsbD 0) v)
      exact ⟨hpc, congrArg Cpsr.t hcpsr⟩
  · obtain ⟨q, hq, hu⟩ := andThen_eq_next.mp h
    cases hu
    exact ⟨rfl, (Cpsr.writeControl_t hq).trans (Cpsr.writeFlags_t _ _ _)⟩

theorem ends_aligning_msrBody (spsr : Bool) (mask : BitVec 4) (v : Word) (s : State) :
    Ends State.Aligning s (msrBody spsr mask v s) := fun u hu => by
  obtain ⟨t, ht, hu⟩ := andThen_eq_next.mp hu
  cases hu
  exact (sameFlow_psrWrite ht).advancePc

theorem aligning_thumbFinish {s u : State} (h : s.SameFlow u) (test : Bool) (rd : LowReg) (out : AluOut) :
    s.Aligning (thumbFinish test rd out u) := by
  unfold thumbFinish
  split
  · exact State.SameFlow.advancePc (u := u.setAluFlags out) h
  · exact State.SameFlow.advancePc (u := (u.setX rd.toReg out.r).setAluFlags out) (h.setX rd.toReg out.r)

theorem ends_aligning_thumbShift (sh : ShiftType) (n : BitVec 5) (rs rd : LowReg) (s : State) :
    Ends State.Aligning s (thumbShift sh n rs rd s) :=
  ends_aligning_thumbInstr _ s fun t => ends_next (aligning_thumbFinish (.refl t) _ rd _)

theorem ends_aligning_thumbAlu (op : AluOp) (a b : State → Word) (rd : LowReg) (s : State) :
    Ends State.Aligning s (thumbAlu op a b rd s) :=
  ends_aligning_thumbInstr _ s fun t => ends_next (aligning_thumbFinish (.refl t) _ rd _)

theorem ends_aligning_thumbShiftReg (sh : ShiftType) (rs rd : LowReg) (s : State) :
    Ends State.Aligning s (thumbShiftReg sh rs rd s) :=
  ends_aligning_thumbInstr _ s fun t => ends_next (aligning_thumbFinish (u := t.idle) ⟨rfl, rfl⟩ _ rd _)

theorem ends_aligning_thumbLoad (k : LoadKind) (uses : List Reg) (rd : LowReg) (addr : State → Word) (s : State) :
    Ends State.Aligning s (thumbLoad k uses rd addr s) :=
  ends_aligning_thumbInstr _ s fun t => ends_aligning_loadAt _ _ _ _ _ _ t

theorem ends_aligning_thumbStore (k : StoreKind) (uses : List Reg) (rd : LowReg) (addr : State → Word) (s : State) :
    Ends State.Aligning s (thumbStore k uses rd addr s) :=
  ends_aligning_thumbInstr _ s fun t => ends_aligning_storeAt _ _ _ _ _ _ t

end Sys2Proof.Machine

namespace Sys2Proof.Machine
open Sys2Proof

theorem ends_aligning_tBcond (cond : Cond) (off : BitVec 8) (s : State) :
    Ends State.Aligning s (execTBcond cond off s) := by
  refine ends_aligning_thumbInstr _ s fun t => ends_next ?_
  split
  · exact t.aligning_branchTo t _
  · exact (State.SameFlow.refl t).advancePc

/-- Every instruction keeps PC aligned, in whatever state it runs. -/
theorem exec_aligning (i : Instr) (s : State) : Ends State.Aligning s (exec i s) := by
  cases i with
  | bx => exact ends_aligning_armInstr _ _ s fun t => ends_aligning_bxTo _ t
  | mul | mla => exact ends_aligning_mulCore _ _ _ _ _ _ _ _ s
  | umull | umlal | smull | smlal => exact ends_aligning_mulLongCore _ _ _ _ _ _ _ _ _ s
  | swp | swpb => exact ends_aligning_swapInstr _ _ _ _ _ _ s
  | armUnallocMul | hwUnalloc | hwUnpred | armUnallocCtrl =>
    exact ends_aligning_armInstr _ _ s fun _ => ends_refused _
  | strhImm | strhReg | strImm | strReg | strtImm | strtReg | strbImm | strbReg | strbtImm | strbtReg =>
    exact ends_aligning_storeInstr _ _ _ _ _ _ _ s
  | ldrhImm | ldrhReg | ldrsbImm | ldrsbReg | ldrshImm | ldrshReg | ldrImm | ldrReg | ldrtImm | ldrtReg | ldrbImm
    | ldrbReg | ldrbtImm | ldrbtReg =>
    exact ends_aligning_loadInstr _ _ _ _ _ _ _ s
  | mrs => exact ends_aligning_armInstr _ _ s fun t => ends_refuseIf _ _ (ends_aligning_mrsBody _ _ t)
  | msrReg => exact ends_aligning_armInstr _ _ s fun t => ends_refuseIf _ _ (ends_aligning_msrBody _ _ _ t)
  | msrImm => exact ends_aligning_armInstr _ _ s fun t => ends_aligning_msrBody _ _ _ t
  | andShImm | andShReg | andImm | eorShImm | eorShReg | eorImm | subShImm | subShReg | subImm | rsbShImm | rsbShReg
    | rsbImm | addShImm | addShReg | addImm | adcShImm | adcShReg | adcImm | sbcShImm | sbcShReg | sbcImm | rscShImm
    | rscShReg | rscImm | tstShImm | tstShReg | tstImm | teqShImm | teqShReg | teqImm | cmpShImm | cmpShReg | cmpImm
    | cmnShImm | cmnShReg | cmnImm | orrShImm | orrShReg | orrImm | movShImm | movShReg | movImm | bicShImm | bicShReg
    | bicImm | mvnShImm | mvnShReg | mvnImm =>
    exact ends_aligning_dataProc _ _ _ _ _ _ s
  | und | ldcStc | cdp | mrcMcr =>
    exact ends_aligning_armInstr _ _ s fun t => ends_next (t.aligning_enterException t _ _ _)
  | stmIa | stmIb | stmDa | stmDb => exact ends_aligning_stmInstr _ _ _ _ _ s
  | stmSIa | stmSIb | stmSDa | stmSDb => exact ends_aligning_stmSInstr _ _ _ _ _ s
  | ldmIa | ldmIb | ldmDa | ldmDb => exact ends_aligning_ldmInstr _ _ _ _ _ s
  | ldmSIa | ldmSIb | ldmSDa | ldmSDb => exact ends_aligning_ldmSInstr _ _ _ _ _ s
  | b | bl => exact ends_aligning_armInstr _ _ s fun t => ends_next (t.aligning_branchTo _ _)
  | swi => exact ends_aligning_armInstr _ _ s fun t => ends_next (t.aligning_enterException t _ _ _)
  | tLslImm | tLsrImm | tAsrImm =>
    dsimp only [exec, execTLslImm, execTLsrImm, execTAsrImm]
    exact ends_aligning_thumbShift _ _ _ _ s
  | tAddReg | tSubReg | tAddImm3 | tSubImm3 | tMovImm8 | tCmpImm8 | tAddImm8 | tSubImm8 | tAnd | tEor | tAdc | tSbc
    | tTst | tNeg | tCmpReg | tCmn | tOrr | tBic | tMvn =>
    dsimp only [exec, execTAddReg, execTSubReg, execTAddImm3, execTSubImm3, execTMovImm8, execTCmpImm8, execTAddImm8,
      execTSubImm8, execTAnd, execTEor, execTAdc, execTSbc, execTTst, execTNeg, execTCmpReg, execTCmn, execTOrr,
      execTBic, execTMvn]
    exact ends_aligning_thumbAlu _ _ _ _ s
  | tLslReg | tLsrReg | tAsrReg | tRorReg =>
    dsimp only [exec, execTLslReg, execTLsrReg, execTAsrReg, execTRorReg]
    exact ends_aligning_thumbShiftReg _ _ _ s
  | tMul =>
    dsimp only [exec, execTMul]
    exact ends_aligning_thumbInstr _ s fun t => ends_refuseQuirk _ _ (ends_next (aligning_mulFinish _ _ _ _ t))
  | tAddHi | tMovHi =>
    dsimp only [exec, execTAddHi, execTMovHi]
    exact ends_aligning_thumbInstr _ s fun t =>
      ends_refuseQuirk _ _ (ends_next ((State.SameFlow.refl t).writeOrBranch _ _))
  | tCmpHi =>
    dsimp only [exec, execTCmpHi]
    exact ends_aligning_thumbInstr _ s fun t =>
      ends_refuseQuirk _ _ (ends_next (State.SameFlow.advancePc (u := t.setAluFlags _) ⟨rfl, rfl⟩))
  | tBx => exact ends_aligning_thumbInstr _ s fun t => ends_refuseQuirk _ _ (ends_aligning_bxTo _ t)
  | tLdrPc | tLdrReg | tLdrbReg | tLdrhReg | tLdsbReg | tLdshReg | tLdrImm | tLdrbImm | tLdrhImm | tLdrSp =>
    dsimp only [exec, execTLdrPc, execTLdrReg, execTLdrbReg, execTLdrhReg, execTLdsbReg, execTLdshReg, execTLdrImm,
      execTLdrbImm, execTLdrhImm, execTLdrSp]
    exact ends_aligning_thumbLoad _ _ _ _ s
  | tStrReg | tStrbReg | tStrhReg | tStrImm | tStrbImm | tStrhImm | tStrSp =>
    dsimp only [exec, execTStrReg, execTStrbReg, execTStrhReg, execTStrImm, execTStrbImm, execTStrhImm, execTStrSp]
    exact ends_aligning_thumbStore _ _ _ _ s
  | tAddPc | tAddSp | tAddSpImm | tBlPrefix =>
    dsimp only [exec, execTAddPc, execTAddSp, execTAddSpImm, execTBlPrefix]
    exact ends_aligning_thumbInstr _ s fun t => ends_next ((State.SameFlow.refl t).setX _ _).advancePc
  | tPush | tStmia =>
    dsimp only [exec, execTPush, execTStmia]
    exact ends_aligning_thumbInstr _ s fun t => ends_aligning_stmCore _ _ _ _ t
  | tPop | tLdmia =>
    dsimp only [exec, execTPop, execTLdmia]
    exact ends_aligning_thumbInstr _ s fun t => ends_aligning_ldmCore _ _ _ _ t
  | tUnalloc => exact ends_aligning_thumbInstr _ s fun _ => ends_refused _
  | tSwi => exact ends_aligning_thumbInstr _ s fun t => ends_next (t.aligning_enterException t _ _ _)
  | tBcond => exact ends_aligning_tBcond _ _ s
  | tB | tBlSuffix => exact ends_aligning_thumbInstr _ s fun t => ends_next (t.aligning_branchTo _ _)

/-- The CPU is no part of a DMA transfer (62_dma.md R612). -/
theorem dmaUnit_cpu {s u : State} {n : Fin 4} {word : Bool} {acc : AccessClass}
    (h : s.dmaUnit n word acc = .next u) : u.cpu = s.cpu := by
  obtain ⟨t, ht, hu⟩ := andThen_eq_next.mp h
  cases hu
  refine (State.memWrite_cpu ht).1.trans ?_
  unfold State.dmaRead; split <;> rfl

theorem dmaUnits_cpu {n : Fin 4} {word : Bool} {k : Nat} {acc : AccessClass} {s u : State}
    (h : s.dmaUnits n word k acc = .next u) : u.cpu = s.cpu := by
  induction k generalizing acc s with
  | zero => cases h; rfl
  | succ k ih =>
    obtain ⟨t, ht, hu⟩ := andThen_eq_next.mp h
    exact (ih hu).trans (dmaUnit_cpu ht)

theorem dmaStep_cpu {s u : State} {n : Fin 4} (h : s.dmaStep n = .next u) : u.cpu = s.cpu := by
  obtain ⟨t, ht, hu⟩ := andThen_eq_next.mp h
  cases hu
  exact (dmaUnits_cpu ht : t.cpu = s.cpu)

@[simp] theorem State.wake_cpu (s : State) : s.wake.cpu = s.cpu := by
  unfold State.wake; split <;> rfl

theorem State.sleep_cpu {s u : State} (h : s.sleep = .next u) : u.cpu = s.cpu := by
  unfold State.sleep at h; split at h <;> cases h; rfl

theorem cpuStep_aligning (s : State) : Ends State.Aligning s (cpuStep s) := by
  unfold cpuStep; split
  · exact ends_next (s.aligning_enterException _ _ _ _)
  · exact ends_aligning_of_sameFlow (t := s.fetchStage) ⟨rfl, rfl⟩ (exec_aligning _ _)

/-- Settles O52: an instruction ends with PC moved past it by its own width, or with a flush, which aligns its target. -/
theorem stepKeepsPcAligned : Obligations.StepKeepsPcAligned := by
  unfold Obligations.StepKeepsPcAligned
  intro s u hs h
  unfold step at h
  split at h
  · exact (State.SameFlow.of_cpu (dmaStep_cpu h)).aligning hs
  · have hw : s.wake.pcAligned := (State.SameFlow.of_cpu s.wake_cpu).aligning hs
    split at h
    · exact (State.SameFlow.of_cpu (State.sleep_cpu h)).aligning hw
    · exact cpuStep_aligning _ u h hw

end Sys2Proof.Machine

namespace Sys2Proof.Machine
open Sys2Proof

/-! ## The banks (10_state.md R34) -/

/-- Two modes share a register: r0 to r7 always, r8 to r12 outside FIQ, usr and sys all of theirs. -/
def SharesRegister (i : Reg) (a b : Mode) : Prop :=
  i.val ≤ 7 ∨ a = b ∨ (i.val ≤ 12 ∧ a ≠ .fiq ∧ b ≠ .fiq) ∨ ((a = .usr ∨ a = .sys) ∧ (b = .usr ∨ b = .sys))

/-- The number of the register that has a place in the register file (10_state.md R31), whatever the mode. -/
def numberAt (k : Fin 30) : Nat := if k.val ≤ 14 then k.val else if k.val ≤ 21 then k.val - 7 else 13 + k.val % 2

theorem numberAt_physIndex (m : Mode) : ∀ i : Reg, i ≠ pcReg → numberAt (physIndex i m) = i.val := by
  cases m <;> decide

theorem physIndex_eq_iff_shares (a b : Mode) : ∀ i : Reg, i ≠ pcReg →
    (physIndex i a = physIndex i b ↔ SharesRegister i a b) := by
  unfold SharesRegister
  cases a <;> cases b <;> decide

/-- Two modes reach one place exactly by one register that they share. -/
theorem physIndex_eq_iff (a b : Mode) {i j : Reg} (hi : i ≠ pcReg) (hj : j ≠ pcReg) :
    physIndex i a = physIndex j b ↔ i = j ∧ SharesRegister i a b := by
  constructor
  · intro h
    have hij : i = j := Fin.ext (by rw [← numberAt_physIndex a i hi, h, numberAt_physIndex b j hj])
    subst hij
    exact ⟨rfl, (physIndex_eq_iff_shares a b i hi).mp h⟩
  · rintro ⟨rfl, h⟩
    exact (physIndex_eq_iff_shares a b i hi).mpr h

/-- Settles O11: each register is at one place of the file, and the places of two modes meet where they share it. -/
theorem bankedRegisters : Obligations.BankedRegisters := by
  unfold Obligations.BankedRegisters
  intro s a b i j v hi hj inMode
  have hplace := physIndex_eq_iff a b hi hj
  have hread (t : State) : (inMode t a).x i = t.cpu.regs.get (physIndex i a) := Cpu.x_of_ne _ hi
  have hwrite : ((inMode s b).setX j v).cpu.regs = s.cpu.regs.set (physIndex j b) v := by
    simp [State.setX, Cpu.setX, hj, inMode]
  rw [hread, hread, hwrite]
  split
  next h => rw [hplace.mpr h]; exact vector_get_set_self _ _ _
  next h => exact vector_get_set_ne _ _ fun e => h (hplace.mp e.symm)

/-! ## Data processing -/

@[simp] theorem toInt_not_word (b : Word) : (~~~b).toInt = -b.toInt - 1 := by
  have := b.isLt
  rw [BitVec.toInt_not, BitVec.toInt_eq_toNat_bmod, Int.bmod_def, Int.bmod_def]
  split <;> split <;> omega

theorem AluOut.eq_mk {o : AluOut} {r : Word} {c v : Bool} (hr : o.r = r) (hc : o.c = c) (hv : o.v = v) :
    o = ⟨r, c, v⟩ := by subst hr hc hv; rfl

theorem addWithCarry_eq (a b : Word) (c : Bool) : addWithCarry a b c =
    ⟨a + b + (if c then 1 else 0), decide (2 ^ 32 ≤ a.toNat + b.toNat + c.toNat),
      outOfRange (a.toInt + b.toInt + c.toNat)⟩ :=
  AluOut.eq_mk (addWithCarry_r a b c) (addWithCarry_c a b c) (addWithCarry_v a b c)

/-- Subtraction by the complement (40_arm_dataproc.md R211), with the borrow as the carry in. -/
theorem addWithCarry_not (a b : Word) (c : Bool) : addWithCarry a (~~~b) c =
    ⟨a - b - (if c then 0 else 1), decide (b.toNat + (!c).toNat ≤ a.toNat),
      outOfRange (a.toInt - b.toInt - (!c).toNat)⟩ := by
  have hr : (addWithCarry a (~~~b) c).r = a - b - (if c then 0 else 1) := by
    rw [addWithCarry_r]
    cases c <;> simp only [Bool.false_eq_true, if_false, if_true] <;> bv_omega
  have hc : (addWithCarry a (~~~b) c).c = decide (b.toNat + (!c).toNat ≤ a.toNat) := by
    have := b.isLt
    rw [addWithCarry_c, BitVec.toNat_not]
    cases c <;> simp only [Bool.not_false, Bool.not_true, Bool.toNat_true, Bool.toNat_false] <;> congr 1 <;>
      apply propext <;> omega
  have hv : (addWithCarry a (~~~b) c).v = outOfRange (a.toInt - b.toInt - (!c).toNat) := by
    rw [addWithCarry_v, toInt_not_word]
    congr 1
    cases c <;> simp only [Bool.not_false, Bool.not_true, Bool.toNat_true, Bool.toNat_false] <;> omega
  exact AluOut.eq_mk hr hc hv

/-- Each operation gives the result and the flags of integer arithmetic (40_arm_dataproc.md R220 to R235). -/
theorem AluOp.apply_eq (op : AluOp) (a b : Word) (shc : Bool) (p : Cpsr) :
    op.apply a b shc p = ⟨op.result a b p.c, op.carry a b p.c shc, op.overflow a b p.c p.v⟩ := by
  cases op with
  | and | eor | tst | teq | orr | mov | bic | mvn => rfl
  | sub | cmp | rsb | sbc | rsc => simp [AluOp.apply, addWithCarry_not, AluOp.result, AluOp.carry, AluOp.overflow]
  | add | cmn | adc => simp [AluOp.apply, addWithCarry_eq, AluOp.result, AluOp.carry, AluOp.overflow]

/-- What `dpRefused` says of an instruction that names no r15 as Rs and, as a test, as Rd (R204, R216). -/
theorem dpRefused_eq_false {op : AluOp} {rd : Reg} {o : Operand2} (hrd : op.isTest = true → rd ≠ pcReg)
    (hrs : ∀ rs sh rm, o = .shReg rs sh rm → rs ≠ pcReg) : dpRefused op rd o = false := by
  have ht : (op.isTest && rd == pcReg) = false := by
    cases h : op.isTest
    · rfl
    · simp [hrd h]
  cases o with
  | imm rot imm => simp [dpRefused, ht]
  | shImm n sh rm => simp [dpRefused, ht]
  | shReg rs sh rm => simp [dpRefused, ht, hrs rs sh rm rfl]

/-- The operands do not see the hazard. -/
theorem dpResult_setHazard (op : AluOp) (rn : Reg) (o : Operand2) (s : State) (b : Bool) :
    dpResult op rn o (s.setHazard b) = dpResult op rn o s := by cases o <;> rfl

/-- The result of a data-processing instruction with its flags, in integers (R214). -/
theorem dpResult_eq (op : AluOp) (rn : Reg) (o : Operand2) (s : State) : dpResult op rn o s =
    ⟨op.result (s.xFor o rn) (o.value s).1 s.cpu.cpsr.c,
      op.carry (s.xFor o rn) (o.value s).1 s.cpu.cpsr.c (o.value s).2,
      op.overflow (s.xFor o rn) (o.value s).1 s.cpu.cpsr.c s.cpu.cpsr.v⟩ := op.apply_eq _ _ _ _

/-- A data-processing instruction that executes and is not refused ends with its result (R214). -/
theorem exec_dp_finishes {i : Instr} {s : State} {p : DpParts} (h : i.asDp = some p) (he : i.Executes s)
    (hrd : p.op.isTest = true → p.rd ≠ pcReg) (hrs : ∀ rs sh rm, p.o = .shReg rs sh rm → rs ≠ pcReg) :
    exec i s = dpFinish p.op p.sf p.rd (dpResult p.op p.rn p.o s) (p.o.time (s.setHazard false)) := by
  rw [exec_asDp h he, dpExecute, dpRefused_eq_false hrd hrs, refuseQuirk_arm7tdmi, dpResult_setHazard]
  rfl

@[simp] theorem Operand2.time_cpu (o : Operand2) (s : State) : (o.time s).cpu = s.cpu := by
  unfold Operand2.time; split <;> rfl

@[simp] theorem Operand2.time_mem (o : Operand2) (s : State) : (o.time s).mem = s.mem := by
  unfold Operand2.time; split <;> rfl

/-- A register-specified shift takes an internal cycle, any other operand none (R204). -/
@[simp] theorem Operand2.time_dev (o : Operand2) (s : State) :
    (o.time s).dev = if o.isShReg then s.dev.advance 1 else s.dev := by
  unfold Operand2.time; split <;> rfl

theorem flagsOf_setAluFlags (s : State) (o : AluOut) : FlagsOf o.r o.c o.v (s.setAluFlags o).cpu.cpsr :=
  ⟨rfl, by simp, rfl, rfl⟩

/-! ## The end of an instruction that writes one register -/

section
variable {s t : State}

/-- Writing a register keeps the others, the control bits and the SPSRs (10_state.md R34). -/
theorem keeps_setX (hc : t.cpu = { s.cpu with ubankHazard := false }) (rd : Reg) (v : Word) :
    Keeps [s.place rd] s (t.setX rd v) where
  regs j hj := by
    rw [State.setX_regs_get_ne _ _ _ _ (by simpa [hc, State.place] using hj), hc]
  mode := by rw [State.setX_cpsr, hc]
  thumb := by rw [State.setX_cpsr, hc]
  masks := by rw [State.setX_cpsr, hc]; exact ⟨rfl, rfl⟩
  spsrs m := by rw [State.setX_spsr, hc]; cases m <;> rfl

theorem keepsFlags_setX (hc : t.cpu = { s.cpu with ubankHazard := false }) (rd : Reg) (v : Word) :
    KeepsFlags s (t.setX rd v) := by
  constructor <;> rw [State.setX_cpsr, hc]

theorem advanced_setX (hc : t.cpu = { s.cpu with ubankHazard := false }) (rd : Reg) (v : Word) :
    Advanced s.cpu.fetchType s (t.setX rd v).advancePc where
  pc := by rw [State.advancePc_pc, State.setX_pc, State.setX_w, hc]; rfl
  fetch := by rw [State.advancePc_fetchType, State.setX_fetchType, hc]
  pipeline := by simp [hc]
  hazard := by simp [hc]

/-- What the flags do not touch is kept by a register write with flags too. -/
theorem keeps_setX_setAluFlagsIf (hc : t.cpu = { s.cpu with ubankHazard := false }) (rd : Reg) (v : Word) (sf : Bool)
    (o : AluOut) : Keeps [s.place rd] s ((t.setX rd v).setAluFlagsIf sf o) := by
  have h := keeps_setX hc rd v
  cases sf
  · exact h
  · exact ⟨h.regs, h.mode, h.thumb, h.masks, h.spsrs⟩

theorem advanced_setX_setAluFlagsIf (hc : t.cpu = { s.cpu with ubankHazard := false }) (rd : Reg) (v : Word)
    (sf : Bool) (o : AluOut) : Advanced s.cpu.fetchType s ((t.setX rd v).setAluFlagsIf sf o).advancePc := by
  have h := advanced_setX hc rd v
  cases sf
  · exact h
  · exact ⟨h.pc, h.fetch, h.pipeline, h.hazard⟩

/-- A flush keeps every register, the control bits and the SPSRs (10_state.md R45). -/
theorem keeps_branchTo (hc : t.cpu = { s.cpu with ubankHazard := false }) (a : Word) : Keeps [] s (t.branchTo a) where
  regs j _ := by rw [State.branchTo_regs, hc]
  mode := by rw [State.branchTo_cpsr, hc]
  thumb := by rw [State.branchTo_cpsr, hc]
  masks := by rw [State.branchTo_cpsr, hc]; exact ⟨rfl, rfl⟩
  spsrs m := by rw [State.branchTo_spsr, hc]; cases m <;> rfl

theorem keepsFlags_branchTo (hc : t.cpu = { s.cpu with ubankHazard := false }) (a : Word) :
    KeepsFlags s (t.branchTo a) := by
  constructor <;> rw [State.branchTo_cpsr, hc]

end

theorem Keeps.advancePc {l : List (Fin 30)} {s u : State} (h : Keeps l s u) : Keeps l s u.advancePc :=
  ⟨h.regs, h.mode, h.thumb, h.masks, h.spsrs⟩

theorem KeepsFlags.advancePc {s u : State} (h : KeepsFlags s u) : KeepsFlags s u.advancePc := ⟨h.n, h.z, h.c, h.v⟩

@[simp] theorem State.advancePc_x (s : State) {i : Reg} (hi : i ≠ pcReg) : s.advancePc.x i = s.x i := by
  unfold State.x; rw [Cpu.x_of_ne _ hi, Cpu.x_of_ne _ hi]; rfl

@[simp] theorem State.setAluFlagsIf_mem (s : State) (sf : Bool) (o : AluOut) : (s.setAluFlagsIf sf o).mem = s.mem := by
  cases sf <;> rfl

@[simp] theorem State.setAluFlagsIf_dev (s : State) (sf : Bool) (o : AluOut) : (s.setAluFlagsIf sf o).dev = s.dev := by
  cases sf <;> rfl

@[simp] theorem State.setAluFlagsIf_x (s : State) (sf : Bool) (o : AluOut) (i : Reg) :
    (s.setAluFlagsIf sf o).x i = s.x i := by cases sf <;> rfl

/-- Settles O16: the operands by their definitions, and the register write with the flags of `dpResult_eq`. -/
theorem dpWritesRegister : Obligations.DpWritesRegister := by
  unfold Obligations.DpWritesRegister
  refine ⟨fun s rn rs rm sh n rot imm => ?_, ?_⟩
  · have hbyte : ((s.x rs).extractLsb' 0 8).toNat = (s.x rs).toNat % 256 := by
      rw [BitVec.extractLsb'_toNat, Nat.shiftRight_zero]
    refine ⟨Cpu.x_pc _, rfl, rfl, ?_, rfl, rfl, rfl⟩
    rw [hbyte]
    rfl
  · intro i s p h he htest hrd hrs a b
    have hend : exec i s = .next ((((p.o.time (s.setHazard false)).setX p.rd (dpResult p.op p.rn p.o s).r).setAluFlagsIf
        p.sf (dpResult p.op p.rn p.o s)).advancePc) := by
      rw [exec_dp_finishes h he (by simp [htest]) hrs]
      simp only [dpFinish, htest, hrd, if_false, Bool.false_eq_true]
    rw [dpResult_eq] at hend
    have hc : (p.o.time (s.setHazard false)).cpu = { s.cpu with ubankHazard := false } := Operand2.time_cpu _ _
    refine ⟨_, hend, ?_, fun hsf => ?_, fun hsf => ?_, (keeps_setX_setAluFlagsIf hc _ _ _ _).advancePc, fun _ _ => ?_,
      advanced_setX_setAluFlagsIf hc _ _ _ _, ?_⟩
    · rw [State.advancePc_x _ hrd, State.setAluFlagsIf_x, State.setX_x_same _ _ hrd]
    · rw [hsf]; exact flagsOf_setAluFlags _ ⟨_, _, _⟩
    · rw [hsf]; exact (keepsFlags_setX hc _ _).advancePc
    · rw [State.advancePc_mem, State.setAluFlagsIf_mem, State.setX_mem, Operand2.time_mem]; rfl
    · rw [State.advancePc_dev, State.setAluFlagsIf_dev, State.setX_dev, Operand2.time_dev]; rfl

/-- Settles O18: with Rd = 15 the result goes to `branchTo`, which flushes. -/
theorem dpBranches : Obligations.DpBranches := by
  unfold Obligations.DpBranches
  intro i s p h he htest hrd hsf hrs
  have hend : exec i s = .next ((p.o.time (s.setHazard false)).branchTo (dpResult p.op p.rn p.o s).r) := by
    rw [exec_dp_finishes h he (by simp [htest]) hrs]
    simp only [dpFinish, htest, hrd, hsf, if_true, if_false, Bool.false_eq_true]
  have hc : (p.o.time (s.setHazard false)).cpu = { s.cpu with ubankHazard := false } := Operand2.time_cpu _ _
  have hflush := State.branchTo_flushed (s := p.o.time (s.setHazard false)) (dpResult p.op p.rn p.o s).r (by rw [hc])
  rw [Operand2.time_dev, Operand2.time_mem] at hflush
  rw [dpResult_eq] at hend hflush
  exact ⟨_, hend, keeps_branchTo hc _, keepsFlags_branchTo hc _, hflush⟩

end Sys2Proof.Machine

namespace Sys2Proof.Machine
open Sys2Proof

/-! ## The user-bank hazard (10_state.md R72) -/

/-- The hazard stops an instruction that names a banked register. -/
theorem hazardStops_of_banked {s : State} {uses : List Reg} (hz : s.cpu.ubankHazard = true)
    (h : ∃ r ∈ uses, r ≠ pcReg ∧ physIndex r s.cpu.cpsr.mode ≠ physIndex r .usr) : s.hazardStops uses = true := by
  obtain ⟨r, hr, hpc, hne⟩ := h
  rw [State.hazardStops, hz, Bool.true_and, List.any_eq_true]
  exact ⟨r, hr, by simp [isBanked, hpc, hne]⟩

theorem State.hazardStops_nil (s : State) : s.hazardStops [] = false := by simp [State.hazardStops]

section
variable {i : Instr} {s : State} {uses : List Reg} {body : State → Res State}

theorem runInstr_stopped (hz : s.hazardStops i.names = true) (hn : i.names = uses) :
    runInstr uses body s = .refused .unpredictable := by
  subst hn; rw [runInstr, if_pos hz]

theorem thumbInstr_stopped (hz : s.hazardStops i.names = true) (hn : i.names = uses) :
    thumbInstr uses body s = .refused .unpredictable := runInstr_stopped hz hn

theorem armInstr_stopped (hcond : ∀ c, i.armCond = some c → condPassed s.cpu.cpsr c = true)
    (hz : s.hazardStops i.names = true) {c : Cond} (hc : i.armCond = some c) (hn : i.names = uses) :
    armInstr c uses body s = .refused .unpredictable := by
  rw [armInstr, if_pos (hcond c hc)]; exact runInstr_stopped hz hn

end

/-- An instruction the hazard stops is refused: its frame checks the registers it names before anything else. -/
theorem exec_stopped {i : Instr} {s : State} (hcond : ∀ c, i.armCond = some c → condPassed s.cpu.cpsr c = true)
    (hz : s.hazardStops i.names = true) : exec i s = .refused .unpredictable := by
  cases i with
  | tLslImm | tLsrImm | tAsrImm | tAddReg | tSubReg | tAddImm3 | tSubImm3 | tMovImm8 | tCmpImm8 | tAddImm8 | tSubImm8
    | tAnd | tEor | tLslReg | tLsrReg | tAsrReg | tAdc | tSbc | tRorReg | tTst | tNeg | tCmpReg | tCmn | tOrr | tMul
    | tBic | tMvn | tLdrPc | tStrReg | tStrbReg | tLdrReg | tLdrbReg | tStrhReg | tLdrhReg | tLdsbReg | tLdshReg
    | tStrImm | tLdrImm | tStrbImm | tLdrbImm | tStrhImm | tLdrhImm | tAddPc | tUnalloc | tStmia | tLdmia | tSwi
    | tBcond | tB =>
    exact absurd ((s.hazardStops_nil).symm.trans hz) Bool.false_ne_true
  | tAddHi | tCmpHi | tMovHi | tBx | tStrSp | tLdrSp | tAddSp | tAddSpImm | tPush | tPop | tBlPrefix | tBlSuffix =>
    dsimp only [exec, execTAddHi, execTCmpHi, execTMovHi, execTBx, execTStrSp, execTLdrSp, execTAddSp, execTAddSpImm,
      execTPush, execTPop, execTBlPrefix, execTBlSuffix]
    exact thumbInstr_stopped hz rfl
  | _ => exact armInstr_stopped hcond hz rfl rfl

/-- Settles O21. -/
theorem hazardRefuses : Obligations.HazardRefuses := by
  unfold Obligations.HazardRefuses
  exact fun i s hcond hz hnames => exec_stopped hcond (hazardStops_of_banked hz hnames)

/-! ## The status registers -/

theorem getLsbD_bit (b : Bool) (k : Nat) : (bit b).getLsbD k = (decide (k = 0) && b) := by
  cases b <;> cases k <;> simp [bit]

/-- The fields of a status word are where R36 puts them. -/
theorem psrWord_fields (n z c v i f t : Bool) (m : BitVec 5) :
    let w := psrWord n z c v i f t m
    w.getLsbD 31 = n ∧ w.getLsbD 30 = z ∧ w.getLsbD 29 = c ∧ w.getLsbD 28 = v ∧ w.extractLsb' 8 20 = 0 ∧
      w.getLsbD 7 = i ∧ w.getLsbD 6 = f ∧ w.getLsbD 5 = t ∧ w.extractLsb' 0 5 = m := by
  have hzero : (psrWord n z c v i f t m).extractLsb' 8 20 = 0 := by
    apply BitVec.eq_of_getLsbD_eq
    intro k hk
    have h5 : ¬ 8 + k < 5 := by omega
    have hi : ¬ 8 + k - 5 - 1 - 1 < 1 := by omega
    have hf : ¬ 8 + k - 5 - 1 < 1 := by omega
    have ht : ¬ 8 + k - 5 < 1 := by omega
    have h20 : 8 + k - 5 - 1 - 1 - 1 < 20 := by omega
    simp only [psrWord, BitVec.getLsbD_append, BitVec.getLsbD_extractLsb', hk, h5, ht, hf, hi, h20, if_true, if_false]
    simp
  have hmode : (psrWord n z c v i f t m).extractLsb' 0 5 = m := by
    apply BitVec.eq_of_getLsbD_eq
    intro k hk
    simp only [psrWord, BitVec.getLsbD_append, BitVec.getLsbD_extractLsb', hk, Nat.zero_add, if_true, decide_true,
      Bool.true_and]
  refine ⟨?_, ?_, ?_, ?_, hzero, ?_, ?_, ?_, hmode⟩ <;>
    simp only [psrWord, BitVec.getLsbD_append, getLsbD_bit] <;> rfl

theorem exec_mrs {cond : Cond} {spsr : Bool} {rd : Reg} {s : State} (he : (Instr.mrs cond spsr rd).Executes s)
    (hrd : rd ≠ pcReg) : exec (.mrs cond spsr rd) s = mrsBody spsr rd (s.setHazard false) := by
  refine (armInstr_runs _ he rfl rfl).trans ?_
  rw [beq_false_of_ne hrd]; rfl

/-- MRS of an SPSR is refused in a mode that has none (10_state.md R37). -/
theorem mrsBody_noSpsr {rd : Reg} {s : State} (h : s.cpu.spsr s.cpu.cpsr.mode = none) :
    mrsBody true rd s = .refused .noSpsr := by
  rw [mrsBody, if_pos rfl, h]

/-- MRS writes the word of the register it reads (43_arm_branch_system.md R350). -/
theorem mrsBody_next {spsr : Bool} {rd : Reg} {s : State} {q : Spsr}
    (h : if spsr then s.cpu.spsr s.cpu.cpsr.mode = some q else q = s.cpu.cpsr.save) :
    mrsBody spsr rd s = .next (s.setX rd q.toWord).advancePc := by
  cases spsr
  · obtain rfl : q = s.cpu.cpsr.save := h
    rfl
  · have hq : s.cpu.spsr s.cpu.cpsr.mode = some q := h
    rw [mrsBody, if_pos rfl, hq]

/-- Settles O36: the word MRS writes is `psrWord` of the fields. -/
theorem mrsReads : Obligations.MrsReads := by
  unfold Obligations.MrsReads
  intro cond spsr rd s he hrd
  rw [exec_mrs he hrd]
  refine ⟨?_, fun q hq => ?_⟩
  · rintro rfl hnone
    exact mrsBody_noSpsr hnone
  · have hx : (((s.setHazard false).setX rd q.toWord).advancePc).x rd = q.toWord := by
      rw [State.advancePc_x _ hrd, State.setX_x_same _ _ hrd]
    obtain ⟨hn, hz, hc, hv, h0, hi, hf, ht, hm⟩ := psrWord_fields q.n q.z q.c q.v q.i q.f q.t q.m
    refine ⟨_, mrsBody_next hq, ?_⟩
    rw [hx]
    exact ⟨hn, hz, hc, hv, h0, hi, hf, ht, hm, (keeps_setX rfl rd _).advancePc, (keepsFlags_setX rfl rd _).advancePc,
      fun _ _ => rfl, advanced_setX rfl rd _, rfl⟩

theorem Cpu.mode_ne_of_spsr {c : Cpu} {m : Mode} {q : Spsr} (h : c.spsr m = some q) : m ≠ .usr ∧ m ≠ .sys := by
  constructor <;> rintro rfl <;> cases h

/-- An SPSR after `psr_write`, with the flags field and the control field written or not (R353). -/
def Spsr.written (q : Spsr) (mask : BitVec 4) (v : Word) : Spsr :=
  (q.writeFlags (mask.getLsbD 3) v).writeControl (mask.getLsbD 0) v

theorem Spsr.written_flags (q : Spsr) (mask : BitVec 4) (v : Word) :
    if mask.getLsbD 3 then (q.written mask v).n = v.getLsbD 31 ∧ (q.written mask v).z = v.getLsbD 30 ∧
        (q.written mask v).c = v.getLsbD 29 ∧ (q.written mask v).v = v.getLsbD 28
      else (q.written mask v).n = q.n ∧ (q.written mask v).z = q.z ∧ (q.written mask v).c = q.c ∧
        (q.written mask v).v = q.v := by
  unfold Spsr.written
  cases mask.getLsbD 3 <;> cases mask.getLsbD 0 <;> exact ⟨rfl, rfl, rfl, rfl⟩

theorem Spsr.written_control (q : Spsr) (mask : BitVec 4) (v : Word) :
    if mask.getLsbD 0 then (q.written mask v).i = v.getLsbD 7 ∧ (q.written mask v).f = v.getLsbD 6 ∧
        (q.written mask v).t = v.getLsbD 5 ∧ (q.written mask v).m = v.extractLsb' 0 5
      else (q.written mask v).i = q.i ∧ (q.written mask v).f = q.f ∧ (q.written mask v).t = q.t ∧
        (q.written mask v).m = q.m := by
  unfold Spsr.written
  cases mask.getLsbD 3 <;> cases mask.getLsbD 0 <;> exact ⟨rfl, rfl, rfl, rfl⟩

/-- Replace the SPSR of the current mode. -/
def State.setSpsr (s : State) (q : Spsr) : State := { s with cpu := s.cpu.setSpsr s.cpu.cpsr.mode q }

theorem msrBody_spsr {s : State} {q : Spsr} (mask : BitVec 4) (v : Word) (h : s.cpu.spsr s.cpu.cpsr.mode = some q) :
    msrBody true mask v s = .next (s.setSpsr (q.written mask v)).advancePc := by
  rw [msrBody, psrWrite, if_pos rfl, h]; rfl

theorem msrBody_noSpsr {s : State} (mask : BitVec 4) (v : Word) (h : s.cpu.spsr s.cpu.cpsr.mode = none) :
    msrBody true mask v s = .refused .noSpsr := by
  rw [msrBody, psrWrite, if_pos rfl, h]; rfl

/-- Settles O38: the SPSR of the mode is replaced field by field, and no other part of the CPU. -/
theorem msrWritesSpsr : Obligations.MsrWritesSpsr := by
  unfold Obligations.MsrWritesSpsr
  intro i s p h he hp
  rw [exec_asMsr h he, hp]
  refine ⟨fun hnone => msrBody_noSpsr _ _ hnone, fun q hq => ?_⟩
  have hset := Cpu.setSpsr_same (s.setHazard false).cpu s.cpu.cpsr.mode (q.written p.mask p.value)
  obtain ⟨hregs, hcpsr, hpc, hhaz, hfetch, hex, hdec⟩ := hset
  refine ⟨_, q.written p.mask p.value, msrBody_spsr p.mask p.value hq, ?_, q.written_flags _ _, q.written_control _ _,
    hcpsr, hregs, fun m hm => ?_, fun _ _ => rfl, ⟨?_, hfetch, ⟨hex, hdec⟩, hhaz⟩, rfl⟩
  · exact Cpu.setSpsr_spsr (c := (s.setHazard false).cpu) _ (Cpu.mode_ne_of_spsr hq)
  · exact Cpu.setSpsr_spsr_ne (c := (s.setHazard false).cpu) _ hm
  · show ((s.setHazard false).cpu.setSpsr s.cpu.cpsr.mode _).pc + ((s.setHazard false).cpu.setSpsr s.cpu.cpsr.mode _).w = _
    rw [hpc, Cpu.w, hcpsr]
    rfl

end Sys2Proof.Machine

namespace Sys2Proof.Machine
open Sys2Proof

/-! ## Reset (10_state.md R70) -/

/-- With no event pending time only moves the clock (61_scheduler.md R565). -/
theorem Dev.advance_of_no_events {d : Dev} (h : d.events = []) (c : Nat) : d.advance c = { d with now := d.now + c } := by
  have hwork : ({ d with now := d.now + c } : Dev).dueWork = 0 := by simp [Dev.dueWork, h]
  rw [Dev.advance, hwork]
  rfl

/-- The prefetch buffer is off while WAITCNT bit 14 is clear (70_reset_and_hazards.md R736). -/
theorem Dev.prefetchOpen_of_off {d : Dev} (h : d.waitcnt.getLsbD 14 = false) (a : Nat) : d.prefetchOpen a = false := by
  rw [Dev.prefetchOpen, h, Bool.false_and]

/-- With no event pending and the prefetch buffer off an access only takes its time. -/
theorem Dev.passAccess_idle {d : Dev} (he : d.events = []) (hw : d.waitcnt.getLsbD 14 = false) (kind : AccessKind)
    (a : Nat) (w : Width) (acc : AccessClass) :
    d.passAccess kind a w acc = { d with now := d.now + d.accessCycles kind a w acc } := by
  rw [Dev.passAccess, Dev.touchPrefetch, Dev.prefetchOpen_of_off hw, if_neg Bool.false_ne_true,
    Dev.advance_of_no_events he]

/-- The devices that reset leaves, at a time (10_state.md R70). -/
def resetDev (costs : List CostRow) (now : Nat) : Dev := { Dev.resetAt now with costs := costs }

theorem resetDev_passAccess (costs : List CostRow) (now : Nat) (kind : AccessKind) (a : Nat) (w : Width)
    (acc : AccessClass) : (resetDev costs now).passAccess kind a w acc =
      resetDev costs (now + (resetDev costs 0).accessCycles kind a w acc) :=
  Dev.passAccess_idle rfl BitVec.getLsbD_zero kind a w acc

/-- The flush of a reset only takes the time of its two fetches (70_reset_and_hazards.md R700). -/
theorem State.powerOn_dev (d : ResetDraw) (m : Memory) (costs : List CostRow) : (State.powerOn d m costs).dev =
    resetDev costs ((resetDev costs 0).accessCycles .opcode 0 .word .nonseq +
      (resetDev costs 0).accessCycles .opcode 4 .word .seq) := by
  have h : (State.powerOn d m costs).dev =
      ((resetDev costs 0).passAccess .opcode 0 .word .nonseq).passAccess .opcode 4 .word .seq := rfl
  rw [h, resetDev_passAccess, resetDev_passAccess, Nat.zero_add]

theorem State.powerOn_flushed (d : ResetDraw) (m : Memory) (costs : List CostRow) :
    Flushed (resetDev costs 0) m 0 (State.powerOn d m costs) :=
  State.branchTo_flushed (s := State.beforeFlush d m costs) 0 rfl

theorem vector_get_replicate {α : Type} {n : Nat} (x : α) (i : Fin n) : (Vector.replicate n x).get i = x := by
  simp [Vector.get_eq_getElem]

/-- Settles O9: the flush keeps what reset set, fills the pipeline and takes the time of its fetches. -/
theorem resetState : Obligations.ResetState := by
  unfold Obligations.ResetState
  intro d m costs u
  have hf : Flushed (resetDev costs 0) m 0 u := State.powerOn_flushed d m costs
  have hdev : u.dev = _ := State.powerOn_dev d m costs
  have h0 : targetOf (alignAddr 0 .word).toNat = .rom 0 := by decide
  have h4 : targetOf (alignAddr 0 .word + 4).toNat = .rom 4 := by decide
  refine ⟨rfl, rfl, rfl, rfl, rfl, rfl, rfl, rfl, hf.executing 0 (.inr h0), hf.decoding 4 (.inr h4), rfl, rfl, ?_⟩
  rw [hdev]
  refine ⟨rfl, rfl, rfl, rfl, rfl, rfl, rfl, fun n => vector_get_replicate _ n, fun i => vector_get_replicate _ i, rfl,
    rfl, rfl, rfl, rfl, ?_⟩
  rintro rfl
  rfl

/-! ## The invariants of the machine after reset -/

/-- Timers that are stopped, channels that are disabled and no events are in order. -/
theorem Dev.sound_resetAt (now : Nat) : (Dev.resetAt now).Sound := by
  have ht (i : Fin 4) : (Dev.resetAt now).timer i = Timer.reset := vector_get_replicate _ i
  have hc (n : Fin 4) : (Dev.resetAt now).channel n = DmaChannel.reset := vector_get_replicate _ n
  have timer (i : Fin 4) : ((Dev.resetAt now).timer i).Fits i (Dev.resetAt now).events := by
    rw [ht]; exact Timer.fits_of_idle BitVec.zero_and rfl rfl (by simp [Dev.resetAt])
  have channel (n : Fin 4) : ((Dev.resetAt now).channel n).Fits n (Dev.resetAt now).events := by
    rw [hc]
    exact DmaChannel.Masked.fits ⟨BitVec.zero_and, BitVec.zero_and, BitVec.zero_and, BitVec.zero_and⟩
      (by simp [DmaChannel.reset, dmaEnabled]) (by simp [DmaChannel.reset]) (by simp [Dev.resetAt])
  exact SoundBut.sound (k := .irqUpdate false) ⟨BitVec.zero_and, BitVec.zero_and, List.Pairwise.nil,
    by simp [Dev.resetAt], fun i _ => timer i, fun n _ => channel n⟩ timer channel

/-- Settles O10. -/
theorem resetKeepsInvariants : Obligations.ResetKeepsInvariants := by
  unfold Obligations.ResetKeepsInvariants
  obtain ⟨hr, hc⟩ := Dev.sound_resetAt 2
  have hpc : State.reset.pcAligned := by
    show 8 % 4 = 0
    rfl
  exact ⟨rfl, hpc, hr, hc, fun e he => absurd he (List.not_mem_nil)⟩

end Sys2Proof.Machine

namespace Sys2Proof.Machine
open Sys2Proof

/-! ## The registers of the block (10_state.md R67) -/

/-- The offset of a halfword register in the I/O region. -/
def IoReg.offset : IoReg → Nat
  | .dmaSadLo n => 0xB0 + 12 * n.val
  | .dmaSadHi n => 0xB2 + 12 * n.val
  | .dmaDadLo n => 0xB4 + 12 * n.val
  | .dmaDadHi n => 0xB6 + 12 * n.val
  | .dmaCntL n => 0xB8 + 12 * n.val
  | .dmaCntH n => 0xBA + 12 * n.val
  | .timerCntL i => 0x100 + 4 * i.val
  | .timerCntH i => 0x102 + 4 * i.val
  | .ie => 0x200
  | .iflag => 0x202
  | .waitcnt => 0x204
  | .ime => 0x208

@[simp] theorem ioRegAt_offset (r : IoReg) : ioRegAt r.offset = some r := by
  cases r with
  | dmaSadLo n | dmaSadHi n | dmaDadLo n | dmaDadHi n | dmaCntL n | dmaCntH n | timerCntL n | timerCntH n =>
    revert n; decide
  | ie | iflag | waitcnt | ime => rfl

/-- The register at an offset is the one whose offset it is. -/
theorem offset_of_ioRegAt {off : Nat} {r : IoReg} (h : ioRegAt off = some r) : r.offset = off := by
  unfold ioRegAt at h
  split at h
  next hdma =>
    dsimp only at h
    split at h <;> cases h <;> simp only [IoReg.offset, Fin.ofNat] <;> omega
  next =>
    split at h
    next htimer =>
      dsimp only at h
      split at h <;> cases h <;> simp only [IoReg.offset, Fin.ofNat] <;> omega
    next =>
      split_ifs at h <;> cases h <;> simp only [IoReg.offset] <;> omega

theorem IoReg.offset_even (r : IoReg) : r.offset % 2 = 0 := by
  cases r <;> simp only [IoReg.offset] <;> omega

theorem IoReg.offset_succ_ne_haltcnt (r : IoReg) : r.offset + 1 ≠ haltcntOffset := by
  cases r <;> simp only [IoReg.offset, haltcntOffset] <;> omega

/-- The listed halves are the registers with their stored values. -/
theorem mem_storedHalves {d : Dev} {off : Nat} {h : Half} :
    (off, h) ∈ d.storedHalves ↔ ∃ r : IoReg, off = r.offset ∧ h = d.ioStored r := by
  constructor
  · intro hm
    simp only [Dev.storedHalves, List.mem_append, List.mem_cons, List.mem_flatMap, Prod.mk.injEq, List.not_mem_nil,
      or_false] at hm
    rcases hm with (h | h | h | h) | ⟨n, -, h | h | h | h | h | h | h | h⟩
    · exact ⟨.ie, h⟩
    · exact ⟨.iflag, h⟩
    · exact ⟨.waitcnt, h⟩
    · exact ⟨.ime, h⟩
    · exact ⟨.dmaSadLo n, h⟩
    · exact ⟨.dmaSadHi n, h⟩
    · exact ⟨.dmaDadLo n, h⟩
    · exact ⟨.dmaDadHi n, h⟩
    · exact ⟨.dmaCntL n, h⟩
    · exact ⟨.dmaCntH n, h⟩
    · exact ⟨.timerCntL n, h⟩
    · exact ⟨.timerCntH n, h⟩
  · rintro ⟨r, rfl, rfl⟩
    cases r with
    | ie | iflag | waitcnt | ime => exact List.mem_append_left _ (by simp [IoReg.offset, Dev.ioStored])
    | dmaSadLo n | dmaSadHi n | dmaDadLo n | dmaDadHi n | dmaCntL n | dmaCntH n | timerCntL n | timerCntH n =>
      exact List.mem_append_right _ (List.mem_flatMap.mpr ⟨n, List.mem_finRange n, by simp [IoReg.offset, Dev.ioStored]⟩)

/-- No register answers at an offset that is not listed. -/
theorem ioRegAt_unlisted {d : Dev} {off : Nat} (h : ∀ p ∈ d.storedHalves, p.1 ≠ off) : ioRegAt off = none := by
  cases hr : ioRegAt off with
  | none => rfl
  | some r => exact absurd (offset_of_ioRegAt hr) (h _ (mem_storedHalves.mpr ⟨r, rfl, rfl⟩))

/-! ## Reads (20_memory.md R110, R112) -/

theorem Dev.ioReadHalf_reg {d : Dev} {r : IoReg} {v : Half} (draws : Nat) (h : d.ioRead r = some v) :
    d.ioReadHalf draws r.offset = (v, draws) := by
  simp [Dev.ioReadHalf, h]

/-- A free value where nothing answers (assumption log 4). -/
theorem Dev.ioReadHalf_free {d : Dev} {off : Nat} (draws : Nat) (h : (ioRegAt off).bind d.ioRead = none) :
    d.ioReadHalf draws off = ((Config.freeValue draws).extractLsb' 0 16, draws + 1) := by
  rw [Dev.ioReadHalf, h]

theorem Dev.ioRead_writeOnly {d : Dev} {n off : Nat} (hn : n < 4)
    (h : off ∈ [0xB0 + 12 * n, 0xB2 + 12 * n, 0xB4 + 12 * n, 0xB6 + 12 * n, 0xB8 + 12 * n]) :
    (ioRegAt off).bind d.ioRead = none := by
  obtain ⟨r, rfl, hr⟩ : ∃ r : IoReg, r.offset = off ∧ d.ioRead r = none := by
    simp only [List.mem_cons, List.not_mem_nil, or_false] at h
    rcases h with rfl | rfl | rfl | rfl | rfl
    · exact ⟨.dmaSadLo ⟨n, hn⟩, rfl, rfl⟩
    · exact ⟨.dmaSadHi ⟨n, hn⟩, rfl, rfl⟩
    · exact ⟨.dmaDadLo ⟨n, hn⟩, rfl, rfl⟩
    · exact ⟨.dmaDadHi ⟨n, hn⟩, rfl, rfl⟩
    · exact ⟨.dmaCntL ⟨n, hn⟩, rfl, rfl⟩
  rw [ioRegAt_offset, Option.bind_some, hr]

/-- A lane of a halfword as a number. -/
theorem laneOf_zeroExtend (h : Half) (off : Nat) : (laneOf h (off % 2 == 1)).zeroExtend 32 =
    BitVec.ofNat 32 (h.toNat / 2 ^ (8 * (off % 2)) % 2 ^ 8) := by
  have hh := h.isLt
  apply BitVec.eq_of_toNat_eq
  rcases Nat.mod_two_eq_zero_or_one off with h2 | h2 <;>
    simp [h2, laneOf, BitVec.extractLsb'_toNat, Nat.shiftRight_eq_div_pow]

/-! ## Writes (20_memory.md R111, R112) -/

theorem Dev.ioStore_half_reg (d : Dev) (r : IoReg) (v : Word) :
    d.ioStore r.offset v .half = d.ioWrite r (v.extractLsb' 0 16) := by
  simp [Dev.ioStore, Dev.ioWriteHalf]

theorem Dev.ioStore_half_unlisted {d : Dev} {off : Nat} (v : Word) (h : ioRegAt off = none) :
    d.ioStore off v .half = .next d := by
  simp [Dev.ioStore, Dev.ioWriteHalf, h]

/-- A byte write is a write of the stored value with that lane changed. -/
theorem Dev.ioStore_byte_low (d : Dev) (r : IoReg) (v : Word) :
    d.ioStore r.offset v .byte = d.ioWrite r (setLane (d.ioStored r) false (v.extractLsb' 0 8)) := by
  have hne : r.offset ≠ haltcntOffset := by
    have := r.offset_even
    unfold haltcntOffset; omega
  simp [Dev.ioStore, Dev.ioWriteByte, hne, r.offset_even]

theorem Dev.ioStore_byte_high (d : Dev) (r : IoReg) (v : Word) :
    d.ioStore (r.offset + 1) v .byte = d.ioWrite r (setLane (d.ioStored r) true (v.extractLsb' 0 8)) := by
  have hodd : (r.offset + 1) % 2 = 1 := by have := r.offset_even; omega
  simp [Dev.ioStore, Dev.ioWriteByte, r.offset_succ_ne_haltcnt, hodd]

/-- Two bytes side by side as a number. -/
theorem toNat_append_byte (a b : Byte) : (a ++ b : Half).toNat = a.toNat * 2 ^ 8 + b.toNat := by
  rw [BitVec.toNat_append, ← Nat.shiftLeft_add_eq_or_of_lt b.isLt, Nat.shiftLeft_eq]

theorem setLane_low (h : Half) (v : Word) : setLane h false (v.extractLsb' 0 8) =
    (BitVec.ofNat 32 (h.toNat / 2 ^ 8 * 2 ^ 8 + v.toNat % 2 ^ 8)).extractLsb' 0 16 := by
  apply BitVec.eq_of_toNat_eq
  have := h.isLt
  simp [setLane, toNat_append_byte, BitVec.extractLsb'_toNat, Nat.shiftRight_eq_div_pow]
  omega

theorem setLane_high (h : Half) (v : Word) : setLane h true (v.extractLsb' 0 8) =
    (BitVec.ofNat 32 (v.toNat % 2 ^ 8 * 2 ^ 8 + h.toNat % 2 ^ 8)).extractLsb' 0 16 := by
  apply BitVec.eq_of_toNat_eq
  simp [setLane, toNat_append_byte, BitVec.extractLsb'_toNat, Nat.shiftRight_eq_div_pow]
  omega

/-! ## The accesses by width -/

/-- What a read gives, by the width: a byte takes its lane of a halfword, a word takes two halfwords. -/
theorem Dev.ioLoad_eq (d : Dev) (draws off : Nat) :
    let lane := d.ioReadHalf draws (off - off % 2)
    let low := d.ioReadHalf draws off
    let high := d.ioReadHalf low.2 (off + 2)
    d.ioLoad draws off .byte = (BitVec.ofNat 32 (lane.1.toNat / 2 ^ (8 * (off % 2)) % 2 ^ 8), lane.2) ∧
    d.ioLoad draws off .half = (BitVec.ofNat 32 low.1.toNat, low.2) ∧
    d.ioLoad draws off .word = (high.1 ++ low.1, high.2) :=
  ⟨Prod.ext (laneOf_zeroExtend _ off) rfl, Prod.ext (BitVec.eq_of_toNat_eq (by simp [Dev.ioLoad])) rfl, rfl⟩

theorem Dev.ioStore_byte_eq_half {d : Dev} {off : Nat} {stored : Half} (v : Word)
    (h : (off, stored) ∈ d.storedHalves) :
    d.ioStore off v .byte =
      d.ioStore off (BitVec.ofNat 32 (stored.toNat / 2 ^ 8 * 2 ^ 8 + v.toNat % 2 ^ 8)) .half ∧
    d.ioStore (off + 1) v .byte =
      d.ioStore off (BitVec.ofNat 32 (v.toNat % 2 ^ 8 * 2 ^ 8 + stored.toNat % 2 ^ 8)) .half := by
  obtain ⟨r, rfl, rfl⟩ := mem_storedHalves.mp h
  exact ⟨by rw [d.ioStore_byte_low, d.ioStore_half_reg, setLane_low],
    by rw [d.ioStore_byte_high, d.ioStore_half_reg, setLane_high]⟩

/-- A word write is two halfword writes, the lower first. -/
theorem Dev.ioStore_word (d : Dev) (off : Nat) (v : Word) :
    d.ioStore off v .word = andThen (d.ioStore off v .half) fun u => u.ioStore (off + 2) (v >>> 16) .half := by
  have hhigh : (v >>> 16).extractLsb' 0 16 = v.extractLsb' 16 16 := by
    ext i hi
    simp
  simp only [Dev.ioStore, hhigh]

theorem Dev.ioStore_haltcnt (d : Dev) (v : Word) : d.ioStore 0x301 v .byte =
    if v.getLsbD 7 then .refused .stopMode else .next { d with halted := true } := by
  have hbit : (v.extractLsb' 0 8).getLsbD 7 = v.getLsbD 7 := by simp
  rw [← hbit]
  rfl

/-- Settles O56: each register answers at its own offset, and the listed halves are the registers; a byte write is the
write of the stored value with one lane set, a word write chains two halfword writes. -/
theorem registerWrites : Obligations.RegisterWrites := by
  refine ⟨fun d draws n => ⟨?_, ?_, ?_, ?_, ?_, ?_, ?_⟩, fun d draws off => ⟨?_, d.ioLoad_eq draws off⟩,
    fun d v => ⟨?_, ?_, ?_, ?_, fun n => ⟨?_, ?_, ?_, ?_, ?_, ?_, ?_, ?_⟩, ?_, ?_, ?_, ?_, ?_, ?_⟩,
    fun d k => ⟨rfl, rfl, rfl⟩⟩
  -- what a read gives
  · exact Dev.ioReadHalf_reg (r := .ie) draws rfl
  · exact Dev.ioReadHalf_reg (r := .iflag) draws rfl
  · exact Dev.ioReadHalf_reg (r := .waitcnt) draws rfl
  · exact Dev.ioReadHalf_reg (r := .ime) draws rfl
  · exact Dev.ioReadHalf_reg (r := .dmaCntH n) draws rfl
  · exact Dev.ioReadHalf_reg (r := .timerCntL n) draws rfl
  · exact Dev.ioReadHalf_reg (r := .timerCntH n) draws rfl
  · rintro (⟨n, hn, hoff⟩ | hoff)
    · exact Dev.ioReadHalf_free draws (Dev.ioRead_writeOnly hn hoff)
    · exact Dev.ioReadHalf_free draws (by rw [ioRegAt_unlisted hoff]; rfl)
  -- what a halfword write does
  · exact d.ioStore_half_reg .ie v
  · exact d.ioStore_half_reg .iflag v
  · exact d.ioStore_half_reg .waitcnt v
  · have hbit : (v.extractLsb' 0 16).getLsbD 0 = v.getLsbD 0 := by simp
    rw [← hbit]
    exact d.ioStore_half_reg .ime v
  · exact d.ioStore_half_reg (.dmaSadLo n) v
  · exact d.ioStore_half_reg (.dmaSadHi n) v
  · exact d.ioStore_half_reg (.dmaDadLo n) v
  · exact d.ioStore_half_reg (.dmaDadHi n) v
  · exact d.ioStore_half_reg (.dmaCntL n) v
  · exact d.ioStore_half_reg (.dmaCntH n) v
  · exact d.ioStore_half_reg (.timerCntL n) v
  · exact d.ioStore_half_reg (.timerCntH n) v
  · exact fun off hoff => Dev.ioStore_half_unlisted v (ioRegAt_unlisted hoff)
  -- byte and word writes
  · exact fun off stored hmem => Dev.ioStore_byte_eq_half v hmem
  · intro off e he
    rw [d.ioStore_word, he, andThen]
  · intro off u hu
    rw [d.ioStore_word, hu, andThen]
  · intro hbit
    rw [d.ioStore_haltcnt, hbit]
    rfl
  · intro hbit
    rw [d.ioStore_haltcnt, hbit]
    rfl

end Sys2Proof.Machine

namespace Sys2Proof.Machine
open Sys2Proof

/-! ## The canonical form of memory (20_memory.md R101) -/

/-- The canonical form of memory is kept from one state to the other. -/
def State.KeepsMemoryForm (s u : State) : Prop := s.mem.wf = true → u.mem.wf = true

/-- A write reaches memory through `Memory.store` alone. -/
theorem State.keepsMemoryForm_poke {s t : State} {a : Nat} {w : Width} {v : Word} (h : s.poke a w v = .next t) :
    s.KeepsMemoryForm t := by
  unfold State.poke at h
  split at h
  next off _ =>
    obtain ⟨d, -, ht⟩ := andThen_eq_next.mp h
    cases ht
    exact id
  next b _ =>
    cases h
    exact Memory.wf_store b v w
  next => cases h; exact id
  next => cases h; exact id

@[simp] theorem State.wake_mem (s : State) : s.wake.mem = s.mem := by
  unfold State.wake; split <;> rfl

/-- Whatever does not write through the bus leaves memory alone. -/
theorem stepClosed_keepsMemoryForm : StepClosed State.KeepsMemoryForm where
  refl _ := id
  trans h h' := h' ∘ h
  cpu _ _ := id
  draws _ _ := id
  advance _ _ := id
  prefetch _ _ := id
  poke := State.keepsMemoryForm_poke
  latch _ _ := id
  stepped _ _ _ := id
  complete _ _ := id
  wake s hs := by rwa [s.wake_mem]

/-- Settles O51: every access to the bus and every update of the DMA engine keep the canonical form, so every step
does (`step_ends`). -/
theorem stepKeepsMemoryForm : Obligations.StepKeepsMemoryForm :=
  fun s u hs h => step_ends stepClosed_keepsMemoryForm s u h hs

/-! ## The bytes of a loaded value (20_memory.md R103, R108) -/

theorem extractLsb'_append_low {n : Nat} (x : BitVec n) (lo : Byte) : (x ++ lo).extractLsb' 0 8 = lo := by
  rw [BitVec.extractLsb'_append_eq_of_add_le (Nat.le_refl 8), BitVec.extractLsb'_eq_self]

theorem extractLsb'_append_above {n : Nat} (x : BitVec n) (lo : Byte) (i : Nat) :
    (x ++ lo).extractLsb' (i + 8) 8 = x.extractLsb' i 8 := by
  rw [BitVec.extractLsb'_append_eq_of_le (Nat.le_add_left 8 i), Nat.add_sub_cancel]

/-- Byte k of a word of memory is the k-th byte from its address. -/
theorem byteOf_load_word (m : Memory) (b : Nat) {k : Nat} (hk : k < 4) :
    byteOf (m.load b .word) k = m.read (b + k) := by
  rcases (by omega : k = 0 ∨ k = 1 ∨ k = 2 ∨ k = 3) with rfl | rfl | rfl | rfl
  · exact extractLsb'_append_low _ _
  · exact (extractLsb'_append_above _ _ 0).trans (extractLsb'_append_low _ _)
  · exact (extractLsb'_append_above _ _ 8).trans <| (extractLsb'_append_above _ _ 0).trans (extractLsb'_append_low _ _)
  · exact (extractLsb'_append_above _ _ 16).trans <| (extractLsb'_append_above _ _ 8).trans <|
      (extractLsb'_append_above _ _ 0).trans BitVec.extractLsb'_eq_self

/-- A rotation by r bytes moves byte k + r, round the word, to byte k. -/
theorem byteOf_rotateRight (v : Word) {k r : Nat} (hk : k < 4) (hr : r < 4) :
    byteOf (v.rotateRight (8 * r)) k = byteOf v ((k + r) % 4) := by
  ext i hi
  have hmod : 8 * r % 32 = 8 * r := Nat.mod_eq_of_lt (by omega)
  simp only [byteOf, BitVec.getElem_extractLsb', BitVec.getLsbD_rotateRight, hmod]
  by_cases h : k + r < 4
  · have hin : 8 * k + i < 32 - 8 * r := by omega
    rw [Nat.mod_eq_of_lt h, decide_eq_true hin, cond_true]
    congr 1; omega
  · have hout : ¬ 8 * k + i < 32 - 8 * r := by omega
    have hbit : 8 * k + i < 32 := by omega
    rw [Nat.mod_eq_sub_mod (by omega), Nat.mod_eq_of_lt (by omega), decide_eq_false hout, cond_false,
      decide_eq_true hbit, Bool.true_and]
    congr 1; omega

/-- The low byte that a byte access returns is the byte of memory. -/
theorem extractLsb'_load_byte (m : Memory) (b : Nat) : (m.load b .byte).extractLsb' 0 8 = m.read b := by
  rw [Memory.load, BitVec.zeroExtend, BitVec.extractLsb'_setWidth_of_le (by decide), BitVec.extractLsb'_eq_self]

/-- The low half that a halfword access returns is the two bytes of memory. -/
theorem extractLsb'_load_half (m : Memory) (b : Nat) :
    (m.load b .half).extractLsb' 0 16 = m.read (b + 1) ++ m.read b := by
  rw [Memory.load, BitVec.zeroExtend, BitVec.extractLsb'_setWidth_of_le (by decide), BitVec.extractLsb'_eq_self]

/-- The value of a zero-extended halfword by its two bytes. -/
theorem toNat_zeroExtend_append_byte (hi lo : Byte) :
    ((hi ++ lo : Half).zeroExtend 32).toNat = lo.toNat + 256 * hi.toNat := by
  have hhi := hi.isLt
  have hlo := lo.isLt
  rw [BitVec.zeroExtend, BitVec.toNat_setWidth, toNat_append_byte]
  omega

theorem rotateRight_zero (v : Word) : v.rotateRight 0 = v := by
  ext i hi
  simp [hi]

/-- A halfword rotated by a byte: the high byte comes down, the low byte goes to the top. -/
theorem toNat_rotateRight_append_byte (hi lo : Byte) :
    (((hi ++ lo : Half).zeroExtend 32).rotateRight 8).toNat = hi.toNat + 2 ^ 24 * lo.toNat := by
  have hhi := hi.isLt
  have hlo := lo.isLt
  have hdown : (lo.toNat + 256 * hi.toNat) >>> 8 = hi.toNat := by
    rw [Nat.shiftRight_eq_div_pow]; omega
  have htop : (lo.toNat + 256 * hi.toNat) <<< 24 % 2 ^ 32 = lo.toNat <<< 24 := by
    rw [Nat.shiftLeft_eq, Nat.shiftLeft_eq]; omega
  calc (((hi ++ lo : Half).zeroExtend 32).rotateRight 8).toNat
      = hi.toNat ||| lo.toNat <<< 24 := by
        rw [BitVec.toNat_rotateRight, toNat_zeroExtend_append_byte, hdown, htop]
    _ = lo.toNat <<< 24 + hi.toNat := by rw [Nat.or_comm, Nat.shiftLeft_add_eq_or_of_lt (by omega)]
    _ = hi.toNat + 2 ^ 24 * lo.toNat := by rw [Nat.shiftLeft_eq]; omega

/-- The signed value of a halfword by its two bytes. -/
theorem toInt_append_byte (hi lo : Byte) : (hi ++ lo : Half).toInt = lo.toNat + 256 * hi.toInt := by
  rw [BitVec.toInt_append]
  simp; omega

/-- The lowest bit of an address says whether it is odd. -/
theorem toNat_mod_two (a : Word) : a.toNat % 2 = (a.getLsbD 0).toNat := by
  rw [BitVec.getLsbD, Nat.testBit_zero]
  rcases Nat.mod_two_eq_zero_or_one a.toNat with h | h <;> simp [h]

/-! ## What each load makes of them (42_arm_loadstore.md R284, R296) -/

theorem byteOf_extend_word (m : Memory) (a : Word) (b : Nat) {k : Nat} (hk : k < 4) :
    byteOf (LoadKind.extend .word a (m.load b .word)) k = m.read (b + (k + a.toNat % 4) % 4) := by
  rw [LoadKind.extend, byteOf_rotateRight _ hk (Nat.mod_lt _ (by decide)),
    byteOf_load_word m b (Nat.mod_lt _ (by decide))]

theorem extend_byte (m : Memory) (a : Word) (b : Nat) :
    LoadKind.extend .byte a (m.load b .byte) = BitVec.ofNat 32 (m.read b).toNat := by
  rw [LoadKind.extend, extractLsb'_load_byte, BitVec.ofNat_toNat]

theorem extend_sbyte (m : Memory) (a : Word) (b : Nat) :
    LoadKind.extend .sbyte a (m.load b .byte) = BitVec.ofInt 32 (m.read b).toInt := by
  rw [LoadKind.extend, extractLsb'_load_byte, BitVec.signExtend]

theorem extend_half_even {a : Word} (m : Memory) (b : Nat) (h : a.getLsbD 0 = false) :
    LoadKind.extend .half a (m.load b .half) =
      BitVec.ofNat 32 ((m.read b).toNat + 256 * (m.read (b + 1)).toNat) := by
  have hrot : a.toNat % 2 = 0 := by rw [toNat_mod_two, h, Bool.toNat_false]
  rw [LoadKind.extend, extractLsb'_load_half, hrot, Nat.mul_zero, rotateRight_zero, ← toNat_zeroExtend_append_byte,
    BitVec.ofNat_toNat, BitVec.setWidth_eq]

theorem extend_half_odd {a : Word} (m : Memory) (b : Nat) (h : a.getLsbD 0 = true) :
    LoadKind.extend .half a (m.load b .half) =
      BitVec.ofNat 32 ((m.read (b + 1)).toNat + 2 ^ 24 * (m.read b).toNat) := by
  have hrot : a.toNat % 2 = 1 := by rw [toNat_mod_two, h, Bool.toNat_true]
  rw [LoadKind.extend, extractLsb'_load_half, hrot, ← toNat_rotateRight_append_byte, BitVec.ofNat_toNat,
    BitVec.setWidth_eq]

theorem extend_shalf_even {a : Word} (m : Memory) (b : Nat) (h : a.getLsbD 0 = false) :
    LoadKind.extend .shalf a (m.load b (LoadKind.widthAt .shalf a)) =
      BitVec.ofInt 32 ((m.read b).toNat + 256 * (m.read (b + 1)).toInt) := by
  simp only [LoadKind.extend, LoadKind.widthAt, h, Bool.false_eq_true, if_false, extractLsb'_load_half,
    BitVec.signExtend, toInt_append_byte]

/-- An odd LDRSH is an LDRSB. -/
theorem extend_shalf_odd {a : Word} (v : Word) (h : a.getLsbD 0 = true) :
    LoadKind.widthAt .shalf a = .byte ∧ LoadKind.extend .shalf a v = LoadKind.extend .sbyte a v := by
  simp only [LoadKind.extend, LoadKind.widthAt, h, if_true, and_self]

/-- Settles O26: a rotation moves whole bytes, and a halfword is its two bytes, whichever sign it carries. -/
theorem loadedValues : Obligations.LoadedValues := by
  unfold Obligations.LoadedValues
  intro m a b
  refine ⟨fun k hk => byteOf_extend_word m a b hk, extend_byte m a b, extend_half_even m b, extend_half_odd m b,
    extend_sbyte m a b, extend_shalf_even m b, fun h => ?_⟩
  obtain ⟨hwidth, hextend⟩ := extend_shalf_odd (m.load b .byte) h
  rw [hwidth, hextend]
  exact extend_sbyte m a b

end Sys2Proof.Machine

namespace Sys2Proof.Machine
open Sys2Proof

/-! ## The refused spaces (30_encoding.md R170, R182; 42_arm_loadstore.md R299) -/

/-- Settles O39: the five constructors refuse in every state they execute in. -/
theorem unallocatedRefused : Obligations.UnallocatedRefused := by
  unfold Obligations.UnallocatedRefused
  intro i s he
  constructor
  · rintro (⟨c, b, rfl⟩ | ⟨c, b, rfl⟩ | ⟨c, b, rfl⟩ | ⟨b, rfl⟩)
    · exact armInstr_runs _ he rfl rfl
    · exact armInstr_runs _ he rfl rfl
    · exact armInstr_runs _ he rfl rfl
    · exact thumbInstr_runs (fun _ => .refused .unallocated) he rfl
  · rintro ⟨c, b, rfl⟩
    exact armInstr_runs _ he rfl rfl

/-! ## The step (30_encoding.md R150, 61_scheduler.md R575) -/

theorem Dev.runningChannel_eq_none {d : Dev} (h : ∀ n, (d.channel n).status ≠ .running) : d.runningChannel = none := by
  rw [Dev.runningChannel, List.find?_eq_none]
  exact fun n _ => by rw [beq_iff_eq]; exact h n

theorem State.wake_halted {s : State} (h : s.dev.halted = false ∨ s.dev.ie &&& s.dev.iflag ≠ 0) :
    s.wake.dev.halted = false := by
  unfold State.wake Dev.available
  split
  case isTrue => rfl
  case isFalse ha => exact h.resolve_right fun hne => ha (bne_iff_ne.2 hne)

@[simp] theorem State.wake_irqSignal (s : State) : s.wake.dev.irqSignal = s.dev.irqSignal := by
  unfold State.wake; split <;> rfl

theorem State.fetchStage_cpu (s : State) : s.fetchStage.cpu =
    { s.cpu with
      executing := s.cpu.decoding
      decoding := (s.memRead .opcode s.cpu.pc s.cpu.opcodeWidth s.cpu.fetchType).1
      fetchType := .seq } := rfl

theorem State.fetchStage_mem (s : State) : s.fetchStage.mem = s.mem := rfl

theorem State.fetchStage_dev (s : State) :
    s.fetchStage.dev = (s.passAccess .opcode s.cpu.pc s.cpu.opcodeWidth s.cpu.fetchType).dev := rfl

theorem Cpu.currentInstr_eq {c : Cpu} {i : Instr} (h : c.cpsr.t = false ∧ decodeArm c.executing = i ∨
    c.cpsr.t = true ∧ decodeThumb (c.executing.extractLsb' 0 16) = i) : c.currentInstr = i := by
  obtain ⟨ht, h⟩ | ⟨ht, h⟩ := h
  · rw [Cpu.currentInstr, ht, if_neg Bool.false_ne_true, h]
  · rw [Cpu.currentInstr, ht, if_pos rfl, h]

theorem State.wake_irqDue {s : State} (h : s.dev.irqSignal = true → s.cpu.cpsr.i = true) : s.wake.irqDue = false := by
  rw [State.irqDue, State.wake_irqSignal, State.wake_cpu]
  cases hs : s.dev.irqSignal with
  | false => rfl
  | true => rw [h hs]; rfl

/-- Settles O5: the step is the CPU's, and its fetch stage leaves the state that the instruction runs in. -/
theorem stepRunsInstruction : Obligations.StepRunsInstruction := by
  unfold Obligations.StepRunsInstruction
  intro s i hdma hrun hirq hi
  have hstep : step s = exec i s.wake.fetchStage := by
    rw [step, Dev.runningChannel_eq_none hdma]
    simp only [State.wake_halted hrun, cpuStep, State.wake_irqDue hirq, Bool.false_eq_true, if_false, State.wake_cpu,
      Cpu.currentInstr_eq hi]
  refine ⟨s.wake.fetchStage, hstep, s.wake_mem, ?_, ?_, fun b hb => ?_⟩
  · simp only [State.fetchStage_cpu, State.wake_cpu]
  · rw [State.fetchStage_dev, State.wake_cpu]
  · rw [State.fetchStage_cpu, State.wake_cpu, ← State.wake_mem]
    exact State.memRead_served hb

end Sys2Proof.Machine

namespace Sys2Proof

/-! ## Fields of a word (00_scope.md R13) -/

theorem flagAt_eq_field (w lo : Nat) : flagAt w lo = (field w lo 1 == 1) := rfl

theorem regAt_eq_field (w lo : Nat) : regAt w lo = Fin.ofNat 16 (field w lo 4) := Fin.ext (Nat.mod_mod _ _).symm

theorem lowRegAt_eq_field (w lo : Nat) : lowRegAt w lo = Fin.ofNat 8 (field w lo 3) := Fin.ext (Nat.mod_mod _ _).symm

theorem bitsAt_eq_field (len w lo : Nat) : bitsAt len w lo = BitVec.ofNat len (field w lo len) := by
  rw [field, ← BitVec.toNat_ofNat, BitVec.ofNat_toNat, BitVec.setWidth_eq]; rfl

/-- The condition of an ARM word (30_encoding.md R171). -/
def condAt (w : Nat) : Cond := Cond.ofCode (w / 2 ^ 28)

theorem Cond.ofCode_mod (n : Nat) : Cond.ofCode (n % 16) = Cond.ofCode n := by
  unfold Cond.ofCode
  rw [Nat.mod_mod]

theorem condAt_eq_field (w : Nat) : condAt w = Cond.ofCode (field w 28 4) := (Cond.ofCode_mod _).symm

/-- A field of a field. -/
theorem field_field (w lo : Nat) {len a n : Nat} (h : a + n ≤ len) :
    field (field w lo len) a n = field w (lo + a) n := by
  obtain ⟨j, rfl⟩ := Nat.exists_eq_add_of_le h
  simp only [field]
  rw [Nat.add_assoc, pow_add 2 a, Nat.mod_mul_right_div_self, pow_add 2 n, Nat.mod_mul_right_mod,
    Nat.div_div_eq_div_mul, ← pow_add]

/-- A field by its low part and the part above it. -/
theorem field_split (w lo m n : Nat) : field w lo (m + n) = 2 ^ m * field w (lo + m) n + field w lo m := by
  simp only [field]
  rw [pow_add, pow_add, Nat.mod_mul, ← Nat.div_div_eq_div_mul, Nat.add_comm]

/-! ## Words built field by field -/

/-- The word `w` with a field of `k` bits appended below it. -/
def push (w k v : Nat) : Nat := w * 2 ^ k + v

theorem ofNat_push (w : Nat) {k : Nat} (b : BitVec k) : BitVec.ofNat k (push w k b.toNat) = b :=
  BitVec.eq_of_toNat_eq (by rw [BitVec.toNat_ofNat, push, Nat.mul_add_mod_self_right, Nat.mod_eq_of_lt b.isLt])

/-- A word by the fields below its top one, each with its number of bits. -/
def layout (top : Nat) (fields : List (Nat × Nat)) : Nat := fields.foldl (fun w f => push w f.1 f.2) top

theorem field_of_lt {v k : Nat} (h : v < 2 ^ k) : field v 0 k = v := by
  rw [field, pow_zero, Nat.div_one, Nat.mod_eq_of_lt h]

theorem field_push_below (w v : Nat) {k lo len : Nat} (h : lo + len ≤ k) :
    field (push w k v) lo len = field v lo len := by
  obtain ⟨j, rfl⟩ := Nat.exists_eq_add_of_le h
  have hw : w * 2 ^ (lo + len + j) = 2 ^ lo * (2 ^ len * (2 ^ j * w)) := by ring
  rw [push, field, field, hw, Nat.mul_add_div (Nat.two_pow_pos lo), Nat.mul_add_mod]

theorem push_div {w v k : Nat} (hv : v < 2 ^ k) : push w k v / 2 ^ k = w := by
  rw [push, Nat.mul_comm, Nat.mul_add_div (Nat.two_pow_pos k), Nat.div_eq_of_lt hv, Nat.add_zero]

theorem field_push_above (w : Nat) {v k lo : Nat} (len : Nat) (hv : v < 2 ^ k) (h : k ≤ lo) :
    field (push w k v) lo len = field w (lo - k) len := by
  obtain ⟨j, rfl⟩ := Nat.exists_eq_add_of_le h
  rw [field, pow_add, ← Nat.div_div_eq_div_mul, push_div hv, Nat.add_sub_cancel_left, field]

/-- A field that ends with the appended one. -/
theorem field_push_across (w : Nat) {v k len : Nat} (hv : v < 2 ^ k) (h : k < len) :
    field (push w k v) 0 len = push (field w 0 (len - k)) k v := by
  obtain ⟨j, rfl⟩ := Nat.exists_eq_add_of_le h.le
  have hmod : push w k v % 2 ^ k = v := by rw [push, Nat.mul_comm, Nat.mul_add_mod, Nat.mod_eq_of_lt hv]
  simp only [field, pow_zero, Nat.div_one, Nat.add_sub_cancel_left]
  rw [pow_add, Nat.mod_mul, push_div hv, hmod, push, Nat.add_comm, Nat.mul_comm]

theorem push_lt (w : Nat) {v k n : Nat} (hv : v < 2 ^ k) (h : k ≤ n) : push w k v < 2 ^ n ↔ w < 2 ^ (n - k) := by
  obtain ⟨j, rfl⟩ := Nat.exists_eq_add_of_le h
  rw [Nat.add_sub_cancel_left, pow_add, Nat.mul_comm, ← Nat.div_lt_iff_lt_mul (Nat.two_pow_pos k), push_div hv]

theorem reg_lt (r : Reg) : r.val < 2 ^ 4 := r.isLt
theorem lowReg_lt (r : LowReg) : r.val < 2 ^ 3 := r.isLt
theorem flag_lt (b : Bool) : b.toNat < 2 ^ 1 := Bool.toNat_lt b
theorem Cond.code_lt (c : Cond) : c.code < 2 ^ 4 := by cases c <;> decide
theorem ShiftType.code_lt (sh : ShiftType) : sh.code < 2 ^ 2 := by cases sh <;> decide
theorem Indexing.pBit_lt (ix : Indexing) : ix.pBit < 2 ^ 1 := by cases ix <;> decide
theorem Indexing.wBit_lt (ix : Indexing) : ix.wBit < 2 ^ 1 := by cases ix <;> decide

theorem Cond.ofCode_code (c : Cond) : Cond.ofCode c.code = c := by cases c <;> rfl
theorem ShiftType.ofCode_code (sh : ShiftType) : ShiftType.ofCode sh.code = sh := by cases sh <;> rfl
theorem toNat_beq_one (b : Bool) : (b.toNat == 1) = b := by cases b <;> rfl
theorem indexingOf_bits (ix : Indexing) : indexingOf (ix.pBit == 1) (ix.wBit == 1) = ix := by cases ix <;> rfl

/-- P = 0 with W = 1 is no indexing (30_encoding.md R160, R162). -/
theorem not_post_writeBack (ix : Indexing) : (!(ix.pBit == 1) && ix.wBit == 1) = false := by cases ix <;> rfl

/-! ## The ARM decode list, row by row (30_encoding.md R154) -/

/-- A field that ends with the dispatch index `field w 20 8`. -/
theorem field_index_hi (w : Nat) {a n : Nat} (h : a + n = 8) : field w (20 + a) n = field w 20 8 / 2 ^ a := by
  have hlt : field w 20 8 / 2 ^ a < 2 ^ n := by
    rw [Nat.div_lt_iff_lt_mul (Nat.two_pow_pos a), ← pow_add, Nat.add_comm, h]
    exact Nat.mod_lt _ (by decide)
  rw [← field_field w 20 h.le, field, Nat.mod_eq_of_lt hlt]

/-- The rows of the decode list, the row of branches and the rows of data processing and transfers by their form. -/
inductive ArmRow where
  | bx | multiply | swp | swpb | unallocMul | halfword | mrs | msrReg | msrImm | unallocCtrl | dpShImm | dpShReg
  | dpImm | transferImm | transferReg | und | block | b | bl | coprocessor | swi

/-- The words of a row: the tests of the decode list with the rows before it taken out. -/
def ArmRow.selects (w : Nat) : ArmRow → Prop
  | bx => field w 20 8 = 0x12 ∧ field w 4 4 = 1
  | multiply => field w 24 4 = 0 ∧ (field w 21 3 < 2 ∨ 4 ≤ field w 21 3) ∧ field w 4 4 = 9
  | swp => field w 20 8 = 0x10 ∧ field w 4 4 = 9
  | swpb => field w 20 8 = 0x14 ∧ field w 4 4 = 9
  | unallocMul => isUnallocMul (field w 20 8) (field w 4 4) = true
  | halfword => field w 25 3 = 0 ∧ (field w 4 4 = 11 ∨ field w 4 4 = 13 ∨ field w 4 4 = 15)
  | mrs => field w 23 5 = 2 ∧ field w 20 2 = 0 ∧ field w 4 4 = 0
  | msrReg => field w 23 5 = 2 ∧ field w 20 2 = 2 ∧ field w 4 4 = 0
  | msrImm => field w 23 5 = 6 ∧ field w 20 2 = 2
  | unallocCtrl => isUnallocCtrl (field w 20 8) (field w 4 4) = true
  | dpShImm => field w 25 3 = 0 ∧ (field w 23 2 ≠ 2 ∨ field w 20 1 = 1) ∧ field w 4 1 = 0
  | dpShReg => field w 25 3 = 0 ∧ (field w 23 2 ≠ 2 ∨ field w 20 1 = 1) ∧ field w 4 1 = 1 ∧ field w 7 1 = 0
  | dpImm => field w 25 3 = 1 ∧ (field w 23 2 ≠ 2 ∨ field w 20 1 = 1)
  | transferImm => field w 25 3 = 2
  | transferReg => field w 25 3 = 3 ∧ field w 4 1 = 0
  | und => field w 25 3 = 3 ∧ field w 4 1 = 1
  | block => field w 25 3 = 4
  | b => field w 25 3 = 5 ∧ flagAt w 24 = false
  | bl => field w 25 3 = 5 ∧ flagAt w 24 = true
  | coprocessor => field w 25 3 = 6 ∨ field w 24 4 = 14
  | swi => field w 24 4 = 15

/-- What the decoder makes of a word of a row. -/
def ArmRow.instr (w : Nat) : ArmRow → Instr
  | bx => .bx (condAt w) (regAt w 0)
  | multiply => decodeMultiply (condAt w) w
  | swp => .swp (condAt w) (regAt w 16) (regAt w 12) (regAt w 0)
  | swpb => .swpb (condAt w) (regAt w 16) (regAt w 12) (regAt w 0)
  | unallocMul => .armUnallocMul (condAt w) (bitsAt 28 w 0)
  | halfword => decodeHalfword (condAt w) w
  | mrs => .mrs (condAt w) (flagAt w 22) (regAt w 12)
  | msrReg => .msrReg (condAt w) (flagAt w 22) (bitsAt 4 w 16) (regAt w 0)
  | msrImm => .msrImm (condAt w) (flagAt w 22) (bitsAt 4 w 16) (bitsAt 4 w 8) (bitsAt 8 w 0)
  | unallocCtrl => .armUnallocCtrl (condAt w) (bitsAt 28 w 0)
  | dpShImm => decodeDpShImm (condAt w) w
  | dpShReg => decodeDpShReg (condAt w) w
  | dpImm => decodeDpImm (condAt w) w
  | transferImm => decodeTransferImm (condAt w) w
  | transferReg => decodeTransferReg (condAt w) w
  | und => .und (condAt w) (bitsAt 28 w 0)
  | block => decodeBlock (condAt w) w
  | b => .b (condAt w) (bitsAt 24 w 0)
  | bl => .bl (condAt w) (bitsAt 24 w 0)
  | coprocessor => decodeCoprocessor (condAt w) w
  | swi => .swi (condAt w) (bitsAt 24 w 0)

theorem isUnallocMul_iff (hi lo : Nat) : isUnallocMul hi lo = true ↔
    hi / 32 = 0 ∧ lo = 9 ∧ hi / 4 ≠ 0 ∧ hi / 8 ≠ 1 ∧ hi ≠ 0x10 ∧ hi ≠ 0x14 := by
  simp only [isUnallocMul, Bool.and_eq_true, beq_iff_eq, bne_iff_ne, and_assoc]

theorem isUnallocCtrl_iff (hi lo : Nat) : isUnallocCtrl hi lo = true ↔
    (hi / 8 = 2 ∧ hi % 2 = 0 ∧ (lo % 2 = 0 ∨ lo / 8 = 0) ∧ lo ≠ 0 ∧ ¬(hi = 0x12 ∧ lo = 1)) ∨
      hi = 0x30 ∨ hi = 0x34 := by
  simp only [isUnallocCtrl, Bool.and_eq_true, Bool.or_eq_true, beq_iff_eq, bne_iff_ne, Bool.not_eq_eq_eq_not,
    Bool.not_true, ← Bool.not_eq_true, and_assoc, or_assoc]

/-- A field inside the dispatch index `field w 20 8`. -/
theorem field_index_mid (w : Nat) {a n : Nat} (h : a + n ≤ 8) :
    field w (20 + a) n = field w 20 8 / 2 ^ a % 2 ^ n := (field_field w 20 h).symm

/-! The fields that the rows test, as parts of the dispatch index. -/

theorem field_25_3 (w : Nat) : field w 25 3 = field w 20 8 / 32 := field_index_hi w (a := 5) rfl
theorem field_24_4 (w : Nat) : field w 24 4 = field w 20 8 / 16 := field_index_hi w (a := 4) rfl
theorem field_23_5 (w : Nat) : field w 23 5 = field w 20 8 / 8 := field_index_hi w (a := 3) rfl
theorem field_23_2 (w : Nat) : field w 23 2 = field w 20 8 / 8 % 4 := field_index_mid w (a := 3) (n := 2) (by decide)
theorem field_21_3 (w : Nat) : field w 21 3 = field w 20 8 / 2 % 8 := field_index_mid w (a := 1) (n := 3) (by decide)
theorem field_20_2 (w : Nat) : field w 20 2 = field w 20 8 % 4 := by
  rw [field_index_mid w (a := 0) (n := 2) (by decide), pow_zero, Nat.div_one]; rfl
theorem field_20_1 (w : Nat) : field w 20 1 = field w 20 8 % 2 := by
  rw [field_index_mid w (a := 0) (n := 1) (by decide), pow_zero, Nat.div_one, pow_one]
theorem field_4_1 (w : Nat) : field w 4 1 = field w 4 4 % 2 := by
  rw [← field_field w 4 (len := 4) (a := 0) (n := 1) (by decide), field, pow_zero, Nat.div_one, pow_one]
theorem field_7_1 (w : Nat) : field w 7 1 = field w 4 4 / 8 := by
  have h : field w 4 4 / 8 < 2 := Nat.div_lt_of_lt_mul (Nat.mod_lt _ (by decide))
  rw [← field_field w 4 (len := 4) (a := 3) (n := 1) (by decide)]
  exact Nat.mod_eq_of_lt h

/-- A word of a row is decoded by it: the tests of the earlier rows fail on the dispatch index. The number of a case is
how many tests fail before the row's own one. -/
theorem ArmRow.decodes {w : Nat} (r : ArmRow) (h : r.selects w) : decodeArmNat w = r.instr w := by
  have hhi : field w 20 8 < 256 := Nat.mod_lt _ (by decide)
  have hlo : field w 4 4 < 16 := Nat.mod_lt _ (by decide)
  cases r
  all_goals
    simp only [selects, field_25_3, field_24_4, field_23_5, field_23_2, field_21_3, field_20_2, field_20_1, field_4_1,
      field_7_1, isUnallocMul_iff, isUnallocCtrl_iff] at h
    simp only [instr, decodeArmNat, condAt, isUnallocMul_iff, isUnallocCtrl_iff, Bool.and_eq_true, Bool.or_eq_true,
      beq_iff_eq]
    generalize field w 20 8 = hi at *
    generalize field w 4 4 = lo at *
  case bx => rw [if_pos]; omega
  case multiply => rw [if_neg, if_pos] <;> omega
  case swp => rw [if_neg, if_neg, if_pos] <;> omega
  case swpb => rw [if_neg, if_neg, if_neg, if_pos] <;> omega
  case unallocMul => (iterate 4 rw [if_neg]); rw [if_pos]; all_goals omega
  case halfword => (iterate 5 rw [if_neg]); rw [if_pos]; all_goals omega
  case mrs => (iterate 6 rw [if_neg]); rw [if_pos]; all_goals omega
  case msrReg => (iterate 7 rw [if_neg]); rw [if_pos]; all_goals omega
  case msrImm => (iterate 8 rw [if_neg]); rw [if_pos]; all_goals omega
  case unallocCtrl => (iterate 9 rw [if_neg]); rw [if_pos]; all_goals omega
  case dpShImm => (iterate 10 rw [if_neg]); rw [if_pos, if_pos]; all_goals omega
  case dpShReg => (iterate 10 rw [if_neg]); rw [if_pos, if_neg]; all_goals omega
  case dpImm => (iterate 11 rw [if_neg]); rw [if_pos]; all_goals omega
  case transferImm => (iterate 12 rw [if_neg]); rw [if_pos]; all_goals omega
  case transferReg => (iterate 13 rw [if_neg]); rw [if_pos, if_pos]; all_goals omega
  case und => (iterate 13 rw [if_neg]); rw [if_pos, if_neg]; all_goals omega
  case block => (iterate 14 rw [if_neg]); rw [if_pos]; all_goals omega
  case b => (iterate 15 rw [if_neg]); rw [if_pos, h.2, if_neg Bool.false_ne_true]; all_goals omega
  case bl => (iterate 15 rw [if_neg]); rw [if_pos, if_pos h.2]; all_goals omega
  case coprocessor => (iterate 17 rw [if_neg]); all_goals omega
  case swi => (iterate 16 rw [if_neg]); rw [if_pos]; all_goals omega

/-! ## The halfword forms (30_encoding.md R160, R299) -/

theorem isHwUnalloc_eq (w : Nat) : isHwUnalloc (field w 20 8) (field w 4 4) =
    (field w 25 3 == 0 && field w 20 1 == 0 && (field w 4 4 == 13 || field w 4 4 == 15)) := by
  rw [isHwUnalloc, field_25_3, field_20_1]

theorem field_24_1 (w : Nat) : field w 24 1 = field w 20 8 / 16 % 2 := field_index_mid w (a := 4) (n := 1) (by decide)
theorem field_21_1 (w : Nat) : field w 21 1 = field w 20 8 / 2 % 2 := field_index_mid w (a := 1) (n := 1) (by decide)

theorem isHwUnpred_eq (w : Nat) : isHwUnpred (field w 20 8) (field w 4 4) =
    (field w 24 1 == 0 && field w 21 1 == 1 && (field w 25 3 == 0 &&
      (field w 4 4 == 11 || ((field w 4 4 == 13 || field w 4 4 == 15) && field w 20 1 == 1)))) := by
  rw [isHwUnpred, field_25_3, field_24_1, field_21_1, field_20_1]
  ac_rfl

/-- A halfword form with a modelled indexing is no refused one. -/
theorem post_without_writeBack (ix : Indexing) : (ix.pBit == 0 && ix.wBit == 1) = false := by cases ix <;> rfl

theorem ofNat_nibbles (imm : BitVec 8) : BitVec.ofNat 8 (imm.toNat / 16 * 16 + imm.toNat % 16) = imm := by
  rw [Nat.div_add_mod', BitVec.ofNat_toNat, BitVec.setWidth_eq]

theorem nibble_high_lt (imm : BitVec 8) : imm.toNat / 16 < 2 ^ 4 := Nat.div_lt_of_lt_mul imm.isLt
theorem nibble_low_lt (imm : BitVec 8) : imm.toNat % 16 < 2 ^ 4 := Nat.mod_lt _ (by decide)

/-! ## The encoder's words as rows of fields -/

section
variable (c : Cond) (ix : Indexing) (up sf wb : Bool) (i op s p b w l pu lo : Nat) (rn rd rs rm : Reg)
  (n : BitVec 5) (sh : ShiftType) (imm : BitVec 8)

theorem encDp_shImm : encDp c i op s rn rd + encOp2ShImm n sh rm = layout c.code
    [(3, i), (4, op), (1, s), (4, rn.val), (4, rd.val), (5, n.toNat), (2, sh.code), (1, 0), (4, rm.val)] := by
  simp only [encDp, encOp2ShImm, layout, List.foldl, push]; omega

theorem encDp_shReg : encDp c i op s rn rd + encOp2ShReg rs sh rm = layout c.code
    [(3, i), (4, op), (1, s), (4, rn.val), (4, rd.val), (4, rs.val), (1, 0), (2, sh.code), (1, 1), (4, rm.val)] := by
  simp only [encDp, encOp2ShReg, layout, List.foldl, push]; omega

theorem encDp_imm (rot : BitVec 4) : encDp c i op s rn rd + encOp2Imm rot imm = layout c.code
    [(3, i), (4, op), (1, s), (4, rn.val), (4, rd.val), (4, rot.toNat), (8, imm.toNat)] := by
  simp only [encDp, encOp2Imm, layout, List.foldl, push]; omega

theorem encTransfer_imm (off : BitVec 12) : encTransfer c i p up b w l rn rd + off.toNat = layout c.code
    [(2, 1), (1, i), (1, p), (1, up.toNat), (1, b), (1, w), (1, l), (4, rn.val), (4, rd.val), (12, off.toNat)] := by
  simp only [encTransfer, layout, List.foldl, push]; omega

theorem encTransfer_reg : encTransfer c i p up b w l rn rd + encOp2ShImm n sh rm = layout c.code
    [(2, 1), (1, i), (1, p), (1, up.toNat), (1, b), (1, w), (1, l), (4, rn.val), (4, rd.val), (5, n.toNat),
      (2, sh.code), (1, 0), (4, rm.val)] := by
  simp only [encTransfer, encOp2ShImm, layout, List.foldl, push]; omega

theorem encHalfwordImm_eq : encHalfwordImm c ix up l rn rd lo imm = layout c.code
    [(3, 0), (1, ix.pBit), (1, up.toNat), (1, 1), (1, ix.wBit), (1, l), (4, rn.val), (4, rd.val), (4, imm.toNat / 16),
      (1, 1), (2, lo), (1, 1), (4, imm.toNat % 16)] := by
  simp only [encHalfwordImm, encHalfword, layout, List.foldl, push]; omega

theorem encHalfwordReg_eq : encHalfwordReg c ix up l rn rd lo rm = layout c.code
    [(3, 0), (1, ix.pBit), (1, up.toNat), (1, 0), (1, ix.wBit), (1, l), (4, rn.val), (4, rd.val), (4, 0),
      (1, 1), (2, lo), (1, 1), (4, rm.val)] := by
  simp only [encHalfwordReg, encHalfword, layout, List.foldl, push]; omega

theorem encMultiply_eq : encMultiply c op sf rn rd rs rm = layout c.code
    [(4, 0), (3, op), (1, sf.toNat), (4, rn.val), (4, rd.val), (4, rs.val), (4, 9), (4, rm.val)] := by
  simp only [encMultiply, layout, List.foldl, push]; omega

theorem encBlock_eq (list : BitVec 16) : encBlock c pu s wb l rn list = layout c.code
    [(3, 4), (2, pu), (1, s), (1, wb.toNat), (1, l), (4, rn.val), (16, list.toNat)] := by
  simp only [encBlock, layout, List.foldl, push]; omega

end

section
variable (c : Cond) (rn rd rm : Reg)

theorem encode_bx : encode (.bx c rm) = layout c.code [(8, 0x12), (12, 0xFFF), (4, 1), (4, rm.val)] := by
  simp only [encode, armHead, layout, List.foldl, push]; omega

theorem encode_swp : encode (.swp c rn rd rm) =
    layout c.code [(8, 0x10), (4, rn.val), (4, rd.val), (4, 0), (4, 9), (4, rm.val)] := by
  simp only [encode, armHead, layout, List.foldl, push]; omega

theorem encode_swpb : encode (.swpb c rn rd rm) =
    layout c.code [(8, 0x14), (4, rn.val), (4, rd.val), (4, 0), (4, 9), (4, rm.val)] := by
  simp only [encode, armHead, layout, List.foldl, push]; omega

theorem encode_mrs (spsr : Bool) : encode (.mrs c spsr rd) =
    layout c.code [(5, 2), (1, spsr.toNat), (2, 0), (4, 15), (4, rd.val), (4, 0), (4, 0), (4, 0)] := by
  simp only [encode, armHead, layout, List.foldl, push]; omega

theorem encode_msrReg (spsr : Bool) (mask : BitVec 4) : encode (.msrReg c spsr mask rm) =
    layout c.code [(5, 2), (1, spsr.toNat), (2, 2), (4, mask.toNat), (4, 15), (4, 0), (4, 0), (4, rm.val)] := by
  simp only [encode, armHead, layout, List.foldl, push]; omega

theorem encode_msrImm (spsr : Bool) (mask rot : BitVec 4) (imm : BitVec 8) : encode (.msrImm c spsr mask rot imm) =
    layout c.code [(5, 6), (1, spsr.toNat), (2, 2), (4, mask.toNat), (4, 15), (4, rot.toNat), (8, imm.toNat)] := by
  simp only [encode, armHead, encOp2Imm, layout, List.foldl, push]; omega

theorem encode_b (off : BitVec 24) : encode (.b c off) = layout c.code [(3, 5), (1, 0), (24, off.toNat)] := by
  simp only [encode, armHead, layout, List.foldl, push]; omega

theorem encode_bl (off : BitVec 24) : encode (.bl c off) = layout c.code [(3, 5), (1, 1), (24, off.toNat)] := by
  simp only [encode, armHead, layout, List.foldl, push]; omega

theorem encode_swi (comment : BitVec 24) : encode (.swi c comment) = layout c.code [(4, 15), (24, comment.toNat)] := by
  simp only [encode, armHead, layout, List.foldl, push]; omega

theorem encode_ldcStc (p u nbit w ld : Bool) (cp : BitVec 4) (off : BitVec 8) :
    encode (.ldcStc c p u nbit w ld rn rd cp off) = layout c.code [(3, 6), (1, p.toNat), (1, u.toNat), (1, nbit.toNat),
      (1, w.toNat), (1, ld.toNat), (4, rn.val), (4, rd.val), (4, cp.toNat), (8, off.toNat)] := by
  simp only [encode, armHead, layout, List.foldl, push]; omega

theorem encode_cdp (op1 cp : BitVec 4) (op2 : BitVec 3) : encode (.cdp c op1 rn rd cp op2 rm) = layout c.code
    [(3, 7), (1, 0), (4, op1.toNat), (4, rn.val), (4, rd.val), (4, cp.toNat), (3, op2.toNat), (1, 0), (4, rm.val)] := by
  simp only [encode, armHead, layout, List.foldl, push]; omega

theorem encode_mrcMcr (op1 op2 : BitVec 3) (ld : Bool) (cp : BitVec 4) : encode (.mrcMcr c op1 ld rn rd cp op2 rm) =
    layout c.code [(3, 7), (1, 0), (3, op1.toNat), (1, ld.toNat), (4, rn.val), (4, rd.val), (4, cp.toNat),
      (3, op2.toNat), (1, 1), (4, rm.val)] := by
  simp only [encode, armHead, layout, List.foldl, push]; omega

end

/-- The encoder's word for an instruction has the size of its set and decodes to it. -/
def RoundTrips (i : Instr) : Prop :=
  (i.width = 32 ∧ encode i < 2 ^ 32 ∧ decodeArmNat (encode i) = i) ∨
    (i.width = 16 ∧ encode i < 2 ^ 16 ∧ decodeThumbNat (encode i) = i)

theorem roundTrips_arm {i : Instr} (r : ArmRow) (hw : i.width = 32)
    (h : encode i < 2 ^ 32 ∧ r.selects (encode i) ∧ r.instr (encode i) = i) : RoundTrips i :=
  .inl ⟨hw, h.1, (r.decodes h.2.1).trans h.2.2⟩

/-! ## The round trip of the ARM instructions -/

/-- Data processing (30_encoding.md R155). -/
theorem roundTrips_dp {i : Instr} (h : i.asDp ≠ none) : RoundTrips i := by
  cases i <;> simp only [Instr.asDp, ne_eq, not_true_eq_false] at h
  case' andShImm | eorShImm | subShImm | rsbShImm | addShImm | adcShImm | sbcShImm | rscShImm | tstShImm | teqShImm
    | cmpShImm | cmnShImm | orrShImm | movShImm | bicShImm | mvnShImm => apply roundTrips_arm .dpShImm rfl
  case' andShReg | eorShReg | subShReg | rsbShReg | addShReg | adcShReg | sbcShReg | rscShReg | tstShReg | teqShReg
    | cmpShReg | cmnShReg | orrShReg | movShReg | bicShReg | mvnShReg => apply roundTrips_arm .dpShReg rfl
  case' andImm | eorImm | subImm | rsbImm | addImm | adcImm | sbcImm | rscImm | tstImm | teqImm | cmpImm | cmnImm
    | orrImm | movImm | bicImm | mvnImm => apply roundTrips_arm .dpImm rfl
  all_goals
    simp +decide only [encode, encDp_shImm, encDp_shReg, encDp_imm, layout, List.foldl, push_lt, field_push_below,
      field_push_above, field_of_lt, reg_lt, flag_lt, BitVec.isLt, Cond.code_lt, ShiftType.code_lt, Nat.reduceSub,
      ArmRow.selects, ArmRow.instr, decodeDpShImm, decodeDpShReg, decodeDpImm, condAt_eq_field, regAt_eq_field,
      flagAt_eq_field, bitsAt_eq_field, Cond.ofCode_code, ShiftType.ofCode_code, toNat_beq_one, BitVec.ofNat_toNat,
      BitVec.setWidth_eq, Fin.ofNat_val_eq_self, true_or, or_true, and_self]

/-- The single transfers of words, bytes and halfwords (R160, R162). -/
theorem roundTrips_transfer {i : Instr} (h : i.asLoad ≠ none ∨ i.asStore ≠ none) : RoundTrips i := by
  cases i <;> simp only [Instr.asLoad, Instr.asStore, ne_eq, not_true_eq_false, or_self] at h
  case' ldrImm | ldrtImm | ldrbImm | ldrbtImm | strImm | strtImm | strbImm | strbtImm =>
    apply roundTrips_arm .transferImm rfl
  case' ldrReg | ldrtReg | ldrbReg | ldrbtReg | strReg | strtReg | strbReg | strbtReg =>
    apply roundTrips_arm .transferReg rfl
  case' ldrhImm | ldrhReg | ldrsbImm | ldrsbReg | ldrshImm | ldrshReg | strhImm | strhReg =>
    apply roundTrips_arm .halfword rfl
  all_goals
    simp +decide only [encode, encTransfer_imm, encTransfer_reg, encHalfwordImm_eq, encHalfwordReg_eq, layout,
      List.foldl, push_lt, field_push_below, field_push_above, field_push_across, field_of_lt, reg_lt, flag_lt,
      BitVec.isLt, Cond.code_lt, ShiftType.code_lt, Indexing.pBit_lt, Indexing.wBit_lt, nibble_high_lt, nibble_low_lt,
      Nat.reduceSub, Nat.reduceBEq, ArmRow.selects, ArmRow.instr, decodeTransferImm, decodeTransferReg, decodeHalfword,
      ↓isHwUnalloc_eq, ↓isHwUnpred_eq, condAt_eq_field, regAt_eq_field, flagAt_eq_field, bitsAt_eq_field,
      Cond.ofCode_code, ShiftType.ofCode_code, toNat_beq_one, indexingOf_bits, not_post_writeBack,
      post_without_writeBack, ofNat_nibbles, BitVec.ofNat_toNat, BitVec.setWidth_eq, Fin.ofNat_val_eq_self, and_self,
      if_false, if_true, Bool.false_eq_true, Bool.false_and, Bool.and_false, Bool.true_and]

/-- The ARM block transfers (R164). -/
theorem roundTrips_block {i : Instr} (hw : i.width = 32) (h : i.asBlock ≠ none) : RoundTrips i := by
  cases i <;> simp only [Instr.asBlock, ne_eq, not_true_eq_false] at h
  case tPush | tPop | tStmia | tLdmia => cases hw
  all_goals
    apply roundTrips_arm .block rfl
    simp +decide only [encode, encBlock_eq, layout, List.foldl, push_lt, field_push_below, field_push_above,
      field_of_lt, reg_lt, flag_lt, BitVec.isLt, Cond.code_lt, Nat.reduceSub, Nat.reduceBEq, ArmRow.selects,
      ArmRow.instr, decodeBlock, condAt_eq_field, regAt_eq_field, flagAt_eq_field, bitsAt_eq_field, Cond.ofCode_code,
      toNat_beq_one, BitVec.ofNat_toNat, BitVec.setWidth_eq, Fin.ofNat_val_eq_self, and_self]

/-- The 28 bits of an instruction that is kept whole. -/
def Instr.wholeBits : Instr → Option (Cond × BitVec 28)
  | .armUnallocMul c bits | .hwUnalloc c bits | .hwUnpred c bits | .armUnallocCtrl c bits | .und c bits =>
    some (c, bits)
  | _ => none

/-- The fields of a word that is kept whole, its condition above its other bits. -/
theorem fields_push_whole (c : Cond) (bits : BitVec 28) :
    push c.code 28 bits.toNat < 2 ^ 32 ∧ condAt (push c.code 28 bits.toNat) = c ∧
      bitsAt 28 (push c.code 28 bits.toNat) 0 = bits ∧
      field (push c.code 28 bits.toNat) 20 8 = indexHi bits ∧ field (push c.code 28 bits.toNat) 4 4 = indexLo bits := by
  simp +decide only [push_lt, field_push_below, field_push_above, field_of_lt, BitVec.isLt, Cond.code_lt,
    Nat.reduceSub, condAt_eq_field, bitsAt_eq_field, Cond.ofCode_code, BitVec.ofNat_toNat, BitVec.setWidth_eq, indexHi,
    indexLo, and_self]

theorem isHwUnalloc_of_isHwUnpred {hi lo : Nat} (h : isHwUnpred hi lo = true) : isHwUnalloc hi lo = false := by
  rw [← Bool.not_eq_true]
  intro hu
  simp only [isHwUnalloc, isHwUnpred, Bool.and_eq_true, Bool.or_eq_true, beq_iff_eq] at h hu
  omega

/-- The refused spaces and the undefined instruction, every bit kept (R163, R170, R299). -/
theorem roundTrips_whole {i : Instr} {p : Cond × BitVec 28} (hp : i.wholeBits = some p) (hwf : i.wellFormed = true) :
    RoundTrips i := by
  cases i <;> simp only [Instr.wholeBits, reduceCtorEq] at hp
  all_goals
    rename_i c bits
    obtain ⟨hlt, hc, hb, hhi, hlo⟩ := fields_push_whole c bits
    rw [Instr.wellFormed, ← hhi, ← hlo] at hwf
  case armUnallocMul => exact roundTrips_arm .unallocMul rfl ⟨hlt, hwf, congrArg₂ _ hc hb⟩
  case armUnallocCtrl => exact roundTrips_arm .unallocCtrl rfl ⟨hlt, hwf, congrArg₂ _ hc hb⟩
  case und =>
    rw [isUndefined, Bool.and_eq_true, beq_iff_eq, beq_iff_eq] at hwf
    exact roundTrips_arm .und rfl
      ⟨hlt, ⟨(field_25_3 _).trans hwf.1, (field_4_1 _).trans hwf.2⟩, congrArg₂ _ hc hb⟩
  case hwUnalloc =>
    have hd : decodeHalfword (condAt (push c.code 28 bits.toNat)) (push c.code 28 bits.toNat) = .hwUnalloc c bits := by
      rw [decodeHalfword, if_pos hwf, hc, hb]
    simp only [isHwUnalloc_eq, Bool.and_eq_true, Bool.or_eq_true, beq_iff_eq] at hwf
    exact roundTrips_arm .halfword rfl ⟨hlt, ⟨hwf.1.1, .inr hwf.2⟩, hd⟩
  case hwUnpred =>
    have hd : decodeHalfword (condAt (push c.code 28 bits.toNat)) (push c.code 28 bits.toNat) = .hwUnpred c bits := by
      rw [decodeHalfword, isHwUnalloc_of_isHwUnpred hwf, if_neg Bool.false_ne_true, if_pos hwf, hc, hb]
    simp only [isHwUnpred_eq, Bool.and_eq_true, Bool.or_eq_true, beq_iff_eq] at hwf
    exact roundTrips_arm .halfword rfl ⟨hlt, ⟨hwf.2.1, hwf.2.2.imp_right And.left⟩, hd⟩

/-- The other ARM instructions: BX, multiplies, swaps, the status registers, branches, coprocessor and SWI. -/
theorem roundTrips_other {i : Instr} (hw : i.width = 32) (hwf : i.wellFormed = true) (hdp : i.asDp = none)
    (hl : i.asLoad = none) (hs : i.asStore = none) (hb : i.asBlock = none) : RoundTrips i := by
  cases i <;> simp only [Instr.width, Instr.asDp, Instr.asLoad, Instr.asStore, Instr.asBlock, reduceCtorEq,
    Nat.reduceEqDiff] at hw hdp hl hs hb
  case armUnallocMul | hwUnalloc | hwUnpred | armUnallocCtrl | und => exact roundTrips_whole rfl hwf
  case' bx => apply roundTrips_arm .bx rfl
  case' swp => apply roundTrips_arm .swp rfl
  case' swpb => apply roundTrips_arm .swpb rfl
  case' mrs => apply roundTrips_arm .mrs rfl
  case' msrReg => apply roundTrips_arm .msrReg rfl
  case' msrImm => apply roundTrips_arm .msrImm rfl
  case' b => apply roundTrips_arm .b rfl
  case' bl => apply roundTrips_arm .bl rfl
  case' swi => apply roundTrips_arm .swi rfl
  case' ldcStc | cdp | mrcMcr => apply roundTrips_arm .coprocessor rfl
  case' mul | mla | umull | umlal | smull | smlal =>
    apply roundTrips_arm .multiply rfl
    rw [encode, encMultiply_eq]
  all_goals
    simp +decide only [encode_bx, encode_swp, encode_swpb, encode_mrs, encode_msrReg, encode_msrImm, encode_b,
      encode_bl, encode_swi, encode_ldcStc, encode_cdp, encode_mrcMcr, layout, List.foldl, push_lt, field_push_below,
      field_push_above, field_push_across, field_of_lt, reg_lt, flag_lt, BitVec.isLt, Cond.code_lt, Nat.reduceSub,
      Nat.reduceBEq, ArmRow.selects, ArmRow.instr, decodeMultiply, decodeCoprocessor, condAt_eq_field, regAt_eq_field,
      flagAt_eq_field, bitsAt_eq_field, Cond.ofCode_code, toNat_beq_one, BitVec.ofNat_toNat, BitVec.setWidth_eq,
      Fin.ofNat_val_eq_self, true_or, and_self, if_true, if_false, Bool.false_eq_true]

/-! ## The THUMB encoder and decoder (30_encoding.md R172) -/

theorem field_11_5 {w top : Nat} (h : field w 12 4 = top) : field w 11 5 = 2 * top ∨ field w 11 5 = 2 * top + 1 := by
  have hsplit : field w 11 5 = 2 * top + field w 11 1 := by rw [field_split w 11 1 4, h, pow_one]
  exact (Nat.mod_two_eq_zero_or_one (w / 2 ^ 11)).imp (hsplit.trans <| congrArg (2 * top + ·) ·)
    (hsplit.trans <| congrArg (2 * top + ·) ·)

/-! The formats that the top four bits name: both dispatch indices above them lead to the format's own list. -/

theorem decodeThumbNat_regOffset {w : Nat} (h : field w 12 4 = 5) : decodeThumbNat w = decodeThumbRegOffset w := by
  obtain h | h := field_11_5 h <;> simp only [decodeThumbNat, h, Nat.reduceMul, Nat.reduceAdd]

theorem decodeThumbNat_misc {w : Nat} (h : field w 12 4 = 11) : decodeThumbNat w = decodeThumbMisc w := by
  obtain h | h := field_11_5 h <;> simp only [decodeThumbNat, h, Nat.reduceMul, Nat.reduceAdd]

theorem decodeThumbNat_cond {w : Nat} (h : field w 12 4 = 13) : decodeThumbNat w = decodeThumbCond w := by
  obtain h | h := field_11_5 h <;> simp only [decodeThumbNat, h, Nat.reduceMul, Nat.reduceAdd]

theorem hiRegAt_eq_field (w hbit lo : Nat) : hiRegAt w hbit lo = Fin.ofNat 16 (field w hbit 1 * 8 + field w lo 3) := rfl

theorem ofNat_halves (r : Reg) : Fin.ofNat 16 (r.val / 8 * 8 + r.val % 8) = r := by
  rw [Nat.div_add_mod', Fin.ofNat_val_eq_self]

theorem reg_high_lt (r : Reg) : r.val / 8 < 2 ^ 1 := Nat.div_lt_of_lt_mul r.isLt
theorem reg_low_lt (r : Reg) : r.val % 8 < 2 ^ 3 := Nat.mod_lt _ (by decide)

section
variable (top a b d op : Nat) (n : BitVec 5) (imm : BitVec 8) (rs rd : LowReg) (hs hd : Reg)

/-- The top read as the five bits of the dispatch index and two bits below them. -/
theorem encThumb3_five : encThumb3 top a b d = layout (top / 4) [(2, top % 4), (3, a), (3, b), (3, d)] := by
  simp only [encThumb3, layout, List.foldl, push]; omega

/-- The top read as the four bits of the load and store formats and three bits below them. -/
theorem encThumb3_four : encThumb3 top a b d = layout (top / 8) [(3, top % 8), (3, a), (3, b), (3, d)] := by
  simp only [encThumb3, layout, List.foldl, push]; omega

theorem encThumb5_eq : encThumb5 top n rs rd = layout top [(5, n.toNat), (3, rs.val), (3, rd.val)] := by
  simp only [encThumb5, layout, List.foldl, push]; omega

theorem encThumb8_eq : encThumb8 top rd imm = layout top [(3, rd.val), (8, imm.toNat)] := by
  simp only [encThumb8, layout, List.foldl, push]; omega

theorem encThumbAlu_eq : encThumbAlu op rs rd = layout 8 [(1, 0), (4, op), (3, rs.val), (3, rd.val)] := by
  simp only [encThumbAlu, layout, List.foldl, push]; omega

theorem encThumbHi_eq : encThumbHi op hs hd =
    layout 8 [(1, 1), (2, op), (1, hd.val / 8), (1, hs.val / 8), (3, hs.val % 8), (3, hd.val % 8)] := by
  simp only [encThumbHi, layout, List.foldl, push]; omega

theorem encode_tAddSpImm (neg : Bool) (off : BitVec 7) :
    encode (.tAddSpImm neg off) = layout 11 [(4, 0), (1, neg.toNat), (7, off.toNat)] := by
  simp only [encode, layout, List.foldl, push]; omega

theorem encode_tPush (lr : Bool) : encode (.tPush lr imm) = layout 11 [(3, 2), (1, lr.toNat), (8, imm.toNat)] := by
  simp only [encode, layout, List.foldl, push]; omega

theorem encode_tPop (pc : Bool) : encode (.tPop pc imm) = layout 11 [(3, 6), (1, pc.toNat), (8, imm.toNat)] := by
  simp only [encode, layout, List.foldl, push]; omega

theorem encode_tSwi : encode (.tSwi imm) = layout 13 [(4, 15), (8, imm.toNat)] := by
  simp only [encode, layout, List.foldl, push]; omega

theorem encode_tBcond (c : Cond) : encode (.tBcond c imm) = layout 13 [(4, c.code), (8, imm.toNat)] := by
  simp only [encode, layout, List.foldl, push]; omega

end

theorem encode_tB (off : BitVec 11) : encode (.tB off) = layout 28 [(11, off.toNat)] := rfl
theorem encode_tBlPrefix (off : BitVec 11) : encode (.tBlPrefix off) = layout 30 [(11, off.toNat)] := rfl
theorem encode_tBlSuffix (off : BitVec 11) : encode (.tBlSuffix off) = layout 31 [(11, off.toNat)] := rfl

theorem roundTrips_thumb {i : Instr} (hw : i.width = 16) (h : encode i < 2 ^ 16 ∧ decodeThumbNat (encode i) = i) :
    RoundTrips i := .inr ⟨hw, h⟩

theorem roundTrips_regOffset {i : Instr} (hw : i.width = 16)
    (h : encode i < 2 ^ 16 ∧ field (encode i) 12 4 = 5 ∧ decodeThumbRegOffset (encode i) = i) : RoundTrips i :=
  .inr ⟨hw, h.1, (decodeThumbNat_regOffset h.2.1).trans h.2.2⟩

theorem roundTrips_misc {i : Instr} (hw : i.width = 16)
    (h : encode i < 2 ^ 16 ∧ field (encode i) 12 4 = 11 ∧ decodeThumbMisc (encode i) = i) : RoundTrips i :=
  .inr ⟨hw, h.1, (decodeThumbNat_misc h.2.1).trans h.2.2⟩

theorem roundTrips_cond {i : Instr} (hw : i.width = 16)
    (h : encode i < 2 ^ 16 ∧ field (encode i) 12 4 = 13 ∧ decodeThumbCond (encode i) = i) : RoundTrips i :=
  .inr ⟨hw, h.1, (decodeThumbNat_cond h.2.1).trans h.2.2⟩

/-- The condition of a THUMB branch is not the code of SWI or of the unallocated space (30_encoding.md R175). -/
theorem Cond.code_of_bcond {c : Cond} (h : (c != .al && c != .nv) = true) :
    (c.code == 14) = false ∧ (c.code == 15) = false := by
  revert h; cases c <;> decide

theorem decodeThumbNat_unalloc {w : Nat} (_hw : w < 2 ^ 16) (h : isThumbUnalloc w = true) :
    decodeThumbNat w = .tUnalloc (bitsAt 16 w 0) := by
  simp only [isThumbUnalloc, Bool.and_eq_true, Bool.or_eq_true, beq_iff_eq, bne_iff_ne] at h
  obtain (⟨⟨⟨h12, h0⟩, h10⟩, h11⟩ | h) | h := h
  · rw [decodeThumbNat_misc (by simp only [field]; omega), decodeThumbMisc, if_neg, if_neg, if_neg] <;>
      simp only [field, beq_iff_eq] <;> omega
  · rw [decodeThumbNat_cond (by simp only [field]; omega), decodeThumbCond, if_pos]
    simp only [field, beq_iff_eq]; omega
  · have h29 : field w 11 5 = 29 := by simp only [field]; omega
    simp only [decodeThumbNat, h29]


/-- Every THUMB instruction. -/
theorem roundTrips_16 {i : Instr} (hw : i.width = 16) (hwf : i.wellFormed = true) : RoundTrips i := by
  cases i <;> simp only [Instr.width, Nat.reduceEqDiff] at hw
  case tUnalloc bits =>
    refine roundTrips_thumb rfl ⟨bits.isLt, (decodeThumbNat_unalloc bits.isLt hwf).trans ?_⟩
    simp only [bitsAt, pow_zero, Nat.div_one, BitVec.ofNat_toNat, BitVec.setWidth_eq]
  case' tBcond c off =>
    have hc := Cond.code_of_bcond hwf
    apply roundTrips_cond rfl
  case' tSwi => apply roundTrips_cond rfl
  case' tPush lr _ | tPop lr _ => apply roundTrips_misc rfl; cases lr
  case' tAddSpImm => apply roundTrips_misc rfl
  case' tStrReg | tStrbReg | tLdrReg | tLdrbReg | tStrhReg | tLdrhReg | tLdsbReg | tLdshReg =>
    apply roundTrips_regOffset rfl; rw [encode, encThumb3_four]
  case' tAddReg | tSubReg | tAddImm3 | tSubImm3 => apply roundTrips_thumb rfl; rw [encode, encThumb3_five]
  case' tAnd | tEor | tLslReg | tLsrReg | tAsrReg | tAdc | tSbc | tRorReg | tTst | tNeg | tCmpReg | tCmn | tOrr | tMul
    | tBic | tMvn => apply roundTrips_thumb rfl; rw [encode, encThumbAlu_eq]
  case' tAddHi | tCmpHi | tMovHi | tBx => apply roundTrips_thumb rfl; rw [encode, encThumbHi_eq]
  case' tLslImm | tLsrImm | tAsrImm | tStrImm | tLdrImm | tStrbImm | tLdrbImm | tStrhImm | tLdrhImm =>
    apply roundTrips_thumb rfl; rw [encode, encThumb5_eq]
  case' tMovImm8 | tCmpImm8 | tAddImm8 | tSubImm8 | tLdrPc | tStrSp | tLdrSp | tAddPc | tAddSp | tStmia | tLdmia =>
    apply roundTrips_thumb rfl; rw [encode, encThumb8_eq]
  case' tB | tBlPrefix | tBlSuffix => apply roundTrips_thumb rfl
  all_goals
    simp +decide only [encode_tBcond, encode_tSwi, encode_tPush, encode_tPop, encode_tAddSpImm, encode_tB,
      encode_tBlPrefix, encode_tBlSuffix, *, layout, List.foldl, push_lt, field_push_below, field_push_above,
      field_push_across, field_of_lt, lowReg_lt, reg_high_lt, reg_low_lt, BitVec.isLt, flag_lt, Cond.code_lt,
      Nat.reduceSub, Nat.reduceBEq, Nat.reduceDiv, Nat.reduceMod, decodeThumbNat, decodeThumbAlu, decodeThumbHi,
      decodeThumbRegOffset, decodeThumbMisc, decodeThumbCond, lowRegAt_eq_field, hiRegAt_eq_field, flagAt_eq_field,
      bitsAt_eq_field, ofNat_halves, ofNat_push, toNat_beq_one, Cond.ofCode_code, BitVec.ofNat_toNat,
      Fin.ofNat_val_eq_self, BitVec.setWidth_eq, and_self, if_true, if_false, Bool.false_eq_true]

/-! ## The round trip (30_encoding.md R155 to R182) -/

theorem Instr.width_eq (i : Instr) : i.width = 32 ∨ i.width = 16 := by
  cases i <;> simp only [Instr.width, true_or, or_true]

theorem roundTrips_32 {i : Instr} (hw : i.width = 32) (hwf : i.wellFormed = true) : RoundTrips i := by
  by_cases hdp : i.asDp = none
  case neg => exact roundTrips_dp hdp
  by_cases hl : i.asLoad = none
  case neg => exact roundTrips_transfer (.inl hl)
  by_cases hs : i.asStore = none
  case neg => exact roundTrips_transfer (.inr hs)
  by_cases hb : i.asBlock = none
  case neg => exact roundTrips_block hw hb
  exact roundTrips_other hw hwf hdp hl hs hb

theorem roundTrips {i : Instr} (hwf : i.wellFormed = true) : RoundTrips i :=
  i.width_eq.elim (roundTrips_32 · hwf) (roundTrips_16 · hwf)

/-- Settles O1: the encoder's word is a row of fields, which the decode lists read back. -/
theorem decodeEncode : Obligations.DecodeEncode := by
  unfold Obligations.DecodeEncode
  intro i hwf
  obtain ⟨hw, hlt, hdec⟩ | ⟨hw, hlt, hdec⟩ := roundTrips hwf
  · refine ⟨.inl hw, hw ▸ hlt, fun _ => ?_, fun h => absurd (hw.symm.trans h) (by decide)⟩
    rw [decodeArm, BitVec.toNat_ofNat, Nat.mod_eq_of_lt hlt, hdec]
  · refine ⟨.inr hw, hw ▸ hlt, fun h => absurd (hw.symm.trans h) (by decide), fun _ => ?_⟩
    rw [decodeThumb, BitVec.toNat_ofNat, Nat.mod_eq_of_lt hlt, hdec]

/-! ## The whole spaces (30_encoding.md R163, R165, R167) -/

theorem field_toNat {n : Nat} (w : BitVec n) (lo len : Nat) : field w.toNat lo len = (w.extractLsb' lo len).toNat := by
  rw [BitVec.extractLsb'_toNat, Nat.shiftRight_eq_div_pow, field]

theorem bitsAt_toNat {n : Nat} (w : BitVec n) (lo len : Nat) : bitsAt len w.toNat lo = w.extractLsb' lo len := by
  rw [bitsAt_eq_field, field_toNat, BitVec.ofNat_toNat, BitVec.setWidth_eq]

theorem flagAt_toNat {n : Nat} (w : BitVec n) (lo : Nat) : flagAt w.toNat lo = w.getLsbD lo := by
  rw [flagAt, BitVec.getLsbD, Nat.testBit_eq_decide_div_mod_eq, beq_eq_decide]

theorem field_of_extractLsb' {n lo len v : Nat} {w : BitVec n} (h : w.extractLsb' lo len = BitVec.ofNat len v) :
    field w.toNat lo len = v % 2 ^ len := by
  rw [field_toNat, h, BitVec.toNat_ofNat]

/-- Settles O4: each space is a row of the decode list. -/
theorem wholeSpaces : Obligations.WholeSpaces := by
  unfold Obligations.WholeSpaces
  intro w
  refine ⟨fun h h24 => ?_, fun h h24 => ?_, fun h => ?_, fun h h4 => ?_⟩
  · have hsel : ArmRow.b.selects w.toNat := ⟨field_of_extractLsb' h, by rw [flagAt_toNat, h24]⟩
    rw [decodeArm, ArmRow.b.decodes hsel, ArmRow.instr, bitsAt_toNat, condAt]
  · have hsel : ArmRow.bl.selects w.toNat := ⟨field_of_extractLsb' h, by rw [flagAt_toNat, h24]⟩
    rw [decodeArm, ArmRow.bl.decodes hsel, ArmRow.instr, bitsAt_toNat, condAt]
  · rw [decodeArm, ArmRow.swi.decodes (field_of_extractLsb' h), ArmRow.instr, bitsAt_toNat, condAt]
  · have h4' : flagAt w.toNat 4 = true := by rw [flagAt_toNat, h4]
    rw [decodeArm, ArmRow.und.decodes ⟨field_of_extractLsb' h, beq_iff_eq.1 h4'⟩, ArmRow.instr, bitsAt_toNat, condAt]

/-! ## What the decoders make (30_encoding.md R151, R154, R171, R172) -/

/-- A well-formed ARM instruction with its condition. -/
def Instr.ArmWith (c : Cond) (i : Instr) : Prop := i.wellFormed = true ∧ i.width = 32 ∧ i.armCond = some c

/-- A well-formed THUMB instruction. -/
def Instr.Thumb (i : Instr) : Prop := i.wellFormed = true ∧ i.width = 16 ∧ i.armCond = none

theorem toNat_bitsAt (len w lo : Nat) : (bitsAt len w lo).toNat = field w lo len := BitVec.toNat_ofNat _ _

theorem indexHi_bitsAt (w : Nat) : indexHi (bitsAt 28 w 0) = field w 20 8 := by
  rw [indexHi, toNat_bitsAt, field_field w 0 (by decide)]

theorem indexLo_bitsAt (w : Nat) : indexLo (bitsAt 28 w 0) = field w 4 4 := by
  rw [indexLo, toNat_bitsAt, field_field w 0 (by decide)]

section
variable (c : Cond) (w : Nat)

theorem armWith_decodeMultiply : (decodeMultiply c w).ArmWith c := by
  unfold decodeMultiply; split <;> exact ⟨rfl, rfl, rfl⟩

theorem armWith_decodeDpShImm : (decodeDpShImm c w).ArmWith c := by
  unfold decodeDpShImm; split <;> exact ⟨rfl, rfl, rfl⟩

theorem armWith_decodeDpShReg : (decodeDpShReg c w).ArmWith c := by
  unfold decodeDpShReg; split <;> exact ⟨rfl, rfl, rfl⟩

theorem armWith_decodeDpImm : (decodeDpImm c w).ArmWith c := by
  unfold decodeDpImm; split <;> exact ⟨rfl, rfl, rfl⟩

theorem armWith_decodeTransferImm : (decodeTransferImm c w).ArmWith c := by
  unfold decodeTransferImm; split <;> split <;> exact ⟨rfl, rfl, rfl⟩

theorem armWith_decodeTransferReg : (decodeTransferReg c w).ArmWith c := by
  unfold decodeTransferReg; split <;> split <;> exact ⟨rfl, rfl, rfl⟩

theorem armWith_decodeBlock : (decodeBlock c w).ArmWith c := by
  unfold decodeBlock; split <;> exact ⟨rfl, rfl, rfl⟩

theorem armWith_decodeCoprocessor : (decodeCoprocessor c w).ArmWith c := by
  unfold decodeCoprocessor; split_ifs <;> exact ⟨rfl, rfl, rfl⟩

theorem armWith_decodeHalfword : (decodeHalfword c w).ArmWith c := by
  dsimp only [decodeHalfword]
  split
  case isTrue h => exact ⟨by rwa [Instr.wellFormed, indexHi_bitsAt, indexLo_bitsAt], rfl, rfl⟩
  split
  case isTrue h => exact ⟨by rwa [Instr.wellFormed, indexHi_bitsAt, indexLo_bitsAt], rfl, rfl⟩
  split_ifs <;> exact ⟨rfl, rfl, rfl⟩

end

theorem armWith_ite {p : Prop} [Decidable p] {c : Cond} {i j : Instr} (hi : p → i.ArmWith c)
    (hj : ¬p → j.ArmWith c) : (if p then i else j).ArmWith c := by
  split
  case isTrue h => exact hi h
  case isFalse h => exact hj h

/-- One line for each row of the decode list, in its order. -/
theorem armWith_decodeArmNat (w : Nat) : (decodeArmNat w).ArmWith (condAt w) := by
  unfold decodeArmNat
  refine armWith_ite (fun _ => ⟨rfl, rfl, rfl⟩) fun _ => ?_
  refine armWith_ite (fun _ => armWith_decodeMultiply _ w) fun _ => ?_
  refine armWith_ite (fun _ => ⟨rfl, rfl, rfl⟩) fun _ => ?_
  refine armWith_ite (fun _ => ⟨rfl, rfl, rfl⟩) fun _ => ?_
  refine armWith_ite (fun h => ⟨by rwa [Instr.wellFormed, indexHi_bitsAt, indexLo_bitsAt], rfl, rfl⟩) fun _ => ?_
  refine armWith_ite (fun _ => armWith_decodeHalfword _ w) fun _ => ?_
  refine armWith_ite (fun _ => ⟨rfl, rfl, rfl⟩) fun _ => ?_
  refine armWith_ite (fun _ => ⟨rfl, rfl, rfl⟩) fun _ => ?_
  refine armWith_ite (fun _ => ⟨rfl, rfl, rfl⟩) fun _ => ?_
  refine armWith_ite (fun h => ⟨by rwa [Instr.wellFormed, indexHi_bitsAt, indexLo_bitsAt], rfl, rfl⟩) fun _ => ?_
  refine armWith_ite (fun _ => armWith_ite (fun _ => armWith_decodeDpShImm _ w) fun _ => armWith_decodeDpShReg _ w)
    fun _ => ?_
  refine armWith_ite (fun _ => armWith_decodeDpImm _ w) fun _ => ?_
  refine armWith_ite (fun _ => armWith_decodeTransferImm _ w) fun _ => ?_
  refine armWith_ite (fun h3 => armWith_ite (fun _ => armWith_decodeTransferReg _ w) fun h => ⟨?_, rfl, rfl⟩)
    fun _ => ?_
  · rw [beq_iff_eq, Nat.mod_two_not_eq_zero] at h
    rw [Instr.wellFormed, indexHi_bitsAt, indexLo_bitsAt, isUndefined, h3, h]
    rfl
  refine armWith_ite (fun _ => armWith_decodeBlock _ w) fun _ => ?_
  refine armWith_ite (fun _ => armWith_ite (fun _ => ⟨rfl, rfl, rfl⟩) fun _ => ⟨rfl, rfl, rfl⟩) fun _ => ?_
  exact armWith_ite (fun _ => ⟨rfl, rfl, rfl⟩) fun _ => armWith_decodeCoprocessor _ w

section
variable (w : Nat)

theorem thumb_decodeThumbAlu : (decodeThumbAlu w).Thumb := by
  unfold decodeThumbAlu; split <;> exact ⟨rfl, rfl, rfl⟩

theorem thumb_decodeThumbHi : (decodeThumbHi w).Thumb := by
  unfold decodeThumbHi; split <;> exact ⟨rfl, rfl, rfl⟩

theorem thumb_decodeThumbRegOffset : (decodeThumbRegOffset w).Thumb := by
  unfold decodeThumbRegOffset; split <;> exact ⟨rfl, rfl, rfl⟩

end

theorem Cond.ofCode_ne_of_lt {n : Nat} (h : n < 14) : (Cond.ofCode n != .al && Cond.ofCode n != .nv) = true := by
  revert n; decide

/-- A halfword kept whole, in a space that the decode list leaves. -/
theorem thumb_tUnalloc {w : Nat} (hw : w < 2 ^ 16) (h : isThumbUnalloc w = true) :
    (Instr.tUnalloc (bitsAt 16 w 0)).Thumb := by
  refine ⟨?_, rfl, rfl⟩
  rwa [Instr.wellFormed, toNat_bitsAt, field_of_lt hw]

theorem thumb_decodeThumbMisc {w : Nat} (hw : w < 2 ^ 16) (h : field w 12 4 = 11) : (decodeThumbMisc w).Thumb := by
  unfold decodeThumbMisc
  split; · exact ⟨rfl, rfl, rfl⟩
  split; · exact ⟨rfl, rfl, rfl⟩
  split; · exact ⟨rfl, rfl, rfl⟩
  refine thumb_tUnalloc hw ?_
  simp only [field, isThumbUnalloc, beq_iff_eq, bne_iff_ne, Bool.and_eq_true, Bool.or_eq_true] at *
  omega

theorem thumb_decodeThumbCond {w : Nat} (hw : w < 2 ^ 16) (h : field w 12 4 = 13) : (decodeThumbCond w).Thumb := by
  unfold decodeThumbCond
  split
  case isTrue h14 =>
    refine thumb_tUnalloc hw ?_
    simp only [field, isThumbUnalloc, beq_iff_eq, bne_iff_ne, Bool.and_eq_true, Bool.or_eq_true] at *
    omega
  split; · exact ⟨rfl, rfl, rfl⟩
  refine ⟨Cond.ofCode_ne_of_lt ?_, rfl, rfl⟩
  simp only [field, beq_iff_eq] at *
  omega

/-- The case of the dispatch index `n` is `h_(n+1)`. -/
theorem thumb_decodeThumbNat {w : Nat} (hw : w < 2 ^ 16) : (decodeThumbNat w).Thumb := by
  have h12 : field w 12 4 = field w 11 5 / 2 := by
    rw [← field_field w 11 (a := 1) (n := 4) (len := 5) (by decide), field, pow_one]
    exact Nat.mod_eq_of_lt (Nat.div_lt_of_lt_mul (Nat.mod_lt _ (by decide)))
  unfold decodeThumbNat
  split
  case h_4 => split <;> exact ⟨rfl, rfl, rfl⟩
  case h_9 => split; exacts [thumb_decodeThumbHi w, thumb_decodeThumbAlu w]
  case h_11 | h_12 => exact thumb_decodeThumbRegOffset w
  case h_23 h | h_24 h => exact thumb_decodeThumbMisc hw (by rw [h12, h])
  case h_27 h | h_28 h => exact thumb_decodeThumbCond hw (by rw [h12, h])
  case h_30 h =>
    refine thumb_tUnalloc hw ?_
    simp only [field] at h
    simp only [isThumbUnalloc, beq_iff_eq, bne_iff_ne, Bool.and_eq_true, Bool.or_eq_true]
    omega
  all_goals exact ⟨rfl, rfl, rfl⟩

/-- Settles O2: every row of the two decode lists makes a well-formed instruction of its own set. -/
theorem decodedWellFormed : Obligations.DecodedWellFormed := by
  unfold Obligations.DecodedWellFormed
  exact ⟨fun w => armWith_decodeArmNat w.toNat, fun h => thumb_decodeThumbNat h.isLt⟩

end Sys2Proof

namespace Sys2Proof.Machine
open Sys2Proof

/-! ## Arithmetic and the conditions after a comparison (40_arm_dataproc.md R200, R211 to R213, R236) -/

/-- Settles O12: `AluOp.apply_eq`, which takes addition and subtraction by the complement to the integers. -/
theorem aluMatchesIntegers : Obligations.AluMatchesIntegers := by
  unfold Obligations.AluMatchesIntegers
  exact AluOp.apply_eq

theorem getLsbD_31_eq_decide (w : Word) : w.getLsbD 31 = decide (w.toInt < 0) := by
  rw [← BitVec.msb_eq_toInt]; rfl

/-- After a subtraction N equals V exactly when the first operand is not the lesser: where the difference does not fit,
it wraps to the other sign. -/
theorem negative_beq_overflow (a b : Word) :
    ((a - b).getLsbD 31 == outOfRange (a.toInt - b.toInt)) = decide (b.toInt ≤ a.toInt) := by
  have ha := a.toInt_lt; have hb := b.toInt_lt; have ha' := a.le_toInt; have hb' := b.le_toInt
  rw [getLsbD_31_eq_decide, BitVec.toInt_sub, Int.bmod_def, outOfRange, ← Bool.decide_or, Bool.eq_iff_iff, beq_iff_eq,
    decide_eq_decide, decide_eq_true_iff]
  split <;> omega

theorem sub_beq_zero (a b : Word) : (a - b == 0) = decide (a = b) := by
  rw [Bool.eq_iff_iff, beq_iff_eq, decide_eq_true_iff]; exact sub_eq_zero

/-- Settles O13: Z, C and the agreement of N and V are comparisons of the operands. -/
theorem compareOrders : Obligations.CompareOrders := by
  unfold Obligations.CompareOrders
  intro a b shc p
  have hint : a = b ↔ a.toInt = b.toInt := BitVec.toInt_inj.symm
  have hnat : a = b ↔ a.toNat = b.toNat := BitVec.toNat_inj.symm
  simp only [AluOp.apply_eq, AluOp.result, AluOp.carry, AluOp.overflow, condPassed, sub_beq_zero,
    negative_beq_overflow, Bool.and_eq_true, Bool.not_eq_true', decide_eq_true_iff, decide_eq_false_iff_not]
  refine ⟨trivial, trivial, ?_, trivial, ?_⟩
  · rw [hnat]; omega
  · rw [hint]; omega

end Sys2Proof.Machine

namespace Sys2Proof.Machine
open Sys2Proof

/-! ## The barrel shifter (40_arm_dataproc.md R206 to R209) -/

section
variable (v : Word) (n : Nat) (c : Bool)

/-- The value of LSL is the shift of the word by the whole amount. -/
theorem lslC_value : (lslC v n c).1 = v <<< n := by
  unfold lslC
  split_ifs with h0 h31 h32
  · rw [h0, BitVec.shiftLeft_zero]
  · rfl
  · exact (BitVec.shiftLeft_eq_zero (by omega)).symm
  · exact (BitVec.shiftLeft_eq_zero (by omega)).symm

theorem lslC_carry : (lslC v n c).2 = if n = 0 then c else decide (n ≤ 32) && v.getLsbD (32 - n) := by
  unfold lslC
  split_ifs with h0 h31 h32
  · rfl
  · rw [decide_eq_true (by omega), Bool.true_and]
  · rw [h32]; rfl
  · rw [decide_eq_false (by omega), Bool.false_and]

theorem lsrC_value : (lsrC v n c).1 = v >>> n := by
  unfold lsrC
  split_ifs with h0 h31 h32
  · rw [h0, BitVec.ushiftRight_zero]
  · rfl
  · exact (BitVec.ushiftRight_eq_zero (by omega)).symm
  · exact (BitVec.ushiftRight_eq_zero (by omega)).symm

theorem lsrC_carry : (lsrC v n c).2 = if n = 0 then c else v.getLsbD (n - 1) := by
  unfold lsrC
  split_ifs with h0 h31 h32
  · rfl
  · rfl
  · rw [h32]
  · exact (BitVec.getLsbD_of_ge v _ (by omega)).symm

theorem getLsbD_asrC {k : Nat} (hk : k < 32) : (asrC v n c).1.getLsbD k = v.getLsbD (min (k + n) 31) := by
  unfold asrC
  split_ifs with h0 h31 hs
  · rw [h0, Nat.add_zero, Nat.min_eq_left (by omega)]
  · rw [BitVec.getLsbD_sshiftRight, decide_eq_false (by omega), Bool.not_false, Bool.true_and]
    split
    · rw [Nat.min_eq_left (by omega), Nat.add_comm]
    · rw [Nat.min_eq_right (by omega)]; rfl
  · have hones : (0xFFFFFFFF : Word) = BitVec.allOnes 32 := rfl
    rw [Nat.min_eq_right (by omega), hs, hones, BitVec.getLsbD_allOnes, decide_eq_true hk]
  · rw [Nat.min_eq_right (by omega), Bool.eq_false_iff.2 hs]
    exact BitVec.getLsbD_zero

theorem asrC_carry : (asrC v n c).2 = if n = 0 then c else v.getLsbD (min (n - 1) 31) := by
  unfold asrC
  split_ifs with h0 h31
  · rfl
  · rw [Nat.min_eq_left (by omega)]
  · rw [Nat.min_eq_right (by omega)]
  · rw [Nat.min_eq_right (by omega)]

/-- A bit of a rotated word comes from `n` places up, around the end. -/
theorem getLsbD_rotateRight_word {k : Nat} (hk : k < 32) : (v.rotateRight n).getLsbD k = v.getLsbD ((k + n) % 32) := by
  rw [BitVec.getLsbD_rotateRight, Bool.cond_decide]
  split
  · congr 1; omega
  · rw [decide_eq_true hk, Bool.true_and]; congr 1; omega

theorem rorC_value : (rorC v n c).1 = v.rotateRight n := by
  unfold rorC
  split_ifs with h0 h32
  · rw [h0, rotateRight_zero]
  · rw [← BitVec.rotateRight_mod_eq_rotateRight, h32, rotateRight_zero]
  · exact BitVec.rotateRight_mod_eq_rotateRight

theorem rorC_carry : (rorC v n c).2 = if n = 0 then c else v.getLsbD ((n - 1) % 32) := by
  unfold rorC
  split_ifs with h0 h32
  · rfl
  · rw [show (n - 1) % 32 = 31 by omega]
  · rw [show (n - 1) % 32 = n % 32 - 1 by omega]

theorem getLsbD_rrxC {k : Nat} (hk : k < 31) : (rrxC v c).1.getLsbD k = v.getLsbD (k + 1) := by
  rw [rrxC, BitVec.getLsbD_append, if_pos hk, BitVec.getLsbD_extractLsb', decide_eq_true hk, Bool.true_and,
    Nat.add_comm]

theorem getLsbD_rrxC_top : (rrxC v c).1.getLsbD 31 = c := by
  rw [rrxC, BitVec.getLsbD_append, if_neg (lt_irrefl 31), getLsbD_bit]; rfl

end

/-- Settles O14: each value is a shift or a rotation of the word, by a lemma for each type, and so is each carry. -/
theorem shifterBits : Obligations.ShifterBits := by
  unfold Obligations.ShifterBits
  intro v n c
  refine ⟨fun k hk => ?_, lslC_carry v n c, fun k hk => ?_, lsrC_carry v n c, fun k hk => getLsbD_asrC v n c hk,
    asrC_carry v n c, fun k hk => ?_, rorC_carry v n c, fun k hk => getLsbD_rrxC v c hk, getLsbD_rrxC_top v c, rfl⟩
  · rw [lslC_value, BitVec.getLsbD_shiftLeft, decide_eq_true hk, Bool.true_and, ← decide_not, decide_eq_decide.2 not_lt]
  · rw [lsrC_value, BitVec.getLsbD_ushiftRight, Nat.add_comm]
  · rw [rorC_value, getLsbD_rotateRight_word v n hk]

theorem getLsbD_rotatedImm (rot : BitVec 4) (imm : BitVec 8) {k : Nat} (hk : k < 32) :
    (rotatedImm rot imm).getLsbD k = imm.getLsbD ((k + 2 * rot.toNat) % 32) := by
  rw [rotatedImm, getLsbD_rotateRight_word _ _ hk, BitVec.zeroExtend, BitVec.getLsbD_setWidth,
    decide_eq_true (Nat.mod_lt _ (by decide)), Bool.true_and]

/-- An immediate amount other than 0 is the amount itself (40_arm_dataproc.md R205). -/
theorem shiftByImm_of_ne_zero {n : BitVec 5} (h : n ≠ 0) (sh : ShiftType) (v : Word) (c : Bool) :
    shiftByImm sh v n c = shiftBy sh v n.toNat c := by
  cases sh with
  | lsl => rfl
  | lsr | asr | ror => simp only [shiftByImm, shiftBy, h, if_false]

/-- Settles O15: the rotation bit by bit, and the amount 0 of each type by its row in `shiftByImm`. -/
theorem immediateOperands : Obligations.ImmediateOperands := by
  unfold Obligations.ImmediateOperands
  exact ⟨fun rot imm c => ⟨fun k hk => getLsbD_rotatedImm rot imm hk, rfl⟩,
    fun v n c => ⟨fun h sh => shiftByImm_of_ne_zero h sh v c, rfl, rfl, rfl, rfl⟩⟩

end Sys2Proof.Machine

namespace Sys2Proof.Machine
open Sys2Proof

/-! ## The tests of data processing (40_arm_dataproc.md R216) -/

section
variable {s t : State}

theorem keeps_setAluFlags (hc : t.cpu = { s.cpu with ubankHazard := false }) (o : AluOut) :
    Keeps [] s (t.setAluFlags o) where
  regs j _ := by rw [State.setAluFlags_regs, hc]
  mode := by rw [State.setAluFlags_cpsr, hc]
  thumb := by rw [State.setAluFlags_cpsr, hc]
  masks := by rw [State.setAluFlags_cpsr, hc]; exact ⟨rfl, rfl⟩
  spsrs m := by cases m <;> simp [Cpu.spsr, hc]

theorem advanced_setAluFlags (hc : t.cpu = { s.cpu with ubankHazard := false }) (o : AluOut) :
    Advanced s.cpu.fetchType s (t.setAluFlags o).advancePc where
  pc := by simp [Cpu.w, hc]
  fetch := by rw [State.advancePc_fetchType, State.setAluFlags_fetchType, hc]
  pipeline := by simp [hc]
  hazard := by simp [hc]

end

/-- Settles O17: the result of a test goes to the flags alone. -/
theorem dpTestsSetFlags : Obligations.DpTestsSetFlags := by
  unfold Obligations.DpTestsSetFlags
  intro i s p h he htest hrd hrs a b
  have hend : exec i s = .next ((p.o.time (s.setHazard false)).setAluFlags (dpResult p.op p.rn p.o s)).advancePc := by
    rw [exec_dp_finishes h he (fun _ => hrd) hrs, dpFinish, if_pos htest]
  rw [dpResult_eq] at hend
  have hc : (p.o.time (s.setHazard false)).cpu = { s.cpu with ubankHazard := false } := Operand2.time_cpu _ _
  refine ⟨_, hend, flagsOf_setAluFlags _ ⟨_, _, _⟩, (keeps_setAluFlags hc _).advancePc, fun _ _ => ?_,
    advanced_setAluFlags hc _, ?_⟩
  · rw [State.advancePc_mem, State.setAluFlags_mem, Operand2.time_mem]; rfl
  · rw [State.advancePc_dev, State.setAluFlags_dev, Operand2.time_dev]; rfl

/-! ## What an exception return can do (40_arm_dataproc.md R210, 60_exceptions.md R512) -/

theorem Cpu.spsr_of_userMode {c : Cpu} {m : Mode} (h : m = .usr ∨ m = .sys) : c.spsr m = none := by
  obtain rfl | rfl := h <;> rfl

theorem Cpu.noSpsr_of_userMode {c : Cpu} (h : c.cpsr.mode = .usr ∨ c.cpsr.mode = .sys) : c.noSpsr = true := by
  rw [Cpu.noSpsr, Cpu.spsr_of_userMode h]; rfl

section
variable {s : State} (target : Word)

theorem State.exceptionReturn_noSpsr (h : s.cpu.spsr s.cpu.cpsr.mode = none) :
    s.exceptionReturn target = .refused .noSpsr := by
  rw [State.exceptionReturn, State.restoreCpsr, h]; rfl

theorem State.exceptionReturn_invalidMode {q : Spsr} (h : s.cpu.spsr s.cpu.cpsr.mode = some q)
    (hq : Mode.ofCode q.m = none) : s.exceptionReturn target = .refused .invalidMode := by
  rw [State.exceptionReturn, State.restoreCpsr, h]
  simp only [hq]
  rfl

theorem State.exceptionReturn_next {q : Spsr} {m : Mode} (h : s.cpu.spsr s.cpu.cpsr.mode = some q)
    (hq : Mode.ofCode q.m = some m) :
    s.exceptionReturn target = .next ((s.setCpsr (q.restore m)).branchTo target) := by
  rw [State.exceptionReturn, State.restoreCpsr, h]
  simp only [hq]
  rfl

end

/-- Settles O19: the instruction ends with `exceptionReturn` at its result. -/
theorem dpReturns : Obligations.DpReturns := by
  unfold Obligations.DpReturns
  intro i s p h he htest hrd hsf hrs
  have hend : exec i s = (p.o.time (s.setHazard false)).exceptionReturn (dpResult p.op p.rn p.o s).r := by
    rw [exec_dp_finishes h he (by simp [htest]) hrs]
    simp only [dpFinish, htest, hrd, hsf, if_true, if_false, Bool.false_eq_true]
  have hc : (p.o.time (s.setHazard false)).cpu = { s.cpu with ubankHazard := false } := Operand2.time_cpu _ _
  have hspsr (k : Mode) : (p.o.time (s.setHazard false)).cpu.spsr k = s.cpu.spsr k := by rw [hc]; cases k <;> rfl
  have hmode : (p.o.time (s.setHazard false)).cpu.cpsr.mode = s.cpu.cpsr.mode := by rw [hc]
  rw [hend]
  refine ⟨fun hm => ?_, fun q hq => ⟨fun hnone => ?_, fun m hm =>
    ⟨_, State.exceptionReturn_next _ (by rwa [hmode, hspsr]) hm, State.branchTo_cpsr _ _, ?_, fun k => ?_, ?_⟩⟩⟩
  · exact State.exceptionReturn_noSpsr _ (Cpu.spsr_of_userMode (by rwa [hmode]))
  · exact State.exceptionReturn_invalidMode _ (by rwa [hmode, hspsr]) hnone
  · rw [State.branchTo_regs, State.setCpsr_regs, hc]
  · rw [State.branchTo_spsr]; exact hspsr k
  · have hflush := State.branchTo_flushed (s := (p.o.time (s.setHazard false)).setCpsr (q.restore m))
      (dpResult p.op p.rn p.o s).r (by rw [State.setCpsr_ubankHazard, hc])
    rw [State.setCpsr_dev, State.setCpsr_mem, Operand2.time_dev, Operand2.time_mem, dpResult_eq] at hflush
    rw [dpResult_eq]
    exact hflush

end Sys2Proof.Machine

namespace Sys2Proof.Machine
open Sys2Proof

/-! ## Condition-failed instructions (40_arm_dataproc.md R201, R202) -/

theorem armInstr_skips {c : Cond} {uses : List Reg} {body : State → Res State} {s : State}
    (h : condPassed s.cpu.cpsr c = false) : armInstr c uses body s = .next s.skip := by
  rw [armInstr, h]; rfl

/-- Every ARM instruction looks at its condition first; a THUMB instruction has none. -/
theorem exec_skips {i : Instr} {s : State} {c : Cond} (hc : i.armCond = some c)
    (h : condPassed s.cpu.cpsr c = false) : exec i s = .next s.skip := by
  cases i <;> cases hc <;> exact armInstr_skips h

/-- Settles O20: NV is a condition that fails in every state, so both cases skip. -/
theorem conditionFailed : Obligations.ConditionFailed := by
  unfold Obligations.ConditionFailed
  intro i s c hc h
  obtain h | rfl := h
  · exact exec_skips hc h
  · exact exec_skips hc rfl

end Sys2Proof.Machine

namespace Sys2Proof.Machine
open Sys2Proof

/-! ## The refused operand combinations (40_arm_dataproc.md R204, R216, 41_arm_multiply.md R263, 42_arm_loadstore.md) -/

theorem refuseIf_of_true {b : Bool} (h : b = true) (e : Refusal) (r : Res State) : refuseIf b e r = .refused e :=
  if_pos h

/-- When the address of a single transfer is refused (42_arm_loadstore.md R281, R293). -/
theorem addressRefused_iff (ix : Indexing) (rn : Reg) (o : Offset) : addressRefused ix rn o = true ↔
    (o = .reg pcReg ∨ ∃ n sh, o = .shReg n sh pcReg) ∨ ((ix = .pre ∨ ix = .post) ∧ rn = pcReg) := by
  have ho : o.namesPc = true ↔ o = .reg pcReg ∨ ∃ n sh, o = .shReg n sh pcReg := by
    cases o <;> simp [Offset.namesPc, Offset.uses, eq_comm]
  have hw : writesBack ix = true ↔ ix = .pre ∨ ix = .post := by cases ix <;> decide
  rw [addressRefused, Bool.or_eq_true, Bool.and_eq_true, ho, hw, beq_iff_eq]

/-- Only a word transfer may name r15 as Rd (R283, R286, R293). -/
theorem LoadKind.allowsPc_eq_false {k : LoadKind} (h : k ≠ .word) : k.allowsPc = false := by
  revert h; cases k <;> decide

theorem StoreKind.allowsPc_eq_false {k : StoreKind} (h : k ≠ .word) : k.allowsPc = false := by
  revert h; cases k <;> decide

/-- The refusal of a single transfer, by its address or by its Rd. -/
theorem transferRefused_of {ix : Indexing} {rn rd : Reg} {o : Offset} {allows : Bool}
    (h : addressRefused ix rn o = true ∨ (rd = pcReg ∧ allows = false)) :
    (addressRefused ix rn o || (rd == pcReg && !allows)) = true := by
  rw [Bool.or_eq_true]
  exact h.imp_right fun ⟨hrd, ha⟩ => by rw [hrd, ha]; rfl

section
variable {i : Instr} {s : State} (he : i.Executes s)
include he

theorem exec_dp_refused {p : DpParts} (h : i.asDp = some p)
    (hp : (p.op.isTest = true ∧ p.rd = pcReg) ∨ ∃ sh rm, p.o = .shReg pcReg sh rm) :
    exec i s = .refused .unpredictable := by
  have hr : dpRefused p.op p.rd p.o = true := by
    obtain ⟨ht, hrd⟩ | ⟨sh, rm, ho⟩ := hp
    · simp [dpRefused, ht, hrd]
    · simp [dpRefused, ho]
  rw [exec_asDp h he, dpExecute]
  exact refuseIf_of_true hr _ _

theorem exec_mul_refused {p : MulParts} (h : i.asMul = some p)
    (hp : p.rd = pcReg ∨ p.rs = pcReg ∨ p.rm = pcReg ∨ p.acc = some pcReg) : exec i s = .refused .unpredictable := by
  rw [exec_asMul h he]
  refine refuseIf_of_true ?_ _ _
  obtain hp | hp | hp | hp := hp <;> simp [hp]

theorem exec_long_refused {p : LongParts} (h : i.asLong = some p)
    (hp : p.rdHi = pcReg ∨ p.rdLo = pcReg ∨ p.rs = pcReg ∨ p.rm = pcReg ∨ p.rdHi = p.rdLo) :
    exec i s = .refused .unpredictable := by
  rw [exec_asLong h he]
  refine refuseIf_of_true ?_ _ _
  obtain hp | hp | hp | hp | hp := hp <;> simp [hp]

theorem exec_load_refused {p : LoadParts} (h : i.asLoad = some p)
    (hp : addressRefused p.ix p.rn p.o = true ∨ (p.rd = pcReg ∧ p.kind ≠ .word)) :
    exec i s = .refused .unpredictable := by
  rw [exec_asLoad h he]
  exact refuseIf_of_true (transferRefused_of (hp.imp_right (And.imp_right LoadKind.allowsPc_eq_false))) _ _

theorem exec_store_refused {p : StoreParts} (h : i.asStore = some p)
    (hp : addressRefused p.ix p.rn p.o = true ∨ (p.rd = pcReg ∧ p.kind ≠ .word)) :
    exec i s = .refused .unpredictable := by
  rw [exec_asStore h he]
  exact refuseIf_of_true (transferRefused_of (hp.imp_right (And.imp_right StoreKind.allowsPc_eq_false))) _ _

theorem exec_swap_refused {c : Cond} {rn rd rm : Reg} (h : i = .swp c rn rd rm ∨ i = .swpb c rn rd rm)
    (hp : rn = pcReg ∨ rd = pcReg ∨ rm = pcReg) : exec i s = .refused .unpredictable := by
  have hpc : [rn, rd, rm].contains pcReg = true := by obtain hp | hp | hp := hp <;> simp [hp]
  obtain rfl | rfl := h
  · exact (armInstr_runs _ he rfl rfl).trans (refuseIf_of_true hpc _ _)
  · exact (armInstr_runs _ he rfl rfl).trans (refuseIf_of_true hpc _ _)

/-- A base that is r15 (R305); the base of a THUMB block transfer never is. -/
theorem exec_block_base_refused {p : BlockParts} (h : i.asBlock = some p) (hp : p.rn = pcReg) :
    exec i s = .refused .unpredictable := by
  have hsp : spReg ≠ pcReg := by decide
  have hlow : ∀ r : LowReg, r.toReg ≠ pcReg := by decide
  cases i <;> simp only [Instr.asBlock, reduceCtorEq, Option.some.injEq] at h
  case tPush | tPop => subst h; exact absurd hp hsp
  case tStmia | tLdmia => subst h; exact absurd hp (hlow _)
  all_goals
    subst h
    obtain rfl : _ = pcReg := hp
    exact armInstr_runs _ he rfl rfl

/-- A store of User registers with write-back, or in a mode that has no SPSR (R312). -/
theorem exec_stmUser_refused {p : BlockParts} (h : i.asBlock = some p) (hl : p.load = false) (hu : p.user = true)
    (hp : p.wb = true ∨ s.cpu.cpsr.mode = .usr ∨ s.cpu.cpsr.mode = .sys) : exec i s = .refused .unpredictable := by
  by_cases hrn : p.rn = pcReg
  · exact exec_block_base_refused he h hrn
  · rw [exec_asBlock h he hrn, blockBody, if_pos hu, hl]
    refine refuseIf_of_true ?_ _ _
    obtain hwb | hm := hp
    · rw [hwb]; rfl
    · have hno := Cpu.noSpsr_of_userMode (c := (s.setHazard false).cpu) hm
      rw [hno, Bool.or_true]; rfl

end

/-- Settles O40: one lemma for each shape of instruction, whose body begins with the refusal. -/
theorem unpredictableRefused : Obligations.UnpredictableRefused := by
  unfold Obligations.UnpredictableRefused
  refine ⟨addressRefused_iff, fun i s he => ?_⟩
  rintro (⟨p, h, hp⟩ | ⟨p, h, hp⟩ | ⟨p, h, hp⟩ | ⟨p, h, hp⟩ | ⟨p, h, hp⟩ | ⟨c, rn, rd, rm, h, hp⟩ | ⟨p, h, hp⟩ |
    ⟨p, h, hl, hu, hp⟩ | ⟨c, b, rfl⟩ | ⟨c, b, mask, rfl⟩)
  · exact exec_dp_refused he h hp
  · exact exec_mul_refused he h hp
  · exact exec_long_refused he h hp
  · exact exec_load_refused he h hp
  · exact exec_store_refused he h hp
  · exact exec_swap_refused he h hp
  · exact exec_block_base_refused he h hp
  · exact exec_stmUser_refused he h hl hu hp
  · exact armInstr_runs _ he rfl rfl
  · exact armInstr_runs _ he rfl rfl

end Sys2Proof.Machine

namespace Sys2Proof

/-! ## The words of the examples -/

theorem decodeArm_eq_of_encode {i : Instr} (hwf : i.wellFormed = true) (hw : i.width = 32) {w : Word}
    (h : BitVec.ofNat 32 (encode i) = w) : decodeArm w = i := by
  subst h
  obtain ⟨-, -, hdec, -⟩ := decodeEncode i hwf
  exact hdec hw

theorem decodeThumb_eq_of_encode {i : Instr} (hwf : i.wellFormed = true) (hw : i.width = 16) {w : Half}
    (h : BitVec.ofNat 16 (encode i) = w) : decodeThumb w = i := by
  subst h
  obtain ⟨-, -, -, hdec⟩ := decodeEncode i hwf
  exact hdec hw

/-- Settles O3: each word is the encoding of its instruction, and decoding gives that back (`decodeEncode`). -/
theorem exampleWords : Obligations.ExampleWords := by
  unfold Obligations.ExampleWords
  exact ⟨decodeArm_eq_of_encode rfl rfl rfl, decodeArm_eq_of_encode rfl rfl rfl, decodeArm_eq_of_encode rfl rfl rfl,
    decodeArm_eq_of_encode rfl rfl rfl, decodeArm_eq_of_encode rfl rfl rfl, decodeArm_eq_of_encode rfl rfl rfl,
    decodeArm_eq_of_encode rfl rfl rfl, decodeThumb_eq_of_encode rfl rfl rfl, decodeThumb_eq_of_encode rfl rfl rfl,
    decodeThumb_eq_of_encode rfl rfl rfl, decodeThumb_eq_of_encode rfl rfl rfl, decodeThumb_eq_of_encode rfl rfl rfl⟩

end Sys2Proof

namespace Sys2Proof.Machine
open Sys2Proof

/-! ## How long a multiply takes (41_arm_multiply.md R260) -/

section
variable {k l : Nat} (v : Word) (h : k + l = 32)
include h

/-- The bits of a word from `k` up are all clear if the word is below `2 ^ k`. -/
theorem extractLsb'_top_eq_zero_iff : v.extractLsb' k l = 0 ↔ v.toNat < 2 ^ k := by
  have hv : v.toNat / 2 ^ k < 2 ^ l := Nat.div_lt_of_lt_mul (by rw [← pow_add, h]; exact v.isLt)
  rw [← BitVec.toNat_inj, BitVec.extractLsb'_toNat, Nat.shiftRight_eq_div_pow, Nat.mod_eq_of_lt hv]
  exact Nat.div_eq_zero_iff_lt (Nat.two_pow_pos k)

theorem extractLsb'_top_not : (~~~v).extractLsb' k l = ~~~(v.extractLsb' k l) := by
  apply BitVec.eq_of_getLsbD_eq
  intro j hj
  have hkj : k + j < 32 := by omega
  simp [hj, hkj]

/-- They are all set if the word is negative and not below `-2 ^ k`: the complement is below `2 ^ k`. -/
theorem extractLsb'_top_eq_allOnes_iff (hl : 0 < l) :
    v.extractLsb' k l = BitVec.allOnes l ↔ -2 ^ k ≤ v.toInt ∧ v.toInt < 0 := by
  have hk : 2 ^ k ≤ 2 ^ 31 := Nat.pow_le_pow_right (by decide) (by omega)
  have hcast : (2 ^ k : Int) = (2 ^ k : Nat) := by norm_cast
  have hv := v.isLt
  calc v.extractLsb' k l = BitVec.allOnes l
      ↔ (~~~v).extractLsb' k l = 0 := by
        rw [extractLsb'_top_not v h, BitVec.not_eq_comm, BitVec.ofNat_eq_ofNat, BitVec.not_zero]
    _ ↔ (~~~v).toNat < 2 ^ k := extractLsb'_top_eq_zero_iff _ h
    _ ↔ -2 ^ k ≤ v.toInt ∧ v.toInt < 0 := by
        rw [BitVec.toNat_not, BitVec.toInt_eq_toNat_cond, hcast]
        split <;> omega

theorem extractLsb'_top_iff (hl : 0 < l) (signed : Bool) :
    (v.extractLsb' k l = 0 || (signed && v.extractLsb' k l = BitVec.allOnes l)) = true ↔
      v.toNat < 2 ^ k ∨ (signed = true ∧ -2 ^ k ≤ v.toInt ∧ v.toInt < 0) := by
  rw [Bool.or_eq_true, Bool.and_eq_true, decide_eq_true_iff, decide_eq_true_iff, extractLsb'_top_eq_zero_iff v h,
    extractLsb'_top_eq_allOnes_iff v h hl]

end

/-- The internal cycles by the size of the multiplier. -/
theorem mulCycles_eq (v : Word) (signed : Bool) : mulCycles v signed =
    if v.toNat < 2 ^ 8 ∨ (signed = true ∧ -2 ^ 8 ≤ v.toInt ∧ v.toInt < 0) then 1
    else if v.toNat < 2 ^ 16 ∨ (signed = true ∧ -2 ^ 16 ≤ v.toInt ∧ v.toInt < 0) then 2
    else if v.toNat < 2 ^ 24 ∨ (signed = true ∧ -2 ^ 24 ≤ v.toInt ∧ v.toInt < 0) then 3 else 4 :=
  if_congr (extractLsb'_top_iff v rfl (by decide) signed) rfl <|
    if_congr (extractLsb'_top_iff v rfl (by decide) signed) rfl <|
      if_congr (extractLsb'_top_iff v rfl (by decide) signed) rfl rfl

/-! ## The end of a multiply (41_arm_multiply.md R263) -/

/-- `u` is `t` but for N, Z, C and V and the free values drawn for them. -/
structure FlagsOnly (t u : State) : Prop where
  cpu : u.cpu = { t.cpu with cpsr := { t.cpu.cpsr with
    n := u.cpu.cpsr.n, z := u.cpu.cpsr.z, c := u.cpu.cpsr.c, v := u.cpu.cpsr.v } }
  mem : u.mem = t.mem
  dev : u.dev = t.dev

section
variable {s t u : State}

theorem FlagsOnly.ite (sf : Bool) (h : FlagsOnly t u) : FlagsOnly t (if sf then u else t) := by
  cases sf
  · exact ⟨rfl, rfl, rfl⟩
  · exact h

theorem flagsOnly_setMulFlags (t : State) (r : Word) : FlagsOnly t (t.setMulFlags r) := ⟨rfl, rfl, rfl⟩

theorem flagsOnly_setMulLongFlags (t : State) (p : BitVec 64) : FlagsOnly t (t.setMulLongFlags p) := ⟨rfl, rfl, rfl⟩

theorem FlagsOnly.x (h : FlagsOnly t u) (i : Reg) : u.x i = t.x i := by
  unfold State.x; rw [h.cpu]; rfl

theorem FlagsOnly.keeps {l : List (Fin 30)} (h : FlagsOnly t u) (hk : Keeps l s t) : Keeps l s u where
  regs j hj := by rw [h.cpu]; exact hk.regs j hj
  mode := by rw [h.cpu]; exact hk.mode
  thumb := by rw [h.cpu]; exact hk.thumb
  masks := by rw [h.cpu]; exact hk.masks
  spsrs m := by rw [h.cpu]; exact hk.spsrs m

theorem FlagsOnly.advanced {acc : AccessClass} (h : FlagsOnly t u) (ha : Advanced acc s t.advancePc) :
    Advanced acc s u.advancePc where
  pc := by rw [State.advancePc_pc, h.cpu]; exact ha.pc
  fetch := by rw [State.advancePc_fetchType, h.cpu]; exact ha.fetch
  pipeline := by rw [State.advancePc_executing, State.advancePc_decoding, h.cpu]; exact ha.pipeline
  hazard := by rw [State.advancePc_ubankHazard, h.cpu]; exact ha.hazard

/-- A second register write keeps what the first kept, but for its own register. -/
theorem Keeps.setX {l : List (Fin 30)} (h : Keeps l s t) (rd : Reg) (v : Word) :
    Keeps (s.place rd :: l) s (t.setX rd v) where
  regs j hj := by
    obtain ⟨hne, hj⟩ := not_or.1 (mt List.mem_cons.2 hj)
    rw [State.setX_regs_get_ne _ _ _ _ (by rwa [h.mode]), h.regs j hj]
  mode := by rw [State.setX_cpsr, h.mode]
  thumb := by rw [State.setX_cpsr, h.thumb]
  masks := by rw [State.setX_cpsr]; exact h.masks
  spsrs m := by rw [State.setX_spsr, h.spsrs]

theorem KeepsFlags.setX (h : KeepsFlags s t) (rd : Reg) (v : Word) : KeepsFlags s (t.setX rd v) := by
  constructor <;> rw [State.setX_cpsr]
  exacts [h.n, h.z, h.c, h.v]

theorem Advanced.setX {acc : AccessClass} (h : Advanced acc s t.advancePc) (rd : Reg) (v : Word) :
    Advanced acc s (t.setX rd v).advancePc where
  pc := by rw [State.advancePc_pc, State.setX_pc, State.setX_w]; exact h.pc
  fetch := by rw [State.advancePc_fetchType, State.setX_fetchType]; exact h.fetch
  pipeline := by
    rw [State.advancePc_executing, State.advancePc_decoding, State.setX_executing, State.setX_decoding]
    exact h.pipeline
  hazard := by rw [State.advancePc_ubankHazard, State.setX_ubankHazard]; exact h.hazard

end

/-- The devices do not see the hazard. -/
theorem State.idles_setHazard_dev (n : Nat) (s : State) (b : Bool) :
    ((s.setHazard b).idles n).dev = (s.idles n).dev := by
  induction n generalizing s with
  | zero => rfl
  | succ n ih => exact ih s.idle

theorem refuseIf_of_false {b : Bool} (h : b = false) (e : Refusal) (r : Res State) : refuseIf b e r = r := by
  rw [h]; rfl

/-- A 32-bit multiply that names no r15 is not refused. -/
theorem exec_mul_finishes {i : Instr} {s : State} {p : MulParts} (h : i.asMul = some p) (he : i.Executes s)
    (hrd : p.rd ≠ pcReg) (hrs : p.rs ≠ pcReg) (hrm : p.rm ≠ pcReg) (hacc : p.acc ≠ some pcReg) : exec i s = .next
      (mulFinish (mulCycles (s.x p.rs) true + if p.acc.isSome then 1 else 0) p.sf p.rd
        (s.x p.rm * s.x p.rs + match p.acc with | some rn => s.x rn | none => 0) (s.setHazard false)) := by
  have hpc : (p.rd :: (p.acc.toList ++ [p.rs, p.rm])).contains pcReg = false := by
    simp [hrd.symm, hrs.symm, hrm.symm, hacc]
  rw [exec_asMul h he]
  exact refuseIf_of_false hpc _ _

/-- Settles O22: the product goes to Rd, and the flags come after it. -/
theorem multiplyWrites : Obligations.MultiplyWrites := by
  unfold Obligations.MultiplyWrites
  refine ⟨mulCycles_eq, ?_⟩
  intro i s p h he hrd hrs hrm hacc r
  have hend : exec i s = .next (mulFinish _ p.sf p.rd r _) := exec_mul_finishes h he hrd hrs hrm hacc
  clear_value r
  refine ⟨_, hend, ?_⟩
  generalize (mulCycles (s.x p.rs) true + if p.acc.isSome then 1 else 0) = n
  have hc : ((s.setHazard false).idles n).cpu = { s.cpu with ubankHazard := false } := State.idles_cpu _ _
  have hf := (flagsOnly_setMulFlags (((s.setHazard false).idles n).setX p.rd r) r).ite p.sf
  refine ⟨?_, fun hsf => ?_, fun hsf => ?_, (hf.keeps (keeps_setX hc _ _)).advancePc, fun _ _ => ?_,
    hf.advanced (advanced_setX hc _ _), ?_⟩
  · exact (State.advancePc_x _ hrd).trans ((hf.x _).trans (State.setX_x_same _ _ hrd))
  · rw [mulFinish, hsf, if_pos rfl]
    exact ⟨rfl, beq_iff_eq, by rw [State.advancePc_cpsr]; exact (keepsFlags_setX hc p.rd r).v⟩
  · rw [mulFinish, hsf]; exact (keepsFlags_setX hc _ _).advancePc
  · exact congrArg (Memory.read · _) (hf.mem.trans (State.idles_mem _ _))
  · rw [mulFinish, State.advancePc_dev, hf.dev, State.setX_dev, State.idles_setHazard_dev]

/-! ## The long multiplies (41_arm_multiply.md R264 to R267) -/

/-- The product of 64 bits with its accumulator, in integers. -/
theorem product64_add_eq (signed : Bool) (a b : Word) (old : BitVec 64) : product64 signed a b + old =
    if signed then BitVec.ofInt 64 (a.toInt * b.toInt + old.toInt)
    else BitVec.ofNat 64 (a.toNat * b.toNat + old.toNat) := by
  cases signed
  · rw [if_neg Bool.false_ne_true, BitVec.ofNat_add, BitVec.ofNat_mul, BitVec.ofNat_toNat, BitVec.ofNat_toNat,
      BitVec.ofNat_toNat, BitVec.setWidth_eq]
    rfl
  · rw [if_pos rfl, BitVec.ofInt_add, BitVec.ofInt_mul, BitVec.ofInt_toInt]
    rfl

/-- A long multiply that names no r15 and two destinations is not refused. -/
theorem exec_long_finishes {i : Instr} {s : State} {p : LongParts} (h : i.asLong = some p) (he : i.Executes s)
    (hhi : p.rdHi ≠ pcReg) (hlo : p.rdLo ≠ pcReg) (hrs : p.rs ≠ pcReg) (hrm : p.rm ≠ pcReg) (hne : p.rdHi ≠ p.rdLo) :
    exec i s = .next (mulLongFinish (mulCycles (s.x p.rs) p.signed + if p.acc then 2 else 1) p.sf p.rdHi p.rdLo
      (product64 p.signed (s.x p.rm) (s.x p.rs) + if p.acc then s.x p.rdHi ++ s.x p.rdLo else 0)
      (s.setHazard false)) := by
  have hpc : ([p.rdHi, p.rdLo, p.rs, p.rm].contains pcReg || p.rdHi == p.rdLo) = false := by
    simp [hhi.symm, hlo.symm, hrs.symm, hrm.symm, hne]
  rw [exec_asLong h he]
  exact refuseIf_of_false hpc _ _

/-- Settles O23: the two halves of the product go to RdLo and RdHi, and the flags come after them. -/
theorem longMultiplyWrites : Obligations.LongMultiplyWrites := by
  unfold Obligations.LongMultiplyWrites
  intro i s p h he hhi hlo hrs hrm hne old r
  have hend : exec i s = .next (mulLongFinish _ p.sf p.rdHi p.rdLo r _) :=
    (exec_long_finishes h he hhi hlo hrs hrm hne).trans (by rw [product64_add_eq])
  clear_value r
  refine ⟨_, hend, ?_⟩
  generalize (mulCycles (s.x p.rs) p.signed + if p.acc then 2 else 1) = n
  have hc : ((s.setHazard false).idles n).cpu = { s.cpu with ubankHazard := false } := State.idles_cpu _ _
  have hf := (flagsOnly_setMulLongFlags ((((s.setHazard false).idles n).setX p.rdLo (r.extractLsb' 0 32)).setX p.rdHi
    (r.extractLsb' 32 32)) r).ite p.sf
  have hk := (keepsFlags_setX hc p.rdLo (r.extractLsb' 0 32)).setX p.rdHi (r.extractLsb' 32 32)
  refine ⟨?_, fun hsf => ?_, fun hsf => ?_, (hf.keeps ((keeps_setX hc _ _).setX _ _)).advancePc, fun _ _ => ?_,
    hf.advanced ((advanced_setX hc _ _).setX _ _), ?_⟩
  · have xhi := (State.advancePc_x _ hhi).trans ((hf.x _).trans (State.setX_x_same _ _ hhi))
    have xlo := (State.advancePc_x _ hlo).trans
      ((hf.x _).trans ((State.setX_x_ne _ _ hne.symm).trans (State.setX_x_same _ _ hlo)))
    refine (congrArg₂ (· ++ ·) xhi xlo).trans ?_
    exact (BitVec.extractLsb'_append_extractLsb'_eq_extractLsb' (Nat.zero_add 32).symm).trans BitVec.extractLsb'_eq_self
  · rw [mulLongFinish, hsf, if_pos rfl]
    exact ⟨rfl, beq_iff_eq⟩
  · rw [mulLongFinish, hsf]; exact hk.advancePc
  · exact congrArg (Memory.read · _) (hf.mem.trans (State.idles_mem _ _))
  · rw [mulLongFinish, State.advancePc_dev, hf.dev, State.setX_dev, State.setX_dev, State.idles_setHazard_dev]

end Sys2Proof.Machine

namespace Sys2Proof.Machine
open Sys2Proof

/-! ## Instructions that change general registers alone -/

/-- `u` has the CPU of `s` but for general registers and the end of the hazard (10_state.md R31, R72). -/
def State.RegsOnly (s u : State) : Prop := u.cpu = { s.cpu with regs := u.cpu.regs, ubankHazard := false }

section
variable {s t u : State}

theorem State.RegsOnly.of_running (hc : t.cpu = { s.cpu with ubankHazard := false }) : s.RegsOnly t :=
  hc.trans (by rw [hc])

theorem State.RegsOnly.of_regs (h : s.RegsOnly t) (hc : u.cpu = { t.cpu with regs := u.cpu.regs }) : s.RegsOnly u :=
  hc.trans (by rw [h])

theorem State.RegsOnly.setX (h : s.RegsOnly t) (i : Reg) (v : Word) : s.RegsOnly (t.setX i v) := by
  refine h.of_regs ?_
  unfold State.setX Cpu.setX
  split <;> rfl

theorem State.RegsOnly.writeBack (h : s.RegsOnly t) (wb : Bool) (rn : Reg) (v : Word) :
    s.RegsOnly (t.writeBack wb rn v) := by
  cases wb
  · exact h
  · exact h.setX rn v

theorem State.RegsOnly.place (h : s.RegsOnly u) (i : Reg) : u.place i = s.place i := by
  unfold State.place; rw [h]

theorem State.RegsOnly.spsr (h : s.RegsOnly u) (m : Mode) : u.cpu.spsr m = s.cpu.spsr m := by
  rw [h]; cases m <;> rfl

theorem State.RegsOnly.keeps {l : List (Fin 30)} (h : s.RegsOnly u)
    (hr : ∀ j, j ∉ l → u.cpu.regs.get j = s.cpu.regs.get j) : Keeps l s u where
  regs := hr
  mode := by rw [h]
  thumb := by rw [h]
  masks := by rw [h]; exact ⟨rfl, rfl⟩
  spsrs := h.spsr

theorem State.RegsOnly.keepsFlags (h : s.RegsOnly u) : KeepsFlags s u := by constructor <;> rw [h]

theorem State.RegsOnly.advanced (h : s.RegsOnly u) : Advanced .nonseq s u.endData where
  pc := by rw [State.endData_pc, h]; rfl
  fetch := rfl
  pipeline := by rw [State.endData_executing, State.endData_decoding, h]; exact ⟨rfl, rfl⟩
  hazard := by rw [State.endData_ubankHazard, h]

theorem Keeps.endData {l : List (Fin 30)} (h : Keeps l s u) : Keeps l s u.endData :=
  ⟨h.regs, h.mode, h.thumb, h.masks, h.spsrs⟩

theorem KeepsFlags.endData (h : KeepsFlags s u) : KeepsFlags s u.endData := ⟨h.n, h.z, h.c, h.v⟩

/-- A flush takes no general register, no control bit and no SPSR (10_state.md R45). -/
theorem Keeps.branchTo {l : List (Fin 30)} (h : Keeps l s u) (a : Word) : Keeps l s (u.branchTo a) where
  regs j hj := by rw [State.branchTo_regs, h.regs j hj]
  mode := by rw [State.branchTo_cpsr, h.mode]
  thumb := by rw [State.branchTo_cpsr, h.thumb]
  masks := by rw [State.branchTo_cpsr]; exact h.masks
  spsrs m := by rw [State.branchTo_spsr, h.spsrs]

theorem KeepsFlags.branchTo (h : KeepsFlags s u) (a : Word) : KeepsFlags s (u.branchTo a) := by
  constructor <;> rw [State.branchTo_cpsr]
  exacts [h.n, h.z, h.c, h.v]

end

@[simp] theorem State.endData_x (s : State) {i : Reg} (hi : i ≠ pcReg) : s.endData.x i = s.x i :=
  State.advancePc_x (s.setFetch .nonseq) hi

theorem State.setX_endData_x (s : State) {i : Reg} (v : Word) (hi : i ≠ pcReg) : (s.setX i v).endData.x i = v :=
  (State.endData_x _ hi).trans (State.setX_x_same s v hi)

@[simp] theorem State.branchTo_x (s : State) (a : Word) {i : Reg} (hi : i ≠ pcReg) : (s.branchTo a).x i = s.x i := by
  unfold State.x; rw [Cpu.x_of_ne _ hi, Cpu.x_of_ne _ hi, State.branchTo_regs, State.branchTo_cpsr]

/-! ## The write-back of a base (42_arm_loadstore.md R281) -/

section
variable {s t : State} (wb : Bool) (rn : Reg) (v : Word)

@[simp] theorem State.writeBack_mem : (t.writeBack wb rn v).mem = t.mem := by cases wb <;> rfl

@[simp] theorem State.writeBack_dev : (t.writeBack wb rn v).dev = t.dev := by cases wb <;> rfl

theorem State.writeBack_x (hwb : wb = true) (hrn : rn ≠ pcReg) : (t.writeBack wb rn v).x rn = v := by
  subst hwb
  exact State.setX_x_same t v hrn

theorem keeps_writeBack (h : t.cpu = { s.cpu with ubankHazard := false }) :
    Keeps (if wb then [s.place rn] else []) s (t.writeBack wb rn v) := by
  cases wb
  · exact (State.RegsOnly.of_running h).keeps fun j _ => congrArg (fun c => c.regs.get j) h
  · exact keeps_setX h rn v

end

/-! ## Single loads (42_arm_loadstore.md R281 to R298) -/

section
variable (s : State)

/-- The addressing mode does not see the hazard. -/
theorem State.movedBase_setHazard (b : Bool) (rn : Reg) (up : Bool) (o : Offset) :
    (s.setHazard b).movedBase rn up o = s.movedBase rn up o := by cases o <;> rfl

theorem State.transferAddr_setHazard (b : Bool) (ix : Indexing) (rn : Reg) (up : Bool) (o : Offset) :
    (s.setHazard b).transferAddr ix rn up o = s.transferAddr ix rn up o := by
  cases ix
  · exact s.movedBase_setHazard b rn up o
  · exact s.movedBase_setHazard b rn up o
  · rfl

variable {s} {k : LoadKind} {a : Word}

theorem State.loadValue_served {b : Nat} (h : Served (alignAddr a (k.widthAt a)) b) :
    (s.loadValue k a).1 = k.extend a (s.mem.load b (k.widthAt a)) :=
  congrArg (k.extend a) (State.memRead_served h)

theorem State.loadValue_io {off : Nat} (h : targetOf (alignAddr a (k.widthAt a)).toNat = .io off) :
    (s.loadValue k a).1 = k.extend a ((s.timeOf a (k.widthAt a)).ioLoad s.draws off (k.widthAt a)).1 :=
  congrArg (k.extend a) (State.memRead_io h)

end

/-- A base that is written back is not r15, or the form is refused (R281). -/
theorem base_ne_pc {ix : Indexing} {rn : Reg} {o : Offset} (h : addressRefused ix rn o = false)
    (hwb : writesBack ix = true) : rn ≠ pcReg := by
  rintro rfl
  simp [addressRefused, hwb] at h

/-- A single transfer whose address is allowed, and r15 as Rd where it is named, is not refused. -/
theorem transferAllowed_of {ix : Indexing} {rn rd : Reg} {o : Offset} {allows : Bool}
    (h : addressRefused ix rn o = false) (hrd : rd = pcReg → allows = true) :
    (addressRefused ix rn o || (rd == pcReg && !allows)) = false := by
  rw [h, Bool.false_or]
  by_cases hpc : rd = pcReg
  · rw [hrd hpc, Bool.not_true, Bool.and_false]
  · rw [beq_false_of_ne hpc, Bool.false_and]

/-- A load that is not refused reads, idles, writes its base back and ends with the value read (R291). -/
theorem exec_load_finishes {i : Instr} {s : State} {p : LoadParts} (h : i.asLoad = some p) (he : i.Executes s)
    (hok : addressRefused p.ix p.rn p.o = false) (hrd : p.rd = pcReg → p.kind = .word) :
    exec i s = .next
      ((((s.setHazard false).loadValue p.kind (s.transferAddr p.ix p.rn p.up p.o)).2.idle.writeBack
        (writesBack p.ix) p.rn (s.movedBase p.rn p.up p.o)).finishLoad p.rd
          ((s.setHazard false).loadValue p.kind (s.transferAddr p.ix p.rn p.up p.o)).1) := by
  have hpc := transferAllowed_of (allows := p.kind.allowsPc) hok fun hpc => by rw [hrd hpc]; rfl
  rw [exec_asLoad h he]
  dsimp only
  rw [s.movedBase_setHazard, s.transferAddr_setHazard]
  exact refuseIf_of_false hpc _ _

/-- Settles O24: the read and the idle cycle leave the CPU alone, and two register writes follow. -/
theorem loadWrites : Obligations.LoadWrites := by
  unfold Obligations.LoadWrites
  intro i s p h he hrd hok a w
  have hend := exec_load_finishes h he hok (fun hpc => absurd hpc hrd)
  rw [State.finishLoad, if_neg hrd] at hend
  have hc : ((s.setHazard false).loadValue p.kind a).2.idle.cpu = { s.cpu with ubankHazard := false } := rfl
  have hr := ((State.RegsOnly.of_running hc).writeBack (writesBack p.ix) p.rn (s.movedBase p.rn p.up p.o)).setX p.rd
    ((s.setHazard false).loadValue p.kind a).1
  refine ⟨_, hend, fun b hb => ?_, fun off hoff => ?_, fun hwb hne => ?_, ?_, hr.keepsFlags.endData, fun _ _ => ?_,
    hr.advanced, ?_⟩
  · rw [State.setX_endData_x _ _ hrd, State.loadValue_served hb]; rfl
  · rw [State.setX_endData_x _ _ hrd, State.loadValue_io hoff]; rfl
  · have hrn := base_ne_pc hok hwb
    rw [State.endData_x _ hrn, State.setX_x_ne _ _ hne, State.writeBack_x _ _ _ hwb hrn]
  · have hk := ((keeps_writeBack (writesBack p.ix) p.rn (s.movedBase p.rn p.up p.o) hc).setX p.rd
      ((s.setHazard false).loadValue p.kind a).1).endData
    rwa [apply_ite (List.cons (s.place p.rd))] at hk
  · rw [State.endData_mem, State.setX_mem, State.writeBack_mem]; rfl
  · rw [State.endData_dev, State.setX_dev, State.writeBack_dev]; rfl

/-- Settles O25: a value for r15 goes to `branchTo`, after the write-back. -/
theorem loadBranches : Obligations.LoadBranches := by
  unfold Obligations.LoadBranches
  intro i s p h he hrd hkind hok a
  have hend := exec_load_finishes h he hok (fun _ => hkind)
  rw [State.finishLoad, if_pos hrd, hkind] at hend
  have hc : ((s.setHazard false).loadValue .word a).2.idle.cpu = { s.cpu with ubankHazard := false } := rfl
  have hr := (State.RegsOnly.of_running hc).writeBack (writesBack p.ix) p.rn (s.movedBase p.rn p.up p.o)
  have hflush := State.branchTo_flushed ((s.setHazard false).loadValue .word a).1 (congrArg Cpu.ubankHazard hr)
  rw [State.writeBack_dev, State.writeBack_mem] at hflush
  refine ⟨_, _, hend, fun b hb => ?_, hflush, fun hwb => ?_, (keeps_writeBack _ _ _ hc).branchTo _,
    hr.keepsFlags.branchTo _⟩
  · rw [hkind]; exact State.loadValue_served hb
  · have hrn := base_ne_pc hok hwb
    rw [State.branchTo_x _ _ hrn, State.writeBack_x _ _ _ hwb hrn]

/-! ## Stores and swaps (42_arm_loadstore.md R280 to R291, R318, R319) -/

section
variable {s : State} {a v : Word} {w : Width} {acc : AccessClass}

/-- A write that is not refused goes on, leaves the CPU alone and stores its value (20_memory.md R106, R109). -/
theorem State.memWrite_stored (hwf : s.mem.wf = true) (hok : StoreAllowed (s.passAccess .data a w acc).dev a w v) :
    ∃ t, s.memWrite a w v acc = .next t ∧ t.cpu = s.cpu ∧
      Stored (s.passAccess .data a w acc).dev t.dev a w v s t := by
  unfold State.memWrite State.poke Stored
  cases ht : targetOf (alignAddr a w).toNat with
  | io off =>
    obtain ⟨d, hd⟩ := hok off ht
    dsimp only
    rw [hd]
    exact ⟨_, rfl, rfl, rfl, fun _ _ => rfl⟩
  | ram b =>
    exact ⟨_, rfl, rfl, rfl, fun k hk => Memory.read_store_inside v w hwf hk, fun x hx =>
      Memory.read_store_outside v w (by unfold bytesFrom at hx; omega)⟩
  | rom b => exact ⟨_, rfl, rfl, rfl, fun _ _ => rfl⟩
  | openBus => exact ⟨_, rfl, rfl, rfl, fun _ _ => rfl⟩

/-- A write that a register of the block refuses is refused (20_memory.md R111). -/
theorem State.memWrite_refused {off : Nat} {e : Refusal} (ht : targetOf (alignAddr a w).toNat = .io off)
    (he : (s.passAccess .data a w acc).dev.ioStore off v w = .refused e) : s.memWrite a w v acc = .refused e := by
  unfold State.memWrite State.poke
  rw [ht]
  dsimp only
  rw [he]
  rfl

/-- Storing is about memory and the devices alone. -/
theorem Stored.of_mem {d d' : Dev} {s' t u : State} (h : Stored d d' a w v s' t) (hs : s'.mem = s.mem)
    (ht : u.mem = t.mem) : Stored d d' a w v s u := by
  unfold Stored KeepsBytes at *
  rw [ht, ← hs]
  exact h

end

/-- A store that is not refused for its operands is a write, then the write-back (R291). -/
theorem exec_store_finishes {i : Instr} {s : State} {p : StoreParts} (h : i.asStore = some p) (he : i.Executes s)
    (hok : addressRefused p.ix p.rn p.o = false) (hrd : p.rd = pcReg → p.kind = .word) :
    exec i s = andThen ((s.setHazard false).memWrite (s.transferAddr p.ix p.rn p.up p.o) p.kind.width
      (if p.rd = pcReg then s.cpu.pc + 4 else s.x p.rd) .nonseq) fun t =>
        .next (t.writeBack (writesBack p.ix) p.rn (s.movedBase p.rn p.up p.o)).endData := by
  have hpc := transferAllowed_of (allows := p.kind.allowsPc) hok fun hpc => by rw [hrd hpc]; rfl
  rw [exec_asStore h he]
  dsimp only
  rw [s.movedBase_setHazard, s.transferAddr_setHazard]
  exact refuseIf_of_false hpc _ _

/-- Settles O27: `State.memWrite_stored`, then the write-back. -/
theorem storeWrites : Obligations.StoreWrites := by
  unfold Obligations.StoreWrites
  intro i s p h he hwf hrd hok a w v
  have hend : exec i s = andThen ((s.setHazard false).memWrite a w v .nonseq) _ := exec_store_finishes h he hok hrd
  refine ⟨fun hallowed => ?_, fun off e ht hd => ?_⟩
  · obtain ⟨t, ht, hc, hstored⟩ := State.memWrite_stored (s := s.setHazard false) (acc := .nonseq) hwf hallowed
    rw [ht, andThen_next] at hend
    have hr := (State.RegsOnly.of_running hc).writeBack (writesBack p.ix) p.rn (s.movedBase p.rn p.up p.o)
    refine ⟨_, hend, ?_, fun hwb => ?_, (keeps_writeBack _ _ _ hc).endData, hr.keepsFlags.endData, hr.advanced⟩
    · rw [State.endData_dev, State.writeBack_dev]
      exact hstored.of_mem rfl (State.writeBack_mem _ _ _)
    · have hrn := base_ne_pc hok hwb
      rw [State.endData_x _ hrn, State.writeBack_x _ _ _ hwb hrn]
  · rw [hend, State.memWrite_refused (s := s.setHazard false) ht hd]; rfl

/-- A swap that names no r15 is a read, a write to the same place, an idle cycle and the register (R318, R319). -/
theorem exec_swap_finishes {i : Instr} {s : State} {cond : Cond} {rn rd rm : Reg} {lk : LoadKind} {sk : StoreKind}
    (hi : exec i s = swapInstr lk sk cond rn rd rm s) (hc : i.armCond = some cond) (hn : i.names = [rn, rd, rm])
    (he : i.Executes s) (hrn : rn ≠ pcReg) (hrd : rd ≠ pcReg) (hrm : rm ≠ pcReg) :
    exec i s = andThen (((s.setHazard false).loadValue lk (s.x rn)).2.memWrite (s.x rn) sk.width (s.x rm) .nonseq)
      fun t => .next (t.idle.setX rd ((s.setHazard false).loadValue lk (s.x rn)).1).endData := by
  have hpc : [rn, rd, rm].contains pcReg = false := by simp [hrn.symm, hrd.symm, hrm.symm]
  rw [hi, swapInstr, armInstr_runs _ he hc hn]
  exact refuseIf_of_false hpc _ _

/-- Settles O28: the write of the swap is `State.memWrite_stored` in the state its read left. -/
theorem swapExchanges : Obligations.SwapExchanges := by
  unfold Obligations.SwapExchanges
  intro cond rn rd rm s byte i w k d he hwf hrn hrd hrm
  obtain ⟨hk, hend⟩ : k.widthAt (s.x rn) = w ∧ exec i s =
      andThen (((s.setHazard false).loadValue k (s.x rn)).2.memWrite (s.x rn) w (s.x rm) .nonseq)
        fun t => .next (t.idle.setX rd ((s.setHazard false).loadValue k (s.x rn)).1).endData := by
    cases byte
    · exact ⟨rfl, exec_swap_finishes (lk := .word) (sk := .word) rfl rfl rfl he hrn hrd hrm⟩
    · exact ⟨rfl, exec_swap_finishes (lk := .byte) (sk := .byte) rfl rfl rfl he hrn hrd hrm⟩
  have hd : (((s.setHazard false).loadValue k (s.x rn)).2.passAccess .data (s.x rn) w .nonseq).dev = d := by
    show Dev.passAccess (State.timeOf _ _ _) _ _ _ _ = d
    rw [hk]; rfl
  refine ⟨fun hallowed => ?_, fun off e ht hio => ?_⟩
  · obtain ⟨t, ht, hc, hstored⟩ := State.memWrite_stored (s := ((s.setHazard false).loadValue k (s.x rn)).2)
      (acc := .nonseq) hwf (by rwa [hd])
    rw [hd] at hstored
    rw [ht, andThen_next] at hend
    have hc : t.idle.cpu = { s.cpu with ubankHazard := false } := hc
    have hr := (State.RegsOnly.of_running hc).setX rd ((s.setHazard false).loadValue k (s.x rn)).1
    refine ⟨_, t.dev, hend, fun b hb => ?_, fun off hoff => ?_, hstored.of_mem rfl rfl, rfl,
      (keeps_setX hc _ _).endData, hr.keepsFlags.endData, hr.advanced⟩
    · rw [State.setX_endData_x _ _ hrd, State.loadValue_served (by rwa [hk]), hk]; rfl
    · rw [State.setX_endData_x _ _ hrd, State.loadValue_io (by rwa [hk]), hk]; rfl
  · rw [hend, State.memWrite_refused ht (by rwa [hd])]; rfl

end Sys2Proof.Machine

namespace Sys2Proof.Machine
open Sys2Proof

/-! ## What a block load reads (42_arm_loadstore.md R305, R306, R313) -/

theorem State.afterReads_setHazard (s : State) (b : Bool) (addr : Nat → Word) (k : Nat) :
    (s.setHazard b).afterReads addr k = (s.afterReads addr k).setHazard b := by
  induction k with
  | zero => rfl
  | succ k ih => rw [State.afterReads, ih]; rfl

/-- A read does not see the hazard. -/
theorem State.BlockRead.of_setHazard {s : State} {b : Bool} {addr : Nat → Word} {k : Nat} {v : Word}
    (h : (s.setHazard b).BlockRead addr k v) : s.BlockRead addr k v where
  memory := h.memory
  block off hoff := by
    have := h.block off hoff
    rwa [State.afterReads_setHazard] at this

/-- `vs` gives each register of the list, in its order, a value that the read at its address finds. -/
structure State.BlockLoaded (s : State) (addr : Nat → Word) (regs : List Reg) (vs : List (Reg × Word)) : Prop where
  keys : vs.map Prod.fst = regs
  reads : ∀ k r, regs[k]? = some r → ∃ v, vs[k]? = some (r, v) ∧ s.BlockRead addr k v

section
variable {s : State} {addr : Nat → Word} {regs : List Reg} {vs : List (Reg × Word)}

/-- In a list that names no register twice, the value beside a register is what its read finds. -/
theorem State.BlockLoaded.read (h : s.BlockLoaded addr regs vs) (hd : regs.Nodup) {k : Nat} {r : Reg} {v : Word}
    (hk : regs[k]? = some r) (hv : (r, v) ∈ vs) : s.BlockRead addr k v := by
  obtain ⟨v', hv', hread⟩ := h.reads k r hk
  have heq := List.inj_on_of_nodup_map (h.keys ▸ hd) hv (List.mem_of_getElem? hv') rfl
  cases heq
  exact hread

/-- Each register of the list stands beside a value. -/
theorem State.BlockLoaded.mem (h : s.BlockLoaded addr regs vs) {r : Reg} (hr : r ∈ regs) : ∃ v, (r, v) ∈ vs := by
  obtain ⟨⟨_, v⟩, hmem, rfl⟩ := List.mem_map.1 (h.keys ▸ hr)
  exact ⟨v, hmem⟩

theorem State.BlockLoaded.mem_regs (h : s.BlockLoaded addr regs vs) {p : Reg × Word} (hp : p ∈ vs) : p.1 ∈ regs :=
  h.keys ▸ List.mem_map_of_mem hp

theorem pcValue_eq_some {v : Word} (h : pcValue vs = some v) : (pcReg, v) ∈ vs := by
  obtain ⟨⟨r, w⟩, hfind, rfl⟩ := Option.map_eq_some_iff.1 h
  obtain rfl : r = pcReg := by simpa using List.find?_some hfind
  exact List.mem_of_find?_eq_some hfind

theorem pcValue_eq_none_iff : pcValue vs = none ↔ pcReg ∉ vs.map Prod.fst := by
  rw [pcValue, Option.map_eq_none_iff, List.find?_eq_none, List.mem_map]
  simp only [beq_iff_eq, not_exists, not_and]

/-- r15 in the list is a flush at its word (R310). -/
theorem State.finishLdm_of_pc {v : Word} (h : pcValue vs = some v) :
    s.finishLdm vs = (s.writeRegs State.setX vs).branchTo v := by
  simp only [State.finishLdm, h]

theorem State.finishLdm_of_no_pc (h : pcValue vs = none) : s.finishLdm vs = (s.writeRegs State.setX vs).endData := by
  simp only [State.finishLdm, h]

end

/-! ## The registers after a block load (42_arm_loadstore.md R306, R308) -/

/-- The machine after the reads of a block load and its internal cycle, with the hazard over (R313). -/
def State.readsDone (s : State) (addr : Nat → Word) (count : Nat) : State :=
  ((s.afterReads addr count).setHazard false).idle

section
variable (s : State) (addr : Nat → Word) (n : Nat)

theorem State.readsDone_cpu : (s.readsDone addr n).cpu = { s.cpu with ubankHazard := false } := by
  show State.cpu (State.setHazard _ false) = _
  rw [State.setHazard, State.afterReads_cpu]

theorem State.readsDone_mem : (s.readsDone addr n).mem = s.mem := s.afterReads_mem addr n

theorem State.readsDone_dev : (s.readsDone addr n).dev = s.loadTime addr n := rfl

end

theorem State.writeBack_idle (s : State) (wb : Bool) (rn : Reg) (v : Word) :
    (s.writeBack wb rn v).idle = s.idle.writeBack wb rn v := by cases wb <;> rfl

/-- The loads of a block transfer are its reads, the internal cycle and the write-back. -/
theorem ldmLoads_eq (s : State) (mode : BlockMode) (base : Word) (wb : Bool) (rn : Reg) (list : BitVec 16)
    (back : Word) : ∃ vs, s.BlockLoaded (blockAddr mode base list) (blockRegs list) vs ∧
      ldmLoads (s.setHazard false) wb rn list (blockStart mode base list) back =
        (vs, (s.readsDone (blockAddr mode base list) (blockRegs list).length).writeBack (ldmWritesBack wb rn list) rn
          back) := by
  obtain ⟨hstate, hkeys, hreads⟩ := (s.setHazard false).readBlock_spec (blockAddr_aligned mode base list)
    (blockAddr_succ mode base list) (blockRegs list) 0
  rw [blockAddr_zero, Nat.zero_add] at hstate
  rw [blockAddr_zero] at hkeys hreads
  refine ⟨_, ⟨hkeys, fun k r hk => ?_⟩, Prod.ext rfl ?_⟩
  · obtain ⟨v, hv, hread⟩ := hreads k r hk
    rw [Nat.zero_add] at hread
    exact ⟨v, hv, hread.of_setHazard⟩
  · rw [State.readsDone, ← State.afterReads_setHazard, ← hstate, ← State.writeBack_idle]
    rfl

theorem ldmWritesBack_eq_true {wb : Bool} {rn : Reg} {list : BitVec 16} (hrn : rn ≠ pcReg) :
    ldmWritesBack wb rn list = true ↔ wb = true ∧ rn ∉ blockRegs list := by
  rw [ldmWritesBack, Bool.and_eq_true, mem_blockRegs hrn, Bool.not_eq_true', Bool.not_eq_true]

theorem State.mem_places {s : State} {regs : List Reg} {j : Fin 30} :
    j ∈ s.places regs ↔ ∃ r ∈ regs, r ≠ pcReg ∧ s.place r = j := by
  simp [State.places, and_assoc]

theorem State.x_eq_get_place (s : State) {i : Reg} (hi : i ≠ pcReg) : s.x i = s.cpu.regs.get (s.place i) :=
  Cpu.x_of_ne _ hi

/-- `u` is the machine when a block load into the visible registers has written all but r15 (R306, R308). -/
structure State.LdmWrote (s : State) (p : BlockParts) (u : State) : Prop where
  cpu : s.RegsOnly u
  loads : ∀ k r, (blockRegs p.list)[k]? = some r → r ≠ pcReg →
    s.BlockRead (blockAddr p.mode (s.x p.rn) p.list) k (u.x r)
  base : p.wb = true → p.rn ∉ blockRegs p.list → u.x p.rn = blockEnd p.mode (s.x p.rn) p.list
  regs : ∀ j, j ∉ s.places (if p.wb then p.rn :: blockRegs p.list else blockRegs p.list) →
    u.cpu.regs.get j = s.cpu.regs.get j
  mem : u.mem = s.mem
  dev : u.dev = s.loadTime (blockAddr p.mode (s.x p.rn) p.list) (blockRegs p.list).length

/-- The base is written first, so that a loaded base keeps its loaded value. -/
theorem State.BlockLoaded.ldmWrote {s : State} {p : BlockParts} {vs : List (Reg × Word)}
    (h : s.BlockLoaded (blockAddr p.mode (s.x p.rn) p.list) (blockRegs p.list) vs) (hrn : p.rn ≠ pcReg) :
    s.LdmWrote p (((s.readsDone (blockAddr p.mode (s.x p.rn) p.list) (blockRegs p.list).length).writeBack
      (ldmWritesBack p.wb p.rn p.list) p.rn (blockEnd p.mode (s.x p.rn) p.list)).writeRegs State.setX vs) := by
  have hc := s.readsDone_cpu (blockAddr p.mode (s.x p.rn) p.list) (blockRegs p.list).length
  have hr := (State.RegsOnly.of_running hc).writeBack (ldmWritesBack p.wb p.rn p.list) p.rn
    (blockEnd p.mode (s.x p.rn) p.list)
  have hk := keeps_writeBack (ldmWritesBack p.wb p.rn p.list) p.rn (blockEnd p.mode (s.x p.rn) p.list) hc
  have hd := blockRegs_nodup p.list
  obtain ⟨hx, hsame, hcpu, hdev, hmem⟩ := State.writeRegs_spec vs ((s.readsDone _ _).writeBack _ _ _) (h.keys ▸ hd)
  refine ⟨hr.of_regs hcpu, fun k r hkr hpc => ?_, fun hwb hnot => ?_, fun j hj => ?_, ?_, ?_⟩
  · obtain ⟨v, hv⟩ := h.mem (List.mem_of_getElem? hkr)
    rw [hx (r, v) hv hpc]
    exact h.read hd hkr hv
  · have hplace : ∀ q ∈ vs, q.1 ≠ pcReg → s.place p.rn ≠ s.place q.1 := fun q hq hpc heq =>
      hnot (physIndex_inj _ _ _ hrn hpc heq ▸ h.mem_regs hq)
    rw [State.x_eq_get_place _ hrn, (hr.of_regs hcpu).place, hsame _ fun q hq hpc => ?_]
    · rw [← hr.place, ← State.x_eq_get_place _ hrn]
      exact State.writeBack_x _ _ _ ((ldmWritesBack_eq_true hrn).2 ⟨hwb, hnot⟩) hrn
    · rw [hr.place]; exact hplace q hq hpc
  · have hne : ∀ r ∈ (if p.wb then p.rn :: blockRegs p.list else blockRegs p.list), r ≠ pcReg → j ≠ s.place r :=
      fun r hr hpc heq => hj (State.mem_places.2 ⟨r, hr, hpc, heq.symm⟩)
    have hloaded : ∀ q ∈ vs, q.1 ≠ pcReg → j ≠ s.place q.1 := fun q hq => hne q.1 <| by
      split
      · exact List.mem_cons_of_mem _ (h.mem_regs hq)
      · exact h.mem_regs hq
    rw [hsame j (by simpa only [hr.place] using hloaded)]
    refine hk.regs j fun hmem => ?_
    obtain ⟨hwb, rfl⟩ : ldmWritesBack p.wb p.rn p.list = true ∧ j = s.place p.rn := by simpa using hmem
    rw [if_pos ((ldmWritesBack_eq_true hrn).1 hwb).1] at hne
    exact hne p.rn List.mem_cons_self hrn rfl
  · rw [hmem, State.writeBack_mem, State.readsDone_mem]
  · rw [hdev, State.writeBack_dev, State.readsDone_dev]

/-- A block load into the visible registers: the values its reads find and, once they are written, the machine. -/
theorem ldmLoads_wrote (s : State) (p : BlockParts) (hrn : p.rn ≠ pcReg) :
    ∃ vs t, s.BlockLoaded (blockAddr p.mode (s.x p.rn) p.list) (blockRegs p.list) vs ∧
      ldmLoads (s.setHazard false) p.wb p.rn p.list (blockStart p.mode (s.x p.rn) p.list)
        (blockEnd p.mode (s.x p.rn) p.list) = (vs, t) ∧ s.LdmWrote p (t.writeRegs State.setX vs) := by
  obtain ⟨vs, hvs, hloads⟩ := ldmLoads_eq s p.mode (s.x p.rn) p.wb p.rn p.list (blockEnd p.mode (s.x p.rn) p.list)
  exact ⟨vs, _, hvs, hloads, hvs.ldmWrote hrn⟩

/-- The value for r15 is what the read at its address finds. -/
theorem State.BlockLoaded.pcRead {s : State} {p : BlockParts} {vs : List (Reg × Word)}
    (h : s.BlockLoaded (blockAddr p.mode (s.x p.rn) p.list) (blockRegs p.list) vs) {v : Word}
    (hv : pcValue vs = some v) : ∀ k, (blockRegs p.list)[k]? = some pcReg →
      s.BlockRead (blockAddr p.mode (s.x p.rn) p.list) k v :=
  fun _ hk => h.read (blockRegs_nodup _) hk (pcValue_eq_some hv)

/-- Settles O29: `State.BlockLoaded.ldmWrote`, and the value for r15 goes to the flush. -/
theorem blockLoads : Obligations.BlockLoads := by
  unfold Obligations.BlockLoads
  intro i s p h he hload huser hrn regs addr
  obtain ⟨vs, t, hvs, hloads, hu⟩ := ldmLoads_wrote s p hrn
  have hend : exec i s = .next (t.finishLdm vs) := by
    have hcore : ldmCore p.mode p.wb p.rn p.list (s.setHazard false) = .next (State.finishLdm _ _) := rfl
    rw [exec_asBlock h he hrn, blockBody, huser, if_neg Bool.false_ne_true, if_pos hload, hcore, State.setHazard_x,
      hloads]
  generalize hw : t.writeRegs State.setX vs = u at hu
  have hk := hu.cpu.keeps hu.regs
  cases hpc : pcValue vs with
  | none =>
    rw [State.finishLdm_of_no_pc hpc, hw] at hend
    have hnot : pcReg ∉ blockRegs p.list := hvs.keys ▸ pcValue_eq_none_iff.1 hpc
    refine ⟨_, hend, fun k r hkr hr => ?_, fun hwb hmem => ?_, hk.endData, hu.cpu.keepsFlags.endData, fun _ _ => ?_,
      fun _ => ⟨hu.cpu.advanced, hu.dev⟩, fun hmem => absurd hmem hnot⟩
    · rw [State.endData_x _ hr]; exact hu.loads k r hkr hr
    · rw [State.endData_x _ hrn]; exact hu.base hwb hmem
    · rw [State.endData_mem, hu.mem]
  | some v =>
    rw [State.finishLdm_of_pc hpc, hw] at hend
    have hmem : pcReg ∈ regs := hvs.mem_regs (pcValue_eq_some hpc)
    have hflush := State.branchTo_flushed v (congrArg Cpu.ubankHazard hu.cpu)
    rw [hu.dev, hu.mem] at hflush
    refine ⟨_, hend, fun k r hkr hr => ?_, fun hwb hmem => ?_, hk.branchTo _, hu.cpu.keepsFlags.branchTo _,
      fun _ _ => ?_, fun hnot => absurd hmem hnot, fun _ => ⟨v, hflush, hvs.pcRead hpc⟩⟩
    · rw [State.branchTo_x _ _ hr]; exact hu.loads k r hkr hr
    · rw [State.branchTo_x _ _ hrn]; exact hu.base hwb hmem
    · rw [State.branchTo_mem, hu.mem]

end Sys2Proof.Machine

namespace Sys2Proof.Machine
open Sys2Proof

/-! ## Block loads with S = 1 (42_arm_loadstore.md R311) -/

theorem loadsPc_iff {list : BitVec 16} : loadsPc list = true ↔ pcReg ∈ blockRegs list := List.contains_iff_mem

theorem Cpu.noSpsr_of_spsr {c : Cpu} {q : Spsr} (h : c.spsr c.cpsr.mode = some q) : c.noSpsr = false := by
  rw [Cpu.noSpsr, h]; rfl

/-- Every mode but usr and sys has an SPSR (10_state.md R37). -/
theorem Cpu.noSpsr_of_mode_ne {c : Cpu} (h : c.cpsr.mode ≠ .usr ∧ c.cpsr.mode ≠ .sys) : c.noSpsr = false := by
  obtain ⟨husr, hsys⟩ := h
  unfold Cpu.noSpsr
  cases hm : c.cpsr.mode
  case usr => exact absurd hm husr
  case sys => exact absurd hm hsys
  all_goals rfl

/-- Of the refusals that all block transfers with S = 1 share only that of a mode without an SPSR is left, because an
empty list is not refused (R309). -/
theorem noSpsr_or_emptyRefused (c : Cpu) (list : BitVec 16) : (c.noSpsr || emptyRefused list) = c.noSpsr :=
  Bool.or_false _

/-- Settles O31: `State.BlockLoaded.ldmWrote`, and the value for r15 goes to `exceptionReturn`. -/
theorem blockLoadsReturn : Obligations.BlockLoadsReturn := by
  unfold Obligations.BlockLoadsReturn
  intro i s p h he hload huser hrn hpc regs addr
  obtain ⟨vs, t, hvs, hloads, hu⟩ := ldmLoads_wrote s p hrn
  generalize hw : t.writeRegs State.setX vs = u at hu
  obtain ⟨v, hv⟩ : ∃ v, pcValue vs = some v :=
    Option.ne_none_iff_exists'.1 fun hnone => pcValue_eq_none_iff.1 hnone (hvs.keys ▸ hpc)
  have hend : exec i s = refuseIf s.cpu.noSpsr .unpredictable (u.exceptionReturn v) := by
    have hreturn : ldmReturn p.mode p.wb p.rn p.list (s.setHazard false) = u.exceptionReturn v := by
      rw [ldmReturn, State.setHazard_x, hloads, hw, hv]; rfl
    rw [exec_asBlock h he hrn, blockBody, if_pos huser, if_pos hload, if_pos (loadsPc_iff.2 hpc), hreturn,
      noSpsr_or_emptyRefused]
    rfl
  refine ⟨fun hm => hend.trans (refuseIf_of_true (Cpu.noSpsr_of_userMode hm) _ _), fun q hq => ?_⟩
  rw [refuseIf_of_false (Cpu.noSpsr_of_spsr hq)] at hend
  have hspsr : u.cpu.spsr u.cpu.cpsr.mode = some q := by rw [hu.cpu.spsr, hu.cpu]; exact hq
  rw [hend]
  refine ⟨State.exceptionReturn_invalidMode v hspsr, fun m hm => ⟨_, v, State.exceptionReturn_next v hspsr hm,
    State.branchTo_cpsr _ _, fun k r hk hr => ?_, fun hwb hnot => ?_, fun j hj => ?_, fun k => ?_, ?_, hvs.pcRead hv⟩⟩
  · rw [State.branchTo_regs, State.setCpsr_regs, ← hu.cpu.place, ← State.x_eq_get_place _ hr]
    exact hu.loads k r hk hr
  · rw [State.branchTo_regs, State.setCpsr_regs, ← hu.cpu.place, ← State.x_eq_get_place _ hrn]
    exact hu.base hwb hnot
  · rw [State.branchTo_regs, State.setCpsr_regs]
    exact hu.regs j hj
  · rw [State.branchTo_spsr]
    exact hu.cpu.spsr k
  · rw [← hu.dev, ← hu.mem]
    exact State.branchTo_flushed (s := u.setCpsr (q.restore m)) v (congrArg Cpu.ubankHazard hu.cpu)

theorem State.xUsr_of_ne (s : State) {i : Reg} (h : i ≠ pcReg) : s.xUsr i = s.cpu.regs.get (physIndex i .usr) :=
  if_neg h

/-- Writing a User-mode register is writing it as x[i] in User mode (00_scope.md R15). -/
theorem State.setXUsr_setCpsr {t : State} (ht : t.cpu.cpsr.mode = .usr) (c : Cpsr) (i : Reg) (v : Word) :
    (t.setCpsr c).setXUsr i v = (t.setX i v).setCpsr c := by
  simp only [State.setXUsr, State.setX, Cpu.setX, ht]
  split <;> rfl

theorem State.writeRegs_setXUsr {t : State} (ht : t.cpu.cpsr.mode = .usr) (c : Cpsr) (vs : List (Reg × Word)) :
    (t.setCpsr c).writeRegs State.setXUsr vs = (t.writeRegs State.setX vs).setCpsr c := by
  unfold State.writeRegs
  induction vs generalizing t with
  | nil => rfl
  | cons p rest ih =>
    rw [List.foldl_cons, List.foldl_cons]
    split
    · exact ih ht
    · rw [State.setXUsr_setCpsr ht]
      exact ih (by rwa [State.setX_cpsr])

/-- A block load into the User-mode registers gives each its value and changes no other (R311). -/
theorem State.BlockLoaded.userWrote {s t : State} {addr : Nat → Word} {regs : List Reg} {vs : List (Reg × Word)}
    (h : s.BlockLoaded addr regs vs) (hd : regs.Nodup) (hpc : pcReg ∉ regs)
    (hc : t.cpu = { s.cpu with ubankHazard := false }) :
    s.RegsOnly (t.writeRegs State.setXUsr vs) ∧
    (∀ k r, regs[k]? = some r → s.BlockRead addr k ((t.writeRegs State.setXUsr vs).cpu.regs.get (physIndex r .usr))) ∧
    (∀ j, j ∉ regs.map (fun r => physIndex r .usr) →
      (t.writeRegs State.setXUsr vs).cpu.regs.get j = s.cpu.regs.get j) ∧
    (t.writeRegs State.setXUsr vs).mem = t.mem ∧ (t.writeRegs State.setXUsr vs).dev = t.dev := by
  have hne : ∀ r ∈ regs, r ≠ pcReg := fun r hr heq => hpc (heq ▸ hr)
  -- The same writes in User mode, from which CPSR is put back.
  obtain ⟨hx, hsame, hcpu, hdev, hmem⟩ :=
    State.writeRegs_spec vs (t.setCpsr { t.cpu.cpsr with mode := .usr }) (h.keys ▸ hd)
  have hw : t.writeRegs State.setXUsr vs =
      ((t.setCpsr { t.cpu.cpsr with mode := .usr }).writeRegs State.setX vs).setCpsr t.cpu.cpsr :=
    State.writeRegs_setXUsr (t := t.setCpsr { t.cpu.cpsr with mode := .usr }) rfl t.cpu.cpsr vs
  rw [hw]
  generalize (t.setCpsr _).writeRegs State.setX vs = u at *
  refine ⟨?_, fun k r hk => ?_, fun j hj => ?_, hmem, hdev⟩
  · refine (State.RegsOnly.of_running hc).of_regs ?_
    rw [State.setCpsr, hcpu]
    rfl
  · have hr := List.mem_of_getElem? hk
    obtain ⟨v, hv⟩ := h.mem hr
    have hget : (u.setCpsr t.cpu.cpsr).cpu.regs.get (physIndex r .usr) = u.x r := by
      rw [State.x, Cpu.x_of_ne _ (hne r hr), hcpu]
      rfl
    rw [hget, hx (r, v) hv (hne r hr)]
    exact h.read hd hk hv
  · rw [State.setCpsr_regs, hsame j fun q hq _ heq => hj (List.mem_map.2 ⟨q.1, h.mem_regs hq, heq.symm⟩),
      State.setCpsr_regs, hc]

/-- Settles O30: `State.BlockLoaded.userWrote`, after the refusals. -/
theorem blockLoadsUser : Obligations.BlockLoadsUser := by
  unfold Obligations.BlockLoadsUser
  intro i s p h he hload huser hrn hpc regs addr
  have hend : exec i s = refuseIf s.cpu.noSpsr .unpredictable
      (refuseIf p.wb .unpredictable (ldmUser p.mode p.rn p.list (s.setHazard false))) := by
    rw [exec_asBlock h he hrn, blockBody, if_pos huser, if_pos hload, if_neg (mt loadsPc_iff.1 hpc),
      noSpsr_or_emptyRefused]
    rfl
  refine ⟨fun hm => ?_, fun husr hsys hwb => ?_⟩
  · cases hno : s.cpu.noSpsr
    · obtain hm | hm | hwb := hm
      · rw [Cpu.noSpsr_of_userMode (.inl hm)] at hno; cases hno
      · rw [Cpu.noSpsr_of_userMode (.inr hm)] at hno; cases hno
      · rw [hend, hno, hwb]; rfl
    · rw [hend, hno]; rfl
  · rw [refuseIf_of_false (Cpu.noSpsr_of_mode_ne ⟨husr, hsys⟩), refuseIf_of_false hwb] at hend
    obtain ⟨vs, hvs, hloads⟩ := ldmLoads_eq s p.mode (s.x p.rn) false p.rn p.list 0
    rw [ldmUser, State.setHazard_x, hloads] at hend
    obtain ⟨hu, hreads, hregs, hmem, hdev⟩ := hvs.userWrote (blockRegs_nodup p.list) hpc
      (s.readsDone_cpu (blockAddr p.mode (s.x p.rn) p.list) (blockRegs p.list).length)
    have hk := (hu.keeps hregs).endData
    have hf := hu.keepsFlags.endData
    have hne : ∀ r ∈ regs, r ≠ pcReg := fun r hr heq => hpc (heq ▸ hr)
    refine ⟨_, hend, fun k r hkr => ?_, ⟨hk.regs, hk.mode, hk.thumb, hk.masks, hk.spsrs⟩, ⟨hf.n, hf.z, hf.c, hf.v⟩,
      fun _ _ => congrArg (Memory.read · _) (hmem.trans (s.readsDone_mem _ _)), hu.advanced.pc, rfl, rfl, hdev⟩
    rw [State.xUsr_of_ne _ (hne r (List.mem_of_getElem? hkr))]
    exact hreads k r hkr

/-! ## Block stores (42_arm_loadstore.md R307, R308, R312, R313) -/

/-- The value a block store stores as its word k, for the register r. -/
def storedWord (p : BlockParts) (s : State) (k : Nat) (r : Reg) : Word :=
  if r = pcReg then s.cpu.pc + s.cpu.w
  else if p.user then s.xUsr r
  else if r = p.rn ∧ p.wb = true ∧ k ≠ 0 then blockEnd p.mode (s.x p.rn) p.list
  else s.x r

theorem regsOf_ne_nil {list : BitVec 16} (h : list ≠ 0) : regsOf list ≠ [] := by
  intro hnil
  refine h (BitVec.eq_of_getLsbD_eq fun j hj => ?_)
  have hj' : (⟨j, hj⟩ : Reg) ∉ regsOf list := hnil ▸ List.not_mem_nil
  rw [mem_regsOf, Bool.not_eq_true] at hj'
  rw [hj']; simp

theorem blockRegs_ne_nil (list : BitVec 16) : blockRegs list ≠ [] := by
  unfold blockRegs
  split
  · exact List.cons_ne_nil _ _
  · rename_i h; exact regsOf_ne_nil h

theorem length_blockRegs_le (list : BitVec 16) : (blockRegs list).length ≤ 16 :=
  (blockRegs_nodup list).length_le_card

/-- Writes take no part of the CPU. -/
theorem State.afterWrites_withCpu (s : State) (c : Cpu) (addr value : Nat → Word) (n : Nat) :
    ({ s with cpu := c } : State).afterWrites addr value n =
      andThen (s.afterWrites addr value n) fun t => .next { t with cpu := c } := by
  induction n with
  | zero => rfl
  | succ n ih =>
    rw [State.afterWrites, State.afterWrites, ih, andThen_assoc, andThen_assoc]
    exact andThen_congr fun t _ => State.memWrite_withCpu t c _ _ _ _

section
variable {s : State} {p : BlockParts} {value : Nat → Word}

/-- The CPU of a block store after its first access, the base written back (R308). -/
def storedCpu (p : BlockParts) (s : State) : Cpu :=
  ((s.setHazard false).writeBack p.wb p.rn (blockEnd p.mode (s.x p.rn) p.list)).cpu

@[simp] theorem storedCpu_pc : (storedCpu p s).pc = s.cpu.pc := by
  unfold storedCpu; cases p.wb
  · rfl
  · exact Cpu.setX_pc _ _ _

@[simp] theorem storedCpu_w : (storedCpu p s).w = s.cpu.w := by
  unfold storedCpu; cases p.wb
  · rfl
  · exact Cpu.w_setX _ _ _

theorem storedCpu_x (hrn : p.rn ≠ pcReg) (r : Reg) : (storedCpu p s).x r =
    if r = p.rn ∧ p.wb = true then blockEnd p.mode (s.x p.rn) p.list else s.x r := by
  unfold storedCpu
  cases p.wb
  · rw [if_neg fun h => Bool.false_ne_true h.2]; rfl
  · by_cases hr : r = p.rn
    · rw [if_pos ⟨hr, rfl⟩, hr]; exact State.setX_x_same _ _ hrn
    · rw [if_neg fun h => hr h.1]; exact State.setX_x_ne _ _ hr

theorem storedX_eq_storedWord (hu : p.user = false) (hrn : p.rn ≠ pcReg) (k : Nat) (r : Reg) :
    storedX ({ s with cpu := if k = 0 then (s.setHazard false).cpu else storedCpu p s } : State) r =
      storedWord p s k r := by
  rw [storedX, storedWord, hu, if_neg Bool.false_ne_true]
  by_cases hk : k = 0
  · rw [if_pos hk]
    exact if_congr Iff.rfl rfl (if_neg fun h => h.2.2 hk).symm
  · rw [if_neg hk, storedCpu_pc, storedCpu_w]
    refine if_congr Iff.rfl rfl ((storedCpu_x hrn r).trans (if_congr ?_ rfl rfl))
    exact and_congr_right fun _ => (and_iff_left hk).symm

theorem storedXUsr_eq_storedWord (hu : p.user = true) (hwb : p.wb = false) (k : Nat) (r : Reg) :
    storedXUsr ({ s with cpu := if k = 0 then (s.setHazard false).cpu else storedCpu p s } : State) r =
      storedWord p s k r := by
  have hc : storedCpu p s = (s.setHazard false).cpu := by rw [storedCpu, hwb]; rfl
  rw [hc, ite_self, storedXUsr, storedWord, hu]
  rfl

/-- A block store over the CPU of the instruction is its writes one after the other, given what its first access leaves
of the CPU and the values that it stores. -/
theorem writeBlock_endData {stored : State → Reg → Word} {after : State → State} (g : Cpu → Cpu)
    (hv : ∀ s t : State, s.cpu = t.cpu → stored s = stored t) (hg : ∀ t, after t = { t with cpu := g t.cpu })
    (hgs : g (s.setHazard false).cpu = storedCpu p s)
    (hstored : ∀ k r, stored ({ s with cpu := if k = 0 then (s.setHazard false).cpu else storedCpu p s } : State) r =
      storedWord p s k r)
    (hvalue : ∀ k r, (blockRegs p.list)[k]? = some r → storedWord p s k r = value k) :
    (andThen (State.writeBlock stored after (blockRegs p.list) (alignAddr (blockStart p.mode (s.x p.rn) p.list) .word)
        .nonseq (s.setHazard false)) fun t => .next t.endData) =
      andThen (s.afterWrites (blockAddr p.mode (s.x p.rn) p.list) value (blockRegs p.list).length) fun t =>
        .next ({ t with cpu := storedCpu p s } : State).endData := by
  rw [← blockAddr_zero, State.writeBlock_spec (value := value) (s.setHazard false) g
    (blockAddr_succ p.mode (s.x p.rn) p.list) hv hg (blockRegs_ne_nil p.list)
    (fun k r hk => by rw [hgs, ← hvalue k r hk]; exact hstored k r), hgs, State.setHazard, State.afterWrites_withCpu,
    andThen_assoc, andThen_assoc]
  rfl

/-- A block store that executes is its writes one after the other, then the write-back. -/
theorem exec_block_store {i : Instr} (h : i.asBlock = some p) (he : i.Executes s) (hload : p.load = false)
    (hrn : p.rn ≠ pcReg) (huser : p.user = true → p.wb = false ∧ s.cpu.cpsr.mode ≠ .usr ∧ s.cpu.cpsr.mode ≠ .sys)
    (hvalue : ∀ k r, (blockRegs p.list)[k]? = some r → storedWord p s k r = value k) :
    exec i s = andThen (s.afterWrites (blockAddr p.mode (s.x p.rn) p.list) value (blockRegs p.list).length) fun t =>
      .next ({ t with cpu := storedCpu p s } : State).endData := by
  rw [exec_asBlock h he hrn]
  cases hu : p.user
  · refine Eq.trans ?_ (writeBlock_endData (stored := storedX)
      (after := fun t => t.writeBack p.wb p.rn (blockEnd p.mode (s.x p.rn) p.list))
      (fun c => if p.wb then c.setX p.rn (blockEnd p.mode (s.x p.rn) p.list) else c)
      (fun s t hst => by unfold storedX State.x; rw [hst]) (fun t => by cases p.wb <;> rfl)
      (by unfold storedCpu; cases p.wb <;> rfl) (storedX_eq_storedWord hu hrn) hvalue)
    rw [blockBody, hu, if_neg Bool.false_ne_true, hload, if_neg Bool.false_ne_true]
    rfl
  · obtain ⟨hwb, hmode⟩ := huser hu
    refine Eq.trans ?_ (writeBlock_endData (stored := storedXUsr) (after := id) id
      (fun s t hst => by unfold storedXUsr State.xUsr; rw [hst]) (fun _ => rfl) (by rw [storedCpu, hwb]; rfl)
      (storedXUsr_eq_storedWord hu hwb) hvalue)
    rw [blockBody, hu, if_pos rfl, hload, if_neg Bool.false_ne_true, hwb, Bool.false_or, noSpsr_or_emptyRefused]
    exact refuseIf_of_false (Cpu.noSpsr_of_mode_ne hmode) _ _

end

/-- Settles O32: the writes are `State.afterWrites`, whose effect is `State.afterWrites_next`. -/
theorem blockStores : Obligations.BlockStores := by
  unfold Obligations.BlockStores
  intro i s p h he hwf hload hrn huser regs addr value out
  have hvalue : ∀ k r, regs[k]? = some r → storedWord p s k r = value k := fun k r hk => by
    simp only [value, hk]; rfl
  have hend : exec i s = andThen out fun t => .next ({ t with cpu := storedCpu p s } : State).endData :=
    exec_block_store h he hload hrn huser hvalue
  have haligned : ∀ k, alignAddr (addr k) .word = addr k := blockAddr_aligned p.mode (s.x p.rn) p.list
  refine ⟨fun e hout => by rw [hend, hout]; rfl, fun t hout => ?_, fun hio =>
    s.afterWrites_plain haligned regs.length hio⟩
  have hrising : ∀ k, addr k = addr 0 + BitVec.ofNat 32 (4 * k) := fun k =>
    congrArg (· + BitVec.ofNat 32 (4 * k)) (blockAddr_zero p.mode (s.x p.rn) p.list).symm
  obtain ⟨hcpu, -, hloads, hbytes⟩ := s.afterWrites_next haligned hrising hwf regs.length (length_blockRegs_le p.list) hout
  have hu : ({ t with cpu := storedCpu p s } : State) =
      (t.setHazard false).writeBack p.wb p.rn (blockEnd p.mode (s.x p.rn) p.list) := by
    unfold storedCpu State.writeBack State.setX State.setHazard
    rw [hcpu]
    cases p.wb <;> rfl
  have hc : (t.setHazard false).cpu = { s.cpu with ubankHazard := false } := by rw [State.setHazard, hcpu]
  have hr := (State.RegsOnly.of_running hc).writeBack p.wb p.rn (blockEnd p.mode (s.x p.rn) p.list)
  rw [hout, andThen_next, hu] at hend
  refine ⟨_, hend, ?_, ?_, fun hwb => ?_, (keeps_writeBack _ _ _ hc).endData, hr.keepsFlags.endData, hr.advanced,
    fun a ha => ?_, fun k b hk hb => ?_⟩
  · rw [State.endData_mem, State.writeBack_mem]; rfl
  · rw [State.endData_dev, State.writeBack_dev]; rfl
  · rw [State.endData_x _ hrn, State.writeBack_x _ _ _ hwb hrn]
  · rw [State.endData_mem, State.writeBack_mem]
    exact hbytes a fun k b hk hb hin => ha ⟨k, b, hk, hb, hin⟩
  · rw [State.endData_mem, State.writeBack_mem]
    exact hloads k b hk hb

end Sys2Proof.Machine

namespace Sys2Proof.Machine
open Sys2Proof

/-! ## The SPSRs after an update of the CPU (10_state.md R34) -/

@[simp] theorem State.setHazard_spsr (s : State) (b : Bool) (m : Mode) :
    (s.setHazard b).cpu.spsr m = s.cpu.spsr m := by cases m <;> rfl

@[simp] theorem State.setCpsr_spsr (s : State) (p : Cpsr) (m : Mode) :
    (s.setCpsr p).cpu.spsr m = s.cpu.spsr m := by cases m <;> rfl

@[simp] theorem State.advancePc_spsr (s : State) (m : Mode) : s.advancePc.cpu.spsr m = s.cpu.spsr m := by
  cases m <;> rfl

/-! ## Branches (43_arm_branch_system.md R330 to R332, 44_thumb_alu.md R395) -/

/-- The offset of a branch in integers, where the shift to the left by k is a product with 2 ^ k. -/
theorem branchOffset_eq (k : Nat) {n : Nat} (off : BitVec n) :
    branchOffset k off = BitVec.ofInt 32 (2 ^ k * off.toInt) := by
  have hpow : BitVec.twoPow 32 k = BitVec.ofInt 32 (2 ^ k) := by
    have hcast : (2 : Int) ^ k = (2 ^ k : Nat) := (Nat.cast_pow 2 k).symm
    rw [hcast, BitVec.ofInt_natCast]
    exact BitVec.eq_of_toNat_eq (by rw [BitVec.toNat_twoPow, BitVec.toNat_ofNat])
  rw [branchOffset, BitVec.shiftLeft_eq_mul_twoPow, hpow, BitVec.signExtend, ← BitVec.ofInt_mul, mul_comm]

/-- The target of B and BL in integers: four times the signed offset past PC, which is A + 8 (R330). -/
theorem State.armTarget_eq (s : State) (off : BitVec 24) :
    s.armTarget off = s.cpu.pc + BitVec.ofInt 32 (4 * off.toInt) := by
  rw [State.armTarget, branchOffset_eq]; rfl

theorem State.nextAddress_arm {s : State} (h : s.cpu.cpsr.t = false) : s.nextAddress = s.cpu.pc - 4 := by
  rw [State.nextAddress, Cpu.w, h]; rfl

theorem State.nextAddress_thumb {s : State} (h : s.cpu.cpsr.t = true) : s.nextAddress = s.cpu.pc - 2 := by
  rw [State.nextAddress, Cpu.w, h]; rfl

/-- Settles O33: `State.branchTo_flushed` at the target, for BL after the write of the link register. -/
theorem armBranches : Obligations.ArmBranches := by
  unfold Obligations.ArmBranches
  intro cond off s
  rw [← s.armTarget_eq]
  have hlr : lrReg ≠ pcReg := by decide
  have hc : (s.setHazard false).cpu = { s.cpu with ubankHazard := false } := rfl
  refine ⟨fun he => ?_, fun he => ?_⟩
  · exact ⟨_, armInstr_runs _ he rfl rfl, State.branchTo_flushed (s := s.setHazard false) _ rfl, keeps_branchTo hc _,
      keepsFlags_branchTo hc _⟩
  · have hnext : (s.setHazard false).nextAddress = s.cpu.pc - 4 := State.nextAddress_arm he.set
    refine ⟨_, armInstr_runs _ he rfl rfl, ?_, ?_, (keeps_setX hc _ _).branchTo _, (keepsFlags_setX hc _ _).branchTo _⟩
    · exact State.branchTo_flushed (s := (s.setHazard false).setX lrReg _) _ (State.setX_ubankHazard _ _ _)
    · rw [State.branchTo_x _ _ hlr, State.setX_x_same _ _ hlr, hnext]

/-- A BX that executes, of either state: the state bit, then the flush. -/
theorem exec_bx {i : Instr} {r : Reg} {s : State} (h : (∃ cond, i = .bx cond r) ∨ ∃ hd, i = .tBx r hd)
    (he : i.Executes s) : exec i s =
      .next (((s.setHazard false).setCpsr { s.cpu.cpsr with t := (s.x r).getLsbD 0 }).branchTo (s.x r)) := by
  obtain ⟨cond, rfl⟩ | ⟨hd, rfl⟩ := h
  · exact armInstr_runs _ he rfl rfl
  · exact thumbInstr_runs (fun s => bxTo (s.x r) s) he rfl

/-- Settles O34: the flush comes after the change of CPSR, so it is in the new state. -/
theorem branchExchange : Obligations.BranchExchange := by
  unfold Obligations.BranchExchange
  intro i r s h he
  refine ⟨_, exec_bx h he, State.branchTo_cpsr _ _, State.branchTo_flushed (s := (s.setHazard false).setCpsr _) _ rfl,
    State.branchTo_regs _ _, fun m => ?_⟩
  rw [State.branchTo_spsr, State.setCpsr_spsr, State.setHazard_spsr]

/-! ## The instructions that take an exception (43_arm_branch_system.md R340 to R345, 60_exceptions.md R503) -/

/-- Taking an exception looks at no hazard. -/
theorem Entered.of_setHazard {s u : State} {b : Bool} {d : Dev} {mode : Mode} {vector lr : Word}
    (h : Entered (s.setHazard b) d mode vector lr u) : Entered s d mode vector lr u :=
  ⟨h.cpsr, h.saved, h.link, h.flushed, h.regs, fun m hm => (h.spsrs m hm).trans (s.setHazard_spsr b m)⟩

theorem State.raiseSwi_entered {s : State} {lr : Word} (hlr : s.nextAddress = lr) :
    Entered s s.dev .svc 0x08 lr (s.setHazard false).raiseSwi := by
  subst hlr
  exact (State.enterException_entered (m := .svc) _ _ (by decide) rfl).of_setHazard

theorem State.raiseUndefined_entered {s : State} {lr : Word} (hlr : s.nextAddress = lr) :
    Entered s s.dev .und 0x04 lr (s.setHazard false).raiseUndefined := by
  subst hlr
  exact (State.enterException_entered (m := .und) _ _ (by decide) rfl).of_setHazard

/-- Settles O35: `State.enterException_entered`, with the address of the next instruction by the width of the state. -/
theorem instructionsTakeExceptions : Obligations.InstructionsTakeExceptions := by
  unfold Obligations.InstructionsTakeExceptions
  intro i s he
  refine ⟨?_, ?_, ?_⟩
  · rintro ⟨c, v, rfl⟩
    exact ⟨_, armInstr_runs _ he rfl rfl, State.raiseSwi_entered (State.nextAddress_arm he.set)⟩
  · rintro ⟨v, rfl⟩
    exact ⟨_, thumbInstr_runs (fun s => .next s.raiseSwi) he rfl, State.raiseSwi_entered (State.nextAddress_thumb he.set)⟩
  · rintro (⟨c, v, rfl⟩ | ⟨c, p, up, n, w, ld, rn, crd, cp, off, rfl⟩ | ⟨c, op1, crn, crd, cp, op2, crm, rfl⟩ |
      ⟨c, op1, ld, crn, rd, cp, op2, crm, rfl⟩) <;>
    exact ⟨_, armInstr_runs _ he rfl rfl, State.raiseUndefined_entered (State.nextAddress_arm he.set)⟩

/-! ## MSR to CPSR (43_arm_branch_system.md R351 to R355) -/

section
variable {p : Cpsr} {c : Bool} {v : Word}

/-- The test of `Cpsr.writeControl`: the c field, in a privileged mode (R354). -/
theorem controlWritten_iff : (c && p.mode != .usr) = true ↔ c = true ∧ p.mode ≠ .usr := by
  rw [Bool.and_eq_true, bne_iff_ne]

/-- Without the c field, and in usr mode, the control field is kept (R354). -/
theorem Cpsr.writeControl_kept (h : ¬ (c = true ∧ p.mode ≠ .usr)) : p.writeControl c v = .next p :=
  if_neg (mt controlWritten_iff.1 h)

/-- The mode bits decide first: a value that names no mode is refused, whatever its T (R353). -/
theorem Cpsr.writeControl_invalidMode (h : c = true ∧ p.mode ≠ .usr) (hm : Mode.ofCode (v.extractLsb' 0 5) = none) :
    p.writeControl c v = .refused .invalidMode := by
  rw [Cpsr.writeControl, if_pos (controlWritten_iff.2 h), hm]

theorem Cpsr.writeControl_tChange {m : Mode} (h : c = true ∧ p.mode ≠ .usr)
    (hm : Mode.ofCode (v.extractLsb' 0 5) = some m) (ht : v.getLsbD 5 ≠ p.t) :
    p.writeControl c v = .refused .tChange := by
  rw [Cpsr.writeControl, if_pos (controlWritten_iff.2 h), hm]
  exact if_pos (bne_iff_ne.2 ht)

theorem Cpsr.writeControl_next {m : Mode} (h : c = true ∧ p.mode ≠ .usr)
    (hm : Mode.ofCode (v.extractLsb' 0 5) = some m) (ht : v.getLsbD 5 = p.t) :
    p.writeControl c v = .next { p with i := v.getLsbD 7, f := v.getLsbD 6, mode := m } := by
  rw [Cpsr.writeControl, if_pos (controlWritten_iff.2 h), hm]
  exact if_neg fun hne => bne_iff_ne.1 hne ht

end

/-- The flags field by the mask, as `psr_write` has it (R353). -/
theorem Cpsr.writeFlags_flags (p : Cpsr) (f : Bool) (v : Word) :
    if f then (p.writeFlags f v).n = v.getLsbD 31 ∧ (p.writeFlags f v).z = v.getLsbD 30 ∧
        (p.writeFlags f v).c = v.getLsbD 29 ∧ (p.writeFlags f v).v = v.getLsbD 28
      else (p.writeFlags f v).n = p.n ∧ (p.writeFlags f v).z = p.z ∧ (p.writeFlags f v).c = p.c ∧
        (p.writeFlags f v).v = p.v := by
  cases f <;> exact ⟨rfl, rfl, rfl, rfl⟩

/-- The flags field is no part of the control field. -/
theorem Cpsr.writeFlags_control (p : Cpsr) (f : Bool) (v : Word) : (p.writeFlags f v).i = p.i ∧
    (p.writeFlags f v).f = p.f ∧ (p.writeFlags f v).t = p.t ∧ (p.writeFlags f v).mode = p.mode := by
  cases f <;> exact ⟨rfl, rfl, rfl, rfl⟩

theorem msrBody_cpsr (mask : BitVec 4) (v : Word) (s : State) : msrBody false mask v s =
    andThen ((s.cpu.cpsr.writeFlags (mask.getLsbD 3) v).writeControl (mask.getLsbD 0) v) fun q =>
      .next (s.setCpsr q).advancePc :=
  andThen_assoc _ _ _

/-- Replacing CPSR without a change of T ends an instruction like any other (10_state.md R40). -/
theorem State.setCpsr_advanced (s : State) {q : Cpsr} (ht : q.t = s.cpu.cpsr.t) :
    Advanced s.cpu.fetchType s ((s.setHazard false).setCpsr q).advancePc :=
  ⟨by rw [State.advancePc_pc, Cpu.w, State.setCpsr_cpsr, ht]; rfl, rfl, ⟨rfl, rfl⟩, rfl⟩

/-- Settles O37: the flags field is written first, then `Cpsr.writeControl` has the four cases. -/
theorem msrWritesCpsr : Obligations.MsrWritesCpsr := by
  unfold Obligations.MsrWritesCpsr
  intro i s p h he hp control flagsOk rest
  obtain ⟨hi, hf, ht, hmode⟩ := s.cpu.cpsr.writeFlags_control (p.mask.getLsbD 3) p.value
  have hflags : flagsOk (s.cpu.cpsr.writeFlags (p.mask.getLsbD 3) p.value) := Cpsr.writeFlags_flags _ _ _
  have hexec : exec i s = andThen ((s.cpu.cpsr.writeFlags (p.mask.getLsbD 3) p.value).writeControl
      (p.mask.getLsbD 0) p.value) fun q => .next ((s.setHazard false).setCpsr q).advancePc := by
    rw [exec_asMsr h he, hp]; exact msrBody_cpsr _ _ _
  have hrest (q : Cpsr) (hq : q.t = s.cpu.cpsr.t) : rest ((s.setHazard false).setCpsr q).advancePc :=
    ⟨hq, rfl, fun m => by simp, fun _ _ => rfl, s.setCpsr_advanced hq, rfl⟩
  have hcontrol : control ↔ p.mask.getLsbD 0 = true ∧
      (s.cpu.cpsr.writeFlags (p.mask.getLsbD 3) p.value).mode ≠ .usr := by rw [hmode]
  rw [hexec]
  refine ⟨fun hc => ?_, fun hc hm => ?_, fun m hc hm => ⟨fun hne => ?_, fun heq => ?_⟩⟩
  · rw [Cpsr.writeControl_kept (mt hcontrol.2 hc)]
    exact ⟨_, rfl, hflags, hi, hf, hmode, hrest _ ht⟩
  · rw [Cpsr.writeControl_invalidMode (hcontrol.1 hc) hm]; rfl
  · rw [Cpsr.writeControl_tChange (hcontrol.1 hc) hm (by rwa [ht])]; rfl
  · rw [Cpsr.writeControl_next (hcontrol.1 hc) hm (by rwa [ht])]
    exact ⟨_, rfl, hflags, rfl, rfl, rfl, hrest _ ht⟩

end Sys2Proof.Machine

namespace Sys2Proof.Machine
open Sys2Proof

/-! ## The end of a THUMB operation (44_thumb_alu.md sections 1, 2 and 5) -/

theorem lowReg_ne_pcReg : ∀ r : LowReg, r.toReg ≠ pcReg := by decide

section
variable {s t : State} (test : Bool) (rd : LowReg) (o : AluOut)

theorem thumbFinish_x (t : State) : (thumbFinish false rd o t).x rd.toReg = o.r := by
  have hrd := lowReg_ne_pcReg rd
  exact (State.advancePc_x _ hrd).trans (State.setX_x_same t o.r hrd)

theorem flagsOf_thumbFinish (t : State) : FlagsOf o.r o.c o.v (thumbFinish test rd o t).cpu.cpsr :=
  flagsOf_setAluFlags _ o

/-- A comparison writes no register, any other operation Rd alone. -/
theorem keeps_thumbFinish (hc : t.cpu = { s.cpu with ubankHazard := false }) :
    Keeps (if test then [] else [s.place rd.toReg]) s (thumbFinish test rd o t) := by
  cases test with
  | true => exact (keeps_setAluFlags hc o).advancePc
  | false => exact (keeps_setX_setAluFlagsIf hc rd.toReg o.r true o).advancePc

theorem advanced_thumbFinish (hc : t.cpu = { s.cpu with ubankHazard := false }) :
    Advanced s.cpu.fetchType s (thumbFinish test rd o t) := by
  cases test with
  | true => exact advanced_setAluFlags hc o
  | false => exact advanced_setX_setAluFlagsIf hc rd.toReg o.r true o

@[simp] theorem thumbFinish_mem (t : State) : (thumbFinish test rd o t).mem = t.mem := by cases test <;> rfl

@[simp] theorem thumbFinish_dev (t : State) : (thumbFinish test rd o t).dev = t.dev := by cases test <;> rfl

end

/-- Settles O41: `thumbFinish` with the shifter's output, after the internal cycle if the amount is a register's. -/
theorem thumbShifts : Obligations.ThumbShifts := by
  unfold Obligations.ThumbShifts
  intro i s p h he out
  have hc : (if p.reg then (s.setHazard false).idle else s.setHazard false).cpu =
      { s.cpu with ubankHazard := false } := by split <;> rfl
  refine ⟨_, exec_asThumbShift h he, thumbFinish_x _ _ _, flagsOf_thumbFinish _ _ ⟨_, _, _⟩ _,
    keeps_thumbFinish false _ _ hc, fun _ _ => ?_, advanced_thumbFinish _ _ _ hc, ?_⟩
  · rw [thumbFinish_mem]; split <;> rfl
  · rw [thumbFinish_dev]; split <;> rfl

/-- Settles O42: `thumbFinish` with the output of `AluOp.apply_eq`, the carry standing for the shifter's. -/
theorem thumbAluWrites : Obligations.ThumbAluWrites := by
  unfold Obligations.ThumbAluWrites
  intro i s p h he r
  have hend := exec_asThumbAlu h he
  rw [AluOp.apply_eq] at hend
  have hc : (s.setHazard false).cpu = { s.cpu with ubankHazard := false } := rfl
  refine ⟨_, hend, fun htest => ?_, flagsOf_thumbFinish _ _ ⟨_, _, _⟩ _, keeps_thumbFinish _ _ _ hc, fun _ _ => ?_,
    advanced_thumbFinish _ _ _ hc, thumbFinish_dev _ _ _ _⟩
  · rw [htest]; exact thumbFinish_x _ _ _
  · rw [thumbFinish_mem]; rfl

/-! ## The hi-register forms (44_thumb_alu.md R392 to R394) -/

theorem State.writeOrBranch_pc (s : State) (v : Word) : s.writeOrBranch pcReg v = s.branchTo v := if_pos rfl

theorem State.writeOrBranch_of_ne (s : State) {rd : Reg} (v : Word) (h : rd ≠ pcReg) :
    s.writeOrBranch rd v = (s.setX rd v).advancePc := if_neg h

/-- The hi-register ADD and MOV write what they compute as `State.writeOrBranch` does. -/
theorem exec_hiWrites {i : Instr} {s : State} {hs hd : Reg} (h : i = .tAddHi hs hd ∨ i = .tMovHi hs hd)
    (he : i.Executes s) : exec i s = .next ((s.setHazard false).writeOrBranch hd
      (if i = .tAddHi hs hd then s.x hd + s.x hs else s.x hs)) := by
  obtain rfl | rfl := h
  · rw [if_pos rfl]
    exact thumbInstr_runs (fun s => .next (s.writeOrBranch hd (s.x hd + s.x hs))) he rfl
  · rw [if_neg nofun]
    exact thumbInstr_runs (fun s => .next (s.writeOrBranch hd (s.x hs))) he rfl

/-- The hi-register CMP is the CMP of data processing on its two registers. -/
theorem exec_tCmpHi {s : State} {hs hd : Reg} (he : (Instr.tCmpHi hs hd).Executes s) : exec (.tCmpHi hs hd) s =
    .next ((s.setHazard false).setAluFlags
      (AluOp.cmp.apply (s.x hd) (s.x hs) s.cpu.cpsr.c s.cpu.cpsr)).advancePc :=
  thumbInstr_runs (fun s => .next (s.setAluFlags (addWithCarry (s.x hd) (~~~(s.x hs)) true)).advancePc) he rfl

/-- Settles O43: ADD and MOV end with `State.writeOrBranch`, a flush for r15 and a register write for any other; CMP
ends with the flags of `AluOp.apply_eq`. -/
theorem thumbHiRegisters : Obligations.ThumbHiRegisters := by
  unfold Obligations.ThumbHiRegisters
  intro i s hs hd he
  have hc : (s.setHazard false).cpu = { s.cpu with ubankHazard := false } := rfl
  constructor
  · intro h r
    have hend : exec i s = .next ((s.setHazard false).writeOrBranch hd r) := exec_hiWrites h he
    rw [hend]
    by_cases hpc : hd = pcReg
    · rw [hpc, State.writeOrBranch_pc]
      exact ⟨_, rfl, keepsFlags_branchTo hc _, (absurd rfl ·),
        fun _ => ⟨keeps_branchTo hc _, State.branchTo_flushed (s := s.setHazard false) _ rfl⟩⟩
    · rw [State.writeOrBranch_of_ne _ _ hpc]
      refine ⟨_, rfl, (keepsFlags_setX hc _ _).advancePc, fun _ => ⟨?_, (keeps_setX hc _ _).advancePc, fun _ _ => rfl,
        advanced_setX hc _ _, rfl⟩, fun heq => absurd heq hpc⟩
      rw [State.advancePc_x _ hpc, State.setX_x_same _ _ hpc]
  · rintro rfl
    have hend := exec_tCmpHi he
    rw [AluOp.apply_eq] at hend
    exact ⟨_, hend, flagsOf_setAluFlags _ ⟨_, _, _⟩, (keeps_setAluFlags hc _).advancePc, fun _ _ => rfl,
      advanced_setAluFlags hc _, rfl⟩

end Sys2Proof.Machine

namespace Sys2Proof.Machine
open Sys2Proof

/-! ## The THUMB single transfers (45_thumb_mem_branch.md R400 to R417) -/

/-- Settles O44: the read and the idle cycle leave the CPU alone, and one register write follows. -/
theorem thumbLoadWrites : Obligations.ThumbLoadWrites := by
  unfold Obligations.ThumbLoadWrites
  intro i s p h he w
  have hrd := lowReg_ne_pcReg p.rd
  have hend : exec i s = .next (State.finishLoad ((s.setHazard false).loadValue p.kind p.addr).2.idle _ _) :=
    exec_asThumbLoad h he
  rw [State.finishLoad, if_neg hrd] at hend
  have hc : ((s.setHazard false).loadValue p.kind p.addr).2.idle.cpu = { s.cpu with ubankHazard := false } := rfl
  have hr := (State.RegsOnly.of_running hc).setX p.rd.toReg ((s.setHazard false).loadValue p.kind p.addr).1
  refine ⟨_, hend, fun b hb => ?_, fun off hoff => ?_, (keeps_setX hc _ _).endData, hr.keepsFlags.endData,
    fun _ _ => ?_, hr.advanced, ?_⟩
  · rw [State.setX_endData_x _ _ hrd, State.loadValue_served hb]; rfl
  · rw [State.setX_endData_x _ _ hrd, State.loadValue_io hoff]; rfl
  · rw [State.endData_mem, State.setX_mem]; rfl
  · rw [State.endData_dev, State.setX_dev]; rfl

/-- Settles O45: a store is `State.memWrite_stored` and the end of a data access. -/
theorem thumbStoreWrites : Obligations.ThumbStoreWrites := by
  unfold Obligations.ThumbStoreWrites
  intro i s p h he hwf w v
  have hend : exec i s = andThen ((s.setHazard false).memWrite p.addr w v .nonseq) fun t => .next t.endData :=
    exec_asThumbStore h he
  refine ⟨fun hallowed => ?_, fun off e ht hd => ?_⟩
  · obtain ⟨t, ht, hc, hstored⟩ := State.memWrite_stored (s := s.setHazard false) (acc := .nonseq) hwf hallowed
    rw [ht, andThen_next] at hend
    have hr := State.RegsOnly.of_running hc
    have hkept : Keeps [] s t := hr.keeps fun j _ => congrArg (fun c => c.regs.get j) hc
    exact ⟨_, hend, hstored.of_mem rfl rfl, hkept.endData, hr.keepsFlags.endData, hr.advanced⟩
  · rw [hend, State.memWrite_refused (s := s.setHazard false) ht hd]; rfl

/-! ## The THUMB address forms (45_thumb_mem_branch.md R418 to R420) -/

/-- An unsigned offset in integers, where the shift to the left by k is a product with 2 ^ k (30_encoding.md R176). -/
theorem scaled_eq (k : Nat) {n : Nat} (imm : BitVec n) : scaled k imm = BitVec.ofNat 32 (2 ^ k * imm.toNat) := by
  refine BitVec.eq_of_toNat_eq ?_
  rw [scaled, BitVec.toNat_shiftLeft, Nat.shiftLeft_eq, BitVec.zeroExtend, BitVec.toNat_setWidth, BitVec.toNat_ofNat,
    Nat.mod_mul_mod, mul_comm]

/-- A word that is a sum modulo 2 ^ 32 is the sum of the words. -/
theorem eq_add_ofNat {v a : Word} {n : Nat} (h : v.toNat = (a.toNat + n) % 2 ^ 32) : v = a + BitVec.ofNat 32 n := by
  refine BitVec.eq_of_toNat_eq ?_
  rw [h, BitVec.toNat_add, BitVec.toNat_ofNat, Nat.add_mod_mod]

theorem sub_ofNat_eq (a : Word) (n : Nat) : a - BitVec.ofNat 32 n = BitVec.ofInt 32 (a.toNat - n) := by
  rw [BitVec.sub_eq_add_neg, sub_eq_add_neg, BitVec.ofInt_add, BitVec.ofInt_neg, BitVec.ofInt_natCast,
    BitVec.ofInt_natCast, BitVec.ofNat_toNat, BitVec.setWidth_eq]

/-- An instruction that only writes a register other than r15: the value, the frame and no time. -/
theorem exec_writesRegister {i : Instr} {s : State} {rd : Reg} {v : Word} (hrd : rd ≠ pcReg)
    (hend : exec i s = .next ((s.setHazard false).setX rd v).advancePc) :
    ∃ u, exec i s = .next u ∧ u.x rd = v ∧ Keeps [s.place rd] s u ∧ KeepsFlags s u ∧ KeepsBytes nowhere s u ∧
      Advanced s.cpu.fetchType s u ∧ u.dev = s.dev := by
  have hc : (s.setHazard false).cpu = { s.cpu with ubankHazard := false } := rfl
  exact ⟨_, hend, (State.advancePc_x _ hrd).trans (State.setX_x_same _ v hrd), (keeps_setX hc _ _).advancePc,
    (keepsFlags_setX hc _ _).advancePc, fun _ _ => rfl, advanced_setX hc _ _, rfl⟩

section
variable {s : State} {rd : LowReg}

theorem exec_tAddPc {imm : BitVec 8} (he : (Instr.tAddPc rd imm).Executes s) :
    exec (.tAddPc rd imm) s = .next ((s.setHazard false).setX rd.toReg (s.pcWord + scaled 2 imm)).advancePc :=
  thumbInstr_runs (fun s => .next (s.setX rd.toReg (s.pcWord + scaled 2 imm)).advancePc) he rfl

theorem exec_tAddSp {imm : BitVec 8} (he : (Instr.tAddSp rd imm).Executes s) :
    exec (.tAddSp rd imm) s = .next ((s.setHazard false).setX rd.toReg (spAddr imm s)).advancePc :=
  thumbInstr_runs (fun s => .next (s.setX rd.toReg (spAddr imm s)).advancePc) he rfl

theorem exec_tAddSpImm {neg : Bool} {imm : BitVec 7} (he : (Instr.tAddSpImm neg imm).Executes s) :
    exec (.tAddSpImm neg imm) s = .next ((s.setHazard false).setX spReg
      (if neg then s.x spReg - scaled 2 imm else s.x spReg + scaled 2 imm)).advancePc :=
  thumbInstr_runs (fun s => .next (s.setX spReg
    (if neg then s.x spReg - scaled 2 imm else s.x spReg + scaled 2 imm)).advancePc) he rfl

end

/-- Settles O46: each form is one register write, of the value that `scaled_eq` gives in integers. -/
theorem thumbAddresses : Obligations.ThumbAddresses := by
  unfold Obligations.ThumbAddresses
  intro i s rd v he h
  have hsp : spReg ≠ pcReg := by decide
  obtain ⟨r, imm, rfl, rfl, hv⟩ | ⟨r, imm, rfl, rfl, hv⟩ | ⟨imm, rfl, rfl, hv⟩ | ⟨imm, rfl, rfl, hv⟩ := h
  · have hpc : s.pcWord.toNat = s.cpu.pc.toNat / 4 * 4 := alignAddr_toNat _ _
    obtain rfl : v = s.pcWord + scaled 2 imm := by rw [scaled_eq]; exact eq_add_ofNat (hpc ▸ hv)
    exact exec_writesRegister (lowReg_ne_pcReg r) (exec_tAddPc he)
  · obtain rfl : v = spAddr imm s := by rw [spAddr, scaled_eq]; exact eq_add_ofNat hv
    exact exec_writesRegister (lowReg_ne_pcReg r) (exec_tAddSp he)
  · obtain rfl : v = s.x spReg + scaled 2 imm := by rw [scaled_eq]; exact eq_add_ofNat hv
    exact exec_writesRegister hsp (exec_tAddSpImm he)
  · obtain rfl : v = s.x spReg - scaled 2 imm := by rw [hv, scaled_eq, sub_ofNat_eq]; rfl
    exact exec_writesRegister hsp (exec_tAddSpImm he)

/-! ## The THUMB branches (45_thumb_mem_branch.md R440 to R447) -/

/-- An instruction that only branches: the flush at the target and the frame. -/
theorem exec_branches {i : Instr} {s : State} {a : Word} (hend : exec i s = .next ((s.setHazard false).branchTo a)) :
    ∃ u, exec i s = .next u ∧ Keeps [] s u ∧ KeepsFlags s u ∧ Flushed s.dev s.mem a u :=
  ⟨_, hend, keeps_branchTo rfl _, keepsFlags_branchTo rfl _, State.branchTo_flushed (s := s.setHazard false) _ rfl⟩

/-- The target of B{cond} and B in integers: twice the signed offset past PC, which is A + 4 (R440, R442). -/
theorem branchOffset_one_eq {n : Nat} (off : BitVec n) : branchOffset 1 off = BitVec.ofInt 32 (2 * off.toInt) :=
  branchOffset_eq 1 off

/-- B{cond} branches or goes on, by its condition (R440). -/
theorem exec_tBcond {s : State} {c : Cond} {off : BitVec 8} (he : (Instr.tBcond c off).Executes s) :
    exec (.tBcond c off) s = .next (if condPassed s.cpu.cpsr c
      then (s.setHazard false).branchTo (s.cpu.pc + BitVec.ofInt 32 (2 * off.toInt))
      else (s.setHazard false).advancePc) := by
  rw [← branchOffset_one_eq]
  exact thumbInstr_runs (fun s =>
    .next (if condPassed s.cpu.cpsr c then s.branchTo (s.cpu.pc + branchOffset 1 off) else s.advancePc)) he rfl

theorem exec_tB {s : State} {off : BitVec 11} (he : (Instr.tB off).Executes s) :
    exec (.tB off) s = .next ((s.setHazard false).branchTo (s.cpu.pc + BitVec.ofInt 32 (2 * off.toInt))) := by
  rw [← branchOffset_one_eq]
  exact thumbInstr_runs (fun s => .next (s.branchTo (s.cpu.pc + branchOffset 1 off))) he rfl

/-- The first half of BL leaves A + 4 and the high offset in the link register (R446). -/
theorem exec_tBlPrefix {s : State} {off : BitVec 11} (he : (Instr.tBlPrefix off).Executes s) :
    exec (.tBlPrefix off) s = .next ((s.setHazard false).setX lrReg
      (s.cpu.pc + BitVec.ofInt 32 (2 ^ 12 * off.toInt))).advancePc := by
  rw [← branchOffset_eq]
  exact thumbInstr_runs (fun s => .next (s.setX lrReg (s.cpu.pc + branchOffset 12 off)).advancePc) he rfl

/-- The second half of BL branches from the old link register, after writing it (R447). -/
theorem exec_tBlSuffix {s : State} {off : BitVec 11} (he : (Instr.tBlSuffix off).Executes s) :
    exec (.tBlSuffix off) s = .next (((s.setHazard false).setX lrReg ((s.cpu.pc - 2) ||| 1)).branchTo
      (s.x lrReg + BitVec.ofNat 32 (2 * off.toNat))) := by
  have hoff : scaled 1 off = BitVec.ofNat 32 (2 * off.toNat) := scaled_eq 1 off
  rw [← hoff, ← State.nextAddress_thumb he.set]
  exact thumbInstr_runs (fun s =>
    .next ((s.setX lrReg (s.nextAddress ||| 1)).branchTo (s.x lrReg + scaled 1 off))) he rfl

/-- Settles O47: the branches end with `State.branchTo_flushed`, the second half of BL after its register write, and
the first half of BL is a register write alone. -/
theorem thumbBranches : Obligations.ThumbBranches := by
  unfold Obligations.ThumbBranches
  intro i s he
  have hlr : lrReg ≠ pcReg := by decide
  have hc : (s.setHazard false).cpu = { s.cpu with ubankHazard := false } := rfl
  refine ⟨?_, ?_, ?_, ?_⟩
  · rintro c off rfl
    have hend := exec_tBcond he
    cases hcond : condPassed s.cpu.cpsr c with
    | true =>
      rw [hcond, if_pos rfl] at hend
      obtain ⟨u, hu, hkeeps, hflags, hflush⟩ := exec_branches hend
      exact ⟨u, hu, hkeeps, hflags, fun _ => hflush, nofun⟩
    | false =>
      rw [hcond, if_neg Bool.false_ne_true] at hend
      have hr := State.RegsOnly.of_running hc
      exact ⟨_, hend, (hr.keeps fun _ _ => rfl).advancePc, hr.keepsFlags.advancePc, nofun,
        fun _ => ⟨fun _ _ => rfl, ⟨rfl, rfl, ⟨rfl, rfl⟩, rfl⟩, rfl⟩⟩
  · rintro off rfl
    exact exec_branches (exec_tB he)
  · rintro off rfl
    exact exec_writesRegister hlr (exec_tBlPrefix he)
  · rintro off rfl
    refine ⟨_, exec_tBlSuffix he, ?_, (keeps_setX hc _ _).branchTo _, (keepsFlags_setX hc _ _).branchTo _, ?_⟩
    · rw [State.branchTo_x _ _ hlr, State.setX_x_same _ _ hlr]
    · exact State.branchTo_flushed (s := (s.setHazard false).setX lrReg _) _ (State.setX_ubankHazard _ _ _)

end Sys2Proof.Machine

namespace Sys2Proof.Machine
open Sys2Proof

/-! ## Taking an IRQ (60_exceptions.md R508) -/

/-- An entry looks at the CPU and the memory of the state alone. -/
theorem Entered.of_same {s t u : State} {d : Dev} {mode : Mode} {vector lr : Word} (h : Entered t d mode vector lr u)
    (hc : t.cpu = s.cpu) (hm : t.mem = s.mem) : Entered s d mode vector lr u := by
  obtain ⟨cpsr, saved, link, flushed, regs, spsrs⟩ := h
  rw [hc] at cpsr saved regs spsrs
  exact ⟨cpsr, saved, link, hm ▸ flushed, regs, spsrs⟩

/-- The abandoned fetch takes its time, and the entry follows in the devices it leaves. -/
theorem State.takeIrq_entered (s : State) :
    Entered s (s.passAccess .opcode s.cpu.pc s.cpu.opcodeWidth s.cpu.fetchType).dev .irq 0x18 s.cpu.irqReturn
      s.takeIrq := by
  have h := (State.enterException_entered (m := .irq)
    (s := (s.memRead .opcode s.cpu.pc s.cpu.opcodeWidth s.cpu.fetchType).2.setHazard false) 0x18 s.cpu.irqReturn
    (by decide) rfl).of_setHazard
  exact h.of_same rfl rfl

/-- lr_irq in the two states, PC being two widths past the preempted instruction (10_state.md R38). -/
theorem Cpu.irqReturn_eq (c : Cpu) : c.irqReturn = if c.cpsr.t then c.pc else c.pc - 4 := by
  unfold Cpu.irqReturn Cpu.w
  split
  · rw [BitVec.sub_sub]; exact BitVec.sub_add_cancel _ _
  · exact BitVec.sub_add_cancel _ _

/-- Settles O6: the CPU step is the IRQ's, and its entry is in the state that `State.wake` leaves. -/
theorem stepTakesIrq : Obligations.StepTakesIrq := by
  unfold Obligations.StepTakesIrq
  intro s hdma hrun hirq hi
  have hdue : s.wake.irqDue = true := by rw [State.irqDue, State.wake_irqSignal, State.wake_cpu, hirq, hi]; rfl
  have hstep : step s = .next s.wake.takeIrq := by
    rw [step, Dev.runningChannel_eq_none hdma]
    simp only [State.wake_halted hrun, cpuStep, hdue, Bool.false_eq_true, if_false, if_true]
  refine ⟨_, hstep, ?_⟩
  have h := s.wake.takeIrq_entered
  rw [State.wake_cpu] at h
  rw [← Cpu.irqReturn_eq]
  exact h.of_same s.wake_cpu s.wake_mem

end Sys2Proof.Machine

namespace Sys2Proof.Machine
open Sys2Proof

/-! ## User mode (60_exceptions.md R536) -/

/-- The mode and the vector of SWI, Undefined Instruction and IRQ (60_exceptions.md R504). -/
def IsVector (m : Mode) (v : Word) : Prop :=
  (m, v) = (.svc, 0x08) ∨ (m, v) = (.und, 0x04) ∨ (m, v) = (.irq, 0x18)

/-- `u` has taken an exception from `s` (60_exceptions.md R503). -/
def State.TookException (s u : State) : Prop :=
  ∃ m v, IsVector m v ∧
    u.cpu.cpsr = { s.cpu.cpsr with mode := m, i := true, t := false } ∧
    u.cpu.spsr m = some s.cpu.cpsr.save ∧ u.cpu.pc = v + 8

/-- From usr mode there is no way to another mode but an exception. -/
def State.GuardsUser (s u : State) : Prop :=
  s.cpu.cpsr.mode = .usr → u.cpu.cpsr.mode ≠ .usr → s.TookException u

theorem State.guardsUser_of_mode {s u : State} (h : u.cpu.cpsr.mode = s.cpu.cpsr.mode) : s.GuardsUser u :=
  fun hs hu => absurd (h.trans hs) hu

theorem State.guardsUser_of_cpsr {s u : State} (h : u.cpu.cpsr = s.cpu.cpsr) : s.GuardsUser u :=
  guardsUser_of_mode (congrArg Cpsr.mode h)

/-- The flush of an entry is in ARM state, at a vector that is aligned. -/
theorem Entered.guardsUser {s u : State} {d : Dev} {m : Mode} {v lr : Word} (h : Entered s d m v lr u)
    (hv : IsVector m v) : s.GuardsUser u := by
  intro _ _
  refine ⟨m, v, hv, h.cpsr, h.saved, ?_⟩
  have hpc := h.flushed.pc
  rw [Cpu.opcodeWidth, Cpu.w, h.cpsr] at hpc
  obtain hv | hv | hv := hv <;> cases hv <;> exact hpc

/-! ## What an instruction is made of -/

theorem ends_guardsUser_memWrite {s t : State} (h : t.cpu.cpsr = s.cpu.cpsr) (a : Word) (w : Width) (v : Word)
    (acc : AccessClass) {f : State → Res State}
    (hf : ∀ u, u.cpu.cpsr = s.cpu.cpsr → Ends State.GuardsUser s (f u)) :
    Ends State.GuardsUser s (andThen (t.memWrite a w v acc) f) := fun u hu => by
  obtain ⟨m, hm, hu⟩ := andThen_eq_next.mp hu
  exact hf m ((congrArg Cpu.cpsr (State.memWrite_cpu hm).1).trans h) u hu

/-- What is refused in usr mode does not leave it. -/
theorem ends_guardsUser_refused {s : State} {c : Bool} (h : s.cpu.cpsr.mode = .usr → c = true) (e : Refusal)
    (r : Res State) : Ends State.GuardsUser s (refuseIf c e r) := fun u hu hs => by
  rw [refuseIf_of_true (h hs)] at hu
  cases hu

theorem ends_guardsUser_exceptionReturn {s t : State} (h : t.cpu.cpsr = s.cpu.cpsr) (a : Word) :
    Ends State.GuardsUser s (t.exceptionReturn a) := fun u hu hs => by
  rw [State.exceptionReturn_noSpsr _ (Cpu.spsr_of_userMode (.inl (by rw [h, hs])))] at hu
  cases hu

/-- What runs in the frame of an instruction runs after the hazard (10_state.md R72). -/
theorem ends_guardsUser_runInstr (uses : List Reg) {body : State → Res State} (s : State)
    (h : ∀ t, t.cpu.ubankHazard = false → Ends State.GuardsUser t (body t)) :
    Ends State.GuardsUser s (runInstr uses body s) := by
  unfold runInstr; split
  · exact ends_refused _
  · exact h (s.setHazard false) rfl

theorem ends_guardsUser_armInstr (cond : Cond) (uses : List Reg) {body : State → Res State} (s : State)
    (h : ∀ t, t.cpu.ubankHazard = false → Ends State.GuardsUser t (body t)) :
    Ends State.GuardsUser s (armInstr cond uses body s) := by
  unfold armInstr; split
  · exact ends_guardsUser_runInstr uses s h
  · exact ends_next (State.guardsUser_of_cpsr s.skip_cpsr)

theorem ends_guardsUser_thumbInstr (uses : List Reg) {body : State → Res State} (s : State)
    (h : ∀ t, t.cpu.ubankHazard = false → Ends State.GuardsUser t (body t)) :
    Ends State.GuardsUser s (thumbInstr uses body s) := ends_guardsUser_runInstr uses s h

/-! ## The parts of an instruction that leave CPSR, or its mode -/

@[simp] theorem State.writeBack_cpsr (s : State) (wb : Bool) (rn : Reg) (v : Word) :
    (s.writeBack wb rn v).cpu.cpsr = s.cpu.cpsr := by
  cases wb
  · rfl
  · exact s.setX_cpsr rn v

theorem State.writeRegs_cpsr {write : State → Reg → Word → State}
    (hw : ∀ s i v, (write s i v).cpu.cpsr = s.cpu.cpsr) (vs : List (Reg × Word)) (s : State) :
    (s.writeRegs write vs).cpu.cpsr = s.cpu.cpsr := by
  unfold State.writeRegs
  induction vs generalizing s with
  | nil => rfl
  | cons p rest ih =>
    rw [List.foldl_cons, ih]
    split
    · rfl
    · exact hw _ _ _

theorem ldmLoads_cpsr (s : State) (wb : Bool) (rn : Reg) (list : BitVec 16) (a back : Word) :
    (ldmLoads s wb rn list a back).2.cpu.cpsr = s.cpu.cpsr := by
  have h := State.writeBack_cpsr (State.readBlock (blockRegs list) (alignAddr a .word) .nonseq s).2
    (ldmWritesBack wb rn list) rn back
  rw [State.readBlock_cpu] at h
  exact h

theorem State.finishLdm_cpsr (s : State) (vs : List (Reg × Word)) : (s.finishLdm vs).cpu.cpsr = s.cpu.cpsr := by
  unfold State.finishLdm
  dsimp only
  split
  · rw [State.branchTo_cpsr, State.writeRegs_cpsr State.setX_cpsr]
  · rw [State.endData_cpsr, State.writeRegs_cpsr State.setX_cpsr]

theorem State.finishLoad_cpsr (s : State) (rd : Reg) (v : Word) : (s.finishLoad rd v).cpu.cpsr = s.cpu.cpsr := by
  unfold State.finishLoad; split <;> simp

theorem State.writeOrBranch_cpsr (s : State) (rd : Reg) (v : Word) :
    (s.writeOrBranch rd v).cpu.cpsr = s.cpu.cpsr := by
  unfold State.writeOrBranch; split <;> simp

@[simp] theorem State.setAluFlagsIf_mode (s : State) (sf : Bool) (o : AluOut) :
    (s.setAluFlagsIf sf o).cpu.cpsr.mode = s.cpu.cpsr.mode := by
  cases sf <;> rfl

theorem mulFinish_mode (n : Nat) (sf : Bool) (rd : Reg) (r : Word) (s : State) :
    (mulFinish n sf rd r s).cpu.cpsr.mode = s.cpu.cpsr.mode := by
  have h : ((s.idles n).setX rd r).cpu.cpsr.mode = s.cpu.cpsr.mode := by simp
  cases sf <;> exact h

theorem mulLongFinish_mode (n : Nat) (sf : Bool) (rdHi rdLo : Reg) (p : BitVec 64) (s : State) :
    (mulLongFinish n sf rdHi rdLo p s).cpu.cpsr.mode = s.cpu.cpsr.mode := by
  have h : (((s.idles n).setX rdLo (p.extractLsb' 0 32)).setX rdHi (p.extractLsb' 32 32)).cpu.cpsr.mode =
      s.cpu.cpsr.mode := by simp
  cases sf <;> exact h

theorem thumbFinish_mode (test : Bool) (rd : LowReg) (o : AluOut) (s : State) :
    (thumbFinish test rd o s).cpu.cpsr.mode = s.cpu.cpsr.mode := by
  have h : (s.setX rd.toReg o.r).cpu.cpsr.mode = s.cpu.cpsr.mode := by simp
  cases test
  · exact h
  · rfl

/-! ## The shared operations -/

theorem ends_guardsUser_dataProc (op : AluOp) (cond : Cond) (sf : Bool) (rn rd : Reg) (o : Operand2) (s : State) :
    Ends State.GuardsUser s (dataProc op cond sf rn rd o s) := by
  refine ends_guardsUser_armInstr _ _ s fun t _ => ends_refuseIf _ _ (ends_refuseQuirk _ _ ?_)
  unfold dpFinish
  split
  · exact ends_next (State.guardsUser_of_mode (by simp))
  · split
    · split
      · exact ends_guardsUser_exceptionReturn (by simp) _
      · exact ends_next (State.guardsUser_of_cpsr (by simp))
    · exact ends_next (State.guardsUser_of_mode (by simp))

theorem ends_guardsUser_mulCore (cond : Cond) (sf : Bool) (rd rs rm : Reg) (uses : List Reg) (acc : State → Word)
    (extra : Nat) (s : State) : Ends State.GuardsUser s (mulCore cond sf rd rs rm uses acc extra s) :=
  ends_guardsUser_armInstr _ _ s fun _ _ =>
    ends_refuseIf _ _ (ends_refuseQuirk _ _ (ends_next (State.guardsUser_of_mode (mulFinish_mode _ _ _ _ _))))

theorem ends_guardsUser_mulLongCore (signed : Bool) (cond : Cond) (sf : Bool) (rdHi rdLo rs rm : Reg)
    (acc : State → BitVec 64) (extra : Nat) (s : State) :
    Ends State.GuardsUser s (mulLongCore signed cond sf rdHi rdLo rs rm acc extra s) :=
  ends_guardsUser_armInstr _ _ s fun _ _ =>
    ends_refuseIf _ _ (ends_refuseQuirk _ _ (ends_next (State.guardsUser_of_mode (mulLongFinish_mode _ _ _ _ _ _))))

theorem ends_guardsUser_loadAt (k : LoadKind) (a : Word) (wb : Bool) (rn rd : Reg) (moved : Word) (s : State) :
    Ends State.GuardsUser s (loadAt k a wb rn rd moved s) :=
  ends_refuseQuirk _ _ (ends_next (State.guardsUser_of_cpsr
    ((State.finishLoad_cpsr _ _ _).trans (State.writeBack_cpsr _ _ _ _))))

theorem ends_guardsUser_storeAt (k : StoreKind) (a v : Word) (wb : Bool) (rn : Reg) (moved : Word) (s : State) :
    Ends State.GuardsUser s (storeAt k a v wb rn moved s) :=
  ends_refuseQuirk _ _ (ends_guardsUser_memWrite rfl _ _ _ _ fun u h =>
    ends_next (State.guardsUser_of_cpsr ((u.writeBack_cpsr wb rn moved).trans h)))

theorem ends_guardsUser_loadInstr (k : LoadKind) (cond : Cond) (ix : Indexing) (up : Bool) (rn rd : Reg) (o : Offset)
    (s : State) : Ends State.GuardsUser s (loadInstr k cond ix up rn rd o s) :=
  ends_guardsUser_armInstr _ _ s fun t _ =>
    ends_refuseIf _ _ (ends_refuseQuirk _ _ (ends_guardsUser_loadAt _ _ _ _ _ _ t))

theorem ends_guardsUser_storeInstr (k : StoreKind) (cond : Cond) (ix : Indexing) (up : Bool) (rn rd : Reg) (o : Offset)
    (s : State) : Ends State.GuardsUser s (storeInstr k cond ix up rn rd o s) :=
  ends_guardsUser_armInstr _ _ s fun t _ =>
    ends_refuseIf _ _ (ends_refuseQuirk _ _ (ends_refuseQuirk _ _ (ends_guardsUser_storeAt _ _ _ _ _ _ t)))

theorem ends_guardsUser_swapInstr (lk : LoadKind) (sk : StoreKind) (cond : Cond) (rn rd rm : Reg) (s : State) :
    Ends State.GuardsUser s (swapInstr lk sk cond rn rd rm s) :=
  ends_guardsUser_armInstr _ _ s fun t _ => ends_refuseIf _ _ (ends_refuseQuirk _ _ (ends_refuseQuirk _ _
    (ends_guardsUser_memWrite (t := (t.loadValue lk (t.x rn)).2) rfl _ _ _ _ fun u h =>
      ends_next (State.guardsUser_of_cpsr ((u.idle.setX_cpsr rd _).trans h)))))

theorem ends_guardsUser_writeBlock {s : State} (value : State → Reg → Word) {after : State → State}
    (ha : ∀ t, (after t).cpu.cpsr = t.cpu.cpsr) (regs : List Reg) (a : Word) (acc : AccessClass) (t : State)
    (h : t.cpu.cpsr = s.cpu.cpsr) : Ends State.GuardsUser s
      (andThen (State.writeBlock value after regs a acc t) fun u => .next u.endData) := by
  induction regs generalizing after a acc t with
  | nil => exact ends_next (State.guardsUser_of_cpsr h)
  | cons i rest ih =>
    unfold State.writeBlock
    rw [andThen_assoc]
    exact ends_guardsUser_memWrite h _ _ _ _ fun u hu => ih (fun _ => rfl) _ _ _ ((ha u).trans hu)

theorem ends_guardsUser_ldmCore (mode : BlockMode) (wb : Bool) (rn : Reg) (list : BitVec 16) (s : State) :
    Ends State.GuardsUser s (ldmCore mode wb rn list s) :=
  ends_refuseIf _ _ (ends_refuseQuirk _ _ (ends_refuseQuirk _ _ (ends_next (State.guardsUser_of_cpsr
    ((State.finishLdm_cpsr _ _).trans (ldmLoads_cpsr _ _ _ _ _ _))))))

theorem ends_guardsUser_stmCore (mode : BlockMode) (wb : Bool) (rn : Reg) (list : BitVec 16) (s : State) :
    Ends State.GuardsUser s (stmCore mode wb rn list s) :=
  ends_refuseIf _ _ (ends_refuseQuirk _ _ (ends_refuseQuirk _ _
    (ends_guardsUser_writeBlock _ (fun t => t.writeBack_cpsr _ _ _) _ _ _ s rfl)))

theorem ends_guardsUser_ldmInstr (mode : BlockMode) (cond : Cond) (wb : Bool) (rn : Reg) (list : BitVec 16)
    (s : State) : Ends State.GuardsUser s (ldmInstr mode cond wb rn list s) :=
  ends_guardsUser_armInstr _ _ s fun t _ => ends_refuseIf _ _ (ends_guardsUser_ldmCore _ _ _ _ t)

theorem ends_guardsUser_stmInstr (mode : BlockMode) (cond : Cond) (wb : Bool) (rn : Reg) (list : BitVec 16)
    (s : State) : Ends State.GuardsUser s (stmInstr mode cond wb rn list s) :=
  ends_guardsUser_armInstr _ _ s fun t _ =>
    ends_refuseIf _ _ (ends_refuseQuirk _ _ (ends_guardsUser_stmCore _ _ _ _ t))

/-- The block transfers with S = 1 are refused in usr mode, which has no SPSR (42_arm_loadstore.md R311, R312). -/
theorem ends_guardsUser_ldmSInstr (mode : BlockMode) (cond : Cond) (wb : Bool) (rn : Reg) (list : BitVec 16)
    (s : State) : Ends State.GuardsUser s (ldmSInstr mode cond wb rn list s) :=
  ends_guardsUser_armInstr _ _ s fun _ _ =>
    ends_guardsUser_refused (fun hs => by simp [Cpu.noSpsr_of_userMode (.inl hs)]) _ _

theorem ends_guardsUser_stmSInstr (mode : BlockMode) (cond : Cond) (wb : Bool) (rn : Reg) (list : BitVec 16)
    (s : State) : Ends State.GuardsUser s (stmSInstr mode cond wb rn list s) :=
  ends_guardsUser_armInstr _ _ s fun _ _ =>
    ends_guardsUser_refused (fun hs => by simp [Cpu.noSpsr_of_userMode (.inl hs)]) _ _

theorem ends_guardsUser_bxTo (a : Word) (s : State) : Ends State.GuardsUser s (bxTo a s) :=
  ends_refuseQuirk _ _ (ends_next (State.guardsUser_of_mode (by simp)))

theorem ends_guardsUser_mrsBody (spsr : Bool) (rd : Reg) (s : State) :
    Ends State.GuardsUser s (mrsBody spsr rd s) := by
  unfold mrsBody; split
  · split
    · exact ends_refused _
    · exact ends_next (State.guardsUser_of_cpsr (by simp))
  · exact ends_next (State.guardsUser_of_cpsr (by simp))

/-- MSR writes no mode from usr mode: it has no SPSR there, and keeps the control field of CPSR
(43_arm_branch_system.md R353, R354). -/
theorem ends_guardsUser_msrBody (spsr : Bool) (mask : BitVec 4) (v : Word) (s : State) :
    Ends State.GuardsUser s (msrBody spsr mask v s) := fun u hu hs hm => by
  refine absurd ?_ hm
  cases spsr with
  | true =>
    rw [msrBody_noSpsr _ _ (Cpu.spsr_of_userMode (.inl hs))] at hu
    cases hu
  | false =>
    obtain ⟨-, -, -, hmode⟩ := s.cpu.cpsr.writeFlags_control (mask.getLsbD 3) v
    rw [msrBody_cpsr, Cpsr.writeControl_kept fun hc => hc.2 (hmode.trans hs)] at hu
    cases hu
    exact hmode.trans hs

theorem ends_guardsUser_thumbShift (sh : ShiftType) (n : BitVec 5) (rs rd : LowReg) (s : State) :
    Ends State.GuardsUser s (thumbShift sh n rs rd s) :=
  ends_guardsUser_thumbInstr _ s fun _ _ => ends_next (State.guardsUser_of_mode (thumbFinish_mode _ _ _ _))

theorem ends_guardsUser_thumbAlu (op : AluOp) (a b : State → Word) (rd : LowReg) (s : State) :
    Ends State.GuardsUser s (thumbAlu op a b rd s) :=
  ends_guardsUser_thumbInstr _ s fun _ _ => ends_next (State.guardsUser_of_mode (thumbFinish_mode _ _ _ _))

theorem ends_guardsUser_thumbShiftReg (sh : ShiftType) (rs rd : LowReg) (s : State) :
    Ends State.GuardsUser s (thumbShiftReg sh rs rd s) :=
  ends_guardsUser_thumbInstr _ s fun t _ => ends_next (State.guardsUser_of_mode (thumbFinish_mode _ _ _ t.idle))

theorem ends_guardsUser_thumbLoad (k : LoadKind) (uses : List Reg) (rd : LowReg) (addr : State → Word) (s : State) :
    Ends State.GuardsUser s (thumbLoad k uses rd addr s) :=
  ends_guardsUser_thumbInstr _ s fun t _ => ends_guardsUser_loadAt _ _ _ _ _ _ t

theorem ends_guardsUser_thumbStore (k : StoreKind) (uses : List Reg) (rd : LowReg) (addr : State → Word) (s : State) :
    Ends State.GuardsUser s (thumbStore k uses rd addr s) :=
  ends_guardsUser_thumbInstr _ s fun t _ => ends_guardsUser_storeAt _ _ _ _ _ _ t

theorem ends_guardsUser_tBcond (cond : Cond) (off : BitVec 8) (s : State) :
    Ends State.GuardsUser s (execTBcond cond off s) := by
  refine ends_guardsUser_thumbInstr _ s fun t _ => ends_next ?_
  split
  · exact State.guardsUser_of_cpsr (t.branchTo_cpsr _)
  · exact State.guardsUser_of_cpsr t.advancePc_cpsr

theorem ends_guardsUser_raiseSwi {s : State} (h : s.cpu.ubankHazard = false) :
    Ends State.GuardsUser s (.next s.raiseSwi) :=
  ends_next ((State.enterException_entered _ _ (by decide) h).guardsUser (.inl rfl))

theorem ends_guardsUser_raiseUndefined {s : State} (h : s.cpu.ubankHazard = false) :
    Ends State.GuardsUser s (.next s.raiseUndefined) :=
  ends_next ((State.enterException_entered _ _ (by decide) h).guardsUser (.inr (.inl rfl)))

/-! ## Every instruction and every step -/

/-- No instruction leaves usr mode but by an exception, in whatever state it runs. -/
theorem exec_guardsUser (i : Instr) (s : State) : Ends State.GuardsUser s (exec i s) := by
  cases i with
  | bx => exact ends_guardsUser_armInstr _ _ s fun t _ => ends_guardsUser_bxTo _ t
  | mul | mla => exact ends_guardsUser_mulCore _ _ _ _ _ _ _ _ s
  | umull | umlal | smull | smlal => exact ends_guardsUser_mulLongCore _ _ _ _ _ _ _ _ _ s
  | swp | swpb => exact ends_guardsUser_swapInstr _ _ _ _ _ _ s
  | armUnallocMul | hwUnalloc | hwUnpred | armUnallocCtrl =>
    exact ends_guardsUser_armInstr _ _ s fun _ _ => ends_refused _
  | strhImm | strhReg | strImm | strReg | strtImm | strtReg | strbImm | strbReg | strbtImm | strbtReg =>
    exact ends_guardsUser_storeInstr _ _ _ _ _ _ _ s
  | ldrhImm | ldrhReg | ldrsbImm | ldrsbReg | ldrshImm | ldrshReg | ldrImm | ldrReg | ldrtImm | ldrtReg | ldrbImm
    | ldrbReg | ldrbtImm | ldrbtReg =>
    exact ends_guardsUser_loadInstr _ _ _ _ _ _ _ s
  | mrs => exact ends_guardsUser_armInstr _ _ s fun t _ => ends_refuseIf _ _ (ends_guardsUser_mrsBody _ _ t)
  | msrReg => exact ends_guardsUser_armInstr _ _ s fun t _ => ends_refuseIf _ _ (ends_guardsUser_msrBody _ _ _ t)
  | msrImm => exact ends_guardsUser_armInstr _ _ s fun t _ => ends_guardsUser_msrBody _ _ _ t
  | und | ldcStc | cdp | mrcMcr =>
    exact ends_guardsUser_armInstr _ _ s fun _ h => ends_guardsUser_raiseUndefined h
  | swi => exact ends_guardsUser_armInstr _ _ s fun _ h => ends_guardsUser_raiseSwi h
  | stmIa | stmIb | stmDa | stmDb => exact ends_guardsUser_stmInstr _ _ _ _ _ s
  | stmSIa | stmSIb | stmSDa | stmSDb => exact ends_guardsUser_stmSInstr _ _ _ _ _ s
  | ldmIa | ldmIb | ldmDa | ldmDb => exact ends_guardsUser_ldmInstr _ _ _ _ _ s
  | ldmSIa | ldmSIb | ldmSDa | ldmSDb => exact ends_guardsUser_ldmSInstr _ _ _ _ _ s
  | b | bl => exact ends_guardsUser_armInstr _ _ s fun _ _ => ends_next (State.guardsUser_of_cpsr (by simp))
  | tLslImm | tLsrImm | tAsrImm =>
    dsimp only [exec, execTLslImm, execTLsrImm, execTAsrImm]
    exact ends_guardsUser_thumbShift _ _ _ _ s
  | tAddReg | tSubReg | tAddImm3 | tSubImm3 | tMovImm8 | tCmpImm8 | tAddImm8 | tSubImm8 | tAnd | tEor | tAdc | tSbc
    | tTst | tNeg | tCmpReg | tCmn | tOrr | tBic | tMvn =>
    dsimp only [exec, execTAddReg, execTSubReg, execTAddImm3, execTSubImm3, execTMovImm8, execTCmpImm8, execTAddImm8,
      execTSubImm8, execTAnd, execTEor, execTAdc, execTSbc, execTTst, execTNeg, execTCmpReg, execTCmn, execTOrr,
      execTBic, execTMvn]
    exact ends_guardsUser_thumbAlu _ _ _ _ s
  | tLslReg | tLsrReg | tAsrReg | tRorReg =>
    dsimp only [exec, execTLslReg, execTLsrReg, execTAsrReg, execTRorReg]
    exact ends_guardsUser_thumbShiftReg _ _ _ s
  | tMul =>
    dsimp only [exec, execTMul]
    exact ends_guardsUser_thumbInstr _ s fun _ _ =>
      ends_refuseQuirk _ _ (ends_next (State.guardsUser_of_mode (mulFinish_mode _ _ _ _ _)))
  | tAddHi | tMovHi =>
    dsimp only [exec, execTAddHi, execTMovHi]
    exact ends_guardsUser_thumbInstr _ s fun _ _ =>
      ends_refuseQuirk _ _ (ends_next (State.guardsUser_of_cpsr (State.writeOrBranch_cpsr _ _ _)))
  | tCmpHi =>
    dsimp only [exec, execTCmpHi]
    exact ends_guardsUser_thumbInstr _ s fun _ _ =>
      ends_refuseQuirk _ _ (ends_next (State.guardsUser_of_mode (by simp)))
  | tBx => exact ends_guardsUser_thumbInstr _ s fun t _ => ends_refuseQuirk _ _ (ends_guardsUser_bxTo _ t)
  | tLdrPc | tLdrReg | tLdrbReg | tLdrhReg | tLdsbReg | tLdshReg | tLdrImm | tLdrbImm | tLdrhImm | tLdrSp =>
    dsimp only [exec, execTLdrPc, execTLdrReg, execTLdrbReg, execTLdrhReg, execTLdsbReg, execTLdshReg, execTLdrImm,
      execTLdrbImm, execTLdrhImm, execTLdrSp]
    exact ends_guardsUser_thumbLoad _ _ _ _ s
  | tStrReg | tStrbReg | tStrhReg | tStrImm | tStrbImm | tStrhImm | tStrSp =>
    dsimp only [exec, execTStrReg, execTStrbReg, execTStrhReg, execTStrImm, execTStrbImm, execTStrhImm, execTStrSp]
    exact ends_guardsUser_thumbStore _ _ _ _ s
  | tAddPc | tAddSp | tAddSpImm | tBlPrefix =>
    dsimp only [exec, execTAddPc, execTAddSp, execTAddSpImm, execTBlPrefix]
    exact ends_guardsUser_thumbInstr _ s fun _ _ => ends_next (State.guardsUser_of_cpsr (by simp))
  | tPush | tStmia =>
    dsimp only [exec, execTPush, execTStmia]
    exact ends_guardsUser_thumbInstr _ s fun t _ => ends_guardsUser_stmCore _ _ _ _ t
  | tPop | tLdmia =>
    dsimp only [exec, execTPop, execTLdmia]
    exact ends_guardsUser_thumbInstr _ s fun t _ => ends_guardsUser_ldmCore _ _ _ _ t
  | tUnalloc => exact ends_guardsUser_thumbInstr _ s fun _ _ => ends_refused _
  | tSwi => exact ends_guardsUser_thumbInstr _ s fun _ h => ends_guardsUser_raiseSwi h
  | tBcond => exact ends_guardsUser_tBcond _ _ s
  | tB | tBlSuffix =>
    dsimp only [exec, execTB, execTBlSuffix]
    exact ends_guardsUser_thumbInstr _ s fun _ _ => ends_next (State.guardsUser_of_cpsr (by simp))
  -- what is left is data processing
  | _ => exact ends_guardsUser_dataProc _ _ _ _ _ _ s

theorem cpuStep_guardsUser (s : State) : Ends State.GuardsUser s (cpuStep s) := by
  unfold cpuStep; split
  · exact ends_next (s.takeIrq_entered.guardsUser (.inr (.inr rfl)))
  · exact exec_guardsUser s.cpu.currentInstr s.fetchStage

/-- Settles O48: the DMA engine and a halted CPU leave CPSR, an IRQ is an entry, and no instruction but the entries
writes the mode of usr. -/
theorem userModeLeavesByException : Obligations.UserModeLeavesByException := by
  unfold Obligations.UserModeLeavesByException
  intro s u h hs hu
  unfold step at h
  split at h
  · exact State.guardsUser_of_cpsr (congrArg Cpu.cpsr (dmaStep_cpu h)) hs hu
  · split at h
    · exact State.guardsUser_of_cpsr (congrArg Cpu.cpsr ((State.sleep_cpu h).trans s.wake_cpu)) hs hu
    · have hw := cpuStep_guardsUser s.wake u h
      rw [State.GuardsUser, State.TookException, State.wake_cpu] at hw
      exact hw hs hu

end Sys2Proof.Machine

namespace Sys2Proof.Machine
open Sys2Proof

/-! ## What the devices post (61_scheduler.md R562, 60_exceptions.md R522) -/

/-- At one time, an operation of the devices cancels no due event, every event it posts falls due later and has a new
handle, and the IRQ signal stays. -/
structure Dev.Posts (d u : Dev) : Prop where
  now : u.now = d.now
  signal : u.irqSignal = d.irqSignal
  next : d.nextHandle ≤ u.nextHandle
  due : ∀ e ∈ d.events, e.timestamp ≤ d.now → e ∈ u.events
  posted : ∀ e ∈ u.events, e ∈ d.events ∨ (d.nextHandle ≤ e.handle ∧ d.now < e.timestamp)

theorem Dev.Posts.of_same {d u : Dev} (now : u.now = d.now) (signal : u.irqSignal = d.irqSignal)
    (next : u.nextHandle = d.nextHandle) (events : u.events = d.events) : d.Posts u :=
  ⟨now, signal, next.ge, fun _ he _ => events ▸ he, fun _ he => .inl (events ▸ he)⟩

theorem Dev.Posts.refl (d : Dev) : d.Posts d := of_same rfl rfl rfl rfl

theorem Dev.Posts.trans {d u v : Dev} (h : d.Posts u) (h' : u.Posts v) : d.Posts v where
  now := h'.now.trans h.now
  signal := h'.signal.trans h.signal
  next := h.next.trans h'.next
  due e he hd := h'.due e (h.due e he hd) (h.now ▸ hd)
  posted e he := by
    obtain he | ⟨hh, ht⟩ := h'.posted e he
    · exact h.posted e he
    · exact .inr ⟨h.next.trans hh, h.now ▸ ht⟩

/-- A change of other parts before it does not show. -/
theorem Dev.Posts.after {d u v : Dev} (h : u.Posts v) (now : u.now = d.now) (signal : u.irqSignal = d.irqSignal)
    (next : u.nextHandle = d.nextHandle) (events : u.events = d.events) : d.Posts v :=
  (of_same now signal next events).trans h

theorem Event.isIrqUpdateAt_iff (e : Event) (ts : Nat) :
    e.isIrqUpdateAt ts = true ↔ (∃ v, e.kind = .irqUpdate v) ∧ e.timestamp = ts := by
  unfold Event.isIrqUpdateAt
  split <;> simp [*]

/-- A change of the arbiter replaces the update of the next cycle, if there is one (60_exceptions.md R522). -/
theorem Dev.mem_irqChanged {d : Dev} {e : Event} : e ∈ d.irqChanged.events ↔
    (e ∈ d.events ∧ e.isIrqUpdateAt (d.now + 1) = false) ∨ e = ⟨d.now + 1, d.nextHandle, .irqUpdate d.irqLevel⟩ := by
  simp [Dev.irqChanged, Dev.addEvent, Dev.addEventAt, Config.irqDelay]

theorem posts_addEventAt (d : Dev) {ts : Nat} (h : d.now < ts) (k : EventKind) : d.Posts (d.addEventAt ts k) where
  now := rfl
  signal := rfl
  next := Nat.le_succ _
  due _ he _ := List.mem_append_left _ he
  posted e he := (List.mem_append.mp he).imp id fun he => by
    obtain rfl := List.mem_singleton.mp he
    exact ⟨Nat.le_refl _, h⟩

theorem posts_irqChanged (d : Dev) : d.Posts d.irqChanged where
  now := rfl
  signal := rfl
  next := Nat.le_succ _
  due e he hd := Dev.mem_irqChanged.mpr (.inl ⟨he, by
    rw [Bool.eq_false_iff, ne_eq, Event.isIrqUpdateAt_iff]
    exact fun h => by omega⟩)
  posted e he := (Dev.mem_irqChanged.mp he).imp And.left fun he => by
    subst he
    exact ⟨Nat.le_refl _, Nat.lt_succ_self _⟩

theorem posts_requestInterrupt (d : Dev) (k : Fin 14) : d.Posts (d.requestInterrupt k) :=
  (posts_irqChanged { d with iflag := d.iflag ||| (1 : Half) <<< k.val }).after rfl rfl rfl rfl

theorem posts_setTimer (d : Dev) (i : Fin 4) (t : Timer) : d.Posts (d.setTimer i t) := .of_same rfl rfl rfl rfl

theorem posts_trigger (d : Dev) (n : Fin 4) : d.Posts (d.trigger n) :=
  (posts_addEventAt (ts := d.now + Config.dmaStartDelay)
    (d.setChannel n { d.channel n with status := .scheduled d.nextHandle })
    (Nat.lt_add_of_pos_right (by decide)) (.dmaStart n)).after rfl rfl rfl rfl

theorem posts_answer (occ : Occasion) (d : Dev) (n : Fin 4) : d.Posts (d.answer occ n) := by
  unfold Dev.answer; split
  · exact posts_trigger d n
  · exact .refl d

theorem posts_envCalls (d : Dev) (cs : List EnvCall) : d.Posts (cs.foldl Dev.envCall d) := by
  induction cs generalizing d with
  | nil => exact .refl d
  | cons c rest ih =>
    refine .trans ?_ (ih _)
    cases c with
    | requestInterrupt k => exact posts_requestInterrupt d k
    | requestDma occ =>
      exact (((posts_answer occ d 0).trans (posts_answer occ _ 1)).trans (posts_answer occ _ 2)).trans
        (posts_answer occ _ 3)

theorem posts_overflowIrq (d : Dev) (i : Fin 4) : d.Posts (d.overflowIrq i) := by
  unfold Dev.overflowIrq; split
  · exact posts_requestInterrupt d _
  · exact .refl d

theorem posts_notifyApu (d : Dev) (i : Fin 4) : d.Posts (d.notifyApu i) := .of_same rfl rfl rfl rfl

theorem posts_overflow (is : List (Fin 4)) (d : Dev) : d.Posts (Dev.overflow is d) := by
  induction is generalizing d with
  | nil => exact .refl d
  | cons i rest ih =>
    cases rest with
    | nil => exact (posts_overflowIrq d i).trans (posts_notifyApu _ i)
    | cons j above =>
      refine (posts_overflowIrq d i).trans ?_
      unfold Dev.overflow
      dsimp only
      split
      · split
        · exact ((posts_setTimer _ j _).trans (ih _)).trans (posts_notifyApu _ i)
        · exact (posts_setTimer _ j _).trans (posts_notifyApu _ i)
      · exact posts_notifyApu _ i

theorem posts_scheduleOverflow (d : Dev) (i : Fin 4) (h : d.now ≤ (d.timer i).lastTs) :
    d.Posts (d.scheduleOverflow i) := by
  have hpos : 0 < (0x10000 - (d.timer i).base.toNat) * timerPeriod (d.timer i).control :=
    Nat.mul_pos (by have := (d.timer i).base.isLt; omega) (timerPeriod_pos _)
  refine (posts_setTimer d i { d.timer i with handle := some d.nextHandle }).trans (posts_addEventAt _ ?_ _)
  exact Nat.lt_of_le_of_lt h (Nat.lt_add_of_pos_right hpos)

/-- An event that is not late and is no update of the signal only posts when it fires (61_scheduler.md R561). -/
theorem posts_fire {d : Dev} {e : Event} (h : d.now ≤ e.timestamp) (hk : ∀ v, e.kind ≠ .irqUpdate v) :
    d.Posts (d.fire e) := by
  unfold Dev.fire
  split
  next i _ =>
    refine ((posts_setTimer d i _).trans (posts_scheduleOverflow _ i ?_)).trans (posts_overflow (timersFrom i) _)
    rw [Dev.setTimer_timer_same]
    exact h
  next => exact .of_same rfl rfl rfl rfl
  next v hv => exact absurd hv (hk v)
  next => exact posts_envCalls d _

/-! ## The delay of the IRQ signal (60_exceptions.md R519, R522) -/

/-- In the cycle of the update `f`, which sets the signal to `v`, whatever has fired: no other update of the signal is
due, no other event has the handle of `f`, and `f` is pending or the signal has its level. -/
structure Dev.Awaits (f : Event) (v : Bool) (d : Dev) : Prop where
  now : d.now = f.timestamp
  next : f.handle < d.nextHandle
  late : ∀ e ∈ d.events, f.timestamp ≤ e.timestamp
  handle : ∀ e ∈ d.events, e.handle = f.handle → e = f
  update : ∀ e ∈ d.events, e.isIrqUpdateAt f.timestamp = true → e = f
  comes : f ∈ d.events ∨ d.irqSignal = v

section
variable {f : Event} {v : Bool} {d u : Dev}

theorem Dev.Awaits.of_posts (h : d.Awaits f v) (hp : d.Posts u) : u.Awaits f v where
  now := hp.now.trans h.now
  next := Nat.lt_of_lt_of_le h.next hp.next
  late e he := by
    obtain he | ⟨-, ht⟩ := hp.posted e he
    · exact h.late e he
    · exact h.now ▸ ht.le
  handle e he hh := by
    obtain he | ⟨hn, -⟩ := hp.posted e he
    · exact h.handle e he hh
    · exact absurd (hh ▸ hn) (Nat.not_le.mpr h.next)
  update e he hi := by
    obtain he | ⟨-, ht⟩ := hp.posted e he
    · exact h.update e he hi
    · exact absurd (((e.isIrqUpdateAt_iff _).mp hi).2.trans h.now.symm) ht.ne'
  comes := h.comes.imp (fun hf => hp.due f hf h.now.ge) hp.signal.trans

/-- An event is taken from the set; if it is `f` the signal takes its level. -/
theorem Dev.Awaits.of_removed (h : d.Awaits f v) {e : Event} (he : e ∈ d.events) {b : Bool}
    (hb : b = if e = f then v else d.irqSignal) :
    ({ d.removeEvent e.handle with irqSignal := b } : Dev).Awaits f v where
  now := h.now
  next := h.next
  late g hg := h.late g (List.mem_of_mem_filter hg)
  handle g hg := h.handle g (List.mem_of_mem_filter hg)
  update g hg := h.update g (List.mem_of_mem_filter hg)
  comes := by
    split at hb
    next => exact .inr hb
    next hne =>
      refine h.comes.imp (fun hf => List.mem_filter.mpr ⟨hf, ?_⟩) hb.trans
      exact bne_iff_ne.mpr fun hh => hne (h.handle e he hh.symm)

theorem Dev.Awaits.fire (h : d.Awaits f v) (hf : f.kind = .irqUpdate v) {e : Event} (he : e ∈ d.earliestDue) :
    ((d.removeEvent e.handle).fire e).Awaits f v := by
  obtain ⟨hm, hle, -⟩ := mem_earliestDue.mp he
  have hts : e.timestamp = f.timestamp := Nat.le_antisymm (h.now ▸ hle) (h.late e hm)
  by_cases hk : ∃ w, e.kind = .irqUpdate w
  · obtain rfl : e = f := h.update e hm ((e.isIrqUpdateAt_iff _).mpr ⟨hk, hts⟩)
    simp only [Dev.fire, hf]
    exact h.of_removed hm (if_pos rfl).symm
  · have hne : e ≠ f := by rintro rfl; exact hk ⟨v, hf⟩
    have hrem : (d.removeEvent e.handle).Awaits f v := h.of_removed hm (if_neg hne).symm
    exact hrem.of_posts (posts_fire (hts ▸ h.now.le) fun w hw => hk ⟨w, hw⟩)

/-- Once the due events have fired the signal has the level of the update. -/
theorem Dev.Awaits.drain (h : d.Awaits f v) (hf : f.kind = .irqUpdate v) :
    (Dev.drain d.dueWork d).irqSignal = v := by
  have hend : (Dev.drain d.dueWork d).Awaits f v :=
    drain_induct (fun _ _ hd => hd.of_posts (.of_same rfl rfl rfl rfl)) (fun _ _ hd he => hd.fire hf he) _ _ h
  have hset := (drain_settled d.dueWork d (Nat.le_refl _)).2
  exact hend.comes.resolve_left fun hm => absurd hend.now (hset f hm).ne

end

theorem Dev.irqChanged_awaits {d : Dev} (hf : ∀ e ∈ d.events, e.handle < d.nextHandle) (hs : d.settled) :
    ({ d.irqChanged with now := d.now + 1 } : Dev).Awaits ⟨d.now + 1, d.nextHandle, .irqUpdate d.irqLevel⟩
      d.irqLevel where
  now := rfl
  next := Nat.lt_succ_self _
  late e he := by
    obtain ⟨he, -⟩ | rfl := Dev.mem_irqChanged.mp he
    · exact hs e he
    · exact Nat.le_refl _
  handle e he hh := by
    obtain ⟨he, -⟩ | he := Dev.mem_irqChanged.mp he
    · exact absurd hh (hf e he).ne
    · exact he
  update e he hi := by
    obtain ⟨-, hn⟩ | he := Dev.mem_irqChanged.mp he
    · exact absurd hi (by simp [hn])
    · exact he
  comes := .inl (Dev.mem_irqChanged.mpr (.inr rfl))

/-- With nothing due no time is no change. -/
theorem Dev.advance_zero {d : Dev} (h : d.settled) : d.advance 0 = d := by
  have hwork : d.dueWork = 0 := (dueWork_eq d).trans (d.settled_iff_workOf.mp h)
  show Dev.drain d.dueWork d = d
  rw [hwork]
  rfl

/-- Settles O55: the change posts the only update of the next cycle, and whatever else fires in that cycle posts later
updates. -/
theorem irqDelayIsOneCycle : Obligations.IrqDelayIsOneCycle := by
  unfold Obligations.IrqDelayIsOneCycle
  intro d hc hs level
  refine ⟨rfl, ?_, ?_⟩
  · rw [Dev.advance_zero ((quiet_irqChanged d).settled hs)]; rfl
  · exact (Dev.irqChanged_awaits hc.fresh hs).drain rfl

end Sys2Proof.Machine

namespace Sys2Proof.Machine
open Sys2Proof

/-! ## Advancing time (61_scheduler.md R565, R571) -/

/-- Settles O54: the fuel of `Dev.advance` is the work that is due, which is enough (`drain_settled`). -/
theorem advanceLeavesNothingDue : Obligations.AdvanceLeavesNothingDue :=
  fun d c => drain_settled _ { d with now := d.now + c } (Nat.le_refl _)

theorem Dev.advance_now (d : Dev) (c : Nat) : (d.advance c).now = d.now + c := (advanceLeavesNothingDue d c).1

/-! ## The halted CPU (61_scheduler.md R567, R572, R575) -/

theorem Dev.remainingCycles_of_no_events {d : Dev} (h : d.events = []) : d.remainingCycles = none := by
  rw [Dev.remainingCycles, Dev.nextTimestamp, h]; rfl

theorem Dev.remainingCycles_of_earliest {d : Dev} {e : Event} (he : e ∈ d.events)
    (hmin : ∀ f ∈ d.events, e.timestamp ≤ f.timestamp) : d.remainingCycles = some (e.timestamp - d.now) := by
  have hnext : d.nextTimestamp = some e.timestamp :=
    List.min?_eq_some_iff.mpr ⟨List.mem_map_of_mem he, List.forall_mem_map.mpr hmin⟩
  rw [Dev.remainingCycles, hnext, Option.map_some]

/-- With no interrupt available the halt goes on (60_exceptions.md R530). -/
theorem State.wake_of_unavailable {s : State} (h : s.dev.ie &&& s.dev.iflag = 0) : s.wake = s :=
  if_neg (by rw [Dev.available, h]; exact Bool.false_ne_true)

theorem step_eq_sleep {s : State} (hdma : ∀ n, (s.dev.channel n).status ≠ .running) (hhalt : s.dev.halted = true)
    (hirq : s.dev.ie &&& s.dev.iflag = 0) : step s = s.sleep := by
  rw [step, Dev.runningChannel_eq_none hdma]
  simp only [State.wake_of_unavailable hirq, hhalt, if_true]

/-- Settles O7: the step is `State.sleep`, and the cycles to the next event are those to the earliest. -/
theorem haltedSleeps : Obligations.HaltedSleeps := by
  unfold Obligations.HaltedSleeps
  intro s hdma hhalt hirq
  rw [step_eq_sleep hdma hhalt hirq, State.sleep]
  refine ⟨fun hnone => ?_, fun e he hmin => ?_⟩
  · rw [Dev.remainingCycles_of_no_events hnone]
  · rw [Dev.remainingCycles_of_earliest he hmin]

/-! ## The clock and ACCESS_CYCLES over a step (61_scheduler.md R566, 00_scope.md R11) -/

/-- The clock does not go back, and an access costs what it did. -/
structure Dev.Later (d u : Dev) : Prop where
  now : d.now ≤ u.now
  costs : u.costs = d.costs

/-- A store to the block is a chain of register writes, or halts the CPU: what both keep it keeps (20_memory.md R111,
R112). -/
theorem Dev.ioStore_closed {R : Dev → Dev → Prop} (refl : ∀ d, R d d)
    (trans : ∀ {d m u}, R d m → R m u → R d u) (halt : ∀ d : Dev, R d { d with halted := true })
    (write : ∀ {d u : Dev} {r : IoReg} {v : Half}, d.ioWrite r v = .next u → R d u)
    {d u : Dev} {off : Nat} {v : Word} {w : Width} (h : d.ioStore off v w = .next u) : R d u := by
  have half {d u : Dev} {off : Nat} {v : Half} (h : d.ioWriteHalf off v = .next u) : R d u := by
    unfold Dev.ioWriteHalf at h
    split at h
    · exact write h
    · cases h; exact refl d
  cases w with
  | byte =>
    rw [Dev.ioStore, Dev.ioWriteByte] at h
    split at h
    · unfold Dev.haltcntWrite at h
      split at h
      · cases h
      · cases h; exact halt d
    · split at h
      · exact write h
      · cases h; exact refl d
  | half => exact half h
  | word =>
    obtain ⟨m, hm, hu⟩ := andThen_eq_next.mp h
    exact trans (half hm) (half hu)

/-- What a write at an aligned address does to the machine (20_memory.md R109, R111, R113). -/
theorem State.poke_cases {s t : State} {a : Nat} {w : Width} {v : Word} (h : s.poke a w v = .next t) :
    (∃ off d, s.dev.ioStore off v w = .next d ∧ t = { s with dev := d }) ∨
      (∃ b, t = { s with mem := s.mem.store b v w }) ∨ t = s := by
  unfold State.poke at h
  split at h
  next off _ =>
    obtain ⟨d, hd, ht⟩ := andThen_eq_next.mp h
    cases ht
    exact .inl ⟨off, d, hd, rfl⟩
  next b _ => cases h; exact .inr (.inl ⟨b, rfl⟩)
  next => cases h; exact .inr (.inr rfl)
  next => cases h; exact .inr (.inr rfl)

namespace Dev.Later
variable {d u v : Dev}

theorem of_quiet (q : Quiet d u) (costs : u.costs = d.costs) : d.Later u := ⟨q.now.ge, costs⟩

theorem of_same (now : u.now = d.now) (costs : u.costs = d.costs) : d.Later u := ⟨now.ge, costs⟩

theorem refl (d : Dev) : d.Later d := of_same rfl rfl

theorem trans (h : d.Later u) (h' : u.Later v) : d.Later v := ⟨h.now.trans h'.now, h'.costs.trans h.costs⟩

theorem advance (d : Dev) (c : Nat) : d.Later (d.advance c) :=
  ⟨(d.advance_now c).symm ▸ Nat.le_add_right _ _, d.advance_costs c⟩

theorem touchPrefetch (d : Dev) (a : Nat) : d.Later (d.touchPrefetch a) := by
  unfold Dev.touchPrefetch; split
  · exact of_same rfl rfl
  · exact refl d

theorem dmaControlWrite {n : Fin 4} {v : Half} (h : d.dmaControlWrite n v = .next u) : d.Later u := by
  unfold Dev.dmaControlWrite at h
  split at h
  next => cases h
  next =>
    split at h
    next => cases h
    next => cases h; exact of_quiet (quiet_dmaControlStore d n v) (d.dmaControlStore_costs n v)

theorem ioWrite {r : IoReg} {v : Half} (h : d.ioWrite r v = .next u) : d.Later u := by
  cases r with
  | dmaCntH n => exact dmaControlWrite h
  | timerCntH i => cases h; exact of_quiet (quiet_timerControlWrite d i v) (d.timerControlWrite_costs i v)
  | dmaSadLo n | dmaSadHi n | dmaDadLo n | dmaDadHi n | dmaCntL n | timerCntL i | ie | iflag | waitcnt | ime =>
    cases h; exact of_same rfl rfl

theorem ioStore {off : Nat} {v : Word} {w : Width} (h : d.ioStore off v w = .next u) : d.Later u :=
  ioStore_closed refl trans (fun _ => of_same rfl rfl) ioWrite h

theorem dmaComplete (d : Dev) (n : Fin 4) : d.Later (d.dmaComplete n) := by
  refine of_quiet (quiet_dmaComplete d n) ?_
  show (d.completionIrq n).costs = d.costs
  unfold Dev.completionIrq; split <;> rfl

end Dev.Later

/-- The devices of a machine are later ones. -/
def State.DevLater (s u : State) : Prop := s.dev.Later u.dev

/-- Every access to the bus and every update of the DMA engine lead to later devices. -/
theorem stepClosed_devLater : StepClosed State.DevLater where
  refl s := .refl s.dev
  trans h h' := Dev.Later.trans h h'
  cpu s _ := .refl s.dev
  draws s _ := .refl s.dev
  advance s c := .advance s.dev c
  prefetch s a := .touchPrefetch s.dev a
  poke h := by
    obtain ⟨off, d, hd, rfl⟩ | ⟨b, rfl⟩ | rfl := State.poke_cases h
    · exact Dev.Later.ioStore hd
    · exact .refl _
    · exact .refl _
  latch _ _ := .of_same rfl rfl
  stepped _ _ _ := .of_same rfl rfl
  complete s n := .dmaComplete s.dev n
  wake s := by
    unfold State.wake; split
    · exact .of_same rfl rfl
    · exact .refl s.dev

/-! ## What an access costs (20_memory.md R102, R105; 70_reset_and_hazards.md R733, R736) -/

theorem waitField_eq (w : Half) (lo len : Nat) : waitField w lo len = (w.extractLsb' lo len).toNat :=
  field_toNat w lo len

theorem waitField_one_eq_one_iff (w : Half) (lo : Nat) : waitField w lo 1 = 1 ↔ w.getLsbD lo = true := by
  rw [waitField, ← flagAt_toNat, flagAt]
  simp

/-- The wait cycles of a 2-bit field, by its value. -/
theorem firstWait_toNat (c : BitVec 2) :
    firstWait c.toNat = if c = 0 then 4 else if c = 1 then 3 else if c = 2 then 2 else 8 := by
  revert c; decide

theorem romWaitS_eq (w : Half) (k : Fin 3) : romWaitS w k =
    if w.getLsbD (4 + 3 * k.val) then 1 else if k = 0 then 2 else if k = 1 then 4 else 8 := by
  simp only [romWaitS, waitField_one_eq_one_iff]
  congr 1
  revert k; decide

theorem romCycles_eq (w : Half) (k : Nat) (width : Width) (acc : AccessClass) : romCycles w k width acc =
    if width = .word then
      (if acc = .nonseq then 1 + romWaitN w k + (1 + romWaitS w k) else 2 * (1 + romWaitS w k))
    else if acc = .nonseq then 1 + romWaitN w k else 1 + romWaitS w k := by
  cases width <;> cases acc <;> rfl

theorem CostRow.gives_iff {row : CostRow} {wc : Half} {r : Region} {w : Width} {acc : AccessClass} :
    row.gives wc r w acc = true ↔ row.region = r ∧ row.width = w ∧ row.acc = acc ∧ row.waitcnt = wc := by
  simp [CostRow.gives, and_assoc]

/-- The first row the machine lists for an access gives its cost. -/
theorem Dev.regionCycles_of_row {d : Dev} {before after : List CostRow} {row : CostRow} {r : Region} {w : Width}
    {acc : AccessClass} (hc : d.costs = before ++ row :: after)
    (hb : ∀ x ∈ before, ¬ x.gives d.waitcnt r w acc) (hr : row.gives d.waitcnt r w acc) :
    d.regionCycles r w acc = row.cycles := by
  have hfind : d.costs.find? (fun x => x.gives d.waitcnt r w acc) = some row := by
    rw [hc, List.find?_append, List.find?_eq_none.mpr hb, Option.none_or]
    exact List.find?_cons_of_pos hr
  rw [Dev.regionCycles, hfind]

/-- An access for which the machine lists no row costs what the default table gives. -/
theorem Dev.regionCycles_of_no_row {d : Dev} {r : Region} {w : Width} {acc : AccessClass}
    (h : ∀ x ∈ d.costs, ¬ x.gives d.waitcnt r w acc) : d.regionCycles r w acc = tableCycles d.waitcnt r w acc := by
  rw [Dev.regionCycles, List.find?_eq_none.mpr h]

theorem Region.isRom_iff {r : Region} : r.isRom = true ↔ ∃ k, r = .rom k := by
  cases r <;> simp [Region.isRom]

/-- The regions are blocks of 16 MiB, but for the BIOS, game pak ROM in pairs of blocks, and SRAM. -/
theorem regionOf_eq (a : Nat) : regionOf a =
    if a < 0x4000 then .bios
    else if a / 2 ^ 24 = 2 then .ewram
    else if a / 2 ^ 24 = 3 then .iwram
    else if a / 2 ^ 24 = 4 then .io
    else if a / 2 ^ 24 = 5 then .palette
    else if a / 2 ^ 24 = 6 then .vram
    else if a / 2 ^ 24 = 7 then .oam
    else if a / 2 ^ 25 = 4 then .rom 0
    else if a / 2 ^ 25 = 5 then .rom 1
    else if a / 2 ^ 25 = 6 then .rom 2
    else if a / 2 ^ 25 = 7 then .sram
    else .unused := by
  have hpair : a / 2 ^ 25 = a / 2 ^ 24 / 2 := (Nat.div_div_eq_div_mul a (2 ^ 24) 2).symm
  have hbios : a < 0x4000 → a / 2 ^ 24 = 0 := fun h => Nat.div_eq_of_lt (Nat.lt_trans h (by decide))
  rw [hpair, regionOf]
  generalize a / 2 ^ 24 = q at hbios
  have hlow : q ≠ 0 → ¬ a < 0x4000 := mt hbios
  split
  case h_1 => simp
  all_goals rw [if_neg (hlow (by omega))]
  case h_16 =>
    -- an unused block: 1, or from 16 on
    simp only [imp_false] at *
    iterate 10 rw [if_neg (by omega)]
  all_goals rfl

theorem romClass_eq (a : Nat) (acc : AccessClass) [Decidable ((∃ k, regionOf a = .rom k) ∧ a % 0x20000 = 0)] :
    romClass a acc = if (∃ k, regionOf a = .rom k) ∧ a % 0x20000 = 0 then .nonseq else acc :=
  if_congr (by rw [Bool.and_eq_true, Region.isRom_iff, beq_iff_eq]) rfl rfl

theorem Dev.prefetchOpen_iff {d : Dev} {a : Nat} :
    d.prefetchOpen a = true ↔ d.waitcnt.getLsbD 14 = true ∧ ∃ k, regionOf a = .rom k := by
  rw [Dev.prefetchOpen, Bool.and_eq_true, Region.isRom_iff]

theorem Dev.accessCycles_of_closed {d : Dev} {a : Nat} (h : d.prefetchOpen a = false) (kind : AccessKind) (w : Width)
    (acc : AccessClass) : d.accessCycles kind a w acc = d.baseCycles a w acc := by
  rw [Dev.accessCycles, h, if_neg Bool.false_ne_true]

/-- With the prefetch buffer on a cost lies between its bounds. -/
theorem Dev.accessCycles_bounds {d : Dev} {kind : AccessKind} {a : Nat} {w : Width} {acc : AccessClass} {lo hi : Nat}
    (hopen : d.prefetchOpen a = true) (hb : d.prefetchBounds kind a w acc = (lo, hi)) (hle : lo ≤ hi) :
    lo ≤ d.accessCycles kind a w acc ∧ d.accessCycles kind a w acc ≤ hi := by
  have hmod := Nat.mod_lt (Config.prefetchCost d.prefetchSeq a) (show 0 < hi - lo + 1 from Nat.succ_pos _)
  rw [Dev.accessCycles, if_pos hopen, hb]
  dsimp only
  omega

theorem Dev.prefetchBounds_of_nonseq {d : Dev} {kind : AccessKind} {a : Nat} {w : Width} {acc : AccessClass}
    (h : romClass a acc = .nonseq) : d.prefetchBounds kind a w acc =
      (d.regionCycles (regionOf a) w (romClass a acc),
        d.regionCycles (regionOf a) w (romClass a acc) + d.regionCycles (regionOf a) w .seq) := by
  simp only [Dev.prefetchBounds, Dev.baseCycles, h]

theorem Dev.prefetchBounds_of_seq {d : Dev} {kind : AccessKind} {a : Nat} {w : Width} {acc : AccessClass}
    (h : romClass a acc = .seq) : d.prefetchBounds kind a w acc =
      (1, if kind = .opcode then d.regionCycles (regionOf a) w (romClass a acc)
        else d.regionCycles (regionOf a) w (romClass a acc) + d.regionCycles (regionOf a) w .seq) := by
  cases kind <;> simp only [Dev.prefetchBounds, Dev.baseCycles, h, reduceCtorEq, if_true, if_false]

/-- Settles O49: every access and every update of the DMA engine keep the costs and let the clock go on, so every step
does (`step_ends`); the cost of an access is the row's or the table's, or between the bounds of the prefetch buffer. -/
theorem timeNeverDecreases : Obligations.TimeNeverDecreases := by
  unfold Obligations.TimeNeverDecreases
  refine ⟨fun s u h => ?_, regionOf_eq, fun d r w acc => ⟨?_, fun hnone => ?_⟩,
    fun d kind a w acc => ⟨?_, ?_, ?_⟩⟩
  · obtain ⟨hnow, hcosts⟩ := step_ends stepClosed_devLater s u h
    exact ⟨hnow, hcosts⟩
  · exact fun before row after hc hb hr => Dev.regionCycles_of_row hc
      (fun x hx hg => hb x hx (CostRow.gives_iff.mp hg)) (CostRow.gives_iff.mpr hr)
  · rw [Dev.regionCycles_of_no_row fun x hx hg => hnone x hx (CostRow.gives_iff.mp hg)]
    cases r with
    | rom k => simp only [tableCycles, romCycles_eq, romWaitN, romWaitS_eq, waitField_eq, firstWait_toNat]
    | sram => simp only [tableCycles, waitField_eq, firstWait_toNat]
    | bios | iwram | io | oam | unused | ewram | palette | vram => rfl
  · intro hoff
    rw [← romClass_eq, Dev.accessCycles_of_closed]
    · rfl
    · rw [Bool.eq_false_iff, ne_eq, Dev.prefetchOpen_iff]
      rintro ⟨hon, hrom⟩
      exact hoff.elim (fun h => Bool.false_ne_true (h.symm.trans hon)) (absurd hrom)
  · intro hon hrom hfirst
    have hclass : romClass a acc = .nonseq := by
      rw [romClass_eq]; split
      · rfl
      · exact hfirst.resolve_right ‹_›
    rw [← romClass_eq]
    exact Dev.accessCycles_bounds (Dev.prefetchOpen_iff.mpr ⟨hon, hrom⟩)
      (Dev.prefetchBounds_of_nonseq hclass) (Nat.le_add_right _ _)
  · intro hon hrom hnot hcost
    obtain ⟨hacc, hstart⟩ := not_or.mp hnot
    have hclass : romClass a acc = .seq := by
      rw [romClass_eq, if_neg hstart]
      cases acc
      · exact absurd rfl hacc
      · rfl
    rw [← romClass_eq] at hcost ⊢
    refine Dev.accessCycles_bounds (Dev.prefetchOpen_iff.mpr ⟨hon, hrom⟩) (Dev.prefetchBounds_of_seq hclass) ?_
    split
    · exact hcost
    · exact hcost.trans (Nat.le_add_right _ _)

end Sys2Proof.Machine

namespace Sys2Proof.Machine
open Sys2Proof

/-! ## Memory over an instruction that does not store

The laws of Sys2Proof/Laws/Effects.lean are about relations that a store keeps; a store does not keep memory, so the
operations without one have their own. -/

/-- Memory is the same. -/
def State.SameMem (s u : State) : Prop := u.mem = s.mem

@[simp] theorem State.enterException_mem (s : State) (m : Mode) (v lr : Word) : (s.enterException m v lr).mem = s.mem :=
  State.branchTo_mem _ v

@[simp] theorem State.writeOrBranch_mem (s : State) (rd : Reg) (v : Word) : (s.writeOrBranch rd v).mem = s.mem := by
  unfold State.writeOrBranch; split
  · exact s.branchTo_mem v
  · rfl

@[simp] theorem State.finishLoad_mem (s : State) (rd : Reg) (v : Word) : (s.finishLoad rd v).mem = s.mem := by
  unfold State.finishLoad; split
  · exact s.branchTo_mem v
  · rfl

@[simp] theorem mulFinish_mem (n : Nat) (sf : Bool) (rd : Reg) (r : Word) (s : State) :
    (mulFinish n sf rd r s).mem = s.mem := by
  cases sf <;> exact s.idles_mem n

@[simp] theorem mulLongFinish_mem (n : Nat) (sf : Bool) (rdHi rdLo : Reg) (p : BitVec 64) (s : State) :
    (mulLongFinish n sf rdHi rdLo p s).mem = s.mem := by
  cases sf <;> exact s.idles_mem n

@[simp] theorem State.readBlock_mem (regs : List Reg) (a : Word) (acc : AccessClass) (s : State) :
    (State.readBlock regs a acc s).2.mem = s.mem := by
  induction regs generalizing a acc s with
  | nil => rfl
  | cons i rest ih => exact ih (a + 4) .seq _

@[simp] theorem ldmLoads_mem (s : State) (wb : Bool) (rn : Reg) (list : BitVec 16) (a back : Word) :
    (ldmLoads s wb rn list a back).2.mem = s.mem :=
  (State.writeBack_mem _ _ _).trans (State.readBlock_mem _ _ _ s)

/-- Writing registers writes no memory, whichever bank they are in. -/
theorem State.writeRegs_mem {write : State → Reg → Word → State} (hw : ∀ s i v, (write s i v).mem = s.mem)
    (vs : List (Reg × Word)) (s : State) : (s.writeRegs write vs).mem = s.mem := by
  unfold State.writeRegs
  induction vs generalizing s with
  | nil => rfl
  | cons p rest ih =>
    rw [List.foldl_cons, ih]
    split
    · rfl
    · exact hw s _ _

@[simp] theorem State.finishLdm_mem (s : State) (vs : List (Reg × Word)) : (s.finishLdm vs).mem = s.mem := by
  have hw := State.writeRegs_mem (write := State.setX) (fun _ _ _ => rfl) vs s
  unfold State.finishLdm
  dsimp only
  split
  · exact (State.branchTo_mem _ _).trans hw
  · exact hw

/-! ### The shared operations -/

theorem ends_sameMem_exceptionReturn (s : State) (a : Word) : Ends State.SameMem s (s.exceptionReturn a) := by
  intro u hu
  obtain ⟨t, ht, hu⟩ := andThen_eq_next.mp hu
  cases hu
  refine (t.branchTo_mem a).trans ?_
  unfold State.restoreCpsr at ht
  split at ht
  · cases ht
  · split at ht <;> cases ht; rfl

theorem ends_sameMem_armInstr (cond : Cond) (uses : List Reg) {body : State → Res State} (s : State)
    (h : ∀ t, Ends State.SameMem t (body t)) : Ends State.SameMem s (armInstr cond uses body s) := by
  unfold armInstr runInstr
  split
  · split
    · exact ends_refused _
    · exact h (s.setHazard false)
  · exact ends_next rfl

theorem ends_sameMem_thumbInstr (uses : List Reg) {body : State → Res State} (s : State)
    (h : ∀ t, Ends State.SameMem t (body t)) : Ends State.SameMem s (thumbInstr uses body s) := by
  unfold thumbInstr runInstr
  split
  · exact ends_refused _
  · exact h (s.setHazard false)

theorem ends_sameMem_dataProc (op : AluOp) (cond : Cond) (sf : Bool) (rn rd : Reg) (o : Operand2) (s : State) :
    Ends State.SameMem s (dataProc op cond sf rn rd o s) := by
  refine ends_sameMem_armInstr _ _ s fun t => ends_refuseIf _ _ (ends_refuseQuirk _ _ ?_)
  have ht : t.SameMem (o.time t) := o.time_mem t
  unfold dpFinish
  split
  · exact ends_next ht
  · split
    · split
      · exact fun u hu => (ends_sameMem_exceptionReturn _ _ u hu).trans ht
      · exact ends_next ((State.branchTo_mem _ _).trans ht)
    · exact ends_next ((State.setAluFlagsIf_mem _ _ _).trans ht)

theorem ends_sameMem_mulCore (cond : Cond) (sf : Bool) (rd rs rm : Reg) (uses : List Reg) (acc : State → Word)
    (extra : Nat) (s : State) : Ends State.SameMem s (mulCore cond sf rd rs rm uses acc extra s) :=
  ends_sameMem_armInstr _ _ s fun t => ends_refuseIf _ _ (ends_refuseQuirk _ _ (ends_next (mulFinish_mem _ _ _ _ t)))

theorem ends_sameMem_mulLongCore (signed : Bool) (cond : Cond) (sf : Bool) (rdHi rdLo rs rm : Reg)
    (acc : State → BitVec 64) (extra : Nat) (s : State) :
    Ends State.SameMem s (mulLongCore signed cond sf rdHi rdLo rs rm acc extra s) :=
  ends_sameMem_armInstr _ _ s fun t =>
    ends_refuseIf _ _ (ends_refuseQuirk _ _ (ends_next (mulLongFinish_mem _ _ _ _ _ t)))

theorem ends_sameMem_loadAt (k : LoadKind) (a : Word) (wb : Bool) (rn rd : Reg) (moved : Word) (s : State) :
    Ends State.SameMem s (loadAt k a wb rn rd moved s) :=
  ends_refuseQuirk _ _ (ends_next ((State.finishLoad_mem _ _ _).trans (State.writeBack_mem wb rn moved)))

theorem ends_sameMem_loadInstr (k : LoadKind) (cond : Cond) (ix : Indexing) (up : Bool) (rn rd : Reg) (o : Offset)
    (s : State) : Ends State.SameMem s (loadInstr k cond ix up rn rd o s) :=
  ends_sameMem_armInstr _ _ s fun t => ends_refuseIf _ _ (ends_refuseQuirk _ _ (ends_sameMem_loadAt _ _ _ _ _ _ t))

theorem ends_sameMem_ldmCore (mode : BlockMode) (wb : Bool) (rn : Reg) (list : BitVec 16) (s : State) :
    Ends State.SameMem s (ldmCore mode wb rn list s) :=
  ends_refuseIf _ _ (ends_refuseQuirk _ _ (ends_refuseQuirk _ _ (ends_next
    ((State.finishLdm_mem _ _).trans (ldmLoads_mem s _ _ _ _ _)))))

theorem ends_sameMem_ldmInstr (mode : BlockMode) (cond : Cond) (wb : Bool) (rn : Reg) (list : BitVec 16) (s : State) :
    Ends State.SameMem s (ldmInstr mode cond wb rn list s) :=
  ends_sameMem_armInstr _ _ s fun t => ends_refuseIf _ _ (ends_sameMem_ldmCore _ _ _ _ t)

theorem ends_sameMem_ldmSInstr (mode : BlockMode) (cond : Cond) (wb : Bool) (rn : Reg) (list : BitVec 16)
    (s : State) : Ends State.SameMem s (ldmSInstr mode cond wb rn list s) := by
  refine ends_sameMem_armInstr _ _ s fun t => ends_refuseIf _ _ ?_
  have wrote {write : State → Reg → Word → State} (hw : ∀ s i v, (write s i v).mem = s.mem) (wb : Bool)
      (a back : Word) :
      ((ldmLoads t wb rn list a back).2.writeRegs write (ldmLoads t wb rn list a back).1).mem = t.mem :=
    (State.writeRegs_mem hw _ _).trans (ldmLoads_mem t _ _ _ _ _)
  split
  · exact ends_refuseQuirk _ _ (ends_refuseQuirk _ _ fun u hu =>
      (ends_sameMem_exceptionReturn _ _ u hu).trans (wrote State.setX_mem _ _ _))
  · exact ends_refuseIf _ _ (ends_refuseQuirk _ _ (ends_next (wrote State.setXUsr_mem _ _ _)))

theorem ends_sameMem_bxTo (a : Word) (s : State) : Ends State.SameMem s (bxTo a s) :=
  ends_refuseQuirk _ _ (ends_next (State.branchTo_mem _ a))

theorem ends_sameMem_mrsBody (spsr : Bool) (rd : Reg) (s : State) : Ends State.SameMem s (mrsBody spsr rd s) := by
  unfold mrsBody; split
  · split
    · exact ends_refused _
    · exact ends_next rfl
  · exact ends_next rfl

theorem ends_sameMem_msrBody (spsr : Bool) (mask : BitVec 4) (v : Word) (s : State) :
    Ends State.SameMem s (msrBody spsr mask v s) := by
  intro u hu
  obtain ⟨t, ht, hu⟩ := andThen_eq_next.mp hu
  cases hu
  unfold psrWrite at ht
  split at ht
  · split at ht <;> cases ht; rfl
  · obtain ⟨q, -, ht⟩ := andThen_eq_next.mp ht
    cases ht; rfl

theorem ends_sameMem_thumbShift (sh : ShiftType) (n : BitVec 5) (rs rd : LowReg) (s : State) :
    Ends State.SameMem s (thumbShift sh n rs rd s) :=
  ends_sameMem_thumbInstr _ s fun t => ends_next (thumbFinish_mem _ _ _ t)

theorem ends_sameMem_thumbAlu (op : AluOp) (a b : State → Word) (rd : LowReg) (s : State) :
    Ends State.SameMem s (thumbAlu op a b rd s) :=
  ends_sameMem_thumbInstr _ s fun t => ends_next (thumbFinish_mem _ _ _ t)

theorem ends_sameMem_thumbShiftReg (sh : ShiftType) (rs rd : LowReg) (s : State) :
    Ends State.SameMem s (thumbShiftReg sh rs rd s) :=
  ends_sameMem_thumbInstr _ s fun t => ends_next (thumbFinish_mem _ _ _ t.idle)

theorem ends_sameMem_thumbLoad (k : LoadKind) (uses : List Reg) (rd : LowReg) (addr : State → Word) (s : State) :
    Ends State.SameMem s (thumbLoad k uses rd addr s) :=
  ends_sameMem_thumbInstr _ s fun t => ends_sameMem_loadAt _ _ _ _ _ _ t

theorem ends_sameMem_tBcond (cond : Cond) (off : BitVec 8) (s : State) :
    Ends State.SameMem s (execTBcond cond off s) := by
  refine ends_sameMem_thumbInstr _ s fun t => ends_next ?_
  split
  · exact t.branchTo_mem _
  · exact rfl

/-- An instruction that does not store ends with the memory it found. -/
theorem exec_sameMem (i : Instr) (s : State) (h : i.storing = false) : Ends State.SameMem s (exec i s) := by
  cases i with
  | swp | swpb | strhImm | strhReg | strImm | strReg | strtImm | strtReg | strbImm | strbReg | strbtImm | strbtReg
    | stmIa | stmIb | stmDa | stmDb | stmSIa | stmSIb | stmSDa | stmSDb | tStrReg | tStrbReg | tStrhReg | tStrImm
    | tStrbImm | tStrhImm | tStrSp | tPush | tStmia => cases h
  | bx => exact ends_sameMem_armInstr _ _ s fun t => ends_sameMem_bxTo _ t
  | mul | mla => exact ends_sameMem_mulCore _ _ _ _ _ _ _ _ s
  | umull | umlal | smull | smlal => exact ends_sameMem_mulLongCore _ _ _ _ _ _ _ _ _ s
  | armUnallocMul | hwUnalloc | hwUnpred | armUnallocCtrl =>
    exact ends_sameMem_armInstr _ _ s fun _ => ends_refused _
  | ldrhImm | ldrhReg | ldrsbImm | ldrsbReg | ldrshImm | ldrshReg | ldrImm | ldrReg | ldrtImm | ldrtReg | ldrbImm
    | ldrbReg | ldrbtImm | ldrbtReg => exact ends_sameMem_loadInstr _ _ _ _ _ _ _ s
  | mrs => exact ends_sameMem_armInstr _ _ s fun t => ends_refuseIf _ _ (ends_sameMem_mrsBody _ _ t)
  | msrReg => exact ends_sameMem_armInstr _ _ s fun t => ends_refuseIf _ _ (ends_sameMem_msrBody _ _ _ t)
  | msrImm => exact ends_sameMem_armInstr _ _ s fun t => ends_sameMem_msrBody _ _ _ t
  | andShImm | andShReg | andImm | eorShImm | eorShReg | eorImm | subShImm | subShReg | subImm | rsbShImm | rsbShReg
    | rsbImm | addShImm | addShReg | addImm | adcShImm | adcShReg | adcImm | sbcShImm | sbcShReg | sbcImm | rscShImm
    | rscShReg | rscImm | tstShImm | tstShReg | tstImm | teqShImm | teqShReg | teqImm | cmpShImm | cmpShReg | cmpImm
    | cmnShImm | cmnShReg | cmnImm | orrShImm | orrShReg | orrImm | movShImm | movShReg | movImm | bicShImm | bicShReg
    | bicImm | mvnShImm | mvnShReg | mvnImm => exact ends_sameMem_dataProc _ _ _ _ _ _ s
  | und | ldcStc | cdp | mrcMcr | swi =>
    exact ends_sameMem_armInstr _ _ s fun t => ends_next (t.enterException_mem _ _ _)
  | ldmIa | ldmIb | ldmDa | ldmDb => exact ends_sameMem_ldmInstr _ _ _ _ _ s
  | ldmSIa | ldmSIb | ldmSDa | ldmSDb => exact ends_sameMem_ldmSInstr _ _ _ _ _ s
  | b | bl => exact ends_sameMem_armInstr _ _ s fun t => ends_next (State.branchTo_mem _ _)
  | tLslImm | tLsrImm | tAsrImm =>
    dsimp only [exec, execTLslImm, execTLsrImm, execTAsrImm]
    exact ends_sameMem_thumbShift _ _ _ _ s
  | tAddReg | tSubReg | tAddImm3 | tSubImm3 | tMovImm8 | tCmpImm8 | tAddImm8 | tSubImm8 | tAnd | tEor | tAdc | tSbc
    | tTst | tNeg | tCmpReg | tCmn | tOrr | tBic | tMvn =>
    dsimp only [exec, execTAddReg, execTSubReg, execTAddImm3, execTSubImm3, execTMovImm8, execTCmpImm8, execTAddImm8,
      execTSubImm8, execTAnd, execTEor, execTAdc, execTSbc, execTTst, execTNeg, execTCmpReg, execTCmn, execTOrr,
      execTBic, execTMvn]
    exact ends_sameMem_thumbAlu _ _ _ _ s
  | tLslReg | tLsrReg | tAsrReg | tRorReg =>
    dsimp only [exec, execTLslReg, execTLsrReg, execTAsrReg, execTRorReg]
    exact ends_sameMem_thumbShiftReg _ _ _ s
  | tMul =>
    dsimp only [exec, execTMul]
    exact ends_sameMem_thumbInstr _ s fun t => ends_refuseQuirk _ _ (ends_next (mulFinish_mem _ _ _ _ t))
  | tAddHi | tMovHi =>
    dsimp only [exec, execTAddHi, execTMovHi]
    exact ends_sameMem_thumbInstr _ s fun t => ends_refuseQuirk _ _ (ends_next (t.writeOrBranch_mem _ _))
  | tCmpHi =>
    dsimp only [exec, execTCmpHi]
    exact ends_sameMem_thumbInstr _ s fun t => ends_refuseQuirk _ _ (ends_next rfl)
  | tBx => exact ends_sameMem_thumbInstr _ s fun t => ends_refuseQuirk _ _ (ends_sameMem_bxTo _ t)
  | tLdrPc | tLdrReg | tLdrbReg | tLdrhReg | tLdsbReg | tLdshReg | tLdrImm | tLdrbImm | tLdrhImm | tLdrSp =>
    dsimp only [exec, execTLdrPc, execTLdrReg, execTLdrbReg, execTLdrhReg, execTLdsbReg, execTLdshReg, execTLdrImm,
      execTLdrbImm, execTLdrhImm, execTLdrSp]
    exact ends_sameMem_thumbLoad _ _ _ _ s
  | tAddPc | tAddSp | tAddSpImm | tBlPrefix =>
    dsimp only [exec, execTAddPc, execTAddSp, execTAddSpImm, execTBlPrefix]
    exact ends_sameMem_thumbInstr _ s fun t => ends_next rfl
  | tPop | tLdmia =>
    dsimp only [exec, execTPop, execTLdmia]
    exact ends_sameMem_thumbInstr _ s fun t => ends_sameMem_ldmCore _ _ _ _ t
  | tUnalloc => exact ends_sameMem_thumbInstr _ s fun _ => ends_refused _
  | tSwi => exact ends_sameMem_thumbInstr _ s fun t => ends_next (t.enterException_mem _ _ _)
  | tBcond => exact ends_sameMem_tBcond _ _ s
  | tB | tBlSuffix =>
    dsimp only [exec, execTB, execTBlSuffix]
    exact ends_sameMem_thumbInstr _ s fun t => ends_next (State.branchTo_mem _ _)

/-- Settles O50: the memory after the instruction is the memory before it (`exec_sameMem`). -/
theorem onlyStoresWriteMemory : Obligations.OnlyStoresWriteMemory := by
  unfold Obligations.OnlyStoresWriteMemory
  intro i s u hs hu a _
  rw [exec_sameMem i s hs u hu]

end Sys2Proof.Machine

namespace Sys2Proof.Machine
open Sys2Proof

/-! ## Reading a timer or a channel after an update -/

theorem Dev.setTimer_timer_ne (d : Dev) {i j : Fin 4} (t : Timer) (h : i ≠ j) :
    (d.setTimer i t).timer j = d.timer j := vector_get_set_ne _ _ h

theorem Dev.setChannel_channel_ne (d : Dev) {n m : Fin 4} (c : DmaChannel) (h : n ≠ m) :
    (d.setChannel n c).channel m = d.channel m := vector_get_set_ne _ _ h

/-- An overflow is a chain of interrupt requests, timer writes and notices: what each keeps it keeps (63_timers.md R652
to R654). -/
theorem Dev.overflow_closed {R : Dev → Dev → Prop} (refl : ∀ d, R d d)
    (trans : ∀ {d m u}, R d m → R m u → R d u) (irq : ∀ d k, R d (d.requestInterrupt k))
    (timer : ∀ d i t, R d (d.setTimer i t)) (notify : ∀ d i, R d (d.notifyApu i)) (is : List (Fin 4)) (d : Dev) :
    R d (Dev.overflow is d) := by
  have request (d : Dev) (i : Fin 4) : R d (d.overflowIrq i) := by
    unfold Dev.overflowIrq; split
    · exact irq d _
    · exact refl d
  induction is generalizing d with
  | nil => exact refl d
  | cons i rest ih =>
    cases rest with
    | nil => exact trans (request d i) (notify _ i)
    | cons j above =>
      refine trans (request d i) ?_
      unfold Dev.overflow
      dsimp only
      split
      · split
        · exact trans (trans (timer _ j _) (ih _)) (notify _ i)
        · exact trans (timer _ j _) (notify _ i)
      · exact notify _ i

/-! ## What the passing of time leaves of a DMA transfer (62_dma.md R606, R608, R612) -/

/-- The latch and every running channel are the same. -/
structure Dev.KeepsTransfers (d u : Dev) : Prop where
  latch : u.dmaLatch = d.dmaLatch
  channel : ∀ n, (d.channel n).status = .running → u.channel n = d.channel n

namespace Dev.KeepsTransfers
variable {d u v : Dev}

theorem of_same (latch : u.dmaLatch = d.dmaLatch) (dma : u.dma = d.dma) : d.KeepsTransfers u :=
  ⟨latch, fun n _ => congrArg (Vector.get · n) dma⟩

theorem refl (d : Dev) : d.KeepsTransfers d := of_same rfl rfl

theorem trans (h : d.KeepsTransfers u) (h' : u.KeepsTransfers v) : d.KeepsTransfers v where
  latch := h'.latch.trans h.latch
  channel n hn := by
    have hu := h.channel n hn
    exact (h'.channel n (hu ▸ hn)).trans hu

/-- A change of other parts before it does not show. -/
theorem after (h : u.KeepsTransfers v) (latch : u.dmaLatch = d.dmaLatch) (dma : u.dma = d.dma) : d.KeepsTransfers v :=
  (of_same latch dma).trans h

theorem setChannel (d : Dev) {n : Fin 4} {c : DmaChannel} (h : (d.channel n).status = .running → c = d.channel n) :
    d.KeepsTransfers (d.setChannel n c) where
  latch := rfl
  channel m hm := by
    obtain rfl | hne := eq_or_ne n m
    · rw [Dev.setChannel_channel_same, h hm]
    · exact d.setChannel_channel_ne c hne

/-- A request starts a waiting channel only. -/
theorem answer (d : Dev) (occ : Occasion) (n : Fin 4) : d.KeepsTransfers (d.answer occ n) := by
  unfold Dev.answer
  split
  next hw => exact (setChannel d (by simp [hw.1])).trans (of_same rfl rfl)
  next => exact refl d

theorem envCalls (d : Dev) (cs : List EnvCall) : d.KeepsTransfers (cs.foldl Dev.envCall d) := by
  induction cs generalizing d with
  | nil => exact refl d
  | cons c rest ih =>
    refine trans ?_ (ih _)
    cases c with
    | requestInterrupt k => exact of_same rfl rfl
    | requestDma occ => exact (((answer d occ 0).trans (answer _ occ 1)).trans (answer _ occ 2)).trans (answer _ occ 3)

theorem fire (d : Dev) (e : Event) : d.KeepsTransfers (d.fire e) := by
  unfold Dev.fire
  split
  · exact (overflow_closed refl trans (fun _ _ => of_same rfl rfl) (fun _ _ _ => of_same rfl rfl)
      (fun _ _ => of_same rfl rfl) _ _).after rfl rfl
  next n _ => exact setChannel d fun hn => by rw [← hn]
  · exact of_same rfl rfl
  · exact envCalls d _

theorem advance (d : Dev) (c : Nat) : d.KeepsTransfers (d.advance c) :=
  drain_induct (P := d.KeepsTransfers) (fun _ _ h => h.trans (of_same rfl rfl))
    (fun u e h _ => h.trans ((fire (u.removeEvent e.handle) e).after rfl rfl)) _ _ (of_same rfl rfl)

theorem touchPrefetch (d : Dev) (a : Nat) : d.KeepsTransfers (d.touchPrefetch a) := by
  unfold Dev.touchPrefetch; split
  · exact of_same rfl rfl
  · exact refl d

theorem passAccess (d : Dev) (k : AccessKind) (a : Nat) (w : Width) (acc : AccessClass) :
    d.KeepsTransfers (d.passAccess k a w acc) := (touchPrefetch d a).trans (advance _ _)

end Dev.KeepsTransfers

end Sys2Proof.Machine

namespace Sys2Proof.Machine
open Sys2Proof

/-! ## The value of a unit (62_dma.md R612, R616) -/

theorem byteOf_toNat (v : Word) (k : Nat) : (byteOf v k).toNat = v.toNat / 2 ^ (8 * k) % 2 ^ 8 := by
  rw [byteOf, BitVec.extractLsb'_toNat, Nat.shiftRight_eq_div_pow]

theorem toNat_and_ffff (v : Word) : (v &&& 0xFFFF).toNat = v.toNat % 2 ^ 16 :=
  (BitVec.toNat_and _ _).trans (Nat.and_two_pow_sub_one_eq_mod _ 16)

theorem Memory.load_half_toNat (m : Memory) (b : Nat) :
    (m.load b .half).toNat = (m.read b).toNat + 256 * (m.read (b + 1)).toNat :=
  toNat_zeroExtend_append_byte _ _

theorem Memory.load_half_lt (m : Memory) (b : Nat) : (m.load b .half).toNat < 2 ^ 16 := by
  have h0 := (m.read b).isLt
  have h1 := (m.read (b + 1)).isLt
  rw [Memory.load_half_toNat]; omega

theorem byteOf_load_half (m : Memory) (b : Nat) {k : Nat} (hk : k < 2) :
    byteOf (m.load b .half) k = m.read (b + k) := by
  have h0 := (m.read b).isLt
  have h1 := (m.read (b + 1)).isLt
  apply BitVec.eq_of_toNat_eq
  rw [byteOf_toNat, Memory.load_half_toNat]
  interval_cases k
  · simp only [Nat.mul_zero, Nat.pow_zero, Nat.div_one, Nat.add_zero]; omega
  · omega

/-- Byte k of what a unit reads is the k-th byte from its address (20_memory.md R103). -/
theorem byteOf_load_unit (m : Memory) (b : Nat) {word : Bool} {k : Nat} (hk : k < (unitWidth word).bytes) :
    byteOf (m.load b (unitWidth word)) k = m.read (b + k) := by
  cases word with
  | true => exact byteOf_load_word m b hk
  | false => exact byteOf_load_half m b hk

/-- A halfword of the latch: its bytes are two of the latch's. -/
theorem byteOf_and_ffff (v : Word) {k : Nat} (hk : k < 2) : byteOf (v &&& 0xFFFF) k = byteOf v k := by
  apply BitVec.eq_of_toNat_eq
  rw [byteOf_toNat, byteOf_toNat, toNat_and_ffff]
  interval_cases k <;> omega

theorem byteOf_ushiftRight_half (v : Word) (k : Nat) : byteOf (v >>> 16) k = byteOf v (k + 2) := by
  apply BitVec.eq_of_toNat_eq
  rw [byteOf_toNat, byteOf_toNat, BitVec.toNat_ushiftRight, Nat.shiftRight_eq_div_pow, Nat.div_div_eq_div_mul,
    ← Nat.pow_add]
  ring_nf

/-- A unit writes the latch, a halfword the half that bit 1 of its destination selects. -/
theorem byteOf_unitOut (word : Bool) (latch dst : Word) {k : Nat} (hk : k < (unitWidth word).bytes) :
    byteOf (unitOut word latch dst) k =
      byteOf latch (k + if word = false ∧ dst.getLsbD 1 = true then 2 else 0) := by
  cases word with
  | true => rfl
  | false =>
    simp only [unitOut, Bool.false_eq_true, if_false, true_and]
    rw [byteOf_and_ffff _ hk]
    split
    · exact byteOf_ushiftRight_half latch k
    · rfl

/-- A halfword that was read fills both halves of the latch. -/
theorem byteOf_latchOf_half {v : Word} (hv : v.toNat < 2 ^ 16) {k : Nat} (hk : k < 2) :
    byteOf (latchOf false v) k = byteOf v k ∧ byteOf (latchOf false v) (k + 2) = byteOf v k := by
  have hlatch : (latchOf false v).toNat = v.toNat * 2 ^ 16 + v.toNat := by
    rw [latchOf, if_neg Bool.false_ne_true, BitVec.toNat_or, BitVec.toNat_shiftLeft, Nat.shiftLeft_eq,
      Nat.mod_eq_of_lt (by omega), Nat.or_comm, ← Nat.shiftLeft_eq, Nat.shiftLeft_add_eq_or_of_lt hv]
  constructor
  · rw [← byteOf_and_ffff _ hk, show latchOf false v &&& 0xFFFF = v from BitVec.eq_of_toNat_eq ?_]
    rw [toNat_and_ffff, hlatch]; omega
  · rw [← byteOf_ushiftRight_half, show latchOf false v >>> 16 = v from BitVec.eq_of_toNat_eq ?_]
    rw [BitVec.toNat_ushiftRight, Nat.shiftRight_eq_div_pow, hlatch]; omega

/-- What a unit writes after a fresh read is what it read. -/
theorem byteOf_unitOut_latchOf_load (m : Memory) (b : Nat) (word : Bool) (dst : Word) {k : Nat}
    (hk : k < (unitWidth word).bytes) :
    byteOf (unitOut word (latchOf word (m.load b (unitWidth word))) dst) k = m.read (b + k) := by
  rw [byteOf_unitOut _ _ _ hk, ← byteOf_load_unit m b hk]
  cases word with
  | true => rfl
  | false =>
    obtain ⟨hlow, hhigh⟩ := byteOf_latchOf_half (m.load_half_lt b) hk
    split
    · exact hhigh
    · exact hlow

/-! ## One unit of a transfer (62_dma.md R612, R613, R616) -/

/-- The read of a unit leaves memory, the CPU and every running channel alone. -/
theorem State.dmaRead_keeps (s : State) (word : Bool) (src : Word) (acc : AccessClass) {n : Fin 4}
    (hrun : (s.dev.channel n).status = .running) : (s.dmaRead word src acc).mem = s.mem ∧
      (s.dmaRead word src acc).cpu = s.cpu ∧ (s.dmaRead word src acc).dev.channel n = s.dev.channel n := by
  have hpass := (Dev.KeepsTransfers.passAccess s.dev .data (alignAddr src (unitWidth word)).toNat (unitWidth word)
    acc).channel n hrun
  unfold State.dmaRead
  split <;> exact ⟨rfl, rfl, hpass⟩

/-- Below 0x02000000 a unit reads nothing (R616). -/
theorem State.dmaRead_latch_low {s : State} {word : Bool} {src : Word} (acc : AccessClass)
    (h : src.toNat < 0x02000000) : (s.dmaRead word src acc).dev.dmaLatch = s.dev.dmaLatch := by
  rw [State.dmaRead, if_neg (Nat.not_le.mpr h)]
  exact (Dev.KeepsTransfers.passAccess _ _ _ _ _).latch

/-- From there on it reads memory into the latch (R612). -/
theorem State.dmaRead_latch_served {s : State} {word : Bool} {src : Word} (acc : AccessClass) {b : Nat}
    (h : 0x02000000 ≤ src.toNat) (hb : Served (alignAddr src (unitWidth word)) b) :
    (s.dmaRead word src acc).dev.dmaLatch = latchOf word (s.mem.load b (unitWidth word)) := by
  rw [State.dmaRead, if_pos h]
  exact congrArg (latchOf word) (State.memRead_served hb)

/-- A unit whose destination is memory that holds what is written: what it writes there is the latch its read leaves,
and the working copy steps. -/
theorem State.dmaUnit_ram {s : State} {n : Fin 4} (word : Bool) (acc : AccessClass) {e : Nat}
    (hrun : (s.dev.channel n).status = .running) (hwf : s.mem.wf = true)
    (he : targetOf (alignAddr (s.dev.channel n).dst (unitWidth word)).toNat = .ram e) :
    ∃ u, s.dmaUnit n word acc = .next u ∧ u.cpu = s.cpu ∧ KeepsBytes (bytesFrom e (unitWidth word)) s u ∧
      u.dev.dmaLatch = (s.dmaRead word (s.dev.channel n).src acc).dev.dmaLatch ∧
      (∀ k, k < (unitWidth word).bytes → u.mem.read (e + k) =
        byteOf (unitOut word u.dev.dmaLatch (s.dev.channel n).dst) k) ∧
      u.dev.channel n = (s.dev.channel n).stepped n word := by
  obtain ⟨hmem, hcpu, hchan⟩ := s.dmaRead_keeps word (s.dev.channel n).src acc hrun
  unfold State.dmaUnit
  dsimp only
  generalize s.dmaRead word (s.dev.channel n).src acc = t at hmem hcpu hchan
  obtain ⟨m, hm, hmcpu, hstored⟩ := State.memWrite_stored (s := t) (a := (s.dev.channel n).dst) (acc := acc)
    (v := unitOut word t.dev.dmaLatch (s.dev.channel n).dst) (hmem ▸ hwf) fun off ho => by cases he.symm.trans ho
  simp only [Stored, he] at hstored
  obtain ⟨hdev, hbytes, hkeeps⟩ := hstored
  have hpass := Dev.KeepsTransfers.passAccess t.dev .data (alignAddr (s.dev.channel n).dst (unitWidth word)).toNat
    (unitWidth word) acc
  have hlatch : m.dev.dmaLatch = t.dev.dmaLatch := hdev ▸ hpass.latch
  have hmchan : m.dev.channel n = s.dev.channel n := by
    rw [hdev]; exact (hpass.channel n (hchan ▸ hrun)).trans hchan
  rw [hchan, hm]
  refine ⟨_, rfl, hmcpu.trans hcpu, fun a ha => (hkeeps a ha).trans (congrArg (Memory.read · a) hmem), hlatch,
    ?_, ?_⟩
  · intro k hk
    exact (hbytes k hk).trans (by rw [← hlatch]; rfl)
  · rw [Dev.setChannel_channel_same, hmchan]

/-- Settles O60: `State.dmaUnit_ram`, with the latch that the read leaves. -/
theorem dmaMovesUnits : Obligations.DmaMovesUnits := by
  unfold Obligations.DmaMovesUnits
  intro s n word acc b e c w hrun hwf he hsrc
  obtain ⟨u, hu, hcpu, hkeeps, hlatch, hbytes, hchan⟩ := State.dmaUnit_ram word acc hrun hwf he
  refine ⟨u, hu, fun hhigh k hk => ?_, fun hlow => ?_, hkeeps, hcpu, ?_⟩
  · have hb := hsrc.resolve_left (Nat.not_lt.mpr hhigh)
    rw [hbytes k hk, hlatch, State.dmaRead_latch_served acc hhigh hb]
    exact byteOf_unitOut_latchOf_load s.mem b word _ hk
  · rw [State.dmaRead_latch_low acc hlow] at hlatch
    exact ⟨hlatch, fun k hk => by rw [hbytes k hk, hlatch]; exact byteOf_unitOut word _ _ hk⟩
  · rw [hchan]
    exact ⟨rfl, rfl, rfl, hrun⟩

end Sys2Proof.Machine

namespace Sys2Proof.Machine
open Sys2Proof

/-! ## The fields of a DMA control register (10_state.md R59) -/

theorem dmaTiming_toNat (v : Half) : dmaTiming v = (v.extractLsb' 12 2).toNat := field_toNat v 12 2

theorem dmaTiming_eq_three_iff (v : Half) : dmaTiming v = 3 ↔ v.extractLsb' 12 2 = 3 := by
  rw [dmaTiming_toNat]; exact BitVec.toNat_inj (y := 3)

theorem dmaTiming_eq_zero_iff (v : Half) : dmaTiming v = 0 ↔ v.extractLsb' 12 2 = 0 := by
  rw [dmaTiming_toNat]; exact BitVec.toNat_inj (y := 0)

theorem dmaSrcMode_eq_three_iff (v : Half) : dmaSrcMode v = 3 ↔ v.extractLsb' 7 2 = 3 := by
  rw [show dmaSrcMode v = _ from field_toNat v 7 2]; exact BitVec.toNat_inj (y := 3)

theorem dmaDstMode_eq_three_iff (v : Half) : dmaDstMode v = 3 ↔ v.extractLsb' 5 2 = 3 := by
  rw [show dmaDstMode v = _ from field_toNat v 5 2]; exact BitVec.toNat_inj (y := 3)

@[simp] theorem dmaTiming_stored (v : Half) : dmaTiming (v &&& 0xFFE0) = dmaTiming v := by
  rw [dmaTiming_toNat, dmaTiming_toNat]
  congr 1
  ext i hi
  interval_cases i <;> simp

@[simp] theorem dmaWordSize_stored (v : Half) : dmaWordSize (v &&& 0xFFE0) = dmaWordSize v := by
  simp [dmaWordSize]

/-- The FIFO channels (62_dma.md R605, R615). -/
theorem DmaChannel.isFifo_iff {n : Fin 4} {c : DmaChannel} : c.isFifo n = true ↔
    (n = 1 ∨ n = 2) ∧ c.cntH.extractLsb' 12 2 = 3 ∧ (c.dad = 0x040000A0 ∨ c.dad = 0x040000A4) := by
  rw [← dmaTiming_eq_three_iff]
  simp [DmaChannel.isFifo, fifoAddrA, fifoAddrB, and_assoc]

/-- Whether a channel is a FIFO's once a control write has stored its fields. -/
theorem DmaChannel.isFifo_stored_iff {n : Fin 4} {c : DmaChannel} {v : Half} :
    ({ c with cntH := v &&& 0xFFE0 } : DmaChannel).isFifo n = true ↔
      (n = 1 ∨ n = 2) ∧ v.extractLsb' 12 2 = 3 ∧ (c.dad = 0x040000A0 ∨ c.dad = 0x040000A4) := by
  rw [DmaChannel.isFifo_iff, ← dmaTiming_eq_three_iff, ← dmaTiming_eq_three_iff, dmaTiming_stored]

theorem DmaChannel.isWord_stored_iff {n : Fin 4} {c : DmaChannel} {v : Half} :
    ({ c with cntH := v &&& 0xFFE0 } : DmaChannel).isWord n = true ↔ v.getLsbD 10 = true ∨
      ((n = 1 ∨ n = 2) ∧ v.extractLsb' 12 2 = 3 ∧ (c.dad = 0x040000A0 ∨ c.dad = 0x040000A4)) := by
  rw [DmaChannel.isWord, Bool.or_eq_true, DmaChannel.isFifo_stored_iff, dmaWordSize_stored, or_comm]
  rfl

/-- An address under the size of a unit (R601). -/
theorem alignTo_toNat (word : Bool) (a : Word) :
    (alignTo word a).toNat = if word = true then a.toNat / 4 * 4 else a.toNat / 2 * 2 := by
  cases word
  · exact alignAddr_toNat a .half
  · exact alignAddr_toNat a .word

/-- The count a start or a repeat loads (R601, R619). -/
theorem DmaChannel.startCount_eq (n : Fin 4) (c : DmaChannel) {fifo : Prop} [Decidable fifo]
    (h : c.isFifo n = true ↔ fifo) : c.startCount n =
      if fifo then 4 else if c.cntL = 0 then (if n = 3 then 0x10000 else 0x4000) else c.cntL.toNat := by
  unfold DmaChannel.startCount maxCount
  exact if_congr h rfl rfl

/-! ## What a control write does (62_dma.md R600, R621, R622) -/

theorem dmaProhibited_iff {n : Fin 4} {v : Half} : dmaProhibited n v = true ↔ v.getLsbD 15 = true ∧
    (v.extractLsb' 7 2 = 3 ∨ (n = 0 ∧ v.extractLsb' 12 2 = 3) ∨ (n = 3 ∧ v.getLsbD 11 = true)) := by
  rw [← dmaSrcMode_eq_three_iff, ← dmaTiming_eq_three_iff]
  simp [dmaProhibited, dmaEnabled, dmaDrq, or_assoc]

theorem Dev.dmaControlWrite_of_refused {d : Dev} {n : Fin 4} {v : Half}
    (h : (d.channel n).status = .running ∨ dmaProhibited n v = true) :
    d.dmaControlWrite n v = .refused .implementationDefined := by
  unfold Dev.dmaControlWrite
  split
  · rfl
  · rw [if_pos (h.resolve_left ‹_›)]

theorem Dev.dmaControlWrite_of_allowed {d : Dev} {n : Fin 4} {v : Half}
    (h : ¬ ((d.channel n).status = .running ∨ dmaProhibited n v = true)) :
    d.dmaControlWrite n v = .next (d.dmaControlStore n v) := by
  obtain ⟨hrun, hok⟩ := not_or.mp h
  rw [Dev.dmaControlWrite, if_neg hrun, if_neg hok]

section
variable {d : Dev} {n : Fin 4} {v : Half}

/-- The rising edge of an immediate channel. -/
theorem Dev.dmaControlStore_of_immediate (hold : dmaEnabled (d.channel n).cntH = false) (hv : dmaEnabled v = true)
    (ht : dmaTiming v = 0) : d.dmaControlStore n v =
      (d.setChannel n (DmaChannel.latch n { d.channel n with cntH := v &&& 0xFFE0 })).trigger n := by
  simp [Dev.dmaControlStore, hold, hv, ht]

/-- The rising edge of a channel that waits for its occasion. -/
theorem Dev.dmaControlStore_of_waiting (hold : dmaEnabled (d.channel n).cntH = false) (hv : dmaEnabled v = true)
    (ht : dmaTiming v ≠ 0) : d.dmaControlStore n v =
      d.setChannel n { DmaChannel.latch n { d.channel n with cntH := v &&& 0xFFE0 } with status := .waiting } := by
  simp [Dev.dmaControlStore, hold, hv, ht]

/-- The falling edge. -/
theorem Dev.dmaControlStore_of_disabling (hold : dmaEnabled (d.channel n).cntH = true) (hv : dmaEnabled v = false) :
    d.dmaControlStore n v = (d.setChannel n { d.channel n with cntH := v &&& 0xFFE0, status := .disabled }).cancelStart
      (d.channel n).status := by
  simp [Dev.dmaControlStore, hold, hv]

/-- No edge. -/
theorem Dev.dmaControlStore_of_same (h : dmaEnabled (d.channel n).cntH = dmaEnabled v) :
    d.dmaControlStore n v = d.setChannel n { d.channel n with cntH := v &&& 0xFFE0 } := by
  simp [Dev.dmaControlStore, h]

end

@[simp] theorem Dev.trigger_channel_same (d : Dev) (n : Fin 4) :
    (d.trigger n).channel n = { d.channel n with status := .scheduled d.nextHandle } := d.setChannel_channel_same n _

@[simp] theorem Dev.cancelStart_dma (d : Dev) (st : DmaStatus) : (d.cancelStart st).dma = d.dma := by
  cases st <;> rfl

@[simp] theorem Dev.cancelStart_channel (d : Dev) (st : DmaStatus) (n : Fin 4) :
    (d.cancelStart st).channel n = d.channel n := congrArg (Vector.get · n) (d.cancelStart_dma st)

theorem Dev.handle_ne_of_mem_cancelStart {d : Dev} {h : Nat} {e : Event}
    (he : e ∈ (d.cancelStart (.scheduled h)).events) : e.handle ≠ h := bne_iff_ne.mp (List.mem_filter.mp he).2

section
variable {d : Dev} {n : Fin 4} {v : Half}

/-- On the rising edge the channel is latched, whatever its status becomes (R601). -/
theorem Dev.dmaControlStore_channel_of_rising (hold : dmaEnabled (d.channel n).cntH = false)
    (hv : dmaEnabled v = true) : ∃ st, (d.dmaControlStore n v).channel n =
      { DmaChannel.latch n { d.channel n with cntH := v &&& 0xFFE0 } with status := st } := by
  by_cases ht : dmaTiming v = 0
  · rw [Dev.dmaControlStore_of_immediate hold hv ht, Dev.trigger_channel_same, Dev.setChannel_channel_same]
    exact ⟨_, rfl⟩
  · rw [Dev.dmaControlStore_of_waiting hold hv ht, Dev.setChannel_channel_same]
    exact ⟨_, rfl⟩

/-- Every write stores the control fields and leaves the other programmed registers. -/
theorem Dev.dmaControlStore_programmed (d : Dev) (n : Fin 4) (v : Half) :
    ((d.dmaControlStore n v).channel n).cntH = v &&& 0xFFE0 ∧
    ((d.dmaControlStore n v).channel n).sad = (d.channel n).sad ∧
    ((d.dmaControlStore n v).channel n).dad = (d.channel n).dad ∧
    ((d.dmaControlStore n v).channel n).cntL = (d.channel n).cntL := by
  cases hold : dmaEnabled (d.channel n).cntH <;> cases hv : dmaEnabled v
  case false.true =>
    obtain ⟨st, hst⟩ := Dev.dmaControlStore_channel_of_rising hold hv
    rw [hst]; exact ⟨rfl, rfl, rfl, rfl⟩
  case true.false =>
    rw [Dev.dmaControlStore_of_disabling hold hv, Dev.cancelStart_channel, Dev.setChannel_channel_same]
    exact ⟨rfl, rfl, rfl, rfl⟩
  all_goals
    rw [Dev.dmaControlStore_of_same (hold.trans hv.symm), Dev.setChannel_channel_same]
    exact ⟨rfl, rfl, rfl, rfl⟩

end

/-- Settles O59: one lemma for each edge (`Dev.dmaControlStore_of_immediate` and its fellows). -/
theorem dmaControl : Obligations.DmaControl := by
  unfold Obligations.DmaControl
  intro d n v c refused
  have hiff : refused ↔ (d.channel n).status = .running ∨ dmaProhibited n v = true :=
    or_congr_right dmaProhibited_iff.symm
  refine ⟨fun h => Dev.dmaControlWrite_of_refused (hiff.mp h), fun h => ?_⟩
  obtain ⟨hcntH, hsad, hdad, hcntL⟩ := d.dmaControlStore_programmed n v
  refine ⟨_, Dev.dmaControlWrite_of_allowed (mt hiff.mpr h), hcntH, hsad, hdad, hcntL, fun hold hv => ?_,
    fun hold hv => ?_, fun hsame => ?_⟩
  · obtain ⟨st, hst⟩ := Dev.dmaControlStore_channel_of_rising hold hv
    have hword := DmaChannel.isWord_stored_iff (n := n) (c := c) (v := v)
    refine ⟨?_, ?_, ?_, fun ht => ?_, fun ht => ?_⟩
    · rw [hst]; exact (alignTo_toNat _ _).trans (if_congr hword rfl rfl)
    · rw [hst]; exact (alignTo_toNat _ _).trans (if_congr hword rfl rfl)
    · rw [hst]; exact DmaChannel.startCount_eq n _ DmaChannel.isFifo_stored_iff
    · rw [Dev.dmaControlStore_of_immediate hold hv ((dmaTiming_eq_zero_iff v).mpr ht), Dev.trigger_channel_same]
      exact ⟨rfl, rfl⟩
    · rw [Dev.dmaControlStore_of_waiting hold hv (mt (dmaTiming_eq_zero_iff v).mp ht), Dev.setChannel_channel_same]
      exact ⟨rfl, rfl⟩
  · rw [Dev.dmaControlStore_of_disabling hold hv, Dev.cancelStart_channel, Dev.setChannel_channel_same]
    refine ⟨rfl, fun k hk e he => ?_⟩
    rw [show (d.channel n).status = .scheduled k from hk] at he
    exact Dev.handle_ne_of_mem_cancelStart he
  · rw [Dev.dmaControlStore_of_same hsame, Dev.setChannel_channel_same]
    exact ⟨rfl, rfl, rfl, rfl, rfl⟩

end Sys2Proof.Machine

namespace Sys2Proof.Machine
open Sys2Proof

/-! ## What the units of a transfer leave of its own control fields (62_dma.md R611, R622) -/

/-- A running channel goes on running under the same control fields. -/
def Dev.KeepsControl (d u : Dev) : Prop := ∀ n, (d.channel n).status = .running →
  (u.channel n).status = .running ∧ (u.channel n).cntH = (d.channel n).cntH

namespace Dev.KeepsControl
variable {d u v : Dev}

theorem of_dma (h : u.dma = d.dma) : d.KeepsControl u := fun n hn => by
  rw [show u.channel n = d.channel n from congrArg (Vector.get · n) h]
  exact ⟨hn, rfl⟩

theorem refl (d : Dev) : d.KeepsControl d := of_dma rfl

theorem trans (h : d.KeepsControl u) (h' : u.KeepsControl v) : d.KeepsControl v := fun n hn => by
  obtain ⟨hu, hcu⟩ := h n hn
  obtain ⟨hv, hcv⟩ := h' n hu
  exact ⟨hv, hcv.trans hcu⟩

theorem of_keepsTransfers (h : d.KeepsTransfers u) : d.KeepsControl u := fun n hn => by
  rw [h.channel n hn]
  exact ⟨hn, rfl⟩

/-- Only channel `n` changes, and it does not run or keeps its control. -/
theorem of_channel_ne {n : Fin 4} (hne : ∀ m, n ≠ m → u.channel m = d.channel m)
    (hn : (d.channel n).status = .running →
      (u.channel n).status = .running ∧ (u.channel n).cntH = (d.channel n).cntH) : d.KeepsControl u := fun m hm => by
  obtain rfl | h := eq_or_ne n m
  · exact hn hm
  · rw [hne m h]; exact ⟨hm, rfl⟩

theorem setChannel (d : Dev) {n : Fin 4} {c : DmaChannel} (hs : c.status = (d.channel n).status)
    (hc : c.cntH = (d.channel n).cntH) : d.KeepsControl (d.setChannel n c) :=
  of_channel_ne (n := n) (fun _ => d.setChannel_channel_ne c) fun hn => by
    rw [Dev.setChannel_channel_same]; exact ⟨hs.trans hn, hc⟩

end Dev.KeepsControl

/-- A control write changes its own channel only (R600). -/
theorem Dev.dmaControlStore_channel_ne (d : Dev) {n m : Fin 4} (v : Half) (h : n ≠ m) :
    (d.dmaControlStore n v).channel m = d.channel m := by
  have set (u : Dev) (c : DmaChannel) : (u.setChannel n c).channel m = u.channel m := u.setChannel_channel_ne c h
  cases hold : dmaEnabled (d.channel n).cntH <;> cases hv : dmaEnabled v
  case false.true =>
    by_cases ht : dmaTiming v = 0
    · rw [Dev.dmaControlStore_of_immediate hold hv ht]
      exact (set _ _).trans (set d _)
    · rw [Dev.dmaControlStore_of_waiting hold hv ht, set]
  case true.false => rw [Dev.dmaControlStore_of_disabling hold hv, Dev.cancelStart_channel, set]
  all_goals rw [Dev.dmaControlStore_of_same (hold.trans hv.symm), set]

/-- Every write action of a register of the block (20_memory.md R111): the control write of a running channel is
refused (R622). -/
theorem Dev.KeepsControl.ioWrite {d u : Dev} {r : IoReg} {v : Half} (h : d.ioWrite r v = .next u) :
    d.KeepsControl u := by
  cases r with
  | dmaSadLo n | dmaSadHi n | dmaDadLo n | dmaDadHi n | dmaCntL n => cases h; exact setChannel d rfl rfl
  | dmaCntH n =>
    by_cases hr : (d.channel n).status = .running ∨ dmaProhibited n v = true
    · cases (Dev.dmaControlWrite_of_refused hr).symm.trans h
    · cases (Dev.dmaControlWrite_of_allowed hr).symm.trans h
      exact of_channel_ne (n := n) (fun _ => d.dmaControlStore_channel_ne v) fun hn => absurd (.inl hn) hr
  | timerCntH i => cases h; exact of_dma (d.timerControlWrite_dma i v)
  | timerCntL i | ie | iflag | waitcnt | ime => cases h; exact of_dma rfl

/-- The devices of a machine keep the control of their running channels. -/
def State.DevKeepsControl (s u : State) : Prop := s.dev.KeepsControl u.dev

theorem busClosed_devKeepsControl : BusClosed State.DevKeepsControl where
  refl s := .refl s.dev
  trans h h' := Dev.KeepsControl.trans h h'
  cpu s _ := .refl s.dev
  draws s _ := .refl s.dev
  advance s c := .of_keepsTransfers (.advance s.dev c)
  prefetch s a := .of_keepsTransfers (.touchPrefetch s.dev a)
  poke h := by
    obtain ⟨off, d, hd, rfl⟩ | ⟨b, rfl⟩ | rfl := State.poke_cases h
    · exact Dev.ioStore_closed Dev.KeepsControl.refl Dev.KeepsControl.trans (fun _ => .of_dma rfl)
        Dev.KeepsControl.ioWrite hd
    · exact .refl _
    · exact .refl _

theorem ends_dmaUnit_devKeepsControl (n : Fin 4) (word : Bool) (acc : AccessClass) (s : State) :
    Ends State.DevKeepsControl s (s.dmaUnit n word acc) := by
  have hread : s.DevKeepsControl (s.dmaRead word (s.dev.channel n).src acc) := by
    unfold State.dmaRead; split
    · exact busClosed_devKeepsControl.memRead s _ _ _ _
    · exact busClosed_devKeepsControl.pass s _ _ _ _
  exact ends_trans busClosed_devKeepsControl hread
    (ends_andThen (busClosed_devKeepsControl.memWrite _ _ _ _ _) fun u h => ends_next (h.trans (.setChannel _ rfl rfl)))

/-! ## The units one after the other (62_dma.md R612, R614) -/

/-- `unit` is the machine before each of the first `k` units of a transfer and after the last, the first unit of the
class `acc` and the rest sequential. -/
structure State.UnitChain (n : Fin 4) (word : Bool) (k : Nat) (acc : AccessClass) (s t : State) (unit : Nat → State) :
    Prop where
  first : unit 0 = s
  last : unit k = t
  moves : ∀ j, j < k → (unit j).dmaUnit n word (if j = 0 then acc else .seq) = .next (unit (j + 1))

/-- A transfer that goes on is a chain of its units. -/
theorem State.dmaUnits_chain {n : Fin 4} {word : Bool} {k : Nat} {acc : AccessClass} {s t : State}
    (h : s.dmaUnits n word k acc = .next t) : ∃ unit, State.UnitChain n word k acc s t unit := by
  induction k generalizing acc s with
  | zero => cases h; exact ⟨fun _ => t, rfl, rfl, fun j hj => absurd hj j.not_lt_zero⟩
  | succ k ih =>
    obtain ⟨m, hm, ht⟩ := andThen_eq_next.mp h
    obtain ⟨unit, hfirst, hlast, hmoves⟩ := ih ht
    refine ⟨fun j => j.casesOn s unit, rfl, hlast, fun j hj => ?_⟩
    cases j with
    | zero => rw [← hfirst] at hm; exact hm
    | succ j =>
      have := hmoves j (Nat.lt_of_succ_lt_succ hj)
      rw [if_neg (Nat.succ_ne_zero j)]
      cases j <;> exact this

/-- A chain keeps what each of its units keeps. -/
theorem State.dmaUnits_keepsControl {n : Fin 4} {word : Bool} {k : Nat} {acc : AccessClass} {s t : State}
    (h : s.dmaUnits n word k acc = .next t) : s.dev.KeepsControl t.dev := by
  induction k generalizing acc s with
  | zero => cases h; exact .refl _
  | succ k ih =>
    obtain ⟨m, hm, ht⟩ := andThen_eq_next.mp h
    exact (ends_dmaUnit_devKeepsControl n word acc s m hm).trans (ih ht)

/-! ## The completion (62_dma.md R619, R620) -/

theorem Dev.runningChannel_eq_some {d : Dev} {n : Fin 4} (hn : (d.channel n).status = .running)
    (hlt : ∀ k, k < n → (d.channel k).status ≠ .running) : d.runningChannel = some n := by
  rw [Dev.runningChannel, show [0, 1, 2, 3] = List.finRange 4 from rfl, List.find?_eq_some_iff_getElem]
  refine ⟨beq_iff_eq.mpr hn, n.val, by simp, by simp, fun j hj => ?_⟩
  simpa using hlt _ hj

section
variable (d : Dev) (n : Fin 4)

theorem Dev.completionIrq_dma : (d.completionIrq n).dma = d.dma := by
  unfold Dev.completionIrq; split <;> rfl

theorem Dev.dmaComplete_now : (d.dmaComplete n).now = d.now := (quiet_dmaComplete d n).now

theorem Dev.dmaComplete_dmaLatch : (d.dmaComplete n).dmaLatch = d.dmaLatch := by
  show (d.completionIrq n).dmaLatch = _
  unfold Dev.completionIrq; split <;> rfl

theorem Dev.dmaComplete_channel : (d.dmaComplete n).channel n = (d.channel n).completed n := by
  rw [Dev.dmaComplete, Dev.setChannel_channel_same]
  exact congrArg (fun dma => (Vector.get dma n).completed n) (d.completionIrq_dma n)

end

theorem Dev.iflag_dmaComplete_of_disabled {d : Dev} {n : Fin 4} (h : dmaIrqEnabled (d.channel n).cntH = false) :
    (d.dmaComplete n).iflag = d.iflag := by
  show (d.completionIrq n).iflag = _
  rw [Dev.completionIrq, h, if_neg Bool.false_ne_true]

/-- A request sets its own flag (60_exceptions.md R521). -/
theorem Dev.getLsbD_iflag_requestInterrupt (d : Dev) (k : Fin 14) :
    (d.requestInterrupt k).iflag.getLsbD k.val = true := by
  show (d.iflag ||| (1 : Half) <<< k.val).getLsbD k.val = true
  rw [BitVec.getLsbD_or, show ((1 : Half) <<< k.val).getLsbD k.val = true from by revert k; decide, Bool.or_true]

theorem Dev.iflag_dmaComplete_of_enabled {d : Dev} {n : Fin 4} (h : dmaIrqEnabled (d.channel n).cntH = true) :
    (d.dmaComplete n).iflag.getLsbD (8 + n.val) = true := by
  show (d.completionIrq n).iflag.getLsbD _ = true
  rw [Dev.completionIrq, if_pos h]
  exact d.getLsbD_iflag_requestInterrupt (dmaIrq n)

/-- Does the channel start again after its transfer? (R619). -/
def DmaChannel.Repeats (c : DmaChannel) : Prop := dmaRepeat c.cntH = true ∧ dmaTiming c.cntH ≠ 0

theorem DmaChannel.completed_of_repeats {n : Fin 4} {c : DmaChannel} (h : c.Repeats) :
    c.completed n = { c.relatch n with status := .waiting } :=
  if_pos (by rw [h.1, Bool.true_and, bne_iff_ne]; exact h.2)

theorem DmaChannel.completed_of_ends {n : Fin 4} {c : DmaChannel} (h : ¬ c.Repeats) :
    c.completed n = { c with cntH := c.cntH &&& 0x7FFF, status := .disabled } :=
  if_neg fun hr => h (by rwa [Bool.and_eq_true, bne_iff_ne] at hr)

/-- In mode 3 a channel that is no FIFO's takes its destination anew. -/
theorem DmaChannel.relatch_dst_toNat {n : Fin 4} {c : DmaChannel} (h : dmaDstMode c.cntH = 3 ∧ ¬ c.isFifo n = true) :
    (c.relatch n).dst.toNat = if c.cntH.getLsbD 10 then c.dad.toNat / 4 * 4 else c.dad.toNat / 2 * 2 := by
  obtain ⟨hmode, hfifo⟩ := h
  have hword : c.isWord n = c.cntH.getLsbD 10 := by
    rw [DmaChannel.isWord, Bool.eq_false_of_not_eq_true hfifo, Bool.false_or, dmaWordSize]
  rw [DmaChannel.relatch, ← hword, if_pos (by simp [hmode, hfifo])]
  exact alignTo_toNat _ _

theorem DmaChannel.relatch_dst_of_same {n : Fin 4} {c : DmaChannel}
    (h : ¬ (dmaDstMode c.cntH = 3 ∧ ¬ c.isFifo n = true)) : (c.relatch n).dst = c.dst := by
  rw [DmaChannel.relatch, if_neg (by simpa using h)]

theorem DmaChannel.completed_src (n : Fin 4) (c : DmaChannel) : (c.completed n).src = c.src := by
  unfold DmaChannel.completed; split <;> rfl

/-- Settles O8: the step is the DMA engine's; its units are a chain, and `DmaChannel.completed` is the channel after
them. -/
theorem dmaRunsFirst : Obligations.DmaRunsFirst := by
  unfold Obligations.DmaRunsFirst
  intro s u n hrun hlt hstep
  rw [step, Dev.runningChannel_eq_some hrun hlt] at hstep
  have hcpu := dmaStep_cpu hstep
  obtain ⟨t, ht, hu⟩ := andThen_eq_next.mp hstep
  cases hu
  obtain ⟨unit, hfirst, rfl, hmoves⟩ := State.dmaUnits_chain ht
  have hcntH := (State.dmaUnits_keepsControl ht n hrun).2
  have hchan := (unit (s.dev.channel n).count).dev.dmaComplete_channel n
  refine ⟨hcpu, ⟨unit, hfirst, hmoves, rfl, Dev.dmaComplete_now _ n, Dev.dmaComplete_dmaLatch _ n, ?_,
    Dev.iflag_dmaComplete_of_disabled, ?_⟩, ?_, fun hirq => Dev.iflag_dmaComplete_of_enabled (hcntH ▸ hirq)⟩
  · rw [hchan]; exact DmaChannel.completed_src n _
  · rw [hchan]
    split
    next hr =>
      rw [DmaChannel.completed_of_repeats hr]
      refine ⟨DmaChannel.startCount_eq n _ DmaChannel.isFifo_iff, fun hd => ?_, fun hd => ?_⟩
      · exact DmaChannel.relatch_dst_toNat (by rwa [DmaChannel.isFifo_iff, dmaDstMode_eq_three_iff])
      · exact DmaChannel.relatch_dst_of_same (by rwa [DmaChannel.isFifo_iff, dmaDstMode_eq_three_iff])
    next hr => rw [DmaChannel.completed_of_ends hr]; exact ⟨rfl, rfl⟩
  · rw [← hcntH, hchan]
    split
    next hr => rw [DmaChannel.completed_of_repeats hr]; exact ⟨rfl, rfl⟩
    next hr => rw [DmaChannel.completed_of_ends hr]; exact ⟨rfl, rfl⟩

end Sys2Proof.Machine

namespace Sys2Proof.Machine
open Sys2Proof

/-! ## A timer's control field (10_state.md R64, R65; 63_timers.md R640) -/

/-- A control write stores the bits of the period, of the enable and of the cascade as they are (R64). -/
theorem timer_control_stored (v : Half) : timerPeriod (v &&& 0x00C7) = timerPeriod v ∧
    (v &&& 0x00C7).getLsbD 7 = v.getLsbD 7 ∧ (v &&& 0x00C7).getLsbD 2 = v.getLsbD 2 := by
  have hlow : (v &&& 0x00C7).toNat % 4 = v.toNat % 4 := by
    have low (w : Half) : w.toNat % 4 = (w.extractLsb' 0 2).toNat := by rw [← field_toNat, field]; simp
    rw [low, low]
    congr 1
    ext i hi
    interval_cases i <;> simp
  exact ⟨by rw [timerPeriod, timerPeriod, prescalerShift, prescalerShift, hlow], by simp, by simp⟩

theorem alignDown_eq (t p : Nat) : alignDown t p = t / p * p := by
  have := Nat.div_add_mod' t p
  rw [alignDown]; omega

/-- Which timers count cycles (R640). -/
theorem Timer.isFreeRunning_iff {i : Fin 4} {t : Timer} : t.isFreeRunning i = true ↔
    t.control.getLsbD 7 = true ∧ (t.control.getLsbD 2 = false ∨ i = 0) := by
  unfold Timer.isFreeRunning Timer.isCascaded Timer.enabled
  cases t.control.getLsbD 7 <;> cases t.control.getLsbD 2 <;> simp

theorem Timer.isFreeRunning_stored_iff {i : Fin 4} {t : Timer} {v : Half} :
    ({ t with control := v &&& 0x00C7 } : Timer).isFreeRunning i = true ↔
      v.getLsbD 7 = true ∧ (v.getLsbD 2 = false ∨ i = 0) := by
  obtain ⟨-, h7, h2⟩ := timer_control_stored v
  rw [Timer.isFreeRunning_iff, h7, h2]

/-- A stopped timer does not count cycles. -/
theorem Timer.isFreeRunning_of_stopped {i : Fin 4} {t : Timer} (h : t.enabled = false) : t.isFreeRunning i = false := by
  rw [Timer.isFreeRunning, h, Bool.false_and]

/-! ## Settling and starting a timer (63_timers.md R647, R648) -/

/-- The devices a control write works on: the timer settled if it counts cycles. -/
def Dev.counted (d : Dev) (i : Fin 4) : Dev := if (d.timer i).isFreeRunning i then d.settle i else d

/-- Settling cancels the timer's pending overflow. -/
theorem Dev.removeHandle_events (d : Dev) (o : Option Nat) :
    (d.removeHandle o).events = d.events.filter fun e => o != some e.handle := by
  cases o with
  | none => exact (List.filter_eq_self.mpr fun _ _ => rfl).symm
  | some h =>
    refine List.filter_congr fun e _ => ?_
    rw [Bool.eq_iff_iff, bne_iff_ne, bne_iff_ne, ne_eq, ne_eq, Option.some.injEq, eq_comm]

@[simp] theorem Dev.removeHandle_timer (d : Dev) (o : Option Nat) (i : Fin 4) :
    (d.removeHandle o).timer i = d.timer i := by
  cases o <;> rfl

section
variable (d : Dev) (i : Fin 4)

@[simp] theorem Dev.counted_now : (d.counted i).now = d.now := by
  unfold Dev.counted Dev.settle Dev.removeHandle; split
  · split <;> rfl
  · rfl

@[simp] theorem Dev.counted_nextHandle : (d.counted i).nextHandle = d.nextHandle := by
  unfold Dev.counted Dev.settle Dev.removeHandle; split
  · split <;> rfl
  · rfl

theorem Dev.counted_events : (d.counted i).events = if (d.timer i).isFreeRunning i = true
    then d.events.filter (fun e => (d.timer i).handle != some e.handle) else d.events := by
  unfold Dev.counted
  split
  · exact Dev.removeHandle_events _ _
  · rfl

theorem Dev.counted_timer_same : (d.counted i).timer i = ⟨
    if (d.timer i).isFreeRunning i = true then (d.timer i).counter i d.now else (d.timer i).base,
    (d.timer i).reload, (d.timer i).control,
    if (d.timer i).isFreeRunning i = true then d.now else (d.timer i).lastTs,
    if (d.timer i).isFreeRunning i = true then none else (d.timer i).handle⟩ := by
  unfold Dev.counted
  split
  · rw [Dev.settle, Dev.removeHandle_timer, Dev.setTimer_timer_same]
  · rfl

variable {d i} in
theorem Dev.counted_timer_ne {j : Fin 4} (h : i ≠ j) : (d.counted i).timer j = d.timer j := by
  unfold Dev.counted
  split
  · rw [Dev.settle, Dev.removeHandle_timer, d.setTimer_timer_ne _ h]
  · rfl

theorem Dev.counted_enabled : ((d.counted i).timer i).enabled = (d.timer i).enabled := by
  rw [Dev.counted_timer_same]; rfl

end

section
variable {d : Dev} {i : Fin 4}

theorem Dev.counted_of_stopped (h : (d.timer i).enabled = false) : d.counted i = d :=
  if_neg (by rw [Timer.isFreeRunning_of_stopped h]; exact Bool.false_ne_true)

/-- Putting a timer down and posting its overflow gives it the handle of the event. -/
theorem Dev.scheduleOverflow_timer_same (t : Timer) : ((d.setTimer i t).scheduleOverflow i).timer i =
    { t with handle := some d.nextHandle } := by
  refine ((d.setTimer i t).setTimer_timer_same i _).trans ?_
  rw [Dev.setTimer_timer_same]; rfl

theorem Dev.scheduleOverflow_timer_ne (t : Timer) {j : Fin 4} (h : i ≠ j) :
    ((d.setTimer i t).scheduleOverflow i).timer j = d.timer j :=
  ((d.setTimer i t).setTimer_timer_ne _ h).trans (d.setTimer_timer_ne t h)

theorem Dev.scheduleOverflow_events (t : Timer) : ((d.setTimer i t).scheduleOverflow i).events =
    d.events ++ [⟨t.overflowAt, d.nextHandle, .timerOverflow i⟩] := by
  show d.events ++ [⟨((d.setTimer i t).timer i).overflowAt, d.nextHandle, .timerOverflow i⟩] = _
  rw [Dev.setTimer_timer_same]

end

/-! ## What a control write does (63_timers.md R646 to R649) -/

/-- The timer that a start puts down: its count, and the tick it counts from. -/
def Timer.started (t : Timer) (v b : Half) (ts : Nat) : Timer :=
  { t with base := b, control := v &&& 0x00C7, lastTs := alignDown ts (timerPeriod (v &&& 0x00C7)) }

theorem Timer.started_overflowAt (t : Timer) (v b : Half) (ts : Nat) : (t.started v b ts).overflowAt =
    ts / timerPeriod v * timerPeriod v + (0x10000 - b.toNat) * timerPeriod v := by
  obtain ⟨hp, -, -⟩ := timer_control_stored v
  rw [Timer.overflowAt, Timer.started]
  dsimp only
  rw [alignDown_eq, hp]

section
variable {d : Dev} {i : Fin 4} {v : Half}

/-- The rising edge of a timer that counts cycles. -/
theorem Dev.timerControlWrite_of_starting (hold : (d.timer i).enabled = false) (hv : v.getLsbD 7 = true)
    (hf : v.getLsbD 2 = false ∨ i = 0) : d.timerControlWrite i v =
      (d.setTimer i ((d.timer i).started v (d.timer i).reload (d.now + 2))).scheduleOverflow i := by
  have hfree := (Timer.isFreeRunning_stored_iff (i := i) (t := d.timer i)).mpr ⟨hv, hf⟩
  have hen : ({ d.timer i with control := v &&& 0x00C7 } : Timer).enabled = true :=
    (timer_control_stored v).2.1.trans hv
  have hd : (if (d.timer i).isFreeRunning i then d.settle i else d) = d := Dev.counted_of_stopped hold
  unfold Dev.timerControlWrite
  rw [hd]
  simp only [hold, hen, hfree, Bool.not_false, Bool.and_self, if_true]
  rfl

/-- The rising edge of a timer that does not. -/
theorem Dev.timerControlWrite_of_cascading (hold : (d.timer i).enabled = false) (hv : v.getLsbD 7 = true)
    (hf : ¬ (v.getLsbD 2 = false ∨ i = 0)) : d.timerControlWrite i v =
      d.setTimer i { d.timer i with control := v &&& 0x00C7, base := (d.timer i).reload } := by
  have hfree := mt (Timer.isFreeRunning_stored_iff (i := i) (t := d.timer i)).mp fun h => hf h.2
  have hen : ({ d.timer i with control := v &&& 0x00C7 } : Timer).enabled = true :=
    (timer_control_stored v).2.1.trans hv
  have hd : (if (d.timer i).isFreeRunning i then d.settle i else d) = d := Dev.counted_of_stopped hold
  unfold Dev.timerControlWrite
  rw [hd]
  simp only [hold, hen, hfree, Bool.not_false, Bool.and_self, Bool.false_eq_true, if_true, if_false]

/-- A write that is no rising edge puts the settled timer down again, counting or not. -/
theorem Dev.timerControlWrite_of_counting (hold : (d.timer i).enabled = true ∨ v.getLsbD 7 = false) :
    d.timerControlWrite i v = if v.getLsbD 7 = true ∧ (v.getLsbD 2 = false ∨ i = 0)
      then ((d.counted i).setTimer i
        (((d.counted i).timer i).started v ((d.counted i).timer i).base d.now)).scheduleOverflow i
      else (d.counted i).setTimer i { (d.counted i).timer i with control := v &&& 0x00C7 } := by
  have hedge : (!((d.counted i).timer i).enabled &&
      ({ (d.counted i).timer i with control := v &&& 0x00C7 } : Timer).enabled) = false := by
    rw [d.counted_enabled i, Bool.and_eq_false_iff, Bool.not_eq_false']
    exact hold.imp_right (timer_control_stored v).2.1.trans
  have hfree := Timer.isFreeRunning_stored_iff (i := i) (t := (d.counted i).timer i) (v := v)
  rw [← d.counted_now i]
  unfold Dev.timerControlWrite
  rw [show (if (d.timer i).isFreeRunning i then d.settle i else d) = d.counted i from rfl]
  dsimp only
  rw [hedge, if_neg Bool.false_ne_true]
  exact if_congr hfree rfl rfl

end

/-- A pending overflow that is not due bounds the count below 0x10000 (R641, R642, R647). -/
theorem Timer.counter_toNat {i : Fin 4} {t : Timer} {now : Nat} (hf : t.isFreeRunning i = true)
    (hlt : now < t.overflowAt) :
    (t.counter i now).toNat = t.base.toNat + (now - t.lastTs) / timerPeriod t.control := by
  rw [Timer.counter, hf, Bool.true_and]
  by_cases hle : t.lastTs ≤ now
  · have hticks : (now - t.lastTs) / timerPeriod t.control < 0x10000 - t.base.toNat :=
      Nat.div_lt_of_lt_mul (by rw [Timer.overflowAt, Nat.mul_comm] at hlt; omega)
    rw [decide_eq_true hle, if_pos rfl, BitVec.toNat_add, BitVec.toNat_ofNat]
    generalize (now - t.lastTs) / timerPeriod t.control = ticks at hticks ⊢
    omega
  · rw [decide_eq_false hle, if_neg Bool.false_ne_true, Nat.sub_eq_zero_of_le (Nat.le_of_not_le hle), Nat.zero_div,
      Nat.add_zero]

/-- Settles O57: one equation for each kind of write (`Dev.timerControlWrite_of_starting` and its fellows), and the
pending overflow bounds the count. -/
theorem timersCount : Obligations.TimersCount := by
  unfold Obligations.TimersCount
  refine ⟨fun d i v hold hv => ?_, fun d i v hold => ?_, fun d i hc hs hf => ?_⟩
  · by_cases hf : v.getLsbD 2 = false ∨ i = 0
    · rw [Dev.timerControlWrite_of_starting hold hv hf]
      dsimp only
      rw [Dev.scheduleOverflow_timer_same, Dev.scheduleOverflow_events, Timer.started_overflowAt]
      obtain ⟨hperiod, -, -⟩ := timer_control_stored v
      refine ⟨rfl, rfl, rfl, fun _ => ⟨?_, rfl, rfl⟩, fun h2 hi => absurd hf (by simp [h2, hi])⟩
      rw [← hperiod]; exact alignDown_eq _ _
    · rw [Dev.timerControlWrite_of_cascading hold hv hf]
      dsimp only
      rw [Dev.setTimer_timer_same]
      exact ⟨rfl, rfl, rfl, fun h => absurd h hf, fun _ _ => rfl⟩
  · intro t u running value kept start
    have hu : u = _ := Dev.timerControlWrite_of_counting hold
    have htimer := d.counted_timer_same i
    have hevents := d.counted_events i
    refine ⟨fun j hj => ?_, fun hf => ?_, fun hf => ?_⟩
    · rw [hu]
      split
      · rw [Dev.scheduleOverflow_timer_ne _ hj.symm, Dev.counted_timer_ne hj.symm]
      · rw [Dev.setTimer_timer_ne _ _ hj.symm, Dev.counted_timer_ne hj.symm]
    · obtain ⟨hperiod, -, -⟩ := timer_control_stored v
      rw [hu, if_pos hf, Dev.scheduleOverflow_timer_same, Dev.scheduleOverflow_events, Timer.started_overflowAt,
        Dev.counted_nextHandle, hevents, Timer.started, alignDown_eq, hperiod, htimer]
      exact ⟨rfl, rfl⟩
    · rw [hu, if_neg hf, Dev.setTimer_timer_same, htimer]
      exact ⟨rfl, hevents⟩
  · obtain ⟨-, e, he, -, -, hts⟩ := hc.running i hf
    exact Timer.counter_toNat hf (hts ▸ hs e he)

end Sys2Proof.Machine

namespace Sys2Proof.Machine
open Sys2Proof

/-! ## The chain of an overflow (63_timers.md R650 to R653) -/

/-- What no part of an overflow undoes: a flag of IF that is set, a pending event that is no update of the signal. -/
structure Dev.Requests (d u : Dev) : Prop where
  iflag : ∀ k, d.iflag.getLsbD k = true → u.iflag.getLsbD k = true
  events : ∀ e ∈ d.events, (∀ v, e.kind ≠ .irqUpdate v) → e ∈ u.events

namespace Dev.Requests
variable {d u v : Dev}

theorem of_same (iflag : u.iflag = d.iflag) (events : u.events = d.events) : d.Requests u :=
  ⟨fun _ h => iflag ▸ h, fun _ he _ => events ▸ he⟩

theorem refl (d : Dev) : d.Requests d := of_same rfl rfl

theorem trans (h : d.Requests u) (h' : u.Requests v) : d.Requests v :=
  ⟨fun k hk => h'.iflag k (h.iflag k hk), fun e he hk => h'.events e (h.events e he hk) hk⟩

theorem requestInterrupt (d : Dev) (k : Fin 14) : d.Requests (d.requestInterrupt k) where
  iflag j hj := by
    show (d.iflag ||| (1 : Half) <<< k.val).getLsbD j = true
    rw [BitVec.getLsbD_or, hj, Bool.true_or]
  events e he hk := Dev.mem_irqChanged.mpr (.inl ⟨he, by
    rw [Bool.eq_false_iff, ne_eq, Event.isIrqUpdateAt_iff]
    rintro ⟨⟨v, hv⟩, -⟩
    exact hk v hv⟩)

theorem overflow (is : List (Fin 4)) (d : Dev) : d.Requests (Dev.overflow is d) :=
  overflow_closed refl trans requestInterrupt (fun _ _ _ => of_same rfl rfl) (fun _ _ => of_same rfl rfl) is d

end Dev.Requests

@[simp] theorem Dev.overflowIrq_timer (d : Dev) (i j : Fin 4) : (d.overflowIrq i).timer j = d.timer j := by
  unfold Dev.overflowIrq; split <;> rfl

theorem Dev.overflowIrq_iflag {d : Dev} {i : Fin 4} (h : (d.timer i).irqEnabled = true) :
    (d.overflowIrq i).iflag.getLsbD (3 + i.val) = true := by
  rw [Dev.overflowIrq, if_pos h]
  exact d.getLsbD_iflag_requestInterrupt (timerIrq i)

/-- Timer `k` overflows when it counts an overflow of the timer below it (R653). -/
def Dev.Wraps (d : Dev) (k : Fin 4) : Prop := (d.timer k).isCascaded k = true ∧ (d.timer k).base = 0xFFFF

/-- Timer `j` above timer `i` counts an overflow of `i`: it is cascaded and every timer between them overflows. -/
def Dev.Reached (d : Dev) (i j : Fin 4) : Prop :=
  (d.timer j).isCascaded j = true ∧ ∀ k, i < k → k < j → d.Wraps k

/-- A cascaded timer after it has counted one overflow (R653). -/
def Timer.ticked (t : Timer) : Timer := { t with base := if t.base = 0xFFFF then t.reload else t.base + 1 }

theorem Timer.ticked_of_max {t : Timer} (h : t.base = 0xFFFF) : t.ticked = { t with base := t.reload } := by
  rw [Timer.ticked, if_pos h]

theorem Timer.ticked_of_ne {t : Timer} (h : t.base ≠ 0xFFFF) : t.ticked = { t with base := t.base + 1 } := by
  rw [Timer.ticked, if_neg h]

/-- The timers above one decide what its overflow reaches. -/
theorem Dev.reached_congr {d u : Dev} {i j : Fin 4} (h : ∀ k, i < k → u.timer k = d.timer k) (hij : i < j) :
    u.Reached i j ↔ d.Reached i j := by
  unfold Dev.Reached Dev.Wraps
  rw [h j hij]
  exact and_congr_right fun _ => forall₂_congr fun k hk => by rw [h k hk]

/-- The next timer is reached if it is cascaded. -/
theorem Dev.reached_succ {d : Dev} {i : Fin 3} :
    d.Reached i.castSucc i.succ ↔ (d.timer i.succ).isCascaded i.succ = true :=
  and_iff_left fun _ hk hk' => absurd (Fin.castSucc_lt_iff_succ_le.mp hk) (Fin.not_le.mpr hk')

/-- A timer further up is reached through the next one. -/
theorem Dev.reached_above {d : Dev} {i : Fin 3} {j : Fin 4} (hj : i.succ < j) :
    d.Reached i.castSucc j ↔ d.Wraps i.succ ∧ d.Reached i.succ j := by
  constructor
  · rintro ⟨hc, hw⟩
    exact ⟨hw _ Fin.castSucc_lt_succ hj, hc, fun k hk => hw k (Fin.castSucc_lt_succ.trans hk)⟩
  · rintro ⟨hs, hc, hw⟩
    refine ⟨hc, fun k hk hkj => ?_⟩
    obtain rfl | hlt := (Fin.castSucc_lt_iff_succ_le.mp hk).eq_or_lt
    · exact hs
    · exact hw k hlt hkj

theorem eq_succ_or_succ_lt {i : Fin 3} {j : Fin 4} (h : i.castSucc < j) : j = i.succ ∨ i.succ < j :=
  (Fin.castSucc_lt_iff_succ_le.mp h).eq_or_lt.imp_left Eq.symm

/-- Nothing is reached past a timer that does not overflow. -/
theorem Dev.eq_succ_of_reached {d : Dev} {i : Fin 3} {j : Fin 4} (hw : ¬ d.Wraps i.succ) (hj : i.castSucc < j)
    (hr : d.Reached i.castSucc j) : j = i.succ :=
  (eq_succ_or_succ_lt hj).resolve_right fun hlt => hw ((Dev.reached_above hlt).mp hr).1

/-- What the overflow of timer `i` does to the timers and the flags of IF (R652, R653). -/
structure Dev.Overflowed (i : Fin 4) (d u : Dev) : Prop where
  below : ∀ j, j ≤ i → u.timer j = d.timer j
  reached : ∀ j, i < j → d.Reached i j → u.timer j = (d.timer j).ticked
  unreached : ∀ j, i < j → ¬ d.Reached i j → u.timer j = d.timer j
  irq : (d.timer i).irqEnabled = true → u.iflag.getLsbD (3 + i.val) = true
  irqs : ∀ j, i < j → d.Reached i j → (d.timer j).base = 0xFFFF → (d.timer j).irqEnabled = true →
    u.iflag.getLsbD (3 + j.val) = true

section
variable {d m u : Dev} {i : Fin 3}

/-- The next timer does not count: the chain ends below it. -/
theorem Dev.Overflowed.of_uncascaded (hc : ¬ (d.timer i.succ).isCascaded i.succ = true)
    (ht : ∀ j, u.timer j = d.timer j)
    (hirq : (d.timer i.castSucc).irqEnabled = true → u.iflag.getLsbD (3 + i.castSucc.val) = true) :
    Dev.Overflowed i.castSucc d u := by
  have hnone (j : Fin 4) (hj : i.castSucc < j) : ¬ d.Reached i.castSucc j := fun hr => by
    cases Dev.eq_succ_of_reached (fun hw => hc hw.1) hj hr
    exact hc hr.1
  exact ⟨fun j _ => ht j, fun j hj hr => absurd hr (hnone j hj), fun j _ _ => ht j, hirq,
    fun j hj hr => absurd hr (hnone j hj)⟩

/-- The next timer counts without an overflow: the chain ends with it. -/
theorem Dev.Overflowed.of_counting (hc : (d.timer i.succ).isCascaded i.succ = true)
    (hne : (d.timer i.succ).base ≠ 0xFFFF) (hs : u.timer i.succ = (d.timer i.succ).ticked)
    (ht : ∀ j, i.succ ≠ j → u.timer j = d.timer j)
    (hirq : (d.timer i.castSucc).irqEnabled = true → u.iflag.getLsbD (3 + i.castSucc.val) = true) :
    Dev.Overflowed i.castSucc d u := by
  have hw : ¬ d.Wraps i.succ := fun hw => hne hw.2
  refine ⟨fun j hj => ht j (hj.trans_lt Fin.castSucc_lt_succ).ne', fun j hj hr => ?_, fun j hj hr => ht j ?_, hirq,
    fun j hj hr hmax => ?_⟩
  · cases Dev.eq_succ_of_reached hw hj hr; exact hs
  · rintro rfl; exact hr (Dev.reached_succ.mpr hc)
  · cases Dev.eq_succ_of_reached hw hj hr; exact absurd hmax hne

/-- The next timer overflows too: the chain is its own, over the machine where it has reloaded. -/
theorem Dev.Overflowed.of_wrapping (hw : d.Wraps i.succ) (hs : m.timer i.succ = (d.timer i.succ).ticked)
    (ht : ∀ j, i.succ ≠ j → m.timer j = d.timer j) (h : Dev.Overflowed i.succ m u)
    (hirq : (d.timer i.castSucc).irqEnabled = true → u.iflag.getLsbD (3 + i.castSucc.val) = true) :
    Dev.Overflowed i.castSucc d u := by
  have hreached {j : Fin 4} (hj : i.succ < j) : m.Reached i.succ j ↔ d.Reached i.castSucc j :=
    (Dev.reached_congr (fun k hk => ht k hk.ne) hj).trans ((Dev.reached_above hj).trans (and_iff_right hw)).symm
  refine ⟨fun j hj => ?_, fun j hj hr => ?_, fun j hj hr => ?_, hirq, fun j hj hr hb he => ?_⟩
  · exact (h.below j (hj.trans Fin.castSucc_lt_succ.le)).trans (ht j (hj.trans_lt Fin.castSucc_lt_succ).ne')
  · obtain rfl | hlt := eq_succ_or_succ_lt hj
    · exact (h.below _ le_rfl).trans hs
    · rw [h.reached j hlt ((hreached hlt).mpr hr), ht j hlt.ne]
  · obtain rfl | hlt := eq_succ_or_succ_lt hj
    · exact absurd (Dev.reached_succ.mpr hw.1) hr
    · exact (h.unreached j hlt (mt (hreached hlt).mp hr)).trans (ht j hlt.ne)
  · obtain rfl | hlt := eq_succ_or_succ_lt hj
    · exact h.irq (by rw [hs]; exact he)
    · exact h.irqs j hlt ((hreached hlt).mpr hr) (by rwa [ht j hlt.ne]) (by rwa [ht j hlt.ne])

end

theorem timersFrom_castSucc (i : Fin 3) : ∃ above, timersFrom i.castSucc = i.castSucc :: i.succ :: above ∧
    timersFrom i.succ = i.succ :: above := by
  fin_cases i <;> exact ⟨_, rfl, rfl⟩

/-- The three ways an overflow goes on to the next timer: it does not count, it counts, or it overflows too. -/
theorem Dev.overflow_castSucc (d : Dev) (i : Fin 3) : Dev.overflow (timersFrom i.castSucc) d =
    Dev.notifyApu (if (d.timer i.succ).isCascaded i.succ = true then
      if (d.timer i.succ).base = 0xFFFF then
        Dev.overflow (timersFrom i.succ) ((d.overflowIrq i.castSucc).setTimer i.succ (d.timer i.succ).ticked)
      else (d.overflowIrq i.castSucc).setTimer i.succ (d.timer i.succ).ticked
    else d.overflowIrq i.castSucc) i.castSucc := by
  obtain ⟨above, h, h'⟩ := timersFrom_castSucc i
  rw [h, h', Dev.overflow, Dev.overflowIrq_timer]
  split
  · split
    next hmax => rw [Timer.ticked_of_max hmax]
    next hne => rw [Timer.ticked_of_ne hne]
  · rfl

/-- An overflow goes up through the timers that overflow in turn, and ends at the first that does not. -/
theorem Dev.overflow_overflowed (i : Fin 4) (d : Dev) : Dev.Overflowed i d (Dev.overflow (timersFrom i) d) := by
  induction i using Fin.reverseInduction generalizing d with
  | last =>
    have none_above (j : Fin 4) (h : Fin.last 3 < j) : False := absurd h (Fin.not_lt.mpr (Fin.le_last j))
    exact ⟨fun j _ => d.overflowIrq_timer _ j, fun j hj => (none_above j hj).elim, fun j hj => (none_above j hj).elim,
      fun h => Dev.overflowIrq_iflag h, fun j hj => (none_above j hj).elim⟩
  | cast i ih =>
    have hticked : ((d.overflowIrq i.castSucc).setTimer i.succ (d.timer i.succ).ticked).timer i.succ =
        (d.timer i.succ).ticked := Dev.setTimer_timer_same _ _ _
    have hothers (j : Fin 4) (hj : i.succ ≠ j) :
        ((d.overflowIrq i.castSucc).setTimer i.succ (d.timer i.succ).ticked).timer j = d.timer j := by
      rw [Dev.setTimer_timer_ne _ _ hj, Dev.overflowIrq_timer]
    rw [Dev.overflow_castSucc]
    split
    case isFalse hc => exact .of_uncascaded hc (d.overflowIrq_timer _) Dev.overflowIrq_iflag
    case isTrue hc =>
      split
      case isFalse hne => exact .of_counting hc hne hticked hothers Dev.overflowIrq_iflag
      case isTrue hmax =>
        have h := ih ((d.overflowIrq i.castSucc).setTimer i.succ (d.timer i.succ).ticked)
        refine .of_wrapping ⟨hc, hmax⟩ hticked hothers ⟨h.below, h.reached, h.unreached, h.irq, h.irqs⟩ fun he => ?_
        exact (Dev.Requests.overflow _ _).iflag _ (Dev.overflowIrq_iflag he)

/-- Settles O58: the timer is put down again with its next overflow posted; `Dev.overflow_overflowed` is the chain. -/
theorem timersOverflow : Obligations.TimersOverflow := by
  unfold Obligations.TimersOverflow
  intro d i ts u
  obtain ⟨v, hu, hsame, hne, hevent⟩ : ∃ v : Dev, u = Dev.overflow (timersFrom i) v ∧
      v.timer i = { d.timer i with base := (d.timer i).reload, lastTs := ts, handle := some d.nextHandle } ∧
      (∀ j, i ≠ j → v.timer j = d.timer j) ∧
      ⟨ts + (0x10000 - (d.timer i).reload.toNat) * timerPeriod (d.timer i).control, d.nextHandle, .timerOverflow i⟩ ∈
        v.events :=
    ⟨_, rfl, Dev.scheduleOverflow_timer_same _, fun _ => Dev.scheduleOverflow_timer_ne _,
      Dev.scheduleOverflow_events _ ▸ List.mem_append_right _ (List.mem_singleton_self _)⟩
  have h := Dev.overflow_overflowed i v
  have hq := Dev.Requests.overflow (timersFrom i) v
  rw [← hu] at h hq
  have hi : u.timer i = _ := (h.below i le_rfl).trans hsame
  rw [hi]
  refine ⟨rfl, rfl, rfl, rfl, ⟨_, rfl, hq.events _ hevent (by simp)⟩, fun he => h.irq (by rw [hsame]; exact he),
    fun j hj => (h.below j hj.le).trans (hne j hj.ne'), fun j hj => ?_⟩
  intro wraps reached
  have hreached : v.Reached i j ↔ reached := Dev.reached_congr (fun k hk => hne k hk.ne) hj
  have hj' := hne j hj.ne
  refine ⟨fun hr hb => ?_, fun hr hb => ⟨?_, fun he => ?_⟩, fun hr => ?_⟩
  · rw [h.reached j hj (hreached.mpr hr), hj', Timer.ticked_of_ne hb]
  · rw [h.reached j hj (hreached.mpr hr), hj', Timer.ticked_of_max hb]
  · exact h.irqs j hj (hreached.mpr hr) (hj' ▸ hb) (hj' ▸ he)
  · exact (h.unreached j hj (mt hreached.mp hr)).trans hj'

end Sys2Proof.Machine
